-- ==== Sys2Proof/Word.lean ====
section
/-! DEFINITION. The word types of the Zalfin Z2 (spec/03 R50, spec/04 R69, spec/12 R174). -/

namespace Sys2Proof

/-- A scalar register, and a bundle (R50, R69). -/
abbrev Word := BitVec 64

/-- One byte of memory (R5). -/
abbrev Byte := BitVec 8

/-- One 32-bit word of a bundle (R50). -/
abbrev W32 := BitVec 32

/-- A handle register (R174). -/
abbrev Handle := BitVec 256

/-- A scalar register number, field D, A, B, C, S, X, XA or XB of R57. -/
abbrev XReg := BitVec 6

/-- A handle register number, field H, HD, HA or HB of R57. -/
abbrev HReg := BitVec 4

/-- A lookahead field of R57. -/
abbrev La := BitVec 4

end Sys2Proof
end

