-- ==== Sys2Proof/Machine/Bits.lean ====
section
/-! DEFINITION. Bit-field, sign-extension and byte-order helpers (spec/00 R5, R9). -/

namespace Sys2Proof.Machine

open Sys2Proof

/-- Sign extension to 64 bits (R9). -/
def sext {n : Nat} (v : BitVec n) : Word := v.signExtend 64

/-- Zero extension to 64 bits (R9). -/
def zext {n : Nat} (v : BitVec n) : Word := v.setWidth 64

/-- The 60 address bits of a value (R51, R136). -/
def addr60 (v : Word) : Nat := v.toNat % 2 ^ 60

/-- Bits lo + len − 1 : lo of a natural number. -/
def nbits (v lo len : Nat) : Nat := (v >>> lo) % 2 ^ len

/-- A word from a natural number. -/
def w64 (n : Nat) : Word := BitVec.ofNat 64 n

/-- The first `n` bytes of a number, least significant first (R5). -/
def leBytes : Nat → Nat → List Byte
  | 0, _ => []
  | n + 1, v => BitVec.ofNat 8 v :: leBytes n (v >>> 8)

/-- The number that little-endian bytes hold (R5). -/
def leNat : List Byte → Nat
  | [] => 0
  | b :: bs => b.toNat + 256 * leNat bs

/-- Rounding up to a multiple. -/
def roundUp (v m : Nat) : Nat := (v + m - 1) / m * m

/-- An integer reduced modulo 2^n. -/
def modPow (v : Int) (n : Nat) : Nat := (v % (2 ^ n : Int)).toNat

/-- A 32-bit two's complement value. -/
def s32 (v : Nat) : Int := if v % 2 ^ 32 < 2 ^ 31 then (v % 2 ^ 32 : Nat) else (v % 2 ^ 32 : Nat) - (2 ^ 32 : Int)

/-- A two's complement value of `n` bits. -/
def signedOf (n v : Nat) : Int :=
  let m := v % 2 ^ n
  if 2 * m < 2 ^ n then (m : Int) else (m : Int) - (2 ^ n : Int)

/-- The numbers lo, lo + 1, … of a list of given length. -/
def upTo (lo n : Nat) : List Nat := (List.range n).map (lo + ·)

/-- The first binding of a key. -/
def find? {α : Type} (k : Nat) : List (Nat × α) → Option α
  | [] => none
  | (i, v) :: r => if i = k then some v else find? k r

/-- Binds a key, in place of its earlier binding. -/
def bind {α : Type} (k : Nat) (v : α) : List (Nat × α) → List (Nat × α)
  | [] => [(k, v)]
  | (i, w) :: r => if i = k then (k, v) :: r else (i, w) :: bind k v r

/-- Removes the binding of a key. -/
def unbind {α : Type} (k : Nat) (l : List (Nat × α)) : List (Nat × α) := l.filter (fun p => p.1 ≠ k)

/-- Places where bit i is 1, lowest first. -/
def setBits {n : Nat} (v : BitVec n) : List Nat := (List.range n).filter (fun i => v.getLsbD i)

end Sys2Proof.Machine
end

