-- ==== Sys2Proof/Syntax.lean ====
section
/-! DEFINITION. The instructions and events of the Zalfin Z2: one constructor of `Instr` per row of
spec/opcode_table.json. The instruction rows are the words of spec/03 R59 to R64; the event rows are
the part's other steps (spec/95), each with the operands that come from outside the agent that takes it. -/

namespace Sys2Proof

/-- The type codes TY of R57, 0x0 to 0xB in this order. -/
inductive Ty where
  | b8 | b16 | b32 | b64 | i8 | i16 | i32 | i64 | f64 | f32 | f16 | bf16
deriving DecidableEq, Repr

/-- The float type codes FT of R57, 0b00 to 0b11 in this order. -/
inductive FTy where
  | d | s | h | bf
deriving DecidableEq, Repr

/-- The agent scopes AS of R57, 0 to 5 in this order. -/
inductive Scope where
  | strand | core | cluster | die | package | system
deriving DecidableEq, Repr

/-- The storage scopes SS of R57: 0b01, 0b10, 0b11. -/
inductive Storage where
  | scratch | globalSp | all
deriving DecidableEq, Repr

/-- The fence kinds KIND of R59, 0b00 to 0b11 in this order. -/
inductive FenceKind where
  | acq | rel | acqrel | sc
deriving DecidableEq, Repr

/-- The two spaces a strand names (R136, R137). -/
inductive Space where
  | glob | scratch
deriving DecidableEq, Repr

/-- The rounding field RM of R127: the five modes, and 0b111 for the entry's own mode. -/
inductive Rm where
  | rne | rtz | sr | ns | nss | entry
deriving DecidableEq, Repr

/-- The predicates of TCMP (R218). -/
inductive TPred where
  | eq | ne | lt | le | un
deriving DecidableEq, Repr

/-- The operations of TRED (R218). -/
inductive TRedOp where
  | sum | max | min
deriving DecidableEq, Repr

/-- The operation and options shared by the eleven AMO rows (R60, R166). -/
structure AmoForm where
  d     : XReg
  a     : XReg
  b     : XReg
  la    : La
  wide  : Bool
  sc    : Bool
  space : Space
  scope : Scope
deriving DecidableEq, Repr

/-- The fields of a tile ALU command that rounds or compares (R218). -/
structure TileForm where
  hd : HReg
  ha : HReg
  hb : HReg
  la : La
  xa : XReg
deriving DecidableEq, Repr

/-- A section of a code object (R11). -/
structure Section where
  name     : String
  progbits : Bool
  alloc    : Bool
  exec     : Bool
  write    : Bool
  align    : Nat
  data     : List Byte
deriving DecidableEq, Repr

/-- A relocation of a code object (R13): the section and offset it patches, its type, symbol and addend. -/
structure Reloc where
  sec    : Nat
  off    : Nat
  type   : Nat
  sym    : Nat
  addend : Int
deriving DecidableEq, Repr

/-- A symbol of a code object (R12); index 0 of the symbol list is the null symbol. -/
structure Sym where
  name     : String
  sec      : Nat
  value    : Nat
  isObject : Bool
  size     : Nat
  isGlobal : Bool
deriving DecidableEq, Repr

/-- A code object as the loader reads it (R10 to R13). -/
structure CodeObject where
  eiClass  : Nat
  eiData   : Nat
  machine  : Nat
  etype    : Nat
  flags    : Nat
  sections : List Section
  relocs   : List Reloc
  syms     : List Sym
deriving DecidableEq, Repr

/-- Where the loader puts an object (R14 step 2): virtual addresses of .text, .const and the two copies of
.vintage, the physical address of each, and free frames for page tables. The manual leaves these to the loader. -/
structure Placement where
  text    : Nat
  const   : Nat
  vbase   : Nat
  vdelta  : Nat
  pText   : Nat
  pConst  : Nat
  pVbase  : Nat
  pVdelta : Nat
  tables  : List Nat
deriving DecidableEq, Repr

/-- The answer of a system-space target to an access (R302). -/
inductive SysResp where
  | ok (data : BitVec 512)
  | error
deriving DecidableEq, Repr

/-- What a peer or the host asks of a context's memory (R298, R305). -/
inductive ExtOp where
  | read (size : Nat)
  | write (bytes : List Byte)
  | fetchAdd (v : Word)
  | swap (v : Word)
  | cas (cmp new : Word)
  | amo (aop size : Nat) (b c : Word)
  /-- Bits `off` to `off + len − 1` of `size` bytes become `v`, the others stay: one indivisible access (R163, R185). -/
  | bits (size off len v : Nat)
deriving DecidableEq, Repr

/-- Where an uncorrectable error lies (R292). -/
inductive ErrPlace where
  | data (pa : Nat)
  | clusterState (c : Nat)
  | writeback (pa : Nat)
deriving DecidableEq, Repr

/-- A unit whose corrected errors are counted (R293). -/
inductive ErrUnit where
  | frame (n : Nat)
  | l2bank (n : Nat)
  | cluster (n : Nat)
deriving DecidableEq, Repr

/-- What the power arbiter measured and set in one millisecond (R311): power in W, temperature of each die in
degrees, and the stretch (in sixteenths), permit count and byte budgets it chose. The manual leaves the choice open. -/
structure PowerSet where
  power   : Nat
  temps   : List Nat
  stretch : List Nat
  permits : List Nat
  budgets : List Nat
deriving DecidableEq, Repr

/-- A firmware image (R307): its bytes, its signature and its security version number. -/
structure Firmware where
  image : List Byte
  sig   : List Byte
  svn   : Nat
deriving DecidableEq, Repr

/-- A flit in the replay buffer of a port, by its sequence number (R303). -/
structure Flit where
  port : Nat
  seq  : Nat
deriving DecidableEq, Repr

/-- Where an access from a peer comes from: the port it arrives by, and the package that sent it (R303, R305). -/
structure PeerSource where
  port : Nat
  pkg  : Nat
deriving DecidableEq, Repr

/-- One constructor per row of spec/opcode_table.json. Rows that one strand takes act on the strand whose turn it
is (`State.cur`); other events name their unit. -/
inductive Instr where
  -- control flow (spec/07)
  | nop
  | jmp (off : BitVec 20)
  | call (off : BitVec 20)
  | jr (a : XReg)
  | callr (a : XReg)
  | bEq (a b : XReg) (off : BitVec 20) (site : Option (BitVec 16))
  | bNe (a b : XReg) (off : BitVec 20) (site : Option (BitVec 16))
  | bLt (a b : XReg) (off : BitVec 20) (site : Option (BitVec 16))
  | bGe (a b : XReg) (off : BitVec 20) (site : Option (BitVec 16))
  | bLtb (a b : XReg) (off : BitVec 20) (site : Option (BitVec 16))
  | bGeb (a b : XReg) (off : BitVec 20) (site : Option (BitVec 16))
  | bz (a : XReg) (off : BitVec 20) (site : Option (BitVec 16))
  | bnz (a : XReg) (off : BitVec 20) (site : Option (BitVec 16))
  | loop (a b : XReg) (off : BitVec 20) (slot : BitVec 16)
  | vpick (d : XReg) (la : La) (slot : BitVec 16)
  | vread (d : XReg) (la : La) (w : BitVec 2) (slot : BitVec 16)
  -- loads, stores, atomics, fences (spec/11)
  | ldGShort (d a : XReg) (la : La) (ty : Ty) (off : BitVec 5)
  | ldGLong (d a : XReg) (la : La) (ty : Ty) (off : BitVec 20) (site : Option (BitVec 16))
  | ldSShort (d a : XReg) (la : La) (ty : Ty) (off : BitVec 5)
  | ldSLong (d a : XReg) (la : La) (ty : Ty) (off : BitVec 20) (site : Option (BitVec 16))
  | stGShort (sr a : XReg) (ty : Ty) (off : BitVec 5)
  | stGLong (sr a : XReg) (ty : Ty) (off : BitVec 20)
  | stSShort (sr a : XReg) (ty : Ty) (off : BitVec 5)
  | stSLong (sr a : XReg) (ty : Ty) (off : BitVec 20)
  | ldEShort (d a : XReg) (la : La) (ty : Ty) (off : BitVec 5)
  | ldELong (d a : XReg) (la : La) (ty : Ty) (off : BitVec 20) (site : Option (BitVec 16))
  | stEShort (sr a : XReg) (ty : Ty) (off : BitVec 5)
  | stELong (sr a : XReg) (ty : Ty) (off : BitVec 20)
  | pf (a : XReg) (l2 : Bool) (off : BitVec 5)
  | amoAdd (f : AmoForm)
  | amoAnd (f : AmoForm)
  | amoOr (f : AmoForm)
  | amoXor (f : AmoForm)
  | amoMin (f : AmoForm)
  | amoMax (f : AmoForm)
  | amoMinb (f : AmoForm)
  | amoMaxb (f : AmoForm)
  | amoSwp (f : AmoForm)
  | amoCas (f : AmoForm) (c : XReg)
  | amoFadd (f : AmoForm)
  | fence (kind : FenceKind) (scope : Scope) (ss : Storage)
  -- handles (spec/12)
  | hset (h : HReg) (a : XReg) (sp : Bool)
  | hld (h : HReg) (a : XReg) (la : La) (space : Space) (off : BitVec 7)
  | hst (h : HReg) (a : XReg) (space : Space) (off : BitVec 7)
  | hget (h : HReg) (d : XReg) (f : BitVec 8)
  | hput (h : HReg) (a : XReg) (f : BitVec 8)
  | hstep (h : HReg) (a : XReg)
  | twait (h : HReg)
  -- lees, events (spec/16, spec/18)
  | leesClr
  | leesSv (a : XReg)
  | leesLd (a : XReg)
  | sevt (a b : XReg) (scope : Scope)
  | wevt (a b : XReg) (scope : Scope)
  -- system (spec/03 R62)
  | trap (code : BitVec 14)
  | eret
  | mfs (d : XReg) (sr : BitVec 10)
  | mts (sr : BitVec 10) (a : XReg)
  | repart (a : XReg)
  | launch (a : XReg)
  | halt
  | uiret
  | mbox (d : XReg) (la : La)
  | rnd (d : XReg) (la : La)
  | pub (a : XReg)
  | pubLees
  | gbar
  | fin
  -- the long form that gives an A-word back-referenced operands (R64)
  | backRefWrap (ka kb kc : BitVec 4) (w : Instr)
  -- engine commands (spec/13, spec/15, spec/16, spec/12)
  | mma (hd ha hb : HReg) (la : La) (xa : XReg)
  | mmz (hd ha hb : HReg) (la : La) (xa : XReg)
  | rep (la : La) (xa : XReg)
  | repw (la : La) (xa xb : XReg)
  | tadd (f : TileForm) (rm : Rm)
  | tsub (f : TileForm) (rm : Rm)
  | tmul (f : TileForm) (rm : Rm)
  | tfma (f : TileForm) (rm : Rm)
  | tmax (f : TileForm) (rm : Rm)
  | tmin (f : TileForm) (rm : Rm)
  | texp (hd ha : HReg) (la : La) (xa : XReg) (rm : Rm)
  | tlog (hd ha : HReg) (la : La) (xa : XReg) (rm : Rm)
  | trcp (hd ha : HReg) (la : La) (xa : XReg) (rm : Rm)
  | trsq (hd ha : HReg) (la : La) (xa : XReg) (rm : Rm)
  | tsig (hd ha : HReg) (la : La) (xa : XReg) (rm : Rm)
  | tcmp (f : TileForm) (p : TPred)
  | tmsk (f : TileForm)
  | tfill (hd : HReg) (la : La) (xa xb : XReg)
  | tcpy (hd ha : HReg) (la : La) (xa : XReg)
  | ttrn (hd ha : HReg) (la : La) (xa : XReg)
  | tred (hd ha : HReg) (la : La) (xa : XReg) (rm : Rm) (op : TRedOp)
  | tselk (f : TileForm) (xb : XReg) (isMin : Bool)
  | tcvt (hd ha : HReg) (la : La) (xa : XReg) (rm : Rm)
  | qst (hd ha : HReg) (la : La) (xa : XReg) (rm : Rm) (cont : Bool)
  | cpyIn (hd ha : HReg) (la : La) (xb : XReg)
  | cpyOut (hd ha : HReg) (la : La) (xb : XReg)
  | cpyXc (hd ha : HReg) (la : La) (xa xb : XReg)
  | gath (hd ha hb : HReg) (la : La) (xb : XReg)
  | scat (hd ha hb : HReg) (la : La) (xb : XReg)
  -- A-words: integer and address (spec/05)
  | add (d a b : XReg)
  | sub (d a b : XReg)
  | mul (d a b : XReg)
  | mulh (d a b : XReg)
  | mulhb (d a b : XReg)
  | div (d a b : XReg)
  | divb (d a b : XReg)
  | rem (d a b : XReg)
  | remb (d a b : XReg)
  | and (d a b : XReg)
  | or (d a b : XReg)
  | xor (d a b : XReg)
  | shl (d a b : XReg)
  | shr (d a b : XReg)
  | sra (d a b : XReg)
  | rol (d a b : XReg)
  | min (d a b : XReg)
  | max (d a b : XReg)
  | minb (d a b : XReg)
  | maxb (d a b : XReg)
  | slt (d a b : XReg)
  | sltb (d a b : XReg)
  | seq (d a b : XReg)
  | sne (d a b : XReg)
  | clz (d a : XReg)
  | ctz (d a : XReg)
  | popc (d a : XReg)
  | adda (d a b : XReg)
  | ptag (d a b : XReg)
  | pfs (d a : XReg)
  | pclr (d a : XReg)
  | sel (d a b c : XReg)
  | addi (d a : XReg) (imm : BitVec 12)
  | andi (d a : XReg) (imm : BitVec 12)
  | ori (d a : XReg) (imm : BitVec 12)
  | xori (d a : XReg) (imm : BitVec 12)
  | slti (d a : XReg) (imm : BitVec 12)
  | shli (d a : XReg) (n : BitVec 6)
  | shri (d a : XReg) (n : BitVec 6)
  | srai (d a : XReg) (n : BitVec 6)
  | bext (d a : XReg) (wm1 lsb : BitVec 6)
  | bins (d a : XReg) (wm1 lsb : BitVec 6)
  | fld (d a : XReg) (k : BitVec 12)
  | addai (d a : XReg) (imm : BitVec 12)
  | lih (d : XReg) (imm : BitVec 20)
  | pch (d : XReg) (imm : BitVec 20)
  -- A-words: scalar floating point (spec/06)
  | fadd (t : FTy) (d a b : XReg)
  | fsub (t : FTy) (d a b : XReg)
  | fmul (t : FTy) (d a b : XReg)
  | fmin (t : FTy) (d a b : XReg)
  | fmax (t : FTy) (d a b : XReg)
  | fabs (t : FTy) (d a : XReg)
  | fneg (t : FTy) (d a : XReg)
  | flt (t : FTy) (d a b : XReg)
  | fle (t : FTy) (d a b : XReg)
  | feq (t : FTy) (d a b : XReg)
  | fclass (t : FTy) (d a : XReg)
  | ffma (t : FTy) (d a b c : XReg)
  | fdiv (t : FTy) (d a b : XReg) (la : La)
  | fsqrt (t : FTy) (d a : XReg) (la : La)
  | fcvt (dt st : Ty) (d a : XReg)
  -- events: loader, queues, sequencer (spec/01, spec/02)
  | loadCodeObject (ctx : Nat) (obj : CodeObject) (pl : Placement)
  | unloadCodeObject (ctx obj : Nat)
  | kernelLookup (ctx obj : Nat) (name : String)
  | lqbaseWrite (ctx : Nat) (v : Word)
  | lqcfgWrite (ctx : Nat) (v : Word)
  | queueEnable (ctx : Nat)
  | queueStop (ctx : Nat)
  | lqtailDoorbell (ctx : Nat) (v : Word)
  | launchRecordHead (ctx : Nat) (dev : Bool)
  | eventWaitReevaluate (ctx : Nat) (dev : Bool)
  | eventPollTimer (ctx : Nat) (dev : Bool)
  | launchAppend
  | participationEvaluate (launch : Nat)
  | l1SplitComplete (cluster : Nat)
  | chunkAssign (launch : Nat)
  | chunkRequest (launch cluster : Nat)
  | groupAllocate (launch cluster off : Nat)
  | strandReserve (launch cluster : Nat) (ids : List Nat)
  | itemDispatch (launch cluster core slot : Nat)
  -- events: results, memory (spec/04, spec/07, spec/10, spec/11)
  | resultLand (k : Nat) (miss : Bool)
  | vintageUpdatePerform (k : Nat)
  | fenceComplete
  | scTicketGrant
  | accessPerformedAtHome (k : Nat)
  | pageWalkComplete (cluster ctx va : Nat)
  | tlbinvWrite (ctx : Nat) (v : Word)
  | tlbInvalidationComplete (ctx : Nat)
  -- events: engines (spec/12, spec/13, spec/15)
  | matrixCommandStart (core : Nat)
  | matrixIterationComplete (core : Nat)
  | tileCommandStart (cluster : Nat)
  | tileUnitComplete (cluster : Nat)
  | decanterMessage (cid : Nat) (ext : List Byte)
  | ownershipGrant (line : Nat)
  | copyComplete (cid : Nat)
  | permitAcquire (cluster : Nat)
  | permitReturn (cluster : Nat)
  -- events: vine, barriers, events (spec/18)
  | publicationArrive (k : Nat) (lees : Bool)
  | gbarComplete (launch cluster g0 : Nat)
  | gbarRelease
  | vineBarrierDeadlock (launch cluster g0 : Nat)
  | wevtReread
  | wevtPollTimer
  -- events: traps, retirement, cellar (spec/04, spec/20)
  | repartSwitch
  | deferredFaultDelivery
  | completionInterrupt
  | itemRetire
  | launchRetire (launch : Nat)
  | vintageMerge (launch : Nat)
  | preemptDecision (cluster launch : Nat)
  | evictStrand
  | restoreStrand (ctx n core slot : Nat)
  | yieldLaunch (launch cluster : Nat)
  | resumeLaunch (launch cluster : Nat)
  | correctedError (u : ErrUnit)
  | uncorrectableError (p : ErrPlace) (u : ErrUnit)
  -- events: host, security, Forsil, power (spec/23)
  | hostBar2Read (v off size : Nat)
  | hostBar2Write (v off : Nat) (bytes : List Byte)
  | hostAtomicop (v off : Nat) (op : ExtOp)
  | registerWrite (v : Nat) (viaPf0 : Bool) (off : Nat) (val : Word)
  | cseedWrite (v : Nat) (val : Word)
  | pkgidWrite (val : Word)
  | pwrlimWrite (val : Word)
  | retireRead
  | create (v : Nat)
  | destroy (v : Nat)
  | keySweepComplete (v : Nat)
  | fltrainWrite (val : Word)
  | forsilTrainingComplete (port : Nat) (ok : Bool)
  | flitReceive (port : Nat) (payload : List Byte)
  | flitReplay (flit : Flit)
  | forsilPortDown (port : Nat)
  | forsilIncomingAccess (src : PeerSource) (rctx ctx va : Nat) (op : ExtOp)
  | systemAccessComplete (resp : SysResp)
  | completionTimeout
  | getMeasurements (idx : Nat)
  | setImportKey (v : Nat) (key : BitVec 256)
  | tdispError (v : Nat)
  | powerArbiterTick (p : PowerSet)
  | thermalTrip
  | packageReset
  | illegalBundle (slotA : Bool) (sub : BitVec 8)
  | bundleFetch
  | firmwareImageStage (fw : Firmware)
  | packagePowerOff
deriving DecidableEq, Repr

end Sys2Proof
end

