-- ==== Sys2Proof/Machine/Numbers.lean ====
section
/-! DEFINITION. Exact values, the number formats, scales, rounding and the Cuvée generator (spec/09; spec/06 R92), and the
transcendental functions of spec/15 R223 by enclosing rational intervals. -/

namespace Sys2Proof.Machine

open Sys2Proof

/-! ## Exact values -/

/-- The value of a code: a NaN (signalling or not), an infinity, or the exact real ±n/d with d > 0. -/
inductive Val where
  | nan (sig : Bool)
  | inf (neg : Bool)
  | num (neg : Bool) (n d : Nat)
deriving DecidableEq, Repr

/-- A nonnegative integer times 2^k. -/
def dyadic (neg : Bool) (n : Nat) (k : Int) : Val :=
  if 0 ≤ k then .num neg (n * 2 ^ k.toNat) 1 else .num neg n (2 ^ (-k).toNat)

/-- An integer. -/
def ofInt (z : Int) : Val := .num (decide (z < 0)) z.natAbs 1

/-- The value is a NaN. -/
def Val.isNan : Val → Bool
  | .nan _ => true
  | _ => false
/-- The value is a signalling NaN (R92). -/
def Val.isSnan : Val → Bool
  | .nan sig => sig
  | _ => false
/-- The value is infinite. -/
def Val.isInf : Val → Bool
  | .inf _ => true
  | _ => false
/-- The value is a zero of either sign. -/
def Val.isZero : Val → Bool
  | .num _ n _ => n = 0
  | _ => false
/-- The sign bit of a number or infinity. -/
def Val.sign : Val → Bool
  | .nan _ => false
  | .inf s => s
  | .num s _ _ => s
/-- The value with its sign inverted. -/
def Val.neg : Val → Val
  | .nan s => .nan s
  | .inf s => .inf (!s)
  | .num s n d => .num (!s) n d

/-- The signed numerator. -/
def sgn (s : Bool) (n : Nat) : Int := if s then -(n : Int) else n

/-- The sum of two numbers: an exact zero is +0 unless both addends are −0 (R95). -/
def addNum (s1 : Bool) (n1 d1 : Nat) (s2 : Bool) (n2 d2 : Nat) : Val :=
  let z := sgn s1 n1 * d2 + sgn s2 n2 * d1
  if z = 0 then .num (s1 && s2) 0 1 else .num (decide (z < 0)) z.natAbs (d1 * d2)

/-- Exception bits in the order of %fpc<4:0> (R93). -/
abbrev Exc := BitVec 5
/-- Invalid operation. -/
def xNV : Exc := 16
/-- Division by zero. -/
def xDZ : Exc := 8
/-- Overflow, or saturation (R163, R222). -/
def xOF : Exc := 4
/-- Underflow. -/
def xUF : Exc := 2
/-- Inexact. -/
def xNX : Exc := 1

/-- Addition: ∞ − ∞ is invalid (R95, R223). -/
def Val.add : Val → Val → Val × Exc
  | .nan _, _ | _, .nan _ => (.nan false, 0)
  | .inf a, .inf b => if a = b then (.inf a, 0) else (.nan false, xNV)
  | .inf a, _ => (.inf a, 0)
  | _, .inf b => (.inf b, 0)
  | .num s1 n1 d1, .num s2 n2 d2 => (addNum s1 n1 d1 s2 n2 d2, 0)

/-- Multiplication: 0 × ∞ is invalid. -/
def Val.mul : Val → Val → Val × Exc
  | .nan _, _ | _, .nan _ => (.nan false, 0)
  | .inf a, .inf b => (.inf (a != b), 0)
  | .inf a, .num s n _ => if n = 0 then (.nan false, xNV) else (.inf (a != s), 0)
  | .num s n _, .inf b => if n = 0 then (.nan false, xNV) else (.inf (s != b), 0)
  | .num s1 n1 d1, .num s2 n2 d2 => (.num (s1 != s2) (n1 * n2) (d1 * d2), 0)

/-- Division: 0/0 and ∞/∞ are invalid, a finite number by zero divides by zero (R98). -/
def Val.div : Val → Val → Val × Exc
  | .nan _, _ | _, .nan _ => (.nan false, 0)
  | .inf _, .inf _ => (.nan false, xNV)
  | .inf a, .num s _ _ => (.inf (a != s), 0)
  | .num s _ _, .inf b => (.num (s != b) 0 1, 0)
  | .num s1 n1 d1, .num s2 n2 d2 =>
    if n2 = 0 then (if n1 = 0 then (.nan false, xNV) else (.inf (s1 != s2), xDZ))
    else (.num (s1 != s2) (n1 * d2) (d1 * n2), 0)

/-- Fused multiply-add: 0 × ∞ is invalid whatever the addend (R97, R223). -/
def Val.fma (a b c : Val) : Val × Exc :=
  let (p, e) := Val.mul a b
  if e != 0 then (.nan false, e) else Val.add p c

/-- −1, 0 or 1 as a < b, a = b, a > b, for values that are no NaN; −0 equals +0. -/
def Val.cmp : Val → Val → Int
  | .inf a, .inf b => if a = b then 0 else if a then -1 else 1
  | .inf a, _ => if a then -1 else 1
  | _, .inf b => if b then 1 else -1
  | .num s1 n1 d1, .num s2 n2 d2 =>
    let z := sgn s1 n1 * d2 - sgn s2 n2 * d1
    if z < 0 then -1 else if z = 0 then 0 else 1
  | _, _ => 0

/-- a < b with −0 below +0, for values that are no NaN (R95). -/
def Val.below (a b : Val) : Bool :=
  let c := Val.cmp a b
  c < 0 || (c = 0 && a.sign && !b.sign)

/-- maximumNumber or minimumNumber (R95, R223). -/
def Val.extremum (max : Bool) (a b : Val) : Val :=
  match a.isNan, b.isNan with
  | true, true => .nan false
  | true, false => b
  | false, true => a
  | false, false => if Val.below a b = max then b else a

/-- Floor(Log2(n/d)) for n, d > 0. -/
def floorLog2 (n d : Nat) : Int :=
  let l : Int := (Nat.log2 n : Int) - Nat.log2 d
  let ok := if 0 ≤ l then decide (d * 2 ^ l.toNat ≤ n) else decide (d ≤ n * 2 ^ (-l).toNat)
  if ok then l else l - 1

/-! ## Formats (R119, R120, R121) -/

/-- Which codes of a float format are special (R120). -/
inductive Spec where
  | ieee | e4m3 | finite
deriving DecidableEq, Repr

/-- A float format: exponent and fraction widths, bias, special codes. -/
structure FFmt where
  e    : Nat
  m    : Nat
  bias : Nat
  spec : Spec
deriving DecidableEq, Repr

end Sys2Proof.Machine

namespace Sys2Proof

open Sys2Proof.Machine

/-- FP64, FP32, FP16 and BF16 (R91, R92). -/
def FTy.fmt : FTy → FFmt
  | .d => ⟨11, 52, 1023, .ieee⟩
  | .s => ⟨8, 23, 127, .ieee⟩
  | .h => ⟨5, 10, 15, .ieee⟩
  | .bf => ⟨8, 7, 127, .ieee⟩

end Sys2Proof

namespace Sys2Proof.Machine

open Sys2Proof

/-- The format of FP32. -/
def fp32 : FFmt := ⟨8, 23, 127, .ieee⟩

/-- An element format: a float, an integer of some bits, or untyped bytes (R26, R119, R121). -/
inductive EFmt where
  | bytes
  | float (f : FFmt)
  | int (bits : Nat)
deriving DecidableEq, Repr

/-- EF codes of R26. -/
def efmt (ef : Nat) : EFmt :=
  match ef with
  | 1 => .float ⟨2, 1, 1, .finite⟩
  | 2 => .float ⟨2, 3, 1, .finite⟩
  | 3 => .float ⟨3, 2, 3, .finite⟩
  | 4 => .float ⟨4, 3, 7, .e4m3⟩
  | 5 => .float ⟨5, 2, 15, .ieee⟩
  | 6 => .int 4
  | 7 => .int 8
  | 8 => .float ⟨5, 10, 15, .ieee⟩
  | 9 => .float ⟨8, 7, 127, .ieee⟩
  | 10 => .float fp32
  | 11 => .int 32
  | _ => .bytes

/-- emax of R119. -/
def emaxOf (ef : Nat) : Int :=
  match ef with
  | 1 | 2 | 6 => 2
  | 3 => 4
  | 4 => 8
  | 5 | 8 => 15
  | 7 => 6
  | _ => 127

/-- Bits per element in a space (R26): EF 0x0 counts as 8 (R161, R175). -/
def efBits (ef : Nat) (scratch : Bool) : Nat :=
  match ef with
  | 1 | 6 => 4
  | 2 | 3 => if scratch then 8 else 6
  | 8 | 9 => 16
  | 10 | 11 => 32
  | _ => 8

/-- Bits of the code itself (R119). -/
def efCode (ef : Nat) : Nat :=
  match ef with
  | 1 | 6 => 4
  | 2 | 3 => 6
  | 8 | 9 => 16
  | 10 | 11 => 32
  | _ => 8

/-- A narrow format of R129: FP4, FP6 or FP8. -/
def efNarrow (ef : Nat) : Bool := 1 ≤ ef && ef ≤ 5

/-- The value of a float code (R119, R120). -/
def FFmt.decode (f : FFmt) (c : Nat) : Val :=
  let s := nbits c (f.e + f.m) 1 = 1
  let ex := nbits c f.m f.e
  let fr := nbits c 0 f.m
  let top := 2 ^ f.e - 1
  if f.spec = .ieee && ex = top then (if fr = 0 then .inf s else .nan (nbits fr (f.m - 1) 1 = 0))
  else if f.spec = .e4m3 && ex = top && fr = 2 ^ f.m - 1 then .nan false
  else if ex = 0 then dyadic s fr (1 - (f.bias : Int) - f.m)
  else dyadic s (2 ^ f.m + fr) ((ex : Int) - f.bias - f.m)

/-- The value of an element code without its scale (R119 to R121). -/
def valueOf (ef c : Nat) : Val :=
  match efmt ef with
  | .float f => f.decode (c % 2 ^ efCode ef)
  | .int n => ofInt (signedOf n c)
  | .bytes => ofInt ((c % 256 : Nat) : Int)

/-- The canonical NaN of a float format, none where it has no NaN code (R120). -/
def FFmt.canonNan (f : FFmt) : Option Nat :=
  match f.spec with
  | .ieee => some ((2 ^ f.e - 1) * 2 ^ f.m + 2 ^ (f.m - 1))
  | .e4m3 => some (2 ^ (f.e + f.m) - 1)
  | .finite => none

/-- The code of the largest finite value (R120). -/
def FFmt.maxCode (f : FFmt) : Nat :=
  match f.spec with
  | .ieee => (2 ^ f.e - 1) * 2 ^ f.m - 1
  | .e4m3 => 2 ^ (f.e + f.m) - 2
  | .finite => 2 ^ (f.e + f.m) - 1

/-- The sign bit of a code. -/
def FFmt.signBit (f : FFmt) (s : Bool) : Nat := if s then 2 ^ (f.e + f.m) else 0

/-! ## Rounding (R127 to R130) -/

/-- The three ways a magnitude is rounded; `sr` carries its 24 random bits (R130). -/
inductive RMode where
  | rne
  | rtz
  | sr (r : Nat)
deriving DecidableEq, Repr

/-- n/d in units of 2^k, rounded to an integer, and whether that was inexact (R128, R130). -/
def roundMag (m : RMode) (n d : Nat) (k : Int) : Nat × Bool :=
  let (n, d) := if 0 ≤ k then (n, d * 2 ^ k.toNat) else (n * 2 ^ (-k).toNat, d)
  let a := n / d
  let r := n % d
  let up := match m with
    | .rne => 2 * r > d || (2 * r = d && a % 2 = 1)
    | .rtz => false
    | .sr b => decide (2 ^ 24 ≤ r * 2 ^ 24 / d + b % 2 ^ 24)
  (if r != 0 && up then a + 1 else a, r != 0)

/-- A finite nonzero magnitude rounded into a float format: code without sign, exceptions, and whether it overflowed
(R128, R129). `wide` formats give an infinity on overflow except under rtz. -/
def FFmt.roundNum (f : FFmt) (wide : Bool) (m : RMode) (n d : Nat) : Nat × Exc :=
  let emin : Int := 1 - (f.bias : Int)
  let lg := floorLog2 n d
  let e' := max lg emin
  let (a, ix) := roundMag m n d (e' - f.m)
  let code : Int := (e' - emin) * 2 ^ f.m + a
  let nx := if ix then xNX else 0
  let tiny := ix && lg < emin && (
    let (b, _) := roundMag m n d (lg - f.m)
    b != 0 && decide (b < 2 ^ ((emin - lg).toNat + f.m)))
  if (f.maxCode : Int) < code then
    (if wide && m != .rtz then (2 ^ f.e - 1) * 2 ^ f.m else f.maxCode, xOF ||| xNX)
  else (code.toNat, nx ||| (if tiny then xUF else 0))

/-- Rounds a value into a float format as the scalar instructions do: nearest even; NaN gives the canonical NaN (R92). -/
def FFmt.roundNE (f : FFmt) (v : Val) : Nat × Exc :=
  match v with
  | .nan _ => ((f.canonNan).getD 0, 0)
  | .inf s => (f.signBit s + (2 ^ f.e - 1) * 2 ^ f.m, 0)
  | .num s n d =>
    if n = 0 then (f.signBit s, 0)
    else
      let (c, e) := f.roundNum true .rne n d
      (f.signBit s + c, e)

/-- The ends of an integer format (R121). -/
def intTop (bits : Nat) (neg : Bool) : Nat := if neg then 2 ^ (bits - 1) else 2 ^ (bits - 1) - 1

/-- Rounds a value into an element format (R128, R129): the code and its exceptions. -/
def roundElem (ef : Nat) (m : RMode) (v : Val) : Nat × Exc :=
  match efmt ef with
  | .bytes => (0, 0)
  | .int bits =>
    match v with
    | .nan _ => (0, xNV)
    | .inf s => (intTop bits s, xNV)
    | .num s n d =>
      let (a, ix) := roundMag m n d 0
      let top := if s then 2 ^ (bits - 1) else 2 ^ (bits - 1) - 1
      if top < a then (intTop bits s, xOF ||| xNX)
      else (if s then (2 ^ bits - a) % 2 ^ bits else a, if ix then xNX else 0)
  | .float f =>
    match v with
    | .nan _ =>
      match f.canonNan with
      | some c => (c, 0)
      | none => (0, xNV)
    | .inf s =>
      if efNarrow ef then (f.signBit s + f.maxCode, xNV) else (f.signBit s + (2 ^ f.e - 1) * 2 ^ f.m, 0)
    | .num s n d =>
      if n = 0 then (f.signBit s, 0)
      else
        let (c, e) := f.roundNum (!efNarrow ef) m n d
        (f.signBit s + c, e)

/-- A NaN written into a block whose scale is 0xFF: the code and whether the format has no NaN code (R129, R326). -/
def nanElem (ef : Nat) : Nat × Bool :=
  match efmt ef with
  | .float f =>
    match f.canonNan with
    | some c => (c, false)
    | none => (0, true)
  | _ => (0, true)

/-! ## Scales (R123 to R126) -/

/-- A value times 2^k. -/
def Val.scale (v : Val) (k : Int) : Val :=
  match v with
  | .num s n d => if 0 ≤ k then .num s (n * 2 ^ k.toNat) d else .num s n (d * 2 ^ (-k).toNat)
  | w => w

/-- The value of a code under an E8M0 scale byte (R124). -/
def e8m0Value (ef c x : Nat) : Val := if x % 256 = 255 then .nan false else (valueOf ef c).scale ((x % 256 : Nat) - 127 : Int)

/-- A usable tensor scale: positive, finite and normal (R125). -/
def tensorScale (t : Nat) : Option (Nat × Nat) :=
  if nbits t 31 1 = 1 || nbits t 23 8 = 0 || nbits t 23 8 = 255 then none
  else
    match fp32.decode (t % 2 ^ 32) with
    | .num _ n d => some (n, d)
    | _ => none

/-- The value of a code under a tensor scale (R125). -/
def tensorValue (ef c t : Nat) : Val :=
  match tensorScale t with
  | none => .nan false
  | some (n, d) => ((valueOf ef c).mul (.num false n d)).1

/-- A value divided by a positive rational. -/
def Val.over (v : Val) (n d : Nat) : Val :=
  match v with
  | .num s a b => .num s (a * d) (b * n)
  | w => w

/-- ScaleFor of R126. -/
def scaleFor (xs : List Val) (ef : Nat) : Nat :=
  if xs.any Val.isNan then 255
  else
    let logs := xs.filterMap (fun v => match v with
      | .num _ n d => if n = 0 then none else some (floorLog2 n d)
      | _ => none)
    match logs with
    | [] => if xs.any Val.isInf then 254 else 0
    | l :: ls => (max (-127) (min 127 (ls.foldl max l - emaxOf ef)) + 127).toNat

/-! ## The Cuvée generator (R131) -/

/-- Mix64 of R131. -/
def mix64 (z : Word) : Word :=
  let z := z ^^^ (z >>> 31)
  let z := z * 0x9A3D5C71E48B26F3
  let z := z ^^^ (z >>> 29)
  let z := z * 0xC6B10E957D24A38F
  z ^^^ (z >>> 32)

/-- The constant of draws and forks (R38, R131). -/
def cuveeC : Word := 0x5E17C3A90B4DF261

/-- Cuvee(s, i, c) of R131. -/
def cuvee (s i : Word) (c : BitVec 32) : Word := mix64 (s ^^^ (i * 0x8F2C61A73B95D40D) ^^^ (zext c * cuveeC))

/-- The 24 bits that element `e` of a command takes from its draws (R130, R135). -/
def drawBits (s i : Word) (c0 : BitVec 32) (e : Nat) : Nat :=
  let w := (cuvee s i (c0 + BitVec.ofNat 32 (e / 2))).toNat
  if e % 2 = 0 then nbits w 0 24 else nbits w 24 24

/-! ## Square roots and the transcendental functions -/

/-- Halves the distance between bounds of a square root, `fuel` times. -/
def sqrtSteps : Nat → Nat → Nat → Nat → Nat
  | 0, _, lo, _ => lo
  | k + 1, n, lo, hi =>
    let mid := (lo + hi) / 2
    if mid * mid ≤ n then sqrtSteps k n mid hi else sqrtSteps k n lo mid

/-- Floor of the square root. -/
def isqrt (n : Nat) : Nat := sqrtSteps (Nat.log2 n + 2) n 0 (2 ^ (Nat.log2 n / 2 + 1))

/-- A value that rounds, in every format, as the square root of n/d does: the root itself where it is exact at 100 bits,
and otherwise the middle of the cell of that grid that holds it. -/
def sqrtVal (n d : Nat) : Val :=
  let k := 100 + Nat.log2 d
  let q := n * 4 ^ k / d
  let r := isqrt q
  if r * r = q && n * 4 ^ k % d = 0 then .num false r (2 ^ k) else .num false (2 * r + 1) (2 ^ (k + 1))

/-- A pair of bounds scaled by 2^p. -/
abbrev Enc := Nat × Nat

/-- The sum of r^i/i! for i up to a number of terms, from a term and a sum on, with bounds; `r` is a rational below 1. -/
def expTerms : Nat → Nat → Nat → Nat → Nat → Nat → Nat → Nat → Enc
  | 0, _, _, _, _, thi, slo, shi => (slo, shi + 2 * thi + 1)
  | k + 1, i, rn, rd, tlo, thi, slo, shi =>
    let tlo := tlo * rn / (rd * i)
    let thi := thi * rn / (rd * i) + 1
    expTerms k (i + 1) rn rd tlo thi (slo + tlo) (shi + thi)

/-- Squares bounds a number of times. -/
def sqrEnc (p : Nat) : Nat → Enc → Enc
  | 0, e => e
  | k + 1, (lo, hi) => sqrEnc p k (lo * lo / 2 ^ p, hi * hi / 2 ^ p + 1)

/-- Bounds of e^(n/d) for 0 ≤ n/d < 1024, scaled by 2^p. -/
def expEnc (p n d : Nat) : Enc :=
  sqrEnc p 16 (expTerms (p / 5 + 4) 1 n (d * 2 ^ 16) (2 ^ p) (2 ^ p) (2 ^ p) (2 ^ p))

/-- Bounds of the reciprocal. -/
def recipEnc (p : Nat) (e : Enc) : Enc := (2 ^ (2 * p) / e.2, if e.1 = 0 then 2 ^ (2 * p) else 2 ^ (2 * p) / e.1 + 1)

/-- The sum of z^(2i+1)/(2i+1), with bounds; z = zn/zd is at most 1/3. -/
def atanhTerms : Nat → Nat → Nat → Nat → Nat → Nat → Nat → Nat → Enc
  | 0, _, _, _, _, thi, slo, shi => (slo, shi + 2 * thi + 1)
  | k + 1, i, zn, zd, tlo, thi, slo, shi =>
    let slo := slo + tlo / i
    let shi := shi + thi / i + 1
    atanhTerms k (i + 2) zn zd (tlo * zn * zn / (zd * zd)) (thi * zn * zn / (zd * zd) + 1) slo shi

/-- Bounds of atanh(zn/zd). -/
def atanhEnc (p zn zd : Nat) : Enc := atanhTerms (p / 3 + 4) 1 zn zd (2 ^ p * zn / zd) (2 ^ p * zn / zd + 1) 0 0

/-- Bounds of |ln(n/d)| scaled by 2^p, and whether the logarithm is negative; n/d is positive and not 1. -/
def lnEnc (p n d : Nat) : Bool × Enc :=
  let k := floorLog2 n d
  let (mn, md) := if 0 ≤ k then (n, d * 2 ^ k.toNat) else (n * 2 ^ (-k).toNat, d)
  let (alo, ahi) := atanhEnc p (mn - md) (mn + md)
  let (llo, lhi) := atanhEnc p 1 3
  let lo : Int := 2 * alo + (if 0 ≤ k then 2 * k * llo else 2 * k * lhi)
  let hi : Int := 2 * ahi + (if 0 ≤ k then 2 * k * lhi else 2 * k * llo)
  if n < d then (true, (-hi).toNat, (-lo).toNat) else (false, lo.toNat, hi.toNat)

/-- The middle of the cell of 80 leading bits that holds both bounds; none where they lie in two cells. -/
def cellOf (p : Nat) (neg : Bool) (e : Enc) : Option Val :=
  let l := Nat.log2 e.1
  if e.1 = 0 || l < 80 then none
  else
    let a := e.1 >>> (l - 80)
    if a = e.2 >>> (l - 80) then some (.num neg ((2 * a + 1) * 2 ^ (l - 80)) (2 ^ (p + 1))) else none

/-- The first precision at which a cell is found. -/
def firstCell (f : Nat → Bool × Enc) : List Nat → Option Val
  | [] => none
  | p :: ps =>
    match cellOf p (f p).1 (f p).2 with
    | some v => some v
    | none => firstCell f ps

/-- The precisions tried: 200 bits, doubled until a cell is found. -/
def precisions : List Nat := (List.range 64).map (fun k => 200 * 2 ^ k)

/-- The transcendental functions of R223. -/
inductive Trans where
  | exp | log | sig
deriving DecidableEq, Repr

/-- Bounds of a transcendental function of a number other than its exact cases, divided by the scale tn/td. -/
def Trans.enc (f : Trans) (neg : Bool) (n d tn td : Nat) (p : Nat) : Bool × Enc :=
  let scaled := fun (e : Enc) => (e.1 * td / tn, e.2 * td / tn + 1)
  match f with
  | .exp => (false, scaled (if neg then recipEnc p (expEnc p n d) else expEnc p n d))
  | .log =>
    let (s, e) := lnEnc p n d
    (s, scaled e)
  | .sig =>
    let (lo, hi) := if neg then expEnc p n d else recipEnc p (expEnc p n d)
    (false, scaled (recipEnc p (2 ^ p + lo, 2 ^ p + hi)))

/-- A positive number below every format's smallest value. -/
def tinyVal : Val := .num false 1 (2 ^ 4000)
/-- A number above every format's largest value. -/
def hugeVal : Val := .num false (2 ^ 4000) 1

/-- A number that rounds in every format as the exact value of a transcendental function divided by tn/td does, with the
exceptions of its special values (R223); none where the precisions tried do not decide. -/
def Trans.eval (f : Trans) (v : Val) (tn td : Nat) : Option (Val × Exc) :=
  match f, v with
  | _, .nan _ => some (.nan false, 0)
  | .exp, .inf s => some (if s then .num false 0 1 else .inf false, 0)
  | .exp, .num s n d =>
    if n = 0 then some (.num false td tn, 0)
    else if 1000 * d < n then some (if s then tinyVal else hugeVal, 0)
    else (firstCell (f.enc s n d tn td) precisions).map (fun w => (w, 0))
  | .log, .inf s => some (if s then (.nan false, xNV) else (.inf false, 0))
  | .log, .num s n d =>
    if n = 0 then some (.inf true, xDZ)
    else if s then some (.nan false, xNV)
    else if n = d then some (.num false 0 1, 0)
    else (firstCell (f.enc s n d tn td) precisions).map (fun w => (w, 0))
  | .sig, .inf s => some (if s then .num false 0 1 else .num false td tn, 0)
  | .sig, .num s n d =>
    if n = 0 then some (.num false td (2 * tn), 0)
    else if s && 1000 * d < n then some (tinyVal, 0)
    else if 100 * d < n && !s then some (.num false ((2 ^ 140 - 1) * td) (2 ^ 140 * tn), 0)
    else (firstCell (f.enc s n d tn td) precisions).map (fun w => (w, 0))

end Sys2Proof.Machine
end

