-- ==== Sys2Proof/Config.lean ====
section
/-! DEFINITION. What one implementation of the Zalfin Z2 fixes, and the values the manual leaves open: opaque constants
that no proof can see into. -/

namespace Sys2Proof.Config

/-- The arithmetic capability version the device reports (spec/09 R118). -/
def acv : Nat := 1

/-- The device revision of the capability record (spec/23 R315). -/
def revision : Nat := 1

/-- The decryption of one AES-256-GCM message (spec/12 R193): key, IV, tag and ciphertext give the plaintext, or none
where the tag does not verify. The manual names the algorithm and does not define it (log 9). -/
opaque gcmOpen : BitVec 256 → BitVec 96 → BitVec 128 → List Byte → Option (List Byte)

/-- Whether a firmware image's RSA-4096 signature over its SHA-512 digest verifies (spec/23 R307, log 9). -/
opaque sigVerifies : List Byte → List Byte → Bool

/-- Measurement block `i` of what it measures (spec/23 R306): the manual does not give its form (log 9). -/
opaque measurement : Nat → List Byte → List Byte

/-- The signature over a measurement block (spec/23 R306, log 9). -/
opaque measurementSig : List Byte → List Byte

/-- The fused security version number (spec/23 R307): the manual gives no value (log 10). -/
opaque fusedSvn : Nat

/-- The Forsil ports present (spec/23 R315); all 16 on a full package (log 10). -/
def portsPresent : Nat := 0xFFFF

/-- A free value: the n-th value the manual leaves open (log 5). -/
opaque freeValue : Nat → BitVec 64

end Sys2Proof.Config
end

