-- ==== Sys2Proof/WellFormed.lean ====
section
/-! DEFINITION. Which terms of `Instr` are instructions the manual's encodings can hold: the field codes and
limits of spec/03 R57 to R64 that the types of `Instr` do not state by themselves. What depends on the strand
(slot mode, privilege, launch) is checked at issue (Decode.lean). -/

namespace Sys2Proof

/-- TY codes 0x0 to 0x7, the types of plain accesses (R156) and the integer types of FCVT (R99). -/
def Ty.isInt : Ty → Bool
  | .b8 | .b16 | .b32 | .b64 | .i8 | .i16 | .i32 | .i64 => true
  | .f64 | .f32 | .f16 | .bf16 => false

/-- The register types of LD.E and ST.E (R160). -/
def Ty.isElem : Ty → Bool
  | .b32 | .i32 | .f32 | .f16 | .bf16 => true
  | .b8 | .b16 | .b64 | .i8 | .i16 | .i64 | .f64 => false

/-- The scopes SEVT and WEVT accept (R257). -/
def Scope.isEventScope : Scope → Bool
  | .strand | .core => false
  | .cluster | .die | .package | .system => true

/-- The special register numbers of R72. -/
def srAssigned (n : BitVec 10) : Bool :=
  n.toNat ≤ 10 || n == 0x100#10 || n == 0x101#10 || n == 0x102#10

/-- The special registers with a writable field (R71, R72). -/
def srWritable (n : BitVec 10) : Bool :=
  n == 0#10 || n == 6#10 || n == 0x100#10 || n == 0x101#10 || n == 0x102#10

/-- A bit field inside 64 bits (R84). -/
def fieldFits (wm1 lsb : BitVec 6) : Bool := lsb.toNat + wm1.toNat + 1 ≤ 64

/-- Which of the sources A, B, C an A-word reads; `none` for a word that is no A-word (R63). -/
def aSources : Instr → Option (Bool × Bool × Bool)
  | .add .. | .sub .. | .mul .. | .mulh .. | .mulhb .. | .div .. | .divb .. | .rem .. | .remb .. | .and ..
  | .or .. | .xor .. | .shl .. | .shr .. | .sra .. | .rol .. | .min .. | .max .. | .minb .. | .maxb ..
  | .slt .. | .sltb .. | .seq .. | .sne .. | .adda .. | .ptag .. => some (true, true, false)
  | .clz .. | .ctz .. | .popc .. | .pfs .. | .pclr .. => some (true, false, false)
  | .sel .. => some (true, true, true)
  | .addi .. | .andi .. | .ori .. | .xori .. | .slti .. | .shli .. | .shri .. | .srai .. | .bext .. | .bins ..
  | .fld .. | .addai .. => some (true, false, false)
  | .lih .. | .pch .. | .nop => some (false, false, false)
  | .fadd .. | .fsub .. | .fmul .. | .fmin .. | .fmax .. | .flt .. | .fle .. | .feq .. | .fdiv .. =>
    some (true, true, false)
  | .fabs .. | .fneg .. | .fclass .. | .fsqrt .. | .fcvt .. => some (true, false, false)
  | .ffma .. => some (true, true, true)
  | _ => none

/-- An A-word of R63, the no-operation of R55 included. -/
def isAWord (i : Instr) : Bool := (aSources i).isSome

/-- The wrap conditions of R64: an A-word that is no no-operation, LIH or PCH, and no back distance on a source the
word does not read. -/
def wrapFits (ka kb kc : BitVec 4) (w : Instr) : Bool :=
  match w, aSources w with
  | .nop, _ | .lih .., _ | .pch .., _ => false
  | _, some (ra, rb, rc) => (ra || ka == 0) && (rb || kb == 0) && (rc || kc == 0)
  | _, none => false

/-- The field limits of one instruction that is no wrap. -/
def fieldsFit : Instr → Bool
  | .ldGShort _ _ _ ty _ | .ldGLong _ _ _ ty _ _ | .ldSShort _ _ _ ty _ | .ldSLong _ _ _ ty _ _ => ty.isInt
  | .stGShort _ _ ty _ | .stGLong _ _ ty _ | .stSShort _ _ ty _ | .stSLong _ _ ty _ => ty.isInt
  | .ldEShort _ _ _ ty _ | .ldELong _ _ _ ty _ _ => ty.isElem
  | .stEShort _ _ ty _ | .stELong _ _ ty _ => ty.isElem
  | .hget _ _ f | .hput _ _ f => f.toNat ≤ 10
  | .sevt _ _ sc | .wevt _ _ sc => sc.isEventScope
  | .mfs _ n => srAssigned n
  | .mts n _ => srWritable n
  | .loop a _ _ _ => a != 0
  | .pub a => a != 0
  | .bext _ _ wm1 lsb | .bins _ _ wm1 lsb => fieldFits wm1 lsb
  | .fld _ _ k => k.toNat ≤ 5
  | .fcvt dt st _ _ => dt != st && !(dt.isInt && st.isInt)
  | _ => true

/-- A well-formed instruction. -/
def WellFormed : Instr → Bool
  | .backRefWrap ka kb kc w =>
    ka.toNat ≤ 8 && kb.toNat ≤ 8 && kc.toNat ≤ 8 && fieldsFit w && wrapFits ka kb kc w
  | i => fieldsFit i

end Sys2Proof
end

