-- ==== Sys2Proof/Decode.lean ====
section
/-! DEFINITION. The decoder of bundles (spec/03 R50 to R65) and, after it, the encoder from the same tables. -/

namespace Sys2Proof

/-- Bits lo + len − 1 : lo of a word. -/
abbrev bits {n : Nat} (w : BitVec n) (lo len : Nat) : BitVec len := w.extractLsb' lo len

/-- Why a word is rejected, by the subcodes of R65. -/
inductive Bad where
  /-- 0x1: a code field has no assigned value. -/
  | code
  /-- 0x2: a field that must be zero is not, or a value field is out of range. -/
  | field
  /-- 0x3: a register or handle number beyond the slot mode. -/
  | slotMode
  /-- 0x4: both words write one register (R52). -/
  | sameDest
  /-- 0x5: a privileged instruction at user privilege. -/
  | privilege
  /-- 0x6: an instruction this launch or place does not permit. -/
  | launch
  /-- 0x7: a site's SLOT at or above VCOUNT. -/
  | site
  /-- 0x8: a back-reference wrap that does not meet R64. -/
  | wrap
deriving DecidableEq, Repr

/-- The subcode of R65. -/
def Bad.sub : Bad → BitVec 8
  | .code => 1
  | .field => 2
  | .slotMode => 3
  | .sameDest => 4
  | .privilege => 5
  | .launch => 6
  | .site => 7
  | .wrap => 8

/-- TY (R57). -/
def tyOf (c : BitVec 4) : Option Ty :=
  [Ty.b8, .b16, .b32, .b64, .i8, .i16, .i32, .i64, .f64, .f32, .f16, .bf16][c.toNat]?

/-- The code of a TY (R57). -/
def tyCode : Ty → BitVec 4
  | .b8 => 0 | .b16 => 1 | .b32 => 2 | .b64 => 3 | .i8 => 4 | .i16 => 5 | .i32 => 6 | .i64 => 7
  | .f64 => 8 | .f32 => 9 | .f16 => 10 | .bf16 => 11

/-- FT (R57). -/
def ftyOf (c : BitVec 2) : FTy :=
  if c = 0 then .d else if c = 1 then .s else if c = 2 then .h else .bf

/-- The code of an FT (R57). -/
def ftyCode : FTy → BitVec 2
  | .d => 0 | .s => 1 | .h => 2 | .bf => 3

/-- AS (R57); 6 and 7 are unassigned. -/
def scopeOf (c : BitVec 3) : Option Scope :=
  [Scope.strand, .core, .cluster, .die, .package, .system][c.toNat]?

/-- The code of an AS (R57). -/
def scopeCode : Scope → BitVec 3
  | .strand => 0 | .core => 1 | .cluster => 2 | .die => 3 | .package => 4 | .system => 5

/-- SS (R57); 0b00 is unassigned. -/
def storageOf (c : BitVec 2) : Option Storage :=
  if c = 1 then some .scratch else if c = 2 then some .globalSp else if c = 3 then some .all else none

/-- The code of an SS (R57). -/
def storageCode : Storage → BitVec 2
  | .scratch => 1 | .globalSp => 2 | .all => 3

/-- KIND (R59). -/
def kindOf (c : BitVec 2) : FenceKind :=
  if c = 0 then .acq else if c = 1 then .rel else if c = 2 then .acqrel else .sc

/-- The code of a KIND (R59). -/
def kindCode : FenceKind → BitVec 2
  | .acq => 0 | .rel => 1 | .acqrel => 2 | .sc => 3

/-- RM (R127); 0b101 and 0b110 are out of range. -/
def rmOf (c : BitVec 3) : Option Rm :=
  if c = 0 then some .rne else if c = 1 then some .rtz else if c = 2 then some .sr
  else if c = 3 then some .ns else if c = 4 then some .nss else if c = 7 then some .entry else none

/-- The code of an RM (R127). -/
def rmCode : Rm → BitVec 3
  | .rne => 0 | .rtz => 1 | .sr => 2 | .ns => 3 | .nss => 4 | .entry => 7

/-- SEL of TCMP (R218). -/
def predOf (c : BitVec 3) : Option TPred := [TPred.eq, .ne, .lt, .le, .un][c.toNat]?

/-- The code of a TCMP predicate (R218). -/
def predCode : TPred → BitVec 3
  | .eq => 0 | .ne => 1 | .lt => 2 | .le => 3 | .un => 4

/-- SEL of TRED (R218). -/
def redOf (c : BitVec 3) : Option TRedOp := [TRedOp.sum, .max, .min][c.toNat]?

/-- The code of a TRED operation (R218). -/
def redCode : TRedOp → BitVec 3
  | .sum => 0 | .max => 1 | .min => 2

/-- The outcome of one check of R65. -/
abbrev Dec (α : Type) := Except Bad α

/-- An assigned code, or subcode 0x1. -/
def need {α : Type} (o : Option α) : Dec α :=
  match o with
  | some v => .ok v
  | none => .error .code

/-- A condition on fields, or subcode 0x2. -/
def zero (c : Bool) (i : Instr) : Dec Instr := if c then .ok i else .error .field

/-- The instruction of major 0x01 of the A-word map with function FN (R63, R79). -/
def decodeAr (d a b : XReg) (fn : BitVec 8) : Dec Instr :=
  match fn.toNat with
  | 0x00 => .ok (.add d a b)
  | 0x01 => .ok (.sub d a b)
  | 0x02 => .ok (.mul d a b)
  | 0x03 => .ok (.mulh d a b)
  | 0x04 => .ok (.mulhb d a b)
  | 0x05 => .ok (.div d a b)
  | 0x06 => .ok (.divb d a b)
  | 0x07 => .ok (.rem d a b)
  | 0x08 => .ok (.remb d a b)
  | 0x09 => .ok (.and d a b)
  | 0x0A => .ok (.or d a b)
  | 0x0B => .ok (.xor d a b)
  | 0x0C => .ok (.shl d a b)
  | 0x0D => .ok (.shr d a b)
  | 0x0E => .ok (.sra d a b)
  | 0x0F => .ok (.rol d a b)
  | 0x10 => .ok (.min d a b)
  | 0x11 => .ok (.max d a b)
  | 0x12 => .ok (.minb d a b)
  | 0x13 => .ok (.maxb d a b)
  | 0x14 => .ok (.slt d a b)
  | 0x15 => .ok (.sltb d a b)
  | 0x16 => .ok (.seq d a b)
  | 0x17 => .ok (.sne d a b)
  | 0x18 => zero (b == 0) (.clz d a)
  | 0x19 => zero (b == 0) (.ctz d a)
  | 0x1A => zero (b == 0) (.popc d a)
  | 0x1B => .ok (.adda d a b)
  | 0x1C => .ok (.ptag d a b)
  | 0x1D => zero (b == 0) (.pfs d a)
  | 0x1E => zero (b == 0) (.pclr d a)
  | _ => .error .code

/-- The instruction of major 0x10 of the A-word map with function FN (R63, R95). -/
def decodeAf (t : FTy) (d a b : XReg) (fn : BitVec 4) (rz : Bool) : Dec Instr :=
  match fn.toNat with
  | 0x0 => zero rz (.fadd t d a b)
  | 0x1 => zero rz (.fsub t d a b)
  | 0x2 => zero rz (.fmul t d a b)
  | 0x3 => zero rz (.fmin t d a b)
  | 0x4 => zero rz (.fmax t d a b)
  | 0x5 => zero (rz && b == 0) (.fabs t d a)
  | 0x6 => zero (rz && b == 0) (.fneg t d a)
  | 0x7 => zero rz (.flt t d a b)
  | 0x8 => zero rz (.fle t d a b)
  | 0x9 => zero rz (.feq t d a b)
  | 0xA => zero (rz && b == 0) (.fclass t d a)
  | _ => .error .code

/-- An A-word (R63). -/
def decodeA (w : W32) : Dec Instr :=
  let d := bits w 20 6
  let a := bits w 14 6
  let b := bits w 8 6
  let imm := bits w 0 12
  let rz := bits w 12 2 == 0
  match (bits w 26 6).toNat with
  | 0x00 => zero (w == 0) .nop
  | 0x01 => decodeAr d a b (bits w 0 8)
  | 0x02 => if bits w 0 2 == 0 then .ok (.sel d a b (bits w 2 6)) else .error .code
  | 0x03 => zero rz (.addi d a imm)
  | 0x04 => zero rz (.andi d a imm)
  | 0x05 => zero rz (.ori d a imm)
  | 0x06 => zero rz (.xori d a imm)
  | 0x07 => zero rz (.slti d a imm)
  | 0x08 =>
    let ok := rz && bits w 8 4 == 0
    match (bits w 6 2).toNat with
    | 0 => zero ok (.shli d a (bits w 0 6))
    | 1 => zero ok (.shri d a (bits w 0 6))
    | 2 => zero ok (.srai d a (bits w 0 6))
    | _ => .error .code
  | 0x09 => zero (rz && fieldFits (bits w 6 6) (bits w 0 6)) (.bext d a (bits w 6 6) (bits w 0 6))
  | 0x0A => zero (rz && fieldFits (bits w 6 6) (bits w 0 6)) (.bins d a (bits w 6 6) (bits w 0 6))
  | 0x0B => zero (rz && imm.toNat ≤ 5) (.fld d a imm)
  | 0x0C => zero rz (.addai d a imm)
  | 0x0D => .ok (.lih d (bits w 0 20))
  | 0x0E => .ok (.pch d (bits w 0 20))
  | 0x10 => decodeAf (ftyOf (bits w 2 2)) d a b (bits w 4 4) (bits w 0 2 == 0)
  | 0x11 => .ok (.ffma (ftyOf (bits w 0 2)) d a b (bits w 2 6))
  | 0x12 =>
    if bits w 1 1 == 0 then zero (bits w 0 1 == 0) (.fdiv (ftyOf (bits w 2 2)) d a b (bits w 4 4))
    else zero (bits w 0 1 == 0 && b == 0) (.fsqrt (ftyOf (bits w 2 2)) d a (bits w 4 4))
  | 0x13 =>
    match tyOf (bits w 10 4), tyOf (bits w 6 4) with
    | some dt, some st =>
      if dt == st || (dt.isInt && st.isInt) then .error .code
      else zero (bits w 0 6 == 0) (.fcvt dt st d a)
    | _, _ => .error .code
  | _ => .error .code

/-- A plain load or store type, or subcode 0x1 (R156). -/
def needPlain (c : BitVec 4) (k : Ty → Dec Instr) : Dec Instr :=
  match tyOf c with
  | some ty => if ty.isInt then k ty else .error .code
  | none => .error .code

/-- An element access type, or subcode 0x1 (R160). -/
def needElem (c : BitVec 4) (k : Ty → Dec Instr) : Dec Instr :=
  match tyOf c with
  | some ty => if ty.isElem then k ty else .error .code
  | none => .error .code

/-- The handle instructions of format CH (R59, R177). -/
def decodeCh (h : HReg) (x : XReg) (sub : BitVec 3) (la : La) (arg : BitVec 8) : Dec Instr :=
  let sp : Space := if bits arg 7 1 == 1 then .scratch else .glob
  match sub.toNat with
  | 0 => zero (la == 0 && bits arg 1 7 == 0) (.hset h x (bits arg 0 1 == 1))
  | 1 => .ok (.hld h x la sp (bits arg 0 7))
  | 2 => zero (la == 0) (.hst h x sp (bits arg 0 7))
  | 3 => if arg.toNat ≤ 10 then zero (la == 0) (.hget h x arg) else .error .code
  | 4 => if arg.toNat ≤ 10 then zero (la == 0) (.hput h x arg) else .error .code
  | 5 => zero (la == 0 && arg == 0) (.hstep h x)
  | 6 => zero (la == 0 && arg == 0 && x == 0) (.twait h)
  | _ => .error .code

/-- The system instructions of format CS (R59, R62). -/
def decodeCs (x : XReg) (fn : BitVec 5) (z : BitVec 14) : Dec Instr :=
  let sr := bits z 4 10
  let xz := x == 0
  match fn.toNat with
  | 0 => zero xz (.trap z)
  | 1 => zero (xz && z == 0) .eret
  | 2 => if srAssigned sr then zero (bits z 0 4 == 0) (.mfs x sr) else .error .code
  | 3 => if srWritable sr then zero (bits z 0 4 == 0) (.mts sr x) else .error .code
  | 4 => zero (z == 0) (.repart x)
  | 5 => zero (z == 0) (.launch x)
  | 6 => zero (xz && z == 0) .halt
  | 7 => zero (xz && z == 0) .uiret
  | 8 => zero (bits z 0 10 == 0) (.mbox x (bits z 10 4))
  | 9 => zero (bits z 0 10 == 0) (.rnd x (bits z 10 4))
  | 10 => zero (z == 0) (if x == 0 then .pubLees else .pub x)
  | 11 => zero (xz && z == 0) .gbar
  | 12 => zero (xz && z == 0) .fin
  | _ => .error .code

/-- A short C-word, L = 0 (R59, R61, R62). -/
def decodeC (w : W32) : Dec Instr :=
  let d := bits w 19 6
  let a := bits w 13 6
  let la := bits w 9 4
  let ty := bits w 5 4
  let off := bits w 0 5
  match (bits w 25 6).toNat with
  | 0x00 => zero (w == 0) .nop
  | 0x02 =>
    match (bits w 20 5).toNat with
    | 0 => .ok (.jmp (bits w 0 20))
    | 1 => .ok (.call (bits w 0 20))
    | _ => .error .code
  | 0x03 =>
    match (bits w 14 5).toNat with
    | 0 => zero (bits w 0 14 == 0) (.jr d)
    | 1 => zero (bits w 0 14 == 0) (.callr d)
    | _ => .error .code
  | 0x08 => needPlain ty fun t => .ok (.ldGShort d a la t off)
  | 0x09 => needPlain ty fun t => .ok (.ldSShort d a la t off)
  | 0x0A => needPlain ty fun t => zero (la == 0) (.stGShort d a t off)
  | 0x0B => needPlain ty fun t => zero (la == 0) (.stSShort d a t off)
  | 0x0C => needElem ty fun t => .ok (.ldEShort d a la t off)
  | 0x0D => needElem ty fun t => zero (la == 0) (.stEShort d a t off)
  | 0x0E =>
    if ty == 0 || ty == 1 then zero (d == 0 && la == 0) (.pf a (ty == 1) off) else .error .code
  | 0x10 =>
    match scopeOf (bits w 20 3), storageOf (bits w 18 2) with
    | some sc, some ss => zero (bits w 0 18 == 0) (.fence (kindOf (bits w 23 2)) sc ss)
    | _, _ => .error .code
  | 0x11 => decodeCh (bits w 21 4) (bits w 15 6) (bits w 12 3) (bits w 8 4) (bits w 0 8)
  | 0x12 =>
    let z := bits w 0 16 == 0
    match (bits w 16 3).toNat with
    | 0 => zero (z && d == 0) .leesClr
    | 1 => zero z (.leesSv d)
    | 2 => zero z (.leesLd d)
    | _ => .error .code
  | 0x13 =>
    match scopeOf (bits w 7 3) with
    | none => .error .code
    | some sc =>
      let ok := sc.isEventScope && bits w 0 7 == 0
      match (bits w 10 3).toNat with
      | 0 => zero ok (.sevt d a sc)
      | 1 => zero ok (.wevt d a sc)
      | _ => .error .code
  | 0x3E => decodeCs d (bits w 14 5) (bits w 0 14)
  | _ => .error .code

/-- The site of a long form: SLOT under V (R60). -/
def siteOf (v : BitVec 1) (slot : BitVec 16) : Option (BitVec 16) := if v == 1 then some slot else none

/-- V = 0 needs SLOT = 0 (R60). -/
def siteOk (v : BitVec 1) (slot : BitVec 16) : Bool := v == 1 || slot == 0

/-- A conditional branch, format LB (R102). -/
def decodeBr (cond : BitVec 5) (a b : XReg) (off : BitVec 20) (v : BitVec 1) (slot : BitVec 16) (rz : Bool) : Dec Instr :=
  let s := siteOf v slot
  let ok := rz && siteOk v slot
  match cond.toNat with
  | 0 => zero ok (.bEq a b off s)
  | 1 => zero ok (.bNe a b off s)
  | 2 => zero ok (.bLt a b off s)
  | 3 => zero ok (.bGe a b off s)
  | 4 => zero ok (.bLtb a b off s)
  | 5 => zero ok (.bGeb a b off s)
  | 6 => zero (ok && b == 0) (.bz a off s)
  | 7 => zero (ok && b == 0) (.bnz a off s)
  | _ => .error .code

/-- An atomic, format LA (R60, R166). -/
def decodeAmo (aop : BitVec 4) (f : AmoForm) (c : XReg) (ok : Bool) : Dec Instr :=
  let ok0 := ok && c == 0
  match aop.toNat with
  | 0 => zero ok0 (.amoAdd f)
  | 1 => zero ok0 (.amoAnd f)
  | 2 => zero ok0 (.amoOr f)
  | 3 => zero ok0 (.amoXor f)
  | 4 => zero ok0 (.amoMin f)
  | 5 => zero ok0 (.amoMax f)
  | 6 => zero ok0 (.amoMinb f)
  | 7 => zero ok0 (.amoMaxb f)
  | 8 => zero ok0 (.amoSwp f)
  | 9 => zero ok (.amoCas f c)
  | 10 => zero ok0 (.amoFadd f)
  | _ => .error .code

/-- The bits of an engine command, format LE (R60). -/
structure Le where
  hd  : HReg
  ha  : HReg
  hb  : HReg
  la  : La
  sub : BitVec 9
  xa  : XReg
  xb  : XReg
  opt : BitVec 20
deriving DecidableEq, Repr

/-- Format LE (R60). -/
def leOf (w : Word) : Le :=
  ⟨bits w 21 4, bits w 17 4, bits w 13 4, bits w 9 4, bits w 0 9, bits w 58 6, bits w 52 6, bits w 32 20⟩

/-- Matrix commands (R62, R200, R211). -/
def decodeMatrix (l : Le) : Dec Instr :=
  match l.sub.toNat with
  | 0 => zero (l.xb == 0 && l.opt == 0) (.mma l.hd l.ha l.hb l.la l.xa)
  | 1 => zero (l.xb == 0 && l.opt == 0) (.mmz l.hd l.ha l.hb l.la l.xa)
  | 2 => zero (l.hd == 0 && l.ha == 0 && l.hb == 0 && l.xb == 0 && l.opt == 0) (.rep l.la l.xa)
  | 3 => zero (l.hd == 0 && l.ha == 0 && l.hb == 0 && l.opt == 0) (.repw l.la l.xa l.xb)
  | _ => .error .code

/-- Tile commands (R62, R218). -/
def decodeTile (l : Le) : Dec Instr :=
  let f : TileForm := ⟨l.hd, l.ha, l.hb, l.la, l.xa⟩
  let rmc := bits l.opt 17 3
  let sel := bits l.opt 14 3
  let z := bits l.opt 0 14 == 0
  let noRm := rmc == 0
  let two (k : Rm → Instr) : Dec Instr :=
    match rmOf rmc with
    | some rm => zero (z && sel == 0 && l.xb == 0) (k rm)
    | none => .error .field
  let one (k : Rm → Instr) : Dec Instr :=
    match rmOf rmc with
    | some rm => zero (z && sel == 0 && l.xb == 0 && l.hb == 0) (k rm)
    | none => .error .field
  match l.sub.toNat with
  | 0 => two (.tadd f)
  | 1 => two (.tsub f)
  | 2 => two (.tmul f)
  | 3 => two (.tfma f)
  | 4 => two (.tmax f)
  | 5 => two (.tmin f)
  | 6 => one (.texp l.hd l.ha l.la l.xa)
  | 7 => one (.tlog l.hd l.ha l.la l.xa)
  | 8 => one (.trcp l.hd l.ha l.la l.xa)
  | 9 => one (.trsq l.hd l.ha l.la l.xa)
  | 10 => one (.tsig l.hd l.ha l.la l.xa)
  | 11 =>
    match predOf sel with
    | some p => zero (z && noRm && l.xb == 0) (.tcmp f p)
    | none => .error .code
  | 12 => zero (z && noRm && sel == 0 && l.xb == 0) (.tmsk f)
  | 13 => zero (z && noRm && sel == 0 && l.ha == 0 && l.hb == 0) (.tfill l.hd l.la l.xa l.xb)
  | 14 => zero (z && noRm && sel == 0 && l.xb == 0 && l.hb == 0) (.tcpy l.hd l.ha l.la l.xa)
  | 15 => zero (z && noRm && sel == 0 && l.xb == 0 && l.hb == 0) (.ttrn l.hd l.ha l.la l.xa)
  | 16 =>
    match redOf sel, rmOf rmc with
    | some op, some rm => zero (z && l.xb == 0 && l.hb == 0) (.tred l.hd l.ha l.la l.xa rm op)
    | some _, none => .error .field
    | none, _ => .error .code
  | 17 =>
    if sel == 0 || sel == 1 then zero (z && noRm) (.tselk f l.xb (sel == 1)) else .error .code
  | 18 => one (.tcvt l.hd l.ha l.la l.xa)
  | _ => .error .code

/-- The quantising store (R233). -/
def decodeQst (l : Le) : Dec Instr :=
  if l.sub == 0 then
    match rmOf (bits l.opt 17 3) with
    | some rm => zero (l.xb == 0 && l.hb == 0 && bits l.opt 0 16 == 0) (.qst l.hd l.ha l.la l.xa rm (bits l.opt 16 1 == 1))
    | none => .error .field
  else .error .code

/-- The copy commands (R183). -/
def decodeCopy (l : Le) : Dec Instr :=
  let z := l.opt == 0
  match l.sub.toNat with
  | 0 => zero (z && l.hb == 0 && l.xa == 0) (.cpyIn l.hd l.ha l.la l.xb)
  | 1 => zero (z && l.hb == 0 && l.xa == 0) (.cpyOut l.hd l.ha l.la l.xb)
  | 2 => zero (z && l.hb == 0) (.cpyXc l.hd l.ha l.la l.xa l.xb)
  | 3 => zero (z && l.xa == 0) (.gath l.hd l.ha l.hb l.la l.xb)
  | 4 => zero (z && l.xa == 0) (.scat l.hd l.ha l.hb l.la l.xb)
  | _ => .error .code

/-- A long instruction, L = 1 (R60, R61, R62). The wrap conditions of R64 come after every other check and are
made by `wrapBad`. -/
def decodeLong (w : Word) : Dec Instr :=
  let d := bits w 19 6
  let a := bits w 13 6
  let la := bits w 9 4
  let ty := bits w 5 4
  let slot := bits w 48 16
  let v := bits w 47 1
  let off : BitVec 20 := bits w 32 15 ++ bits w 0 5
  match (bits w 25 6).toNat with
  | 0x01 =>
    match decodeA (bits w 32 32) with
    | .error e => .error e
    | .ok i =>
      let ka := bits w 21 4
      let kb := bits w 17 4
      let kc := bits w 13 4
      zero (bits w 0 13 == 0 && ka.toNat ≤ 8 && kb.toNat ≤ 8 && kc.toNat ≤ 8) (.backRefWrap ka kb kc i)
  | 0x04 => decodeBr (bits w 20 5) (bits w 42 6) (bits w 36 6) (bits w 0 20) (bits w 35 1) slot (bits w 32 3 == 0)
  | 0x05 =>
    if bits w 20 5 == 0 then
      zero (bits w 35 1 == 1 && bits w 42 6 != 0 && bits w 32 3 == 0) (.loop (bits w 42 6) (bits w 36 6) (bits w 0 20) slot)
    else .error .code
  | 0x06 =>
    let rz := bits w 32 16 == 0 && bits w 0 8 == 0
    match (bits w 14 5).toNat with
    | 0 => zero (rz && bits w 8 2 == 0) (.vpick d (bits w 10 4) slot)
    | 1 => zero rz (.vread d (bits w 10 4) (bits w 8 2) slot)
    | _ => .error .code
  | 0x08 => needPlain ty fun t => zero (siteOk v slot) (.ldGLong d a la t off (siteOf v slot))
  | 0x09 => needPlain ty fun t => zero (siteOk v slot) (.ldSLong d a la t off (siteOf v slot))
  | 0x0A => needPlain ty fun t => zero (la == 0 && v == 0 && slot == 0) (.stGLong d a t off)
  | 0x0B => needPlain ty fun t => zero (la == 0 && v == 0 && slot == 0) (.stSLong d a t off)
  | 0x0C => needElem ty fun t => zero (siteOk v slot) (.ldELong d a la t off (siteOf v slot))
  | 0x0D => needElem ty fun t => zero (la == 0 && v == 0 && slot == 0) (.stELong d a t off)
  | 0x0F =>
    match scopeOf (bits w 47 3) with
    | none => .error .code
    | some sc =>
      decodeAmo (bits w 60 4)
        ⟨d, a, bits w 7 6, bits w 3 4, bits w 58 1 == 1, bits w 57 1 == 1,
          if bits w 56 1 == 1 then .scratch else .glob, sc⟩
        (bits w 50 6)
        (bits w 59 1 == 0 && bits w 0 3 == 0 && bits w 32 15 == 0)
  | 0x18 => decodeMatrix (leOf w)
  | 0x19 => decodeTile (leOf w)
  | 0x1A => decodeQst (leOf w)
  | 0x1B => decodeCopy (leOf w)
  | _ => .error .code

/-- What a bundle holds (R53): a C-word and an A-word, or one long instruction. -/
inductive Decoded where
  | pair (c a : Instr)
  | long (i : Instr)
deriving DecidableEq, Repr

/-- The registers an instruction names in its fields (R65 subcode 0x3). -/
def xFields : Instr → List XReg
  | .jr a | .callr a => [a]
  | .bEq a b _ _ | .bNe a b _ _ | .bLt a b _ _ | .bGe a b _ _ | .bLtb a b _ _ | .bGeb a b _ _ | .loop a b _ _ => [a, b]
  | .bz a _ _ | .bnz a _ _ => [a]
  | .vpick d _ _ | .vread d _ _ _ => [d]
  | .ldGShort d a _ _ _ | .ldGLong d a _ _ _ _ | .ldSShort d a _ _ _ | .ldSLong d a _ _ _ _
  | .ldEShort d a _ _ _ | .ldELong d a _ _ _ _ => [d, a]
  | .stGShort d a _ _ | .stGLong d a _ _ | .stSShort d a _ _ | .stSLong d a _ _ | .stEShort d a _ _ | .stELong d a _ _ => [d, a]
  | .pf a _ _ => [a]
  | .amoAdd f | .amoAnd f | .amoOr f | .amoXor f | .amoMin f | .amoMax f | .amoMinb f | .amoMaxb f | .amoSwp f
  | .amoFadd f => [f.d, f.a, f.b]
  | .amoCas f c => [f.d, f.a, f.b, c]
  | .hset _ a _ | .hld _ a _ _ _ | .hst _ a _ _ | .hget _ a _ | .hput _ a _ | .hstep _ a => [a]
  | .leesSv a | .leesLd a => [a]
  | .sevt a b _ | .wevt a b _ => [a, b]
  | .mfs d _ => [d]
  | .mts _ a => [a]
  | .repart a | .launch a => [a]
  | .mbox d _ | .rnd d _ => [d]
  | .pub a => [a]
  | .mma _ _ _ _ xa | .mmz _ _ _ _ xa | .rep _ xa => [xa]
  | .repw _ xa xb => [xa, xb]
  | .tadd f _ | .tsub f _ | .tmul f _ | .tfma f _ | .tmax f _ | .tmin f _ | .tcmp f _ | .tmsk f => [f.xa]
  | .texp _ _ _ xa _ | .tlog _ _ _ xa _ | .trcp _ _ _ xa _ | .trsq _ _ _ xa _ | .tsig _ _ _ xa _ | .tcpy _ _ _ xa
  | .ttrn _ _ _ xa | .tred _ _ _ xa _ _ | .tcvt _ _ _ xa _ | .qst _ _ _ xa _ _ => [xa]
  | .tfill _ _ xa xb => [xa, xb]
  | .tselk f xb _ => [f.xa, xb]
  | .cpyIn _ _ _ xb | .cpyOut _ _ _ xb | .gath _ _ _ _ xb | .scat _ _ _ _ xb => [xb]
  | .cpyXc _ _ _ xa xb => [xa, xb]
  | .add d a b | .sub d a b | .mul d a b | .mulh d a b | .mulhb d a b | .div d a b | .divb d a b | .rem d a b
  | .remb d a b | .and d a b | .or d a b | .xor d a b | .shl d a b | .shr d a b | .sra d a b | .rol d a b
  | .min d a b | .max d a b | .minb d a b | .maxb d a b | .slt d a b | .sltb d a b | .seq d a b | .sne d a b
  | .adda d a b | .ptag d a b => [d, a, b]
  | .clz d a | .ctz d a | .popc d a | .pfs d a | .pclr d a => [d, a]
  | .sel d a b c => [d, a, b, c]
  | .addi d a _ | .andi d a _ | .ori d a _ | .xori d a _ | .slti d a _ | .shli d a _ | .shri d a _ | .srai d a _
  | .bext d a _ _ | .bins d a _ _ | .fld d a _ | .addai d a _ => [d, a]
  | .lih d _ | .pch d _ => [d]
  | .fadd _ d a b | .fsub _ d a b | .fmul _ d a b | .fmin _ d a b | .fmax _ d a b | .flt _ d a b | .fle _ d a b
  | .feq _ d a b | .fdiv _ d a b _ => [d, a, b]
  | .fabs _ d a | .fneg _ d a | .fclass _ d a | .fsqrt _ d a _ | .fcvt _ _ d a => [d, a]
  | .ffma _ d a b c => [d, a, b, c]
  | .backRefWrap _ _ _ w => xFields w
  | _ => []

/-- The handles an instruction names in its fields (R65 subcode 0x3). -/
def hFields : Instr → List HReg
  | .hset h _ _ | .hld h _ _ _ _ | .hst h _ _ _ | .hget h _ _ | .hput h _ _ | .hstep h _ | .twait h => [h]
  | .mma hd ha hb _ _ | .mmz hd ha hb _ _ => [hd, ha, hb]
  | .tadd f _ | .tsub f _ | .tmul f _ | .tfma f _ | .tmax f _ | .tmin f _ | .tcmp f _ | .tmsk f | .tselk f _ _ =>
    [f.hd, f.ha, f.hb]
  | .texp hd ha _ _ _ | .tlog hd ha _ _ _ | .trcp hd ha _ _ _ | .trsq hd ha _ _ _ | .tsig hd ha _ _ _
  | .tcpy hd ha _ _ | .ttrn hd ha _ _ | .tred hd ha _ _ _ _ | .tcvt hd ha _ _ _ | .qst hd ha _ _ _ _
  | .cpyIn hd ha _ _ | .cpyOut hd ha _ _ | .cpyXc hd ha _ _ _ => [hd, ha]
  | .tfill hd _ _ _ => [hd]
  | .gath hd ha hb _ _ | .scat hd ha hb _ _ => [hd, ha, hb]
  | _ => []

/-- The site an instruction names (R65 subcode 0x7). -/
def siteField : Instr → Option (BitVec 16)
  | .bEq _ _ _ s | .bNe _ _ _ s | .bLt _ _ _ s | .bGe _ _ _ s | .bLtb _ _ _ s | .bGeb _ _ _ s | .bz _ _ s | .bnz _ _ s => s
  | .loop _ _ _ s | .vpick _ _ s | .vread _ _ _ s => some s
  | .ldGLong _ _ _ _ _ s | .ldSLong _ _ _ _ _ s | .ldELong _ _ _ _ _ s => s
  | _ => none

/-- What the checks of R65 need to know of the strand and its launch. -/
structure DecEnv where
  fourSlot  : Bool
  super     : Bool
  gb        : Bool
  det       : Bool
  vcount    : Nat
  inHandler : Bool
deriving DecidableEq, Repr

/-- The privileged special registers (R72). -/
def srPrivileged (n : BitVec 10) : Bool := 0x100 ≤ n.toNat

/-- Privileged instructions (R62, R72). -/
def privileged : Instr → Bool
  | .eret | .repart _ | .halt => true
  | .mfs _ n | .mts n _ => srPrivileged n
  | _ => false

/-- Instructions the launch or the place forbids: subcode 0x6 (R65, R71, R194). -/
def forbidden (e : DecEnv) : Instr → Bool
  | .gbar => !e.gb
  | .amoFadd _ => e.det
  | .mfs _ n => e.det && (n == 9#10 || n == 10#10)
  | .uiret => !e.inHandler
  | _ => false

/-- Subcode 0x8: a wrap that does not meet R64. -/
def wrapBad : Instr → Bool
  | .backRefWrap ka kb kc w => !wrapFits ka kb kc w
  | _ => false

/-- Subcode 0x7: a site at or above VCOUNT. -/
def siteBeyond (e : DecEnv) (i : Instr) : Bool :=
  match siteField i with
  | some s => decide (e.vcount ≤ s.toNat)
  | none => false

/-- The checks 0x3, 0x5, 0x6, 0x7 and 0x8 of R65, in that order. -/
def checkIn (e : DecEnv) (i : Instr) : Dec Instr :=
  if !e.fourSlot && ((xFields i).any (fun r => 32 ≤ r.toNat) || (hFields i).any (fun h => 8 ≤ h.toNat)) then .error .slotMode
  else if privileged i && !e.super then .error .privilege
  else if forbidden e i then .error .launch
  else if siteBeyond e i then .error .site
  else if wrapBad i then .error .wrap
  else .ok i

/-- The scalar register an A-word writes. -/
def aDest : Instr → XReg
  | .nop => 0
  | i => (xFields i).headD 0

/-- The scalar register a C-word writes, implicit x31 included; 0 for none (R52). -/
def cDest : Instr → XReg
  | .call _ | .callr _ => 31
  | .ldGShort d _ _ _ _ | .ldSShort d _ _ _ _ | .ldEShort d _ _ _ _ => d
  | .hget _ d _ | .mfs d _ | .mbox d _ | .rnd d _ => d
  | _ => 0

/-- A bundle in the order of R65: word 0 whole, then word 1, then the rule of R52. The Bool of an error names slot A. -/
def decodeIn (e : DecEnv) (w : Word) : Except (Bool × Bad) Decoded :=
  if bits w 31 1 == 1 then
    match (decodeLong w).bind (checkIn e) with
    | .ok i => .ok (.long i)
    | .error b => .error (false, b)
  else
    match (decodeC (bits w 0 32)).bind (checkIn e) with
    | .error b => .error (false, b)
    | .ok c =>
      match (decodeA (bits w 32 32)).bind (checkIn e) with
      | .error b => .error (true, b)
      | .ok a => if aDest a != 0 && aDest a == cDest c then .error (true, .sameDest) else .ok (.pair c a)

/-- An environment in which no check of the strand or the launch fails. -/
def DecEnv.any : DecEnv := ⟨true, true, true, false, 65536, true⟩

/-- Decoding alone: the checks of R65 that need no strand. -/
def decode (w : Word) : Except (Bool × Bad) Decoded := decodeIn .any w

/-! ## The encoder -/

/-- Format AR (R63). -/
def encAr (d a b : XReg) (fn : BitVec 8) : W32 := (1#6 : BitVec 6) ++ d ++ a ++ b ++ fn

/-- Format AI (R63). -/
def encAi (op : BitVec 6) (d a : XReg) (imm : BitVec 12) : W32 := op ++ d ++ a ++ (0#2 : BitVec 2) ++ imm

/-- Format AF (R63). -/
def encAf (d a b : XReg) (fn : BitVec 4) (t : FTy) : W32 := (0x10#6 : BitVec 6) ++ d ++ a ++ b ++ fn ++ ftyCode t ++ (0#2 : BitVec 2)

/-- The word of an A-word (R63); `none` for anything else. -/
def encodeA : Instr → Option W32
  | .nop => some 0
  | .add d a b => some (encAr d a b 0x00)
  | .sub d a b => some (encAr d a b 0x01)
  | .mul d a b => some (encAr d a b 0x02)
  | .mulh d a b => some (encAr d a b 0x03)
  | .mulhb d a b => some (encAr d a b 0x04)
  | .div d a b => some (encAr d a b 0x05)
  | .divb d a b => some (encAr d a b 0x06)
  | .rem d a b => some (encAr d a b 0x07)
  | .remb d a b => some (encAr d a b 0x08)
  | .and d a b => some (encAr d a b 0x09)
  | .or d a b => some (encAr d a b 0x0A)
  | .xor d a b => some (encAr d a b 0x0B)
  | .shl d a b => some (encAr d a b 0x0C)
  | .shr d a b => some (encAr d a b 0x0D)
  | .sra d a b => some (encAr d a b 0x0E)
  | .rol d a b => some (encAr d a b 0x0F)
  | .min d a b => some (encAr d a b 0x10)
  | .max d a b => some (encAr d a b 0x11)
  | .minb d a b => some (encAr d a b 0x12)
  | .maxb d a b => some (encAr d a b 0x13)
  | .slt d a b => some (encAr d a b 0x14)
  | .sltb d a b => some (encAr d a b 0x15)
  | .seq d a b => some (encAr d a b 0x16)
  | .sne d a b => some (encAr d a b 0x17)
  | .clz d a => some (encAr d a 0 0x18)
  | .ctz d a => some (encAr d a 0 0x19)
  | .popc d a => some (encAr d a 0 0x1A)
  | .adda d a b => some (encAr d a b 0x1B)
  | .ptag d a b => some (encAr d a b 0x1C)
  | .pfs d a => some (encAr d a 0 0x1D)
  | .pclr d a => some (encAr d a 0 0x1E)
  | .sel d a b c => some ((2#6 : BitVec 6) ++ d ++ a ++ b ++ c ++ (0#2 : BitVec 2))
  | .addi d a imm => some (encAi 0x03 d a imm)
  | .andi d a imm => some (encAi 0x04 d a imm)
  | .ori d a imm => some (encAi 0x05 d a imm)
  | .xori d a imm => some (encAi 0x06 d a imm)
  | .slti d a imm => some (encAi 0x07 d a imm)
  | .shli d a n => some (encAi 0x08 d a ((0#4 : BitVec 4) ++ (0#2 : BitVec 2) ++ n))
  | .shri d a n => some (encAi 0x08 d a ((0#4 : BitVec 4) ++ (1#2 : BitVec 2) ++ n))
  | .srai d a n => some (encAi 0x08 d a ((0#4 : BitVec 4) ++ (2#2 : BitVec 2) ++ n))
  | .bext d a wm1 lsb => some (encAi 0x09 d a (wm1 ++ lsb))
  | .bins d a wm1 lsb => some (encAi 0x0A d a (wm1 ++ lsb))
  | .fld d a k => some (encAi 0x0B d a k)
  | .addai d a imm => some (encAi 0x0C d a imm)
  | .lih d imm => some ((0x0D#6 : BitVec 6) ++ d ++ imm)
  | .pch d imm => some ((0x0E#6 : BitVec 6) ++ d ++ imm)
  | .fadd t d a b => some (encAf d a b 0x0 t)
  | .fsub t d a b => some (encAf d a b 0x1 t)
  | .fmul t d a b => some (encAf d a b 0x2 t)
  | .fmin t d a b => some (encAf d a b 0x3 t)
  | .fmax t d a b => some (encAf d a b 0x4 t)
  | .fabs t d a => some (encAf d a 0 0x5 t)
  | .fneg t d a => some (encAf d a 0 0x6 t)
  | .flt t d a b => some (encAf d a b 0x7 t)
  | .fle t d a b => some (encAf d a b 0x8 t)
  | .feq t d a b => some (encAf d a b 0x9 t)
  | .fclass t d a => some (encAf d a 0 0xA t)
  | .ffma t d a b c => some ((0x11#6 : BitVec 6) ++ d ++ a ++ b ++ c ++ ftyCode t)
  | .fdiv t d a b la => some ((0x12#6 : BitVec 6) ++ d ++ a ++ b ++ la ++ ftyCode t ++ (0#2 : BitVec 2))
  | .fsqrt t d a la => some ((0x12#6 : BitVec 6) ++ d ++ a ++ (0#6 : BitVec 6) ++ la ++ ftyCode t ++ (2#2 : BitVec 2))
  | .fcvt dt st d a => some ((0x13#6 : BitVec 6) ++ d ++ a ++ tyCode dt ++ tyCode st ++ (0#6 : BitVec 6))
  | _ => none

/-- Format CM (R59). -/
def encCm (op : BitVec 6) (d a : XReg) (la : La) (ty : BitVec 4) (off : BitVec 5) : W32 :=
  (0#1 : BitVec 1) ++ op ++ d ++ a ++ la ++ ty ++ off

/-- Format CH (R59). -/
def encCh (h : HReg) (x : XReg) (sub : BitVec 3) (la : La) (arg : BitVec 8) : W32 :=
  (0#1 : BitVec 1) ++ (0x11#6 : BitVec 6) ++ h ++ x ++ sub ++ la ++ arg

/-- Format CS (R59). -/
def encCs (x : XReg) (fn : BitVec 5) (z : BitVec 14) : W32 :=
  (0#1 : BitVec 1) ++ (0x3E#6 : BitVec 6) ++ x ++ fn ++ z

/-- Formats CJ and CR (R59). -/
def encCj (sub : BitVec 5) (off : BitVec 20) : W32 := (0#1 : BitVec 1) ++ (2#6 : BitVec 6) ++ sub ++ off

/-- The space bit of HLD, HST and AMO. -/
def spaceBit : Space → BitVec 1
  | .glob => 0
  | .scratch => 1

/-- The word of a short C-word (R59); `none` for anything else. -/
def encodeC : Instr → Option W32
  | .nop => some 0
  | .jmp off => some (encCj 0 off)
  | .call off => some (encCj 1 off)
  | .jr a => some ((0#1 : BitVec 1) ++ (3#6 : BitVec 6) ++ a ++ (0#5 : BitVec 5) ++ (0#14 : BitVec 14))
  | .callr a => some ((0#1 : BitVec 1) ++ (3#6 : BitVec 6) ++ a ++ (1#5 : BitVec 5) ++ (0#14 : BitVec 14))
  | .ldGShort d a la ty off => some (encCm 0x08 d a la (tyCode ty) off)
  | .ldSShort d a la ty off => some (encCm 0x09 d a la (tyCode ty) off)
  | .stGShort d a ty off => some (encCm 0x0A d a 0 (tyCode ty) off)
  | .stSShort d a ty off => some (encCm 0x0B d a 0 (tyCode ty) off)
  | .ldEShort d a la ty off => some (encCm 0x0C d a la (tyCode ty) off)
  | .stEShort d a ty off => some (encCm 0x0D d a 0 (tyCode ty) off)
  | .pf a l2 off => some (encCm 0x0E 0 a 0 (if l2 then 1 else 0) off)
  | .fence k sc ss =>
    some ((0#1 : BitVec 1) ++ (0x10#6 : BitVec 6) ++ kindCode k ++ scopeCode sc ++ storageCode ss ++ (0#18 : BitVec 18))
  | .hset h a sp => some (encCh h a 0 0 (if sp then 1 else 0))
  | .hld h a la sp off => some (encCh h a 1 la (spaceBit sp ++ off))
  | .hst h a sp off => some (encCh h a 2 0 (spaceBit sp ++ off))
  | .hget h d f => some (encCh h d 3 0 f)
  | .hput h a f => some (encCh h a 4 0 f)
  | .hstep h a => some (encCh h a 5 0 0)
  | .twait h => some (encCh h 0 6 0 0)
  | .leesClr => some ((0#1 : BitVec 1) ++ (0x12#6 : BitVec 6) ++ (0#6 : BitVec 6) ++ (0#3 : BitVec 3) ++ (0#16 : BitVec 16))
  | .leesSv a => some ((0#1 : BitVec 1) ++ (0x12#6 : BitVec 6) ++ a ++ (1#3 : BitVec 3) ++ (0#16 : BitVec 16))
  | .leesLd a => some ((0#1 : BitVec 1) ++ (0x12#6 : BitVec 6) ++ a ++ (2#3 : BitVec 3) ++ (0#16 : BitVec 16))
  | .sevt a b sc =>
    some ((0#1 : BitVec 1) ++ (0x13#6 : BitVec 6) ++ a ++ b ++ (0#3 : BitVec 3) ++ scopeCode sc ++ (0#7 : BitVec 7))
  | .wevt a b sc =>
    some ((0#1 : BitVec 1) ++ (0x13#6 : BitVec 6) ++ a ++ b ++ (1#3 : BitVec 3) ++ scopeCode sc ++ (0#7 : BitVec 7))
  | .trap code => some (encCs 0 0 code)
  | .eret => some (encCs 0 1 0)
  | .mfs d n => some (encCs d 2 (n ++ (0#4 : BitVec 4)))
  | .mts n a => some (encCs a 3 (n ++ (0#4 : BitVec 4)))
  | .repart a => some (encCs a 4 0)
  | .launch a => some (encCs a 5 0)
  | .halt => some (encCs 0 6 0)
  | .uiret => some (encCs 0 7 0)
  | .mbox d la => some (encCs d 8 (la ++ (0#10 : BitVec 10)))
  | .rnd d la => some (encCs d 9 (la ++ (0#10 : BitVec 10)))
  | .pub a => some (encCs a 10 0)
  | .pubLees => some (encCs 0 10 0)
  | .gbar => some (encCs 0 11 0)
  | .fin => some (encCs 0 12 0)
  | _ => none

/-- Format LB (R60). -/
def encLb (op : BitVec 6) (cond : BitVec 5) (a b : XReg) (off : BitVec 20) (v : BitVec 1) (slot : BitVec 16) : Word :=
  slot ++ a ++ b ++ v ++ (0#3 : BitVec 3) ++ (1#1 : BitVec 1) ++ op ++ cond ++ off

/-- Format LB with an optional site (R60, R102). -/
def encBr (cond : BitVec 5) (a b : XReg) (off : BitVec 20) (site : Option (BitVec 16)) : Word :=
  encLb 0x04 cond a b off (if site.isSome then 1 else 0) (site.getD 0)

/-- Format LM (R60). -/
def encLm (op : BitVec 6) (d a : XReg) (la : La) (ty : BitVec 4) (off : BitVec 20) (site : Option (BitVec 16)) : Word :=
  site.getD 0 ++ (if site.isSome then (1#1 : BitVec 1) else 0) ++ bits off 5 15 ++ (1#1 : BitVec 1) ++ op ++ d ++ a ++ la ++ ty
    ++ bits off 0 5

/-- Format LA (R60). -/
def encAmo (aop : BitVec 4) (f : AmoForm) (c : XReg) : Word :=
  aop ++ (0#1 : BitVec 1) ++ (if f.wide then (1#1 : BitVec 1) else 0) ++ (if f.sc then (1#1 : BitVec 1) else 0) ++ spaceBit f.space ++ c
    ++ scopeCode f.scope ++ (0#15 : BitVec 15) ++ (1#1 : BitVec 1) ++ (0x0F#6 : BitVec 6) ++ f.d ++ f.a ++ f.b ++ f.la ++ (0#3 : BitVec 3)

/-- Format LE (R60). -/
def encLe (op : BitVec 6) (l : Le) : Word :=
  l.xa ++ l.xb ++ l.opt ++ (1#1 : BitVec 1) ++ op ++ l.hd ++ l.ha ++ l.hb ++ l.la ++ l.sub

/-- A tile command's word (R218). -/
def encTile (hd ha hb : HReg) (la : La) (xa xb : XReg) (rm sel : BitVec 3) (sub : BitVec 9) : Word :=
  encLe 0x19 ⟨hd, ha, hb, la, sub, xa, xb, rm ++ sel ++ (0#14 : BitVec 14)⟩

/-- A tile command's word from its form (R218). -/
def encForm (f : TileForm) (rm sel : BitVec 3) (sub : BitVec 9) : Word := encTile f.hd f.ha f.hb f.la f.xa 0 rm sel sub

/-- The bundle of a long instruction (R60); `none` for anything else. -/
def encodeLong : Instr → Option Word
  | .bEq a b off s => some (encBr 0 a b off s)
  | .bNe a b off s => some (encBr 1 a b off s)
  | .bLt a b off s => some (encBr 2 a b off s)
  | .bGe a b off s => some (encBr 3 a b off s)
  | .bLtb a b off s => some (encBr 4 a b off s)
  | .bGeb a b off s => some (encBr 5 a b off s)
  | .bz a off s => some (encBr 6 a 0 off s)
  | .bnz a off s => some (encBr 7 a 0 off s)
  | .loop a b off slot => some (encLb 0x05 0 a b off 1 slot)
  | .vpick d la slot =>
    some (slot ++ (0#16 : BitVec 16) ++ (1#1 : BitVec 1) ++ (6#6 : BitVec 6) ++ d ++ (0#5 : BitVec 5) ++ la ++ (0#2 : BitVec 2) ++ (0#8 : BitVec 8))
  | .vread d la w slot =>
    some (slot ++ (0#16 : BitVec 16) ++ (1#1 : BitVec 1) ++ (6#6 : BitVec 6) ++ d ++ (1#5 : BitVec 5) ++ la ++ w ++ (0#8 : BitVec 8))
  | .ldGLong d a la ty off s => some (encLm 0x08 d a la (tyCode ty) off s)
  | .ldSLong d a la ty off s => some (encLm 0x09 d a la (tyCode ty) off s)
  | .stGLong d a ty off => some (encLm 0x0A d a 0 (tyCode ty) off none)
  | .stSLong d a ty off => some (encLm 0x0B d a 0 (tyCode ty) off none)
  | .ldELong d a la ty off s => some (encLm 0x0C d a la (tyCode ty) off s)
  | .stELong d a ty off => some (encLm 0x0D d a 0 (tyCode ty) off none)
  | .amoAdd f => some (encAmo 0 f 0)
  | .amoAnd f => some (encAmo 1 f 0)
  | .amoOr f => some (encAmo 2 f 0)
  | .amoXor f => some (encAmo 3 f 0)
  | .amoMin f => some (encAmo 4 f 0)
  | .amoMax f => some (encAmo 5 f 0)
  | .amoMinb f => some (encAmo 6 f 0)
  | .amoMaxb f => some (encAmo 7 f 0)
  | .amoSwp f => some (encAmo 8 f 0)
  | .amoCas f c => some (encAmo 9 f c)
  | .amoFadd f => some (encAmo 10 f 0)
  | .backRefWrap ka kb kc w =>
    match encodeA w with
    | some a => some (a ++ (1#1 : BitVec 1) ++ (1#6 : BitVec 6) ++ ka ++ kb ++ kc ++ (0#13 : BitVec 13))
    | none => none
  | .mma hd ha hb la xa => some (encLe 0x18 ⟨hd, ha, hb, la, 0, xa, 0, 0⟩)
  | .mmz hd ha hb la xa => some (encLe 0x18 ⟨hd, ha, hb, la, 1, xa, 0, 0⟩)
  | .rep la xa => some (encLe 0x18 ⟨0, 0, 0, la, 2, xa, 0, 0⟩)
  | .repw la xa xb => some (encLe 0x18 ⟨0, 0, 0, la, 3, xa, xb, 0⟩)
  | .tadd f rm => some (encForm f (rmCode rm) 0 0)
  | .tsub f rm => some (encForm f (rmCode rm) 0 1)
  | .tmul f rm => some (encForm f (rmCode rm) 0 2)
  | .tfma f rm => some (encForm f (rmCode rm) 0 3)
  | .tmax f rm => some (encForm f (rmCode rm) 0 4)
  | .tmin f rm => some (encForm f (rmCode rm) 0 5)
  | .texp hd ha la xa rm => some (encTile hd ha 0 la xa 0 (rmCode rm) 0 6)
  | .tlog hd ha la xa rm => some (encTile hd ha 0 la xa 0 (rmCode rm) 0 7)
  | .trcp hd ha la xa rm => some (encTile hd ha 0 la xa 0 (rmCode rm) 0 8)
  | .trsq hd ha la xa rm => some (encTile hd ha 0 la xa 0 (rmCode rm) 0 9)
  | .tsig hd ha la xa rm => some (encTile hd ha 0 la xa 0 (rmCode rm) 0 10)
  | .tcmp f p => some (encForm f 0 (predCode p) 11)
  | .tmsk f => some (encForm f 0 0 12)
  | .tfill hd la xa xb => some (encTile hd 0 0 la xa xb 0 0 13)
  | .tcpy hd ha la xa => some (encTile hd ha 0 la xa 0 0 0 14)
  | .ttrn hd ha la xa => some (encTile hd ha 0 la xa 0 0 0 15)
  | .tred hd ha la xa rm op => some (encTile hd ha 0 la xa 0 (rmCode rm) (redCode op) 16)
  | .tselk f xb isMin => some (encTile f.hd f.ha f.hb f.la f.xa xb 0 (if isMin then 1 else 0) 17)
  | .tcvt hd ha la xa rm => some (encTile hd ha 0 la xa 0 (rmCode rm) 0 18)
  | .qst hd ha la xa rm cont =>
    some (encLe 0x1A ⟨hd, ha, 0, la, 0, xa, 0, rmCode rm ++ (if cont then (1#1 : BitVec 1) else 0) ++ (0#16 : BitVec 16)⟩)
  | .cpyIn hd ha la xb => some (encLe 0x1B ⟨hd, ha, 0, la, 0, 0, xb, 0⟩)
  | .cpyOut hd ha la xb => some (encLe 0x1B ⟨hd, ha, 0, la, 1, 0, xb, 0⟩)
  | .cpyXc hd ha la xa xb => some (encLe 0x1B ⟨hd, ha, 0, la, 2, xa, xb, 0⟩)
  | .gath hd ha hb la xb => some (encLe 0x1B ⟨hd, ha, hb, la, 3, 0, xb, 0⟩)
  | .scat hd ha hb la xb => some (encLe 0x1B ⟨hd, ha, hb, la, 4, 0, xb, 0⟩)
  | _ => none

/-- The bundle that holds one instruction, its other slot a no-operation (R50, R55): a long form, a C-word in word 0
or an A-word in word 1. Events have no encoding. -/
def encode (i : Instr) : Option Word :=
  match encodeLong i with
  | some w => some w
  | none =>
    match encodeC i with
    | some c => some ((0#32 : BitVec 32) ++ c)
    | none =>
      match encodeA i with
      | some a => some (a ++ (0#32 : BitVec 32))
      | none => none

/-- The instruction a decoded bundle stands for when its other slot is a no-operation. -/
def Decoded.single : Decoded → Option Instr
  | .long i => some i
  | .pair c .nop => some c
  | .pair .nop a => some a
  | .pair _ _ => none

/-- The instruction a bundle with one instruction decodes to. -/
def decodeOne (w : Word) : Option Instr :=
  match decode w with
  | .ok dd => dd.single
  | .error _ => none

/-- A word whose bits name a function of major 0x01 of the A-word map with D below 32; as a C-word it is a jump or a call. -/
def readAsRegisterForm (w : W32) : Bool := w.extractLsb' 25 7 == 2 && w.extractLsb' 0 20 != 0 && (decodeA w).isOk

/-- The bundle of a word of the opcode table: `nbits` bits from bit 0 of the bundle on. A 32-bit word is word 0; where it
is no C-word, or names a register form, it is word 1 of a bundle whose word 0 is a no-operation, as R55 allows (the table numbers an
A-word's bits within the word and does not say which slot it stands in: log 32). -/
def tableBundle (nbits w : Nat) : Word :=
  if 32 < nbits then BitVec.ofNat 64 w
  else
    let v : W32 := BitVec.ofNat 32 w
    if (decodeA v).isOk && (readAsRegisterForm v || !(decodeC v).isOk) then v ++ (0#32 : BitVec 32) else BitVec.ofNat 64 (w % 2 ^ 32)

/-- The instruction the decoder reads from a word of the opcode table. -/
def decodeTableWord (nbits w : Nat) : Option Instr := decodeOne (tableBundle nbits w)

end Sys2Proof
end

