-- ==== Sys2Proof/Machine/State.lean ====
section
/-! DEFINITION. The state of the Zalfin Z2: every strand, core, cluster, context, launch and engine command of one
package, its memory, and the package's own registers. Plain data only. -/

namespace Sys2Proof.Machine

open Sys2Proof

/-! ## Strands -/

/-- An element load: the byte keys of its data and of its scale, lowest address first, each with whether the L1 may serve it (R140),
and the bytes of a part that has been read before the other (R162). -/
structure ElemRead where
  data    : List (Nat × Bool)
  bitOff  : Nat
  nbits   : Nat
  ef      : Nat
  scf     : Nat
  scale   : List (Nat × Bool)
  ty      : Ty
  gotData  : Option (List Byte)
  gotScale : Option (List Byte)
deriving DecidableEq, Repr

/-- How a pending result gets its value (R73, R75). -/
inductive PendOp where
  /-- Known at issue: RND, MBOX, a word of system space. -/
  | value (v : Word)
  /-- Known at issue, its exceptions accruing when it lands: a quotient, a root, an element of system space (R93, R98, R162). -/
  | float (v : Word)
  /-- A plain load: byte key, type, and whether the L1 may serve it (R140, R158). -/
  | load (key : Nat) (ty : Ty) (l1 : Bool)
  /-- An element load (R162). -/
  | elem (e : ElemRead)
  /-- HLD: byte key of the 32 bytes (R178). -/
  | handle (key : Nat)
  /-- AMO: the entry of `State.stores` that performs it (R167). -/
  | amo (id : Nat)
  /-- VPICK (none) or VREAD of a word, with the base and delta slot's byte keys; `upto` bounds the identifiers of the updates that
  precede it (R113, R115). -/
  | vintage (base delta : Nat) (slot : Nat) (word : Option Nat) (upto : Nat)
  /-- The completion register of an engine command (R207, R222). -/
  | cmd (cid : Nat)
deriving DecidableEq, Repr

/-- One long-latency result and its lookahead window (R73, R74). Register 0 to 63 scalar, 64 to 79 handle (R288). `prod` is the address of
the bundle that issued it; `missed` says that some of what has been read for it came from beyond the L1 (R111); the accesses that the strand
issued before it are those of the identifiers below `seq` (R159). -/
structure Pend where
  reg    : Nat
  win    : Nat
  prod   : Word
  op     : PendOp
  got    : Option Handle
  missed : Bool
  flags  : BitVec 5
  landed : Bool
  site   : Option Nat
  start  : Nat
  seq    : Nat
deriving DecidableEq, Repr

/-- A fault found by a strand: cause, subcode, slot, element field, fault address, bundle address, bundle bits and the
address at which the strand resumes (R270 to R274). -/
structure FaultInfo where
  cause  : Nat
  sub    : Nat
  slotA  : Bool
  elem   : BitVec 32
  addr   : Word
  baddr  : Word
  bundle : Word
  resume : Word
  deferd : Bool
  prog   : Nat
  hnd    : List Handle
  pblk   : BitVec 512
deriving DecidableEq, Repr

/-- The lees bank: its tag (%leestag) and the residues stored (R232). -/
structure Lees where
  tag : Word
  c   : List (BitVec 32)
deriving DecidableEq, Repr

/-- One body command of a matrix command: MMZ or MMA, its captured handles, completion register, identifier, bundle, issue cycle and core
of the issue (R182, R211). -/
structure Body where
  mmz   : Bool
  hd    : Handle
  ha    : Handle
  hb    : Handle
  reg   : Nat
  cid   : Nat
  baddr : Word
  word  : Word
  cycle : Nat
  core0 : Nat
deriving DecidableEq, Repr

/-- The repeat buffer of a strand (R211). -/
structure Rep where
  armed : Bool
  n     : Nat
  k     : Nat
  got   : List Body
deriving DecidableEq, Repr

/-- A fence in progress, or an atomic that acts as one (R172), with its ticket where it is sequentially consistent (R173). -/
structure FenceReq where
  amo    : Bool
  kind   : FenceKind
  scope  : Scope
  ss     : Storage
  ticket : Option Nat
  acc    : Option Nat
  old    : Option Word
  done   : Bool
deriving DecidableEq, Repr

/-- A system-space access of a strand: physical address, what it does (R302), and the port it went out by (R303). -/
structure SysReq where
  pa   : Nat
  op   : ExtOp
  port : Option Nat
deriving DecidableEq, Repr

/-- A release of an agent scope, executed in a slot, that puts an access in flight before what follows it (R262). -/
structure Rel where
  id    : Nat
  slot  : Nat
  scope : Scope
deriving DecidableEq, Repr

/-- An access in flight that happens before what a strand does from now on (R263); `deep` says that an acquire which emptied the L1 stands
between (R264), `led` that a store or AMO of the strand does, which its engine commands follow (R265). -/
structure Before where
  id   : Nat
  deep : Bool
  led  : Bool
deriving DecidableEq, Repr

/-- What a read of a byte meets (R262): the releases before the write it holds, and those before every write to it so far, which a later
atomic passes on. -/
structure Told where
  key  : Nat
  last : List Rel
  all  : List Rel
deriving DecidableEq, Repr

/-- One leaf translation (R146, R148). -/
structure Leaf where
  ctx  : Nat
  va   : Nat
  big  : Bool
  pa   : Nat
  nl1  : Bool
  x    : Bool
  w    : Bool
  r    : Bool
deriving DecidableEq, Repr

/-- A LAUNCH or REPART in hand: the record that waits for room, the core that drains and its new mode, or that its action has been taken (R34, R70). -/
inductive Doing where
  | launch (words : List Word)
  | repart (core : Nat) (four : Bool)
  | acted
deriving DecidableEq, Repr

/-- A source that a back reference waits for (R243): entry, distance, source index. -/
structure WaitRef where
  entry : Nat
  dist  : Nat
  src   : Nat
deriving DecidableEq, Repr

/-- What a slot holds (R67): nothing, an item, or an item whose END is waiting for retirement. -/
inductive Status where
  | idle | running | ending
deriving DecidableEq, Repr

/-- One strand: the context held in slot `id` (R2, R69). `sid` tells strands apart: a strand keeps it wherever it is restored
(R284). `leaves` are the translations that a bundle with an access outstanding goes on with, `walkFault` the page and subcode of a
failed walk it waited for (R149), `last` the last bundle issued, with its bits (R51), and `word` the bits of the bundle last tried
(R274). `rels` are the releases it has executed, `heard` those before what it has read, and `before` what its acquires have put before it
(R262, R263). `justIn` holds the registers that a result has landed in, with the cycle (R73). `code` is what an ST.E whose write has been sent writes, with its exceptions (R163), and `leesGot` the words of an image that
a LEES.LD in hand has read (R240). -/
structure Strand where
  id        : Nat
  sid       : Nat
  status    : Status
  reserved  : Option (Nat × Nat)
  x         : Vector Word 64
  h         : Vector Handle 16
  pc        : Word
  npc       : Word
  super     : Bool
  fpc       : Word
  fcause    : Word
  faddr     : Word
  uid       : Word
  cuvc      : BitVec 32
  tvec      : Word
  epc       : Word
  estat     : BitVec 4
  lees      : Lees
  pend      : List Pend
  trapWins  : List (Nat × Nat × Word)
  uiWins    : List (Nat × Nat × Word)
  uiPc      : Word
  inUi      : Bool
  heldInts  : List (BitVec 16 × Word)
  mbox      : List Word
  mboxRes   : Nat
  rep       : Rep
  vw        : BitVec 8
  vp        : BitVec 8
  leesPub   : Bool
  leesRcv   : Bool
  leesPart  : Bool
  waitRef   : List WaitRef
  gbar      : Nat
  atBar     : Bool
  index     : Nat
  launch    : Nat
  ctx       : Nat
  g0        : Nat
  stall     : Nat
  faulting  : Option FaultInfo
  fence     : Option FenceReq
  sys       : Option SysReq
  sysGot    : List (Nat × SysResp)
  actDone   : Option Word
  doing     : Option Doing
  seen      : Option Word
  leaves    : List Leaf
  walkFault : Option (Nat × Nat)
  ibuf      : Option (Word × Word)
  last      : Option (Word × Word)
  word      : Word
  code      : Option (Nat × BitVec 5)
  leesGot   : List (Nat × List Byte)
  relAt     : Option Nat
  chosen    : Bool
  rels      : List Rel
  heard     : List Rel
  before    : List Before
  justIn    : List (Nat × Nat)
  record    : List Byte
deriving DecidableEq, Repr

/-! ## Engine commands -/

/-- A deferred fault of an engine command (R279). -/
structure DFault where
  cause : Nat
  sub   : Nat
  elem  : Nat
  prog  : Nat
  hnd   : List Handle
  copy  : Bool
  addr  : Word
deriving DecidableEq, Repr

/-- The queue a command belongs to (R209, R221, R187). -/
inductive Engine where
  | matrix | tile | copy
deriving DecidableEq, Repr

/-- One engine command from issue to completion (R176, R195, R206, R221, R289). Identifiers rise in issue order; `cycle` and `core0` are
those of the issue (R182), `since` is the cycle from which it has been in its queue (R216), `tscale` is the tensor scale of the destination
as read at issue (R219), and `early` holds source bytes that have been read before their unit (R265); `late` holds what the unit in progress
still has to write, once some of it is written: the key of each byte, the bits of it that the unit writes, and their values (R258, R268);
`walkFault` is the page and subcode of a failed walk it waited for (R149). -/
structure Cmd where
  cid     : Nat
  engine  : Engine
  instr   : Instr
  word    : Word
  baddr   : Word
  strand  : Nat
  launch  : Nat
  ctx     : Nat
  item    : Nat
  core    : Nat
  core0   : Nat
  cycle   : Nat
  since   : Nat
  hd      : Handle
  ha      : Handle
  hb      : Handle
  xs      : Word
  pblk    : BitVec 512
  idxs    : List (BitVec 32)
  body    : List Body
  iters   : Nat
  reg     : Nat
  started : Bool
  prog    : Nat
  c0      : BitVec 32
  flags   : BitVec 6
  cnt     : Nat
  bank    : List (BitVec 32)
  mask    : BitVec 32
  mb      : Bool
  key     : Option (BitVec 256)
  target  : Nat
  tscale  : Nat
  early   : List (Nat × Byte)
  late    : Option (List (Nat × Byte × Byte))
  walkFault : Option (Nat × Nat)
  saved   : Bool
  dfault  : Option DFault
deriving DecidableEq, Repr

/-! ## Memory in flight -/

/-- The AMO operations of R167. -/
inductive AmoOp where
  | add | and | or | xor | min | max | minb | maxb | swp | cas | fadd
deriving DecidableEq, Repr

/-- What an access in flight does at its home. -/
inductive MemOp where
  /-- Writes bytes from the first key on. -/
  | store (bytes : List Byte)
  /-- Writes a run of bits of the little-endian bytes at the keys, keeping the others (R163). -/
  | bitsAt (off len v : Nat)
  /-- A read-modify-write (R167): operand, compare value, width in bytes. -/
  | amo (op : AmoOp) (size : Nat) (b c : Word)
  /-- An event add that keeps bit 63 (R257). -/
  | event (inc : Word)
deriving DecidableEq, Repr

/-- A store, AMO or event add issued and not yet performed (R171): its strand's `sid` and flat slot number (R2), the releases before it, which
a read of it meets (R262), and the accesses in flight that happen before it (R263). -/
structure Access where
  id      : Nat
  strand  : Nat
  flat    : Nat
  carries : List Rel
  after   : List Nat
  launch  : Nat
  cluster : Nat
  kid     : Nat
  keys    : List Nat
  op      : MemOp
  ticket  : Option Nat
deriving DecidableEq, Repr

/-- What a vintage update adds (R111): its strand's `sid` and flat slot number, kind code of R106, and the three words. -/
structure VUpd where
  id     : Nat
  strand : Nat
  flat   : Nat
  launch : Nat
  ctx    : Nat
  vbase  : Nat
  vdelta : Nat
  slot   : Nat
  kind   : Nat
  w0     : Nat
  w1     : Nat
  w2     : Nat
deriving DecidableEq, Repr

/-- Ownership of a destination line by a copy command (R188): line key, command, whether granted. -/
structure Owner where
  line    : Nat
  cid     : Nat
  granted : Bool
deriving DecidableEq, Repr

/-- Who waits for a page walk (R149): a strand by its `sid`, or an engine command by its identifier. -/
inductive Waiter where
  | strand (sid : Nat)
  | cmd (cid : Nat)
deriving DecidableEq, Repr

/-- A page walk in flight on a compute die (R149): the context, the 64 KiB page, and the misses it serves with their clusters. -/
structure Walk where
  die     : Nat
  ctx     : Nat
  page    : Nat
  waiters : List (Nat × Waiter)
deriving DecidableEq, Repr

/-- An access performed at its home in the home's present cycle (R117, R168, R297): byte key, cycle, flat slot number of its strand, or
one above all of them for another party. -/
structure HomeUse where
  key   : Nat
  cycle : Nat
  flat  : Nat
deriving DecidableEq, Repr

/-- A vine publication (R244, R248): launch, item, entry, value, the publisher's cluster, and where it has arrived. -/
structure Pub where
  launch  : Nat
  item    : Nat
  entry   : Nat
  value   : Word
  cluster : Nat
  here    : Bool
  away    : Option Nat
deriving DecidableEq, Repr

/-- A lees publication (R250): the bank, or none for the launch-start bank. -/
structure LeesPubl where
  launch  : Nat
  item    : Nat
  bank    : Option Lees
  cluster : Nat
  here    : Bool
  away    : Option Nat
deriving DecidableEq, Repr

/-! ## Launches and contexts -/

/-- A copied kernel descriptor (R16). -/
structure Desc where
  entry  : Word
  first  : Word
  count  : Word
  shape  : Word
  ctl    : Word
  fmtp   : Word
  vine   : Word
  vbase  : Word
  vdelta : Word
  vcount : Word
  vdef   : List Word
  ident  : Word
deriving DecidableEq, Repr

/-- STATE of R31 for an accepted launch. -/
inductive LState where
  | accepted | running | retired | aborted
deriving DecidableEq, Repr

/-- A chunk handed to a cluster (R42, R43). -/
structure ChunkAt where
  n       : Nat
  cluster : Nat
deriving DecidableEq, Repr

/-- A group of items in a cluster with its scratch allocation and barrier count (R44, R252), and the accesses in flight that the arrivals at
its next barrier, and those at its last one, put before what its items do then (R254). -/
structure Group where
  launch  : Nat
  cluster : Nat
  g0      : Nat
  off     : Nat
  gran    : Nat
  size    : Nat
  retired : Nat
  barrier : Nat
  yielded : Bool
  told    : List Nat
  ready   : List Nat
deriving DecidableEq, Repr

/-- The harvest state of a launch in a cluster (R44): chunks held, next index, items dispatched and not retired, a request for a chunk
(R43), a yield chosen or made (R47), its trellis context (R248), and the number of that context, or of the place of its image (R287). -/
structure Harvest where
  launch  : Nat
  cluster : Nat
  chunks  : List Nat
  next    : Nat
  live    : List Nat
  wants   : Bool
  yielding : Bool
  yielded : Bool
  trellis : Bool
  slot    : Nat
deriving DecidableEq, Repr

/-- An accepted launch (R22, R29, R31); `owed` are accesses in flight of others that happen before what its retired items did (R37, R263). -/
structure Launch where
  num     : Nat
  ctx     : Nat
  pri     : Nat
  descAt  : Nat
  desc    : Desc
  fmt     : List (BitVec 128)
  seed    : Word
  stat    : Word
  seva    : Word
  sinc    : Word
  ssys    : Bool
  state   : LState
  parts   : List Nat
  chunks  : List ChunkAt
  nchunk  : Nat
  nretired : Nat
  merged  : Bool
  signed  : Bool
  owed    : List Nat
deriving DecidableEq, Repr

/-- A loaded code object (R14): its sections' virtual addresses and sizes and its kernel symbols. -/
structure Loaded where
  id      : Nat
  text    : Nat
  textLen : Nat
  const   : Nat
  constLen : Nat
  vbase   : Nat
  vdelta  : Nat
  vcount  : Nat
  kernels : List (String × Nat × Bool)
deriving DecidableEq, Repr

/-- How far the sequencer is with the record at the head of a queue (R35): waiting at step 3, or copying the descriptor and then the
table at step 6, with the words of the pieces read so far (R22). -/
inductive HeadState where
  | none
  | waiting (words : List Word)
  | copying (words got : List Word)
deriving DecidableEq, Repr

/-- Strand record `num` of a cellar (R288): the slot mode it had, whether a yield saved it (R70), and the strand under the number of its
slot. -/
structure Saved where
  num    : Nat
  four   : Bool
  yielded : Bool
  strand : Strand
deriving DecidableEq, Repr

/-- The states of a context (R299); idle and active are told apart by its queue and its launches. A context is closing while its launches
have still to end before the later steps of DESTROY, or before the state of a TDISP error (R309). -/
inductive CtxState where
  | free | created | destroying | tdiError
  | closing (tdi : Bool)
deriving DecidableEq, Repr

/-- One context: its register page, queues, seed stack and cellar (R32, R38, R299). -/
structure Context where
  lqbase  : Word
  logn    : Nat
  en      : Bool
  err     : Bool
  head    : Nat
  tail    : Nat
  devq    : List (List Word)
  hostSt  : HeadState
  devSt   : HeadState
  root    : Word
  tvec    : Word
  frbase  : Word
  cellar  : Word
  nslot   : Nat
  clset   : BitVec 96
  cseed   : Word
  seeds   : List Word
  tlbBusy : Bool
  tlbErr  : Bool
  tlbInv  : Word
  cstate  : CtxState
  ign     : Bool
  peers   : List (Nat × Word)
  objects : List Loaded
  nextObj : Nat
  saved   : List Saved
  impKey  : Option (BitVec 256)
  hasKey  : Bool
deriving DecidableEq, Repr

/-! ## Clusters and cores -/

/-- A core: its slot mode (R69), and the first of its cycles that has given no turn and comes after each that has (R66). -/
structure Core where
  four : Bool
  used : Nat
deriving DecidableEq, Repr

/-- One L1 line: the key of its first byte, the KeyID and its 64 bytes (R140, R308), its words that came with an uncorrectable error (R292),
the releases that a read of its bytes meets (R262), and the strands that it does not serve, since they have acquired a write it lacks
(R264). -/
structure L1Line where
  line  : Nat
  kid   : Nat
  bytes : List Byte
  bad   : List Nat
  told  : List (Nat × List Rel)
  stale : List Nat
deriving DecidableEq, Repr

/-- The saved scratchpad of one yielded group allocation: offset, bytes, granule tags (R285), and the offsets of its words with an
uncorrectable error (R292). -/
structure Image where
  launch : Nat
  off    : Nat
  bytes  : List Byte
  tags   : List (BitVec 16)
  bad    : List Nat
deriving DecidableEq, Repr

/-- A cluster: store split, L1, TLB, sequence tags, gust permit and the cycle its matrix units went idle, yielded images (R138, R140, R148, R180, R216, R285). -/
structure Cluster where
  l1size  : Nat
  split   : Option Nat
  l1      : List L1Line
  tlb     : List Leaf
  tags    : List (Nat × BitVec 16)
  permit  : Bool
  idle    : Nat
  images  : List Image
  retired : Bool
deriving DecidableEq, Repr

/-! ## The package -/

/-- A count of corrected errors: unit, the milliseconds in which they came, and uncorrectable ones (R293). -/
structure ErrCount where
  unit : ErrUnit
  soft : List Nat
  hard : List Nat
deriving DecidableEq, Repr

/-- A retirement event (R313). -/
structure RetireEv where
  kind : Nat
  num  : Nat
deriving DecidableEq, Repr

/-- Where an access to system space goes (R301, R304): the host, for the function of a context, or a peer's context through a port; each
with the address at the target. -/
inductive Target where
  | host (fn addr : Nat)
  | peer (port pkg rctx addr : Nat)
deriving DecidableEq, Repr

/-- What leaves the package: an answer to the host or a peer, or an access to system space with its target. -/
inductive HostOut where
  | data (bytes : List Byte)
  | value (w : Word)
  | unsupported
  | nak
  | status (n : Nat)
  | objectId (n : Nat)
  | rejected (off type : Nat)
  | sent (dest : Target) (op : ExtOp)
  /-- The accesses that the replay buffer of a port holds go onto the link again; each is delivered once (R303). -/
  | resent (port n : Nat)
  /-- The event signal of R37: adds `inc` to bits 62:0 and, with `poison`, sets bit 63, as one atomic operation. -/
  | signal (dest : Target) (inc : Word) (poison : Bool)
deriving DecidableEq, Repr

/-- A free gust permit of a die: the cluster of the die it stood at in a cycle, from which it moves on (R216). -/
structure Permit where
  die   : Nat
  spot  : Nat
  cycle : Nat
deriving DecidableEq, Repr

/-- The registers and counters of the package (R173, R216, R303, R311, R313, R314). `fails` holds, for a port, the flit that last failed a
replay and how many in a row it has failed. -/
structure Pkg where
  powered   : Bool
  recovery  : Bool
  tickets   : Nat
  nextNum   : Nat
  pkgid     : BitVec 16
  pwrlim    : Nat
  power     : Nat
  temps     : List Nat
  sethr     : Word
  retireq   : List RetireEv
  fwstat    : Nat
  cmdBusy   : Bool
  cmdCode   : Nat
  up        : BitVec 16
  down      : BitVec 16
  trn       : BitVec 16
  replay    : List (Nat × List HostOut)
  fails     : List (Nat × Nat × Nat)
  rxFlits   : List (Nat × List Byte)
  msix      : Nat
  stretch   : List Nat
  budgets   : List Nat
  permits   : List Nat
  ring      : List Permit
  errs      : List ErrCount
  retiredFr : List Nat
  retiredL2 : List Nat
  ms        : Nat
  staged    : Option Firmware
  firmware  : Option Firmware
deriving DecidableEq, Repr

/-! ## The machine -/

/-- What became of the bundle in hand: it completed, lost its turn, entered the trap handler, or the strand left the item. -/
inductive Disp where
  | done | wait | trapped | left
deriving DecidableEq, Repr

/-- The registers a bundle's A-word reads: those before the bundle (R52). -/
structure Latch where
  x   : Vector Word 64
  fpc : Word
  pc  : Word
deriving DecidableEq, Repr

/-- The operands a back-reference wrap has resolved (R64). -/
structure Over where
  a : Option Word
  b : Option Word
  c : Option Word
deriving DecidableEq, Repr

/-- One entry of the tape that says which agent moves next (log 1). -/
inductive Move where
  /-- An event of the opcode table. -/
  | event (i : Instr)
  /-- The turn of strand `id`. -/
  | turn (id : Nat)
  /-- Strand `id` becomes the one that events act on, without issuing. -/
  | focus (id : Nat)
  /-- Cycles of a die pass. -/
  | elapse (die n : Nat)
  /-- A line of a cluster's L1 is replaced (R140). -/
  | l1Drop (cluster line : Nat)
  /-- A TLB entry of a cluster is replaced (R148). -/
  | tlbDrop (cluster ctx va : Nat)
  /-- Result `k` of the strand in hand, an element load, reads its data or its scale before the other part (R162). -/
  | readPart (k : Nat) (scale : Bool)
  /-- The decanter of copy `cid` reads the source byte at a global address before the unit it belongs to (R265). -/
  | readEarly (cid a : Nat)
  /-- The engine of command `cid` writes the aligned 8 bytes of a scratch key before the rest of the unit in progress; `ext` is what targets
  in system space answer (R268). -/
  | writeEarly (cid k : Nat) (ext : List Byte)
  /-- The LEES.LD that the strand in hand is at reads some of the words of its image before the others (R240). -/
  | leesEarly (js : List Nat)
  /-- The security processor is done with a command of CMD (R313). -/
  | cmdDone
deriving DecidableEq, Repr

/-- The whole machine. `cur` is the strand whose turn it is; `strands` holds the others that differ from an empty slot. -/
structure State where
  cur      : Strand
  strands  : List Strand
  cores    : List (Nat × Core)
  clusters : List (Nat × Cluster)
  ctxs     : List (Nat × Context)
  launches : List Launch
  harvest  : List Harvest
  groups   : List Group
  mem      : List Host.Cell
  lineKey  : List (Nat × Nat)
  poison   : List Nat
  stores   : List Access
  vupd     : List VUpd
  told     : List Told
  homeUse  : List HomeUse
  walks    : List Walk
  cmds     : List Cmd
  owners   : List Owner
  pubs     : List Pub
  leesPubs : List LeesPubl
  cycles   : List Nat
  nextId   : Nat
  nextSid  : Nat
  pkg      : Pkg
  disp     : Disp
  latch    : Option Latch
  refs     : Over
  bundle   : Word
  inA      : Bool
  free     : Nat
  hostOut  : List HostOut
  tape     : List Move
deriving DecidableEq, Repr

/-! ## Reset -/

/-- An empty lees bank (R232). -/
def Lees.empty : Lees := ⟨0, []⟩

/-- A disarmed repeat buffer (R211). -/
def Rep.disarmed : Rep := ⟨false, 0, 0, []⟩

/-- The strand of slot `id` at reset: no item, every register 0 (R72, R174, R272, R275, R276; log 2). -/
def Strand.empty (id : Nat) : Strand where
  id := id
  sid := id
  status := .idle
  reserved := none
  x := Vector.replicate 64 0
  h := Vector.replicate 16 0
  pc := 0
  npc := 0
  super := false
  fpc := 0
  fcause := 0
  faddr := 0
  uid := 0
  cuvc := 0
  tvec := 0
  epc := 0
  estat := 0
  lees := .empty
  pend := []
  trapWins := []
  uiWins := []
  uiPc := 0
  inUi := false
  heldInts := []
  mbox := []
  mboxRes := 0
  rep := .disarmed
  vw := 0
  vp := 0
  leesPub := false
  leesRcv := false
  leesPart := false
  waitRef := []
  gbar := 0
  atBar := false
  index := 0
  launch := 0
  ctx := 0
  g0 := 0
  stall := 0
  faulting := none
  fence := none
  sys := none
  sysGot := []
  actDone := none
  doing := none
  seen := none
  leaves := []
  walkFault := none
  ibuf := none
  last := none
  word := 0
  code := none
  leesGot := []
  relAt := none
  chosen := false
  rels := []
  heard := []
  before := []
  justIn := []
  record := []

/-- A core at reset: eight-slot mode (R72). -/
def Core.fresh : Core := ⟨false, 0⟩

/-- A cluster at reset: L1 of 512 KiB, everything empty (R138). -/
def Cluster.fresh : Cluster := ⟨1, none, [], [], [], false, 0, [], false⟩

/-- A context at reset: free, no key, every register 0 (R299; log 2). -/
def Context.fresh : Context where
  lqbase := 0
  logn := 0
  en := false
  err := false
  head := 0
  tail := 0
  devq := []
  hostSt := .none
  devSt := .none
  root := 0
  tvec := 0
  frbase := 0
  cellar := 0
  nslot := 0
  clset := 0
  cseed := 0
  seeds := []
  tlbBusy := false
  tlbErr := false
  tlbInv := 0
  cstate := .free
  ign := false
  peers := []
  objects := []
  nextObj := 0
  saved := []
  impKey := none
  hasKey := false

/-- The package registers at reset (R313, R314, R216; log 2). Free permit c of a die stands at its cluster c (log 44). -/
def Pkg.fresh : Pkg where
  powered := true
  recovery := false
  tickets := 0
  nextNum := 0
  pkgid := 0
  pwrlim := 3000
  power := 0
  temps := [0, 0, 0, 0]
  sethr := 0x0000040001000040
  retireq := []
  fwstat := 0
  cmdBusy := false
  cmdCode := 0
  up := 0
  down := 0
  trn := 0
  replay := []
  fails := []
  rxFlits := []
  msix := 0
  stretch := [16, 16, 16, 16]
  budgets := [4000000000, 4000000000, 4000000000, 4000000000, 4000000000, 4000000000, 4000000000, 4000000000]
  permits := [24, 24, 24, 24]
  ring := (List.range 96).map (fun c => ⟨c / 24, c % 24, 0⟩)
  errs := []
  retiredFr := []
  retiredL2 := []
  ms := 0
  staged := none
  firmware := none

/-- The machine right after package reset. -/
def State.reset : State where
  cur := Strand.empty 0
  strands := []
  cores := []
  clusters := []
  ctxs := []
  launches := []
  harvest := []
  groups := []
  mem := []
  lineKey := []
  poison := []
  stores := []
  vupd := []
  told := []
  homeUse := []
  walks := []
  cmds := []
  owners := []
  pubs := []
  leesPubs := []
  cycles := [0, 0, 0, 0]
  nextId := 0
  nextSid := 6144
  pkg := .fresh
  disp := .done
  latch := none
  refs := ⟨none, none, none⟩
  bundle := 0
  inA := false
  free := 0
  hostOut := []
  tape := []

/-- Reasons the machine stops with a fault. Every fault the manual gives a strand is taken as a trap or an abort, so only the
loss of power stops the machine. -/
inductive Fault where
  /-- Raised by `step` when the package has no power (R312, spec/00) and no reset is next on the tape. Safe: the part does
  nothing at all then. -/
  | noPower
deriving DecidableEq, Repr

/-- Reasons the model gives an instruction no meaning. -/
inductive Refusal where
  /-- Raised by an arm of `exec` whose instruction has no meaning yet. Safe: nothing is claimed of it. -/
  | notModelled (mnemonic : String)
deriving DecidableEq, Repr

end Sys2Proof.Machine
end

