-- ==== Sys2Proof/Machine/Units.lean ====
section
/-! DEFINITION. Descriptor fields, coordinates, and the reading and updating of strands, cores, clusters, contexts and
launches (spec/00 R2, spec/01 R16 to R21, spec/04 R69). -/

namespace Sys2Proof.Machine

open Sys2Proof

/-! ## Descriptor fields -/

/-- GLV (R17). -/
def Desc.glv (d : Desc) : Nat := nbits d.shape.toNat 45 3
/-- Width k of R17. -/
def Desc.width (d : Desc) (k : Nat) : Nat := nbits d.shape.toNat (7 * k) 7
/-- The sum of widths 0 to k − 1. -/
def Desc.widthSum (d : Desc) (k : Nat) : Nat := ((List.range k).map d.width).sum
/-- G of R18. -/
def Desc.gbits (d : Desc) : Nat := if d.glv ≤ 5 then d.widthSum (d.glv + 1) else 0
/-- DRZ (R19). -/
def Desc.drz (d : Desc) : Nat := nbits d.ctl.toNat 50 6
/-- VM (R19). -/
def Desc.vm (d : Desc) : Nat := nbits d.ctl.toNat 48 2
/-- D: a deterministic launch (R19). -/
def Desc.det (d : Desc) : Bool := d.ctl.getLsbD 47
/-- LV: the lees vine is declared (R19). -/
def Desc.lv (d : Desc) : Bool := d.ctl.getLsbD 46
/-- GB: items may execute GBAR (R19). -/
def Desc.gb (d : Desc) : Bool := d.ctl.getLsbD 45
/-- PM: dynamic placement (R19). -/
def Desc.dyn (d : Desc) : Bool := d.ctl.getLsbD 44
/-- SM (R19). -/
def Desc.sm (d : Desc) : Nat := nbits d.ctl.toNat 42 2
/-- L1S (R19). -/
def Desc.l1s (d : Desc) : Nat := nbits d.ctl.toNat 39 3
/-- SPB (R19). -/
def Desc.spb (d : Desc) : Nat := nbits d.ctl.toNat 0 22
/-- Granules of one group's allocation (R19, R44). -/
def Desc.gran (d : Desc) : Nat := (d.spb + 4095) / 4096
/-- VCNT (R20). -/
def Desc.vcnt (d : Desc) : Nat := nbits d.vine.toNat 40 4
/-- VREG j (R20). -/
def Desc.vreg (d : Desc) (j : Nat) : Nat := nbits d.vine.toNat (5 * j) 5
/-- VDEF j (R16). -/
def Desc.vdefOf (d : Desc) (j : Nat) : Word := d.vdef.getD j 0
/-- The vine entry that names register r (R20). -/
def Desc.entryOf (d : Desc) (r : Nat) : Option Nat := (List.range d.vcnt).find? (fun j => d.vreg j = r)
/-- The chunk size C of R42. -/
def Desc.chunk (d : Desc) : Nat := Nat.max 64 (2 ^ d.gbits)
/-- The last work index plus one. -/
def Desc.fin (d : Desc) : Nat := d.first.toNat + d.count.toNat
/-- The first item of the group of an index: max(FIRST, index AND NOT (2^G − 1)) (R45). -/
def Desc.groupOf (d : Desc) (i : Nat) : Nat := Nat.max d.first.toNat (i / 2 ^ d.gbits * 2 ^ d.gbits)
/-- Number of items in the group whose first item is g0 (R45, x7). -/
def Desc.groupSize (d : Desc) (g0 : Nat) : Nat := Nat.min d.fin ((g0 / 2 ^ d.gbits + 1) * 2 ^ d.gbits) - g0
/-- The chunk number of an index, counted from the first chunk (R42). -/
def Desc.chunkOf (d : Desc) (i : Nat) : Nat := i / d.chunk - d.first.toNat / d.chunk
/-- First index of chunk n (R42). -/
def Desc.chunkLo (d : Desc) (n : Nat) : Nat := Nat.max d.first.toNat ((d.first.toNat / d.chunk + n) * d.chunk)
/-- One past the last index of chunk n (R42). -/
def Desc.chunkHi (d : Desc) (n : Nat) : Nat := Nat.min d.fin ((d.first.toNat / d.chunk + n + 1) * d.chunk)
/-- How many chunks the launch has (R42). -/
def Desc.chunks (d : Desc) : Nat :=
  if d.count.toNat = 0 then 0 else (d.fin - 1) / d.chunk - d.first.toNat / d.chunk + 1

/-- A descriptor of zeros. -/
def Desc.zero : Desc := ⟨0, 0, 0, 0, 0, 0, 0, 0, 0, 0, [], 0⟩

/-- No launch: what a strand without an item refers to. -/
def Launch.none : Launch where
  num := 0
  ctx := 0
  pri := 0
  descAt := 0
  desc := .zero
  fmt := []
  seed := 0
  stat := 0
  seva := 0
  sinc := 0
  ssys := false
  state := .retired
  parts := []
  chunks := []
  nchunk := 0
  nretired := 0
  merged := true
  signed := true
  owed := []

/-! ## Coordinates (R2) -/

/-- The core of a slot. -/
def coreOf (id : Nat) : Nat := id / 8
/-- The slot within its core. -/
def slotOf (id : Nat) : Nat := id % 8
/-- The flat cluster of a slot. -/
def clusterOf (id : Nat) : Nat := id / 64
/-- The compute die of a cluster. -/
def dieOfCluster (c : Nat) : Nat := c / 24
/-- The compute die of a slot. -/
def dieOf (id : Nat) : Nat := dieOfCluster (clusterOf id)

/-! ## Lookups -/

/-- A core. -/
def State.core (s : State) (k : Nat) : Core := (find? k s.cores).getD .fresh
/-- A cluster. -/
def State.cluster (s : State) (c : Nat) : Cluster := (find? c s.clusters).getD .fresh
/-- A context. -/
def State.ctx (s : State) (v : Nat) : Context := (find? v s.ctxs).getD .fresh
/-- A launch by its number. -/
def State.launch? (s : State) (n : Nat) : Option Launch := s.launches.find? (fun l => l.num = n)
/-- A launch by its number, or none. -/
def State.launch (s : State) (n : Nat) : Launch := (s.launch? n).getD .none
/-- A strand by its slot. -/
def State.strand (s : State) (id : Nat) : Strand :=
  if s.cur.id = id then s.cur else (s.strands.find? (fun t => t.id = id)).getD (Strand.empty id)
/-- A command by its identifier. -/
def State.cmd? (s : State) (cid : Nat) : Option Cmd := s.cmds.find? (fun c => c.cid = cid)
/-- The launch of the strand whose turn it is. -/
def State.curLaunch (s : State) : Launch := s.launch s.cur.launch
/-- Four-slot mode of the core of the strand whose turn it is (R69). -/
def State.four (s : State) : Bool := (s.core (coreOf s.cur.id)).four
/-- The cycle count of a die (R66). -/
def State.cycle (s : State) (die : Nat) : Nat := s.cycles.getD die 0
/-- The cycle count of the die of the strand whose turn it is. -/
def State.now (s : State) : Nat := s.cycle (dieOf s.cur.id)
/-- Every strand, the one whose turn it is first. -/
def State.allStrands (s : State) : List Strand := s.cur :: s.strands
/-- Every strand, in its slot or in the cellar. -/
def State.withSaved (s : State) : List Strand := s.allStrands ++ s.ctxs.flatMap (fun p => p.2.saved.map (·.strand))

/-! ## Updates -/

/-- Replaces a strand in the list of the others, or adds it. -/
def putStrand (t : Strand) : List Strand → List Strand
  | [] => [t]
  | u :: r => if u.id = t.id then t :: r else u :: putStrand t r

/-- Replaces a strand. -/
def State.setStrand (s : State) (t : Strand) : State :=
  if s.cur.id = t.id then { s with cur := t } else { s with strands := putStrand t s.strands }
/-- Replaces a core. -/
def State.setCore (s : State) (k : Nat) (v : Core) : State := { s with cores := bind k v s.cores }
/-- Replaces a cluster. -/
def State.setCluster (s : State) (c : Nat) (v : Cluster) : State := { s with clusters := bind c v s.clusters }
/-- Replaces a context. -/
def State.setCtx (s : State) (v : Nat) (c : Context) : State := { s with ctxs := bind v c s.ctxs }
/-- Replaces a launch. -/
def State.setLaunch (s : State) (l : Launch) : State :=
  { s with launches := s.launches.map (fun k => if k.num = l.num then l else k) }
/-- Replaces a command. -/
def State.setCmd (s : State) (c : Cmd) : State :=
  { s with cmds := s.cmds.map (fun k => if k.cid = c.cid then c else k) }
/-- Changes the strand whose turn it is. -/
def State.withCur (s : State) (f : Strand) : State := { s with cur := f }
/-- Changes every strand. -/
def State.mapStrands (s : State) (p : Strand → Bool) (f : Strand → Strand) : State :=
  { s with
    cur := if p s.cur then f s.cur else s.cur
    strands := s.strands.map (fun t => if p t then f t else t) }

/-- An unretired launch. -/
def Launch.live (l : Launch) : Bool :=
  match l.state with
  | .accepted | .running => true
  | .retired | .aborted => false

/-- A launch whose retirement steps are not all done. -/
def Launch.unfinished (l : Launch) : Bool := !l.signed

/-- A fresh identifier for a command, access or update. -/
def State.fresh (s : State) : Nat × State := (s.nextId, { s with nextId := s.nextId + 1 })

/-- Adds an answer to the host (log 6). -/
def State.answer (s : State) (o : HostOut) : State := { s with hostOut := s.hostOut ++ [o] }

/-- Advances the cycle count of a die (R66). -/
def State.pass (s : State) (die n : Nat) : State :=
  { s with cycles := s.cycles.mapIdx (fun i c => if i = die then c + n else c) }

end Sys2Proof.Machine
end

