-- ==== Sys2Proof/Machine/Ops.lean ====
section
/-! DEFINITION. The named operations over registers and memory, address translation, taking an exception and returning
from one, event signals and the abort of a launch (spec/04, spec/10, spec/11, spec/18, spec/20, spec/23). -/

namespace Sys2Proof.Machine

open Sys2Proof

/-- The answer of a step. -/
abbrev Out := Host.Outcome State Fault Refusal

/-! ## Registers -/

/-- A scalar register of a strand; x0 reads 0 (R69). -/
def Strand.rd (t : Strand) (r : XReg) : Word := if r = 0 then 0 else t.x[r.toNat]'(by have := r.isLt; omega)

/-- A scalar register of the strand whose turn it is (R69). -/
def State.rd (s : State) (r : XReg) : Word := s.cur.rd r

/-- A handle register (R174). -/
def State.rdH (s : State) (r : HReg) : Handle := s.cur.h[r.toNat]'(by have := r.isLt; omega)

/-- The vine entry that names register r in the launch of the strand (R20, R243). -/
def State.vineEntry (s : State) (r : XReg) : Option Nat := s.curLaunch.desc.entryOf r.toNat

/-- Sets a scalar register of a strand without marking the vine (landing, R45); a write to x0 is discarded. -/
def Strand.setX (t : Strand) (r : XReg) (v : Word) : Strand :=
  if r = 0 then t else { t with x := t.x.set r.toNat v (by have := r.isLt; omega) }

/-- Marks a vine register as written at issue (R243). -/
def State.markWritten (s : State) (r : XReg) : State :=
  match s.vineEntry r with
  | some j => { s with cur := { s.cur with vw := s.cur.vw ||| (1 <<< j) } }
  | none => s

/-- Writes a scalar register (R69, R243). -/
def State.wr (s : State) (r : XReg) (v : Word) : State :=
  let s := s.markWritten r
  { s with cur := s.cur.setX r v }

/-- Sets a handle register of a strand (R174). -/
def Strand.setH (t : Strand) (r : HReg) (v : Handle) : Strand :=
  { t with h := t.h.set r.toNat v (by have := r.isLt; omega) }

/-- Writes a handle register (R174). -/
def State.wrH (s : State) (r : HReg) (v : Handle) : State := { s with cur := s.cur.setH r v }

/-- The bundle in hand loses its turn (R67). -/
def State.lose (s : State) : State := { s with disp := .wait }

/-- The strand has left its item or its place in it. -/
def State.leave (s : State) : State := { s with disp := .left }

/-- Where the strand goes after the bundle in hand. -/
def State.goto (s : State) (t : Word) : State := { s with cur := { s.cur with npc := t } }

/-! ## Memory as one list of cells -/

/-- HBM available to contexts ends here (R144). -/
def hbmTop : Nat := 0xBF80000000
/-- System space starts here (R144). -/
def sysBase : Nat := 2 ^ 51
/-- Keys of scratch bytes start here; cluster c, offset o lies at scrBase + 2^22 × c + o. -/
def scrBase : Nat := 2 ^ 52
/-- Keys of capability bytes start here. -/
def capBase : Nat := 2 ^ 53
/-- The first virtual address of the capability space (R151). -/
def capVa : Nat := 0x0FFFFFFFFFFF0000

/-- The key of a scratch byte. -/
def scrKey (c o : Nat) : Nat := scrBase + c * 2 ^ 22 + o

/-- A byte of a canonical cell list; an unlisted address reads 0 (log 4). -/
def cellGet (k : Nat) : List Host.Cell → Byte
  | [] => 0
  | (a, b) :: r => if a = k then b else cellGet k r

/-- Writes a byte, keeping the list rising and free of zeros. -/
def cellSet (k : Nat) (b : Byte) : List Host.Cell → List Host.Cell
  | [] => if b = 0 then [] else [(k, b)]
  | (a, c) :: r =>
    if a < k then (a, c) :: cellSet k b r
    else if a = k then (if b = 0 then r else (k, b) :: r)
    else (if b = 0 then (a, c) :: r else (k, b) :: (a, c) :: r)

/-- The canonical form of memory: addresses strictly rising, no entry 0. -/
def Memory.wf : List Host.Cell → Bool
  | [] => true
  | (_, b) :: [] => b != 0
  | (a, b) :: (a', b') :: r => b != 0 && decide (a < a') && Memory.wf ((a', b') :: r)

/-- The words of the capability records (R152, R315). -/
def capWords : List Word :=
  [0x0000002004010001, w64 (0x5A32 * 2 ^ 16 + Config.revision * 2 ^ 8 + Config.acv), 0xFFFFFFFFFFFFFFFF, 0x00000000FFFFFFFF,
   0x0000003803010002, w64 hbmTop, 0xFF, 0x0000004802010003, w64 (240 * 2 ^ 16 + Config.portsPresent), 0x0000000002010004,
   0x000000003F404000]

/-- A byte of the capability space; beyond the last record 0 (R151). -/
def capByte (o : Nat) : Byte := BitVec.ofNat 8 ((capWords.getD (o / 8) 0).toNat >>> (8 * (o % 8)))

/-- The byte stored at a key, without regard to KeyIDs. -/
def State.raw (s : State) (k : Nat) : Byte := if capBase ≤ k then capByte (k - capBase) else cellGet k s.mem

/-- The 64-byte line of a key. -/
def lineOf (k : Nat) : Nat := k / 64 * 64

/-- The KeyID of a line; 0x7F where it is empty (R308). -/
def State.keyId (s : State) (k : Nat) : Nat := (find? (lineOf k) s.lineKey).getD 0x7F

/-- A byte as a context reads it: a line of another KeyID reads 0 (R308). -/
def State.byteAs (s : State) (kid k : Nat) : Byte :=
  if sysBase ≤ k then s.raw k else if s.keyId k = kid then s.raw k else 0

/-- Consecutive keys. -/
def keysFrom (k n : Nat) : List Nat := upTo k n

/-- Bytes as a context reads them. -/
def State.bytesAs (s : State) (kid : Nat) (ks : List Nat) : List Byte := ks.map (s.byteAs kid)

/-- A little-endian value as a context reads it (R5). -/
def State.natAs (s : State) (kid k n : Nat) : Nat := leNat (s.bytesAs kid (keysFrom k n))

/-- Clears the bytes of a line and gives it a KeyID. -/
def State.claimLine (s : State) (kid line : Nat) : State :=
  { s with
    mem := s.mem.filter (fun c => !(line ≤ c.1 && c.1 < line + 64))
    lineKey := bind line kid s.lineKey }

/-- Writes one byte under a KeyID: a line of another KeyID is first merged with zeros (R308). -/
def State.setByte (s : State) (kid k : Nat) (b : Byte) : State :=
  if capBase ≤ k then s
  else
    let s := if sysBase ≤ k || s.keyId k = kid then s else s.claimLine kid (lineOf k)
    { s with mem := cellSet k b s.mem }

/-- Writes bytes at keys. -/
def State.setBytes (s : State) (kid : Nat) : List Nat → List Byte → State
  | k :: ks, b :: bs => (s.setByte kid k b).setBytes kid ks bs
  | _, _ => s

/-- Removes the poison marks of the 8-byte words that a write covers whole (R292). -/
def State.healWords (s : State) (ks : List Nat) : State :=
  { s with poison := s.poison.filter (fun p => !((keysFrom p 8).all (fun k => ks.contains k))) }

/-- An access is in flight. -/
def State.inFlight (s : State) (id : Nat) : Bool := s.stores.any (fun a => a.id = id)

/-- The releases of some whose access is still in flight: the others order nothing any more. -/
def State.alive (s : State) (rs : List Rel) : List Rel := rs.filter (fun r => s.inFlight r.id)

/-- What a read of a byte meets after a write that carries some releases: those, and after an atomic those of earlier writes too (R262). -/
def State.tellByte (s : State) (rmw : Bool) (rs : List Rel) (k : Nat) : Told :=
  let all := s.alive (((s.told.find? (fun m => m.key = k)).map (·.all)).getD [] ++ rs)
  ⟨k, if rmw then all else s.alive rs, all⟩

/-- Bytes are written, by an atomic or not, with the releases that the write carries (R262). -/
def State.tell (s : State) (ks : List Nat) (rmw : Bool) (rs : List Rel) : State :=
  if s.told.isEmpty && rs.isEmpty then s
  else
    { s with told := ((ks.map (s.tellByte rmw rs)).filter (fun m => !m.all.isEmpty)) ++ s.told.filter (fun m => !ks.contains m.key) }

/-- Writes bytes at keys, removes the poison marks they cover, and leaves no release for a read of them to meet. -/
def State.putBytes (s : State) (kid : Nat) (ks : List Nat) (bs : List Byte) : State :=
  ((s.setBytes kid ks bs).healWords ks).tell ks false []

/-- Some byte lies in a word with an uncorrectable error (R292). -/
def State.poisoned (s : State) (ks : List Nat) : Bool := ks.any (fun k => s.poison.contains (k / 8 * 8))

/-! ## Address translation (R146 to R151) -/

/-- What an access does to a page (R147). -/
inductive Kind where
  | read | write | atomic | fetch
deriving DecidableEq, Repr

/-- Where an access goes: a byte key of `State.mem` and whether the L1 may serve it, or system space. -/
inductive Place where
  | mem (key : Nat) (l1 : Bool)
  | sys (pa : Nat)
deriving DecidableEq, Repr

/-- A page table entry, read whole (R147). The walker's read is not made under a KeyID (log 11). -/
def State.pte (s : State) (table idx : Nat) : Nat := leNat ((keysFrom (table + 8 * idx) 8).map s.raw)

/-- ADDR of a page table entry (R146). -/
def pteAddr (e : Nat) : Nat := nbits e 16 36 * 2 ^ 16

/-- A valid entry of level n that R147 rejects. -/
def pteBad (n e : Nat) : Bool :=
  let leaf := nbits e 1 1 = 1
  let r := nbits e 2 1 = 1
  let w := nbits e 3 1 = 1
  let x := nbits e 4 1 = 1
  let size := if n = 3 then 2 ^ 29 else 2 ^ 16
  nbits e 52 12 != 0 || nbits e 7 9 != 0 || nbits e 5 1 != 0
    || (leaf && n ≤ 2) || (!leaf && n = 4)
    || (!leaf && (r || w || x || nbits e 6 1 = 1))
    || (leaf && n = 3 && pteAddr e % 2 ^ 29 != 0)
    || (leaf && w && !r) || (leaf && x && w)
    || (leaf && !(pteAddr e + size ≤ hbmTop || sysBase ≤ pteAddr e))

/-- The leaf of an entry at level n. -/
def pteLeaf (v n va e : Nat) : Leaf :=
  ⟨v, if n = 3 then va / 2 ^ 29 * 2 ^ 29 else va / 2 ^ 16 * 2 ^ 16, n = 3, pteAddr e, nbits e 6 1 = 1, nbits e 4 1 = 1,
    nbits e 3 1 = 1, nbits e 2 1 = 1⟩

/-- The levels of R146: number, lowest index bit, index width. -/
def levels : List (Nat × Nat × Nat) := [(1, 55, 5), (2, 42, 13), (3, 29, 13), (4, 16, 13)]

/-- The walk of R146 and R147 from a table on; an error is a subcode of the translation fault. -/
def State.walkFrom (s : State) (v va table : Nat) : List (Nat × Nat × Nat) → Except Nat Leaf
  | [] => .error 4
  | (n, lo, len) :: ls =>
    let e := s.pte table (nbits va lo len)
    if nbits e 0 1 = 0 then .error n
    else if pteBad n e then .error (4 + n)
    else if nbits e 1 1 = 1 then .ok (pteLeaf v n va e)
    else s.walkFrom v va (pteAddr e) ls

/-- The root table of a context (R299). -/
def Context.rootAddr (c : Context) : Nat := nbits c.root.toNat 8 44 * 2 ^ 8

/-- The walk of a virtual address. -/
def State.walk (s : State) (v va : Nat) : Except Nat Leaf := s.walkFrom v va (s.ctx v).rootAddr levels

/-- The byte keys of the entries a walk reads from a table on (R147). -/
def State.walkReads (s : State) (va table : Nat) : List (Nat × Nat × Nat) → List Nat
  | [] => []
  | (n, lo, len) :: ls =>
    let i := nbits va lo len
    let e := s.pte table i
    (table + 8 * i) :: (if nbits e 0 1 = 0 || pteBad n e || nbits e 1 1 = 1 then [] else s.walkReads va (pteAddr e) ls)

/-- A TLB entry covers an address of a context (R148). -/
def Leaf.covers (l : Leaf) (v va : Nat) : Bool :=
  l.ctx = v && l.va ≤ va && va < l.va + (if l.big then 2 ^ 29 else 2 ^ 16)

/-- The translations an access goes through: those its bundle goes on with, its cluster's TLB, and a failed walk it waited for. -/
structure Via where
  cluster : Nat
  leaves  : List Leaf
  fault   : Option (Nat × Nat)
deriving DecidableEq, Repr

/-- The translations of the strand whose turn it is. -/
def State.via (s : State) : Via := ⟨clusterOf s.cur.id, s.cur.leaves, s.cur.walkFault⟩

/-- Translation fault, cause 0x04 (R272). -/
def cTranslation : Nat := 4
/-- Protection fault, cause 0x05 (R272). -/
def cProtection : Nat := 5
/-- No cause of R272: the access waits for a page walk (R149). -/
def cWalk : Nat := 32

/-- The leaf an access uses: one it holds or its TLB's, or else it waits for a walk (R148, R149). An agent without a TLB walks at
once. -/
def State.leafFor (s : State) (via : Option Via) (v va : Nat) : Except (Nat × Nat) Leaf :=
  match via with
  | some w =>
    match (w.leaves ++ (s.cluster w.cluster).tlb).find? (fun l => l.covers v va) with
    | some l => .ok l
    | none =>
      match w.fault with
      | some (page, n) => .error (if page = va / 2 ^ 16 then (cTranslation, n) else (cWalk, 0))
      | none => .error (cWalk, 0)
  | none =>
    match s.walk v va with
    | .ok l => .ok l
    | .error n => .error (cTranslation, n)

/-- The page check of R147; an error is a subcode of the protection fault. -/
def Leaf.allows (l : Leaf) : Kind → Except Nat Unit
  | .read => if l.r then .ok () else .error 1
  | .write => if l.w then .ok () else .error 2
  | .atomic => if l.w && l.r then .ok () else .error 2
  | .fetch => if l.x then .ok () else .error 3

/-- The place of a global virtual address, or the cause and subcode of its fault (R147, R151). -/
def State.globalPlace (s : State) (via : Option Via) (v va : Nat) (k : Kind) : Except (Nat × Nat) Place :=
  if capVa ≤ va then
    match k with
    | .read => .ok (.mem (capBase + (va - capVa)) false)
    | .write | .atomic => .error (cProtection, 2)
    | .fetch => .error (cProtection, 3)
  else
    match s.leafFor via v va with
    | .error e => .error e
    | .ok l =>
      match l.allows k with
      | .error n => .error (cProtection, n)
      | .ok _ =>
        let pa := l.pa + (va - l.va)
        if sysBase ≤ pa then .ok (.sys pa) else .ok (.mem pa (!l.nl1))

/-- The group of a strand in its cluster (R44). -/
def State.groupOf? (s : State) (t : Strand) : Option Group :=
  s.groups.find? (fun g => g.launch = t.launch && g.cluster = clusterOf t.id && g.g0 = t.g0)

/-- Whether scratch bytes lie inside the allocation of a strand's group (R137). -/
def State.inAlloc (s : State) (t : Strand) (o n : Nat) : Bool :=
  match s.groupOf? t with
  | some g => g.gran != 0 && g.off ≤ o && o + n ≤ g.off + g.gran * 4096
  | none => false

/-- The place of a strand's access of `n` bytes at the 60-bit address `a` (R137, R147). -/
def State.strandPlace (s : State) (sp : Space) (a n : Nat) (k : Kind) : Except (Nat × Nat) Place :=
  match sp with
  | .glob => s.globalPlace (some s.via) s.cur.ctx a k
  | .scratch =>
    if a < 2 ^ 22 && s.inAlloc s.cur a n then .ok (.mem (scrKey (clusterOf s.cur.id) a) false)
    else .error (cProtection, 4)

/-! ## Engine holds and ownership -/

/-- A line some copy command owns for writing or has requested (R188). -/
def State.owned (s : State) (line : Nat) : Bool := s.owners.any (fun o => o.line = line)

/-- No line of the keys is owned: an access may reach them at the home (R188). -/
def State.unowned (s : State) (ks : List Nat) : Bool := !ks.any (fun k => k < sysBase && s.owned (lineOf k))

/-- A place lies in memory, in a line that a copy command owns: an access of the sequencer, a walker or trap entry waits (R188). -/
def State.ownedAt (s : State) (p : Place) : Bool :=
  match p with
  | .mem k _ => !s.unowned [k]
  | .sys _ => false

/-- A walk of an address of a context reads an entry in a line that a copy command owns: the walk waits, whoever makes it (R188). -/
def State.walkHeld (s : State) (v va : Nat) : Bool :=
  !s.owners.isEmpty && va < capVa && !s.unowned (s.walkReads va (s.ctx v).rootAddr levels)

/-! ## Homes (R145) -/

/-- The stack of an HBM physical address (R145). -/
def stackOf (pa : Nat) : Nat := nbits pa 12 3 ^^^ nbits pa 21 3
/-- The home base die of an HBM physical address. -/
def homeBase (pa : Nat) : Nat := stackOf pa / 4
/-- The home compute die: of the two dies on the home base die, by PA<15>. -/
def homeDie (pa : Nat) : Nat := 2 * homeBase pa + nbits pa 15 1
/-- The home L2 slice, of the 64 of the home compute die. -/
def sliceOf (pa : Nat) : Nat := nbits pa 6 6 ^^^ nbits pa 16 6

/-- The die in whose cycles the home of a byte counts: of its L2 slice, or of its cluster store. -/
def dieOfKey (k : Nat) : Nat := if scrBase ≤ k then dieOfCluster ((k - scrBase) / 2 ^ 22) else homeDie k

/-- A party that is no strand, behind every strand in the cycle of a home (R168). -/
def noStrand : Nat := 2 ^ 64

/-- The flat slot number of the strand whose turn it is (R2). -/
def State.flat (s : State) : Nat := (if s.four then 4 else 8) * coreOf s.cur.id + slotOf s.cur.id

/-- A party is performed at the home of the bytes in its present cycle; what earlier cycles held is forgotten. -/
def State.noteUse (s : State) (ks : List Nat) (flat : Nat) : State :=
  let old := s.homeUse.filter (fun h => h.cycle = s.cycle (dieOfKey h.key))
  { s with homeUse := (ks.map (fun k => ⟨k, s.cycle (dieOfKey k), flat⟩)).filter (fun h => !old.contains h) ++ old }

/-- Another party than a strand is performed on bytes of global memory: atomics that have still to reach the home do so in a later cycle
(R168). -/
def State.noteOther (s : State) (ks : List Nat) : State := s.noteUse (ks.filter (· < scrBase)) noStrand

/-- A party that must come later in the cycle has been performed on one of the bytes in this cycle already (R117, R168, R297). -/
def State.homeBehind (s : State) (ks : List Nat) (flat : Nat) : Bool :=
  s.homeUse.any (fun h => ks.contains h.key && h.cycle = s.cycle (dieOfKey h.key) && flat < h.flat)

/-! ## Page walks in flight (R149) -/

/-- A miss joins the walk of its page on its die, or starts one where fewer than 64 are in flight; else it waits (R149). -/
def State.requestWalk (s : State) (cluster v va : Nat) (w : Waiter) : State :=
  let die := dieOfCluster cluster
  let page := va / 2 ^ 16
  let same := fun (k : Walk) => k.die = die && k.ctx = v && k.page = page
  if s.walks.any same then
    { s with walks := s.walks.map (fun k =>
        if same k && !k.waiters.contains (cluster, w) then { k with waiters := k.waiters ++ [(cluster, w)] } else k) }
  else if 64 ≤ (s.walks.filter (fun k => k.die = die)).length then s
  else { s with walks := s.walks ++ [⟨die, v, page, [(cluster, w)]⟩] }

/-! ## System space (R301 to R304) -/

/-- The port an access to a peer takes: the set bit of rank PA<43:12> mod n of PORTS (R304). -/
def peerPort (entry : Word) (pa : Nat) : Option Nat :=
  let ports := setBits (entry.extractLsb' 0 16)
  if !entry.getLsbD 63 || ports.length = 0 then none else ports[nbits pa 12 32 % ports.length]?

/-- The peer-table entry that a system-space address of a context names (R301, R304). -/
def State.peerEntry (s : State) (v pa : Nat) : Word := (find? (nbits pa 44 6) (s.ctx v).peers).getD 0

/-- The port a system-space address uses, none for host memory (R301). -/
def State.sysPort (s : State) (v pa : Nat) : Option (Option Nat) :=
  if nbits pa 50 1 = 0 then none else some (peerPort (s.peerEntry v pa) pa)

/-- The target of a system-space address of a context, with the address there; none where the entry names none or the port is not up
(R301, R302, R304). -/
def State.target (s : State) (v pa : Nat) : Option Target :=
  match s.sysPort v pa with
  | none => some (.host v (nbits pa 0 50))
  | some none => none
  | some (some p) =>
    let e := (s.peerEntry v pa).toNat
    if s.pkg.up.getLsbD p then some (.peer p (nbits e 32 16) (nbits e 20 6) (nbits pa 0 44)) else none

/-- A system-space access has a target that answers (R302, R304). -/
def State.sysRoute (s : State) (v pa : Nat) : Bool := (s.target v pa).isSome

/-- What has left the package by a port stands in its replay buffer, which holds 64 (R303). -/
def State.buffer (s : State) (port : Nat) (os : List HostOut) : State :=
  let buf := (find? port s.pkg.replay).getD [] ++ os
  { s with pkg := { s.pkg with replay := bind port (buf.drop (buf.length - 64)) s.pkg.replay } }

/-- Something leaves the package, for a peer by its port (R303). -/
def State.emit (s : State) (t : Target) (o : HostOut) : State :=
  let s := s.answer o
  match t with
  | .host .. => s
  | .peer p _ _ _ => s.buffer p [o]

/-- The port by which a context's accesses to an address in system space go out; none to the host (R303). -/
def State.portTo (s : State) (v pa : Nat) : Option Nat :=
  match s.target v pa with
  | some (.peer p _ _ _) => some p
  | some (.host ..) | none => none

/-- The bytes an access to system space names. -/
def extBytes : ExtOp → Nat
  | .read n => n
  | .write bs => bs.length
  | .amo _ size _ _ | .bits size _ _ _ => size
  | .fetchAdd _ | .swap _ | .cas _ _ => 8

/-- Sends an access to system space; none where no target answers. -/
def State.send (s : State) (v pa : Nat) (op : ExtOp) : Option State := (s.target v pa).map (fun t => s.emit t (.sent t op))

/-! ## Order among strands (R171, R261 to R264) -/

/-- The agent scope of an operation in slot `a` takes in a strand in slot `b`, another than its own (R261). -/
def takesIn (sc : Scope) (a b : Nat) : Bool :=
  match sc with
  | .strand => false
  | .core => coreOf a = coreOf b
  | .cluster => clusterOf a = clusterOf b
  | .die => dieOf a = dieOf b
  | .package | .system => true

/-- An agent scope as it acts on scratch accesses: at most the cluster (R261). -/
def scratchScope (sc : Scope) : Scope :=
  match sc with
  | .strand => .strand
  | .core => .core
  | .cluster | .die | .package | .system => .cluster

/-- A release and an acquire of a scope by a strand in slot `id` synchronise, as far as an access in global memory or in scratch goes: the
scope of each takes in the other's strand (R261, R262). -/
def Rel.meets (r : Rel) (sc : Scope) (id : Nat) (scratch : Bool) : Bool :=
  let cut := fun (c : Scope) => if scratch then scratchScope c else c
  takesIn (cut r.scope) r.slot id && takesIn (cut sc) id r.slot

/-- An acquire has put an access before what the strand does from now on (R263). -/
def Strand.follows (t : Strand) (id : Nat) : Bool := t.before.any (fun b => b.id = id)

/-- A release of the strand puts an access before what follows it: its own, or one that its acquires have put before it (R172, R263). -/
def Strand.precededBy (t : Strand) (a : Access) : Bool := a.strand = t.sid || t.follows a.id

/-! ## Taking an exception (R270 to R278) -/

/-- Waiting for nothing before a trap: no scalar result is pending (R75); a destination x0 leaves nothing pending (R73). -/
def Strand.settled (t : Strand) : Bool :=
  t.pend.all (fun p => p.reg = 0 || p.landed || (match p.op with | .cmd _ => true | _ => false))

/-- The open window counts of a strand (R75). -/
def Strand.windows (t : Strand) : List (Nat × Nat × Word) :=
  (t.pend.filter (fun p => p.win != 0 && p.reg != 0)).map (fun p => (p.reg, p.win, p.prod))

/-- Closes every window; landed results are then forgotten (R75). -/
def Strand.closeWindows (t : Strand) : Strand :=
  { t with pend := (t.pend.filter (fun p => !p.landed)).map (fun p => { p with win := 0 }) }

/-- Reopens saved windows, each as a landed result of its own (R75, R277): a window that the handler opened stays open beside it, whether
or not its result has landed (R73). -/
def Strand.openWindows (t : Strand) (ws : List (Nat × Nat × Word)) : Strand :=
  { t with pend := t.pend ++ ws.map (fun w => ⟨w.1, w.2.1, w.2.2, .value 0, none, false, 0, true, none, 0, 0⟩) }

/-- %frec: the address of the strand's fault record (R274). -/
def State.frecOf (s : State) (t : Strand) : Nat :=
  (nbits (s.ctx t.ctx).frbase.toNat 16 44 * 2 ^ 16 + 256 * (8 * coreOf t.id + slotOf t.id)) % 2 ^ 60

/-- %fcause for a fault (R272). -/
def FaultInfo.fcause (f : FaultInfo) : Word :=
  w64 (f.elem.toNat * 2 ^ 32 + (if f.deferd then 2 ^ 16 else 0) + f.sub % 256 * 2 ^ 8 + (if f.slotA then 32 else 0) + f.cause % 32)

/-- The fault record of R274. -/
def faultRecord (t : Strand) (f : FaultInfo) : List Byte :=
  leBytes 8 f.baddr.toNat ++ leBytes 8 f.fcause.toNat ++ leBytes 8 f.addr.toNat ++ leBytes 8 f.bundle.toNat
    ++ leBytes 8 t.index ++ leBytes 8 f.prog ++ leBytes 16 0
    ++ ((List.range 3).flatMap (fun i => leBytes 32 ((f.hnd.getD i 0).toNat))) ++ leBytes 64 f.pblk.toNat ++ leBytes 32 0

/-- Writes bytes of the sequencer or of trap entry at a place; none where a target in system space does not answer (R301, R302). -/
def State.putAt (s : State) (kid : Nat) (p : Place) (bs : List Byte) : Option State :=
  match p with
  | .mem k _ => some ((s.putBytes kid (keysFrom k bs.length) bs).noteOther (keysFrom k bs.length))
  | .sys pa => s.send kid pa (.write bs)

/-- The place of a strand's fault record under the page rule of R274, walked at once where the TLB has no entry. -/
def State.recordPlace (s : State) (t : Strand) : Option Place :=
  let va := s.frecOf t
  if capVa ≤ va then none
  else
    match s.globalPlace (some ⟨clusterOf t.id, [], none⟩) t.ctx va .read, s.globalPlace none t.ctx va .read with
    | .ok p, _ => some p
    | .error e, .ok p => if e.1 = cWalk then some p else none
    | .error _, .error _ => none

/-- Writes the fault record (R274); `none` if it cannot be written. -/
def State.writeRecord (s : State) (t : Strand) (rcd : List Byte) : Option State :=
  match s.recordPlace t with
  | some p => s.putAt t.ctx p rcd
  | none => none

/-- The TLB of a strand's cluster has no entry for its fault record: the record's page is walked (R274). -/
def State.recordWalks (s : State) (t : Strand) : Bool :=
  (s.globalPlace (some ⟨clusterOf t.id, [], none⟩) t.ctx (s.frecOf t) .read).toOption.isNone

/-- The write of the strand's fault record, and the walk that it may take, wait for no copy command (R188). -/
def State.recordFree (s : State) (t : Strand) : Bool :=
  !(s.recordWalks t && s.walkHeld t.ctx (s.frecOf t))
    && match s.recordPlace t with
      | some p => !s.ownedAt p
      | none => true

/-! ## Events, status and the merge of vintage counts -/

/-- The place of an aligned 8-byte word of a context that the sequencer reaches (R31, R35, R151). -/
def State.seqPlace (s : State) (v va : Nat) (k : Kind) : Option Place :=
  if capVa ≤ va then none
  else
    match s.globalPlace none v va k with
    | .ok p => some p
    | .error _ => none

/-- The event value after an add that keeps bit 63, or also sets it (R36, R37). -/
def eventAdd (old inc : Nat) (poison : Bool) : Nat :=
  (old % 2 ^ 63 + inc % 2 ^ 63) % 2 ^ 63 + (if poison || old / 2 ^ 63 % 2 = 1 then 2 ^ 63 else 0)

/-- A word that the sequencer would reach, or a table entry on the way to it, lies in a line that a copy command owns: it waits
(R188). -/
def State.seqHeld (s : State) (v va : Nat) (k : Kind) : Bool :=
  s.walkHeld v va
    || match s.seqPlace v va k with
      | some p => s.ownedAt p
      | none => false

/-- Advances the free-value counter and gives the value it named (log 5). -/
def State.freeWord (s : State) : Word × State := (Config.freeValue s.free, { s with free := s.free + 1 })

/-- The signal of R37, one atomic operation at the event's home; false if it could not be made. A target in system space that answers may
answer an error: that is a free value (log 56). A misaligned SEVA names no event, and no signal is made there: only a record that R35
rejects before it looks at SEVA can have one, and of that the manual says nothing (DESIGN CHOICE, log 63). -/
def State.signalEvent (s : State) (v : Nat) (seva sinc : Word) (poison : Bool) : State × Bool :=
  if seva = 0 then (s, true)
  else if seva.toNat % 8 != 0 then (s, false)
  else
    match s.seqPlace v (addr60 seva) .atomic with
    | none => (s, false)
    | some (.sys pa) =>
      match s.target v pa with
      | none => (s, false)
      | some t =>
        let s := s.emit t (.signal t sinc poison)
        (s.freeWord.2, !s.freeWord.1.getLsbD 0)
    | some (.mem k _) =>
      let old := s.natAs v k 8
      ((s.putBytes v (keysFrom k 8) (leBytes 8 (eventAdd old sinc.toNat poison))).noteOther (keysFrom k 8), true)

/-- The status write of R31, dropped where it cannot be made. -/
def State.writeStatus (s : State) (v : Nat) (stat : Word) (seq st code : Nat) : State :=
  if stat = 0 then s
  else
    match s.seqPlace v (addr60 stat) .write with
    | some p => (s.putAt v p (leBytes 8 (seq % 2 ^ 32 * 2 ^ 32 + st * 2 ^ 8 + code))).getD s
    | none => s

/-- The words of the vintage slot at a virtual address, and its byte keys, for a kind of access; none where a page forbids it. -/
def State.slotAt (s : State) (v va : Nat) (k : Kind) : Option (Nat × List Nat) :=
  match s.seqPlace v (va % 2 ^ 60) k with
  | some (.mem key _) => some (key, (List.range 4).map (fun i => s.natAs v (key + 4 * i) 4))
  | some (.sys _) | none => none

/-- KIND of a vintage header (R106). -/
def hdrKind (h : Nat) : Nat := nbits h 30 2
/-- SAT of a vintage header (R106). -/
def hdrSat (h : Nat) : Bool := nbits h 29 1 = 1

/-- The number of words a kind sums: branch 2, load 3, loop 2 (R107). -/
def summedWords (kind : Nat) : Nat := if kind = 2 then 3 else if kind = 0 then 0 else 2

/-- Writes the four words of a slot. -/
def State.putSlot (s : State) (v key : Nat) (ws : List Nat) : State :=
  s.putBytes v (keysFrom key 16) (ws.flatMap (leBytes 4))

/-- A vintage slot in memory holds an uncorrectable error (R292). -/
def State.badSlot (s : State) (key : Nat) : Bool := s.poisoned (keysFrom key 16)

/-- Merges one slot of the delta into the base (R114); a slot whose base or delta is unmapped, not writable, in system space or bad is
skipped, and its delta stays (DESIGN CHOICE, log 45). -/
def State.mergeSlot (s : State) (v vbase vdelta j : Nat) : State :=
  match s.slotAt v (vbase + 16 * j) .write, s.slotAt v (vdelta + 16 * j) .write with
  | some (kb, b), some (kd, d) =>
    if s.badSlot kb || s.badSlot kd then s
    else
    let h := b.getD 3 0
    let kind := hdrKind h
    let n := summedWords kind
    let lim := 2 ^ 32 - 1
    let sum := fun i => b.getD i 0 + d.getD i 0
    let w := fun i =>
      if i < n then Nat.min (sum i) lim
      else if kind = 3 && i = 2 then Nat.max (b.getD 2 0) (d.getD 2 0)
      else b.getD i 0
    let clip := (List.range n).any (fun i => lim < sum i)
    let h' := if clip || hdrSat h || hdrSat (d.getD 3 0) then h ||| 2 ^ 29 else h
    ((s.putSlot v kb [w 0, w 1, w 2, h']).putSlot v kd [0, 0, 0, 0]).noteOther (keysFrom kb 16 ++ keysFrom kd 16)
  | _, _ => s

/-- Merges every slot of a launch's delta copy (R114). Where launches of one delta copy differ in VCOUNT, the slots merged are those below
the VCOUNT of the launch that leaves last (DESIGN CHOICE, log 63). -/
def State.mergeAll (s : State) (l : Launch) : State :=
  (List.range l.desc.vcount.toNat).foldl
    (fun s j => s.mergeSlot l.ctx (addr60 l.desc.vbase) (addr60 l.desc.vdelta) j) s

/-- Some slot of a launch's base or delta copy lies in a line that a copy command owns: the merge waits (R188). -/
def State.mergeHeld (s : State) (l : Launch) : Bool :=
  !s.owners.isEmpty && (List.range l.desc.vcount.toNat).any (fun j =>
    s.seqHeld l.ctx ((addr60 l.desc.vbase + 16 * j) % 2 ^ 60) .write || s.seqHeld l.ctx ((addr60 l.desc.vdelta + 16 * j) % 2 ^ 60) .write)

/-- Two launches name one delta copy (R114); its selector bits are ignored (R136). -/
def sameDelta (a b : Launch) : Bool :=
  a.ctx = b.ctx && addr60 a.desc.vdelta = addr60 b.desc.vdelta && a.desc.vcount != 0 && b.desc.vcount != 0

/-- Updates to a launch's delta copy still in flight (R114 step 2). -/
def State.updatesLeft (s : State) (l : Launch) : Bool :=
  s.vupd.any (fun u => u.ctx = l.ctx && u.vdelta = addr60 l.desc.vdelta)

/-- Another accepted, unretired launch counts on the delta copy (R114 step 1). -/
def State.deltaShared (s : State) (l : Launch) : Bool := s.launches.any (fun k => k.num != l.num && sameDelta k l && k.live)

/-- A launch leaves the count of its delta copy: its merge is due unless another launch still counts (R114 step 1). -/
def State.leaveDelta (s : State) (l : Launch) : Launch := { l with merged := l.desc.vcount = 0 || s.deltaShared l }

/-- The merge of R114 for a launch that has retired or been aborted; `none` while updates are in flight. -/
def State.mergeStep (s : State) (l : Launch) : Option State :=
  if l.merged then some s
  else if s.updatesLeft l || s.mergeHeld l then none
  else some ((s.mergeAll l).setLaunch { l with merged := true })

/-- The launch still has stores of its strands in flight, or stores of others that happen before what its items did: the signal, a release,
follows them (R37, R263). -/
def State.storesLeft (s : State) (n : Nat) : Bool :=
  s.stores.any (fun a => a.launch = n || (s.launch n).owed.contains a.id)

/-- Steps 3 and 4 of R309: a context's cached lines, its key and its import key go, and the sweep begins (R310). -/
def State.eraseKey (s : State) (v : Nat) : State :=
  let s := { s with
    clusters := s.clusters.map (fun (p : Nat × Cluster) => (p.1, { p.2 with l1 := p.2.l1.filter (fun l => l.kid != v) }))
    stores := s.stores.filter (fun a => a.kid != v)
    vupd := s.vupd.filter (fun u => u.ctx != v) }
  s.setCtx v { s.ctx v with cstate := .destroying, hasKey := false, impKey := none, objects := [], seeds := [] }

/-- Every launch of a context has ended: its signal and its status are written. -/
def State.ended (s : State) (v : Nat) : Bool := s.launches.all (fun l => l.ctx != v || l.signed)

/-- A closing context goes on once its launches have ended: to the erasure of its key, or to the state of a TDISP error (R309). -/
def State.closeCtx (s : State) (v : Nat) : State :=
  if !s.ended v then s
  else
    match (s.ctx v).cstate with
    | .closing true => s.setCtx v { s.ctx v with cstate := .tdiError }
    | .closing false => s.eraseKey v
    | .free | .created | .destroying | .tdiError => s

/-- The end of a launch that has retired or been aborted (R49, R114, R281 step 6): merge, signal, status; a closing context follows the last.
`none` while something must come first. -/
def State.finish (s : State) (n : Nat) : Option State :=
  match s.launch? n with
  | none => none
  | some l =>
    let aborted := l.state = .aborted
    if l.live || l.signed || s.storesLeft n then none
    else
      match s.mergeStep l with
      | none => none
      | some s =>
        if s.seqHeld l.ctx (addr60 l.seva) .atomic || s.seqHeld l.ctx (addr60 l.stat) .write then none
        else
        let (s, ok) := s.signalEvent l.ctx l.seva l.sinc aborted
        let s := s.setLaunch { l with merged := true, signed := true }
        some ((s.writeStatus l.ctx l.stat l.num (if aborted then 5 else 3) (if ok then 0 else 0x16)).closeCtx l.ctx)

/-! ## Abort (R281) -/

/-- The strand gives up its item: nothing pending, no wait, slot idle. Registers stay as they are (R45, R69). -/
def Strand.drop (t : Strand) : Strand :=
  { t with
    status := .idle
    reserved := none
    pend := []
    trapWins := []
    uiWins := []
    inUi := false
    heldInts := []
    mbox := []
    mboxRes := 0
    rep := .disarmed
    waitRef := []
    atBar := false
    faulting := none
    fence := none
    sys := none
    sysGot := []
    code := none
    leesGot := []
    actDone := none
    doing := none
    seen := none
    leaves := []
    walkFault := none
    ibuf := none
    last := none
    relAt := none
    chosen := false
    rels := []
    heard := []
    before := []
    justIn := []
    stall := 0
    super := false
    estat := 0 }

/-- A strand that runs an item of a launch or is reserved for a group of it. -/
def Strand.ofLaunch (n : Nat) (t : Strand) : Bool :=
  (t.status != .idle && t.launch = n) || (match t.reserved with | some r => r.1 = n | none => false)

/-- The physical address of a context's cellar area (R286). -/
def Context.cellarAddr (c : Context) : Nat := nbits c.cellar.toNat 22 30 * 2 ^ 22

/-- The abort record of R287. -/
def State.abortRecord (s : State) (v n reason : Nat) (rcd : List Byte) : State :=
  let base := (s.ctx v).cellarAddr + 0x18000000
  let s := s.putBytes v (keysFrom base 8) (leBytes 8 n)
  let s := s.putBytes v (keysFrom (base + 8) 8) (leBytes 8 reason)
  s.putBytes v (keysFrom (base + 0x40) 256) (rcd ++ List.replicate (256 - rcd.length) 0)

/-- Matrix commands that are left in a cluster without some that leave it. -/
def State.matrixLeft (s : State) (cs : List Cmd) (cl : Nat) : Bool :=
  s.cmds.any (fun d => d.engine = .matrix && d.core / 8 = cl && !d.saved && d.dfault.isNone && !cs.any (fun c => c.cid = d.cid))

/-- The matrix units of the clusters whose last commands leave their queues go idle now, as far as the permit counts (R216). -/
def State.noteIdle (s : State) (cs : List Cmd) : State :=
  { s with clusters := s.clusters.map (fun (p : Nat × Cluster) =>
      if cs.any (fun c => c.engine = .matrix && c.core / 8 = p.1) && !s.matrixLeft cs p.1 then
        (p.1, { p.2 with idle := s.cycle (dieOfCluster p.1) })
      else p) }

/-- Removes every command that satisfies `p`, with its ownership of lines (R188, R280, R281). -/
def State.removeCmds (s : State) (p : Cmd → Bool) : State :=
  let out := s.cmds.filter p
  let gone := out.map (·.cid)
  { s.noteIdle out with
    cmds := s.cmds.filter (fun c => !p c)
    owners := s.owners.filter (fun o => !gone.contains o.cid) }

/-- A byte after a write of some of its bits. -/
def mergeBits (old mask v : Byte) : Byte := (old &&& ~~~mask) ||| (v &&& mask)

/-- The keys of bytes of which every bit is among some. -/
def fullKeys (bits : List (Nat × Byte)) : List Nat :=
  ((bits.map (·.1)).eraseDups).filter (fun k => (bits.filter (fun q => q.1 = k)).foldl (fun b q => b ||| q.2) 0 = 0xFF)

/-- Writes some bits of bytes: each key with the bits written and their values (R258). -/
def State.putCells (s : State) (cells : List (Nat × Byte × Byte)) : State :=
  let ks := (cells.map (·.1)).eraseDups
  let new := ks.map (fun k => (cells.filter (fun q => q.1 = k)).foldl (fun b q => mergeBits b q.2.1 q.2.2) (s.raw k))
  ((s.setBytes 0 ks new).healWords (fullKeys (cells.map (fun q => (q.1, q.2.1))))).tell ks false []

/-- Writes what the unit in progress of a command still has to write. -/
def State.flush (s : State) (c : Cmd) : State := s.putCells (c.late.getD [])

/-- Aborts a launch (R281): the abort record, then everything of the launch stops, engine units in progress being finished, and its end
follows when it can. -/
def State.abort (s : State) (n reason : Nat) (rcd : List Byte) : State :=
  match s.launch? n with
  | none => s
  | some l =>
    if !l.live then s
    else
      let s := s.abortRecord l.ctx n reason rcd
      let s := { s with disp := if s.cur.ofLaunch n then .left else s.disp }
      let s := s.mapStrands (Strand.ofLaunch n) Strand.drop
      let s := (s.cmds.filter (fun c => c.launch = n && c.late.isSome)).foldl State.flush s
      let s := s.removeCmds (fun c => c.launch = n)
      let c := s.ctx l.ctx
      let s := s.setCtx l.ctx { c with saved := c.saved.filter (fun r => r.strand.launch != n) }
      let s := { s with
        clusters := s.clusters.map (fun (p : Nat × Cluster) => (p.1, { p.2 with images := p.2.images.filter (fun i => i.launch != n) }))
        groups := s.groups.filter (fun g => g.launch != n)
        harvest := s.harvest.filter (fun h => h.launch != n)
        pubs := s.pubs.filter (fun p => p.launch != n)
        leesPubs := s.leesPubs.filter (fun p => p.launch != n)
        stores := s.stores.filter (fun a => a.launch != n) }
      let s := s.setLaunch { s.leaveDelta l with state := .aborted, owed := [] }
      (s.finish n).getD s

/-- Abandons what the bundle in hand was waiting for; a GBAR that has not been released has not been issued, but keeps the release that
its completed barrier gave it (R54, R253, R279). -/
def Strand.abandon (t : Strand) : Strand :=
  { t with
    fence := none
    sys := none
    sysGot := []
    code := none
    leesGot := []
    waitRef := []
    seen := none
    leaves := []
    walkFault := none
    doing := none
    atBar := false
    gbar := if t.atBar then t.gbar - 1 else t.gbar }

/-- A request to system space that has been sent may change its target: a store or an atomic (R302). -/
def SysReq.acts (r : SysReq) : Bool :=
  match r.op with
  | .read _ => false
  | _ => true

/-- The bundle in hand has acted outside the strand, or holds a ticket: it completes before the strand does anything else, so that what it
has sent is sent once (R54, R158, R168, R173). -/
def Strand.committed (t : Strand) : Bool :=
  (match t.fence with | some f => f.ticket.isSome || f.acc.isSome | none => false) || t.doing = some .acted
    || (match t.sys with | some r => r.acts | none => !t.sysGot.isEmpty)

/-- The turns that trap entry costs the strand: those of 64 cycles (R271, R66). -/
def State.entryTurns (s : State) : Nat := if s.four then 16 else 8

/-- Trap entry (R271): the record, %fcause and %faddr, then a double fault or a missing handler aborts, and otherwise %epc,
%estat, the privilege and the PC. -/
def State.trapEntry (s : State) (f : FaultInfo) : State :=
  let t := { s.cur with trapWins := s.cur.windows }.closeWindows
  let rcd := faultRecord t f
  let t := { t.abandon with fcause := f.fcause, faddr := f.addr, record := rcd, faulting := none, last := some (f.baddr, f.bundle) }
  let s := { s with cur := t, disp := .trapped }
  match s.writeRecord t rcd with
  | none => s.abort t.launch 2 rcd
  | some s =>
    if t.estat.getLsbD 0 then s.abort t.launch 2 rcd
    else if nbits t.tvec.toNat 3 57 = 0 then s.abort t.launch 1 rcd
    else
      { s with cur := { s.cur with
          epc := f.resume
          estat := (if f.deferd then 0b0010 else 0) ||| (if t.inUi then 0b0100 else 0) ||| 0b1001
          super := true
          stall := s.entryTurns
          pc := w64 (nbits t.tvec.toNat 3 57 * 8) } }

/-- A strand's fault is taken only after its pending scalar results have landed (R75, R271), and once its record can be written
(R188). -/
def State.raise (s : State) (f : FaultInfo) : State :=
  if s.cur.settled && s.recordFree s.cur then s.trapEntry f
  else { s with cur := { s.cur with faulting := some f }, disp := .wait }

/-- A precise fault of the bundle in hand: the strand resumes at it (R271). -/
def State.precise (s : State) (cause sub : Nat) (addr : Word) : FaultInfo where
  cause := cause
  sub := sub
  slotA := s.inA
  elem := 0
  addr := addr
  baddr := s.cur.pc
  bundle := s.bundle
  resume := s.cur.pc
  deferd := false
  prog := 0
  hnd := []
  pblk := 0

/-- The strand's access at an address waits for a page walk: it loses turns (R149). -/
def State.missed (s : State) (addr : Word) : State :=
  (s.requestWalk (clusterOf s.cur.id) s.cur.ctx (addr60 addr) (.strand s.cur.sid)).lose

/-- Takes a precise fault of the bundle in hand, or waits for the walk that decides it. -/
def State.fault (s : State) (cause sub : Nat) (addr : Word) : State :=
  if cause = cWalk then s.missed addr else s.raise (s.precise cause sub addr)

/-- The illegal-bundle fault of R65 in the slot of the word in hand. -/
def State.illegal (s : State) (b : Bad) : State := s.fault 1 b.sub.toNat 0

/-- Alignment fault (R272). -/
def State.misaligned (s : State) (a : Word) : State := s.fault 6 0 a

/-- Machine check 0x0D of a read with an uncorrectable error (R292). -/
def State.machineCheck (s : State) (a : Word) : State := s.fault 0x0D 1 a

/-- The return of ERET (R277). -/
def State.eretTo (s : State) : State :=
  let t := s.cur
  let t := if t.estat.getLsbD 3 then t.openWindows t.trapWins else t
  let pc := w64 (nbits t.epc.toNat 3 57 * 8)
  { s with cur := { t with trapWins := [], super := false, estat := t.estat &&& 0b1110, npc := pc } }

/-! ## What the checks of R65 know of the strand -/

/-- The environment of the decoder for the strand whose turn it is (R65). -/
def State.decEnv (s : State) : DecEnv where
  fourSlot := s.four
  super := s.cur.super
  gb := s.curLaunch.desc.gb
  det := s.curLaunch.desc.det
  vcount := s.curLaunch.desc.vcount.toNat
  inHandler := s.cur.inUi && !s.cur.estat.getLsbD 0

/-- Runs a meaning under the checks of R65 that depend on the strand and its launch; they were made at decoding too. -/
def State.checked (s : State) (i : Instr) (f : State → State) : State :=
  match checkIn s.decEnv i with
  | .ok _ => f s
  | .error b => s.illegal b

/-! ## Ordering of the strand's own accesses -/

/-- An access in flight lies in a storage scope. -/
def Access.inScope (a : Access) (ss : Storage) : Bool :=
  match ss with
  | .all => true
  | .scratch => a.keys.any (fun k => scrBase ≤ k)
  | .globalSp => a.keys.any (fun k => k < scrBase)

/-- The strand's stores, AMOs and event adds in a storage scope have all been performed, and those of others that its acquires have put before
what it does (R171, R172, R263). -/
def State.storesDone (s : State) (ss : Storage) : Bool := !s.stores.any (fun a => s.cur.precededBy a && a.inScope ss)

/-- An engine command may be sent: the strand's stores, AMOs and event adds have all been performed, and those of others that happen before
one of them (R176, R265). -/
def State.sendReady (s : State) : Bool :=
  !s.stores.any (fun a => a.strand = s.cur.sid || s.cur.before.any (fun b => b.id = a.id && b.led))

/-- The strand's loads and AMOs in a storage scope have their values (R171, R172). -/
def State.loadsDone (s : State) (ss : Storage) : Bool :=
  s.cur.pend.all (fun p => p.landed || p.got.isSome || (
    let inSs := fun k => match ss with
      | .all => true
      | .scratch => decide (scrBase ≤ k ∧ k < capBase)
      | .globalSp => decide (k < scrBase ∨ capBase ≤ k)
    match p.op with
    | .load k _ _ => !inSs k
    | .handle k => !inSs k
    | .elem e => !(e.data.any (fun q => inSs q.1) || e.scale.any (fun q => inSs q.1))
    | .amo id => !s.stores.any (fun a => a.id = id && a.inScope ss)
    | .value _ | .float _ | .vintage .. | .cmd _ => true))

/-- Nothing of the strand in a storage scope is still to be performed (R172). -/
def State.quiet (s : State) (ss : Storage) : Bool := s.storesDone ss && s.loadsDone ss

/-- The releases that one of a scope and storage scope makes in the strand: one for each access in flight that it puts before what follows it
(R262). -/
def State.relsOf (s : State) (sc : Scope) (ss : Storage) : List Rel :=
  (s.stores.filter (fun a => s.cur.precededBy a && a.inScope ss)).map (fun a => ⟨a.id, s.cur.id, sc⟩)

/-- A release of the strand's earlier accesses can complete: its loads have their values, and for parties beyond the die its stores have been
performed (R172). Inside a die those that acquire it follow the stores, and no others (R261, log 54). -/
def State.releases (s : State) (sc : Scope) (ss : Storage) : Bool :=
  s.loadsDone ss && (match sc with
    | .strand | .core | .cluster | .die => true
    | .package | .system => s.storesDone ss)

/-- A release of the strand's earlier accesses, which its later stores and AMOs carry; none while something must come first (R172,
R262). -/
def State.release (s : State) (sc : Scope) (ss : Storage) : Option State :=
  if s.releases sc ss then
    (if sc = .strand then some s
      else some { s with cur := { s.cur with rels := s.relsOf sc ss ++ s.alive s.cur.rels } })
  else none

/-- Invalidates every line of a cluster's L1 (R141). -/
def State.emptyL1 (s : State) (c : Nat) : State := s.setCluster c { s.cluster c with l1 := [] }

/-- An acquire of a scope and storage scope empties the L1: cluster or wider with global included (R141). -/
def emptiesL1 (sc : Scope) (ss : Storage) : Bool :=
  match sc, ss with
  | .strand, _ | .core, _ | _, .scratch => false
  | .cluster, _ | .die, _ | .package, _ | .system, _ => true

/-- The acquire of a scope and storage scope as it acts on the L1 (R141, R264). -/
def State.acquire (s : State) (sc : Scope) (ss : Storage) : State :=
  if emptiesL1 sc ss then
    let s := s.emptyL1 (clusterOf s.cur.id)
    { s with cur := { s.cur with before := s.cur.before.map (fun b => { b with deep := true }) } }
  else s

/-- Some accesses in flight of others come before what the strand does from now on (R263). -/
def State.follow (s : State) (ids : List Nat) (deep led : Bool) : State :=
  let new := ids.filter (fun i => s.stores.any (fun a => a.id = i && a.strand != s.cur.sid))
  { s with cur := { s.cur with before := new.map (⟨·, deep, led⟩) ++ s.cur.before.filter (fun b => s.inFlight b.id) } }

/-- The accesses in flight that an acquire of a scope and storage scope puts before what follows it: those that a release puts before a write
that the strand has read (R262). -/
def State.acquired (s : State) (sc : Scope) (ss : Storage) : List Nat :=
  ((s.stores.filter (fun a => a.inScope ss
    && s.cur.heard.any (fun r => r.id = a.id && r.meets sc s.cur.id (a.keys.any (scrBase ≤ ·))))).map (·.id))

/-- The acquire of a fence, a WEVT or an atomic, which `led` says: it synchronises with the releases before what the strand has read (R141,
R262). -/
def State.acquireRead (s : State) (sc : Scope) (ss : Storage) (led : Bool) : State :=
  (s.follow (s.acquired sc ss) (emptiesL1 sc ss) led).acquire sc ss

/-- An atomic and a fence of kind acqrel or sc: what the acquire puts before the strand's accesses, the release puts before what follows it; none
while something must come first (R172, R262, R263). A sequentially consistent one comes before every later ticket at package scope and for all
spaces (R262). -/
def State.acquireRelease (s : State) (seq : Bool) (sc : Scope) (ss : Storage) (led : Bool) : Option State :=
  let s := s.acquireRead sc ss led
  if seq then s.release .package .all else s.release sc ss

/-- The strand reads from writes that some releases come before (R262). -/
def Strand.hear (t : Strand) (rs : List Rel) : Strand := { t with heard := t.heard ++ rs.filter (fun r => !t.heard.contains r) }

end Sys2Proof.Machine
end

