-- ==== Sys2Proof/Machine/Flags.lean ====
section
/-! DEFINITION. The exceptions of the scalar floating-point instructions and %fpc (spec/06 R93, R94), and the two turns of the
normaliser (spec/04 R76). -/

namespace Sys2Proof.Machine

open Sys2Proof

/-- The trap enables %fpc<12:8>. -/
def trapEnables (fpc : Word) : Exc := fpc.extractLsb' 8 5

/-- %fpc as the bundle's words see it: before the bundle (R52, R93). -/
def State.fpcSeen (s : State) : Word :=
  match s.latch with
  | some l => l.fpc
  | none => s.cur.fpc

/-- Some exception traps (R94). -/
def State.trapsOn (s : State) (e : Exc) : Bool := e &&& trapEnables s.fpcSeen != 0

/-- Some trap enable is set (R94). -/
def State.anyTrap (s : State) : Bool := trapEnables s.fpcSeen != 0

/-- ORs exceptions into %fpc<4:0> (R93). -/
def Strand.accrue (t : Strand) (e : Exc) : Strand := { t with fpc := t.fpc ||| zext e }

/-- ORs exceptions into %fpc<4:0> of the strand whose turn it is. -/
def State.accrue (s : State) (e : Exc) : State := { s with cur := s.cur.accrue e }

/-- The arithmetic trap of R94: cause 0x0C, the exceptions in the element field. -/
def State.arithTrap (s : State) (e : Exc) : State := s.raise { s.precise 0x0C 0 0 with elem := e.setWidth 32 }

/-- The fields of %fpc that hold a value (R93). -/
def fpcMask : Word := 0x1F1F

/-- The strand's next two turns go to the normaliser when a value was subnormal (R76). -/
def State.normalise (s : State) (sub : Bool) : State := if sub then { s with cur := { s.cur with stall := 2 } } else s

/-- A value is subnormal in a float format: nonzero and below the smallest normal (R76). -/
def FFmt.subnormal (f : FFmt) (v : Val) : Bool :=
  match v with
  | .num _ n d => n != 0 && decide (floorLog2 n d < 1 - (f.bias : Int))
  | _ => false

end Sys2Proof.Machine
end

