-- ==== Sys2Proof/Machine/Operands.lean ====
section
/-! DEFINITION. Operand forms: A-word sources with their back references (spec/03 R52, R64), scalar addresses (spec/11 R157),
element operands (R161), handle fields and tile geometry (spec/12 R174, R175), and format table entries (spec/01 R25). -/

namespace Sys2Proof.Machine

open Sys2Proof

/-! ## Sources of A-words -/

/-- A register as a word of the bundle reads it: the value before the bundle (R52). -/
def State.src (s : State) (r : XReg) : Word :=
  match s.latch with
  | some l => if r = 0 then 0 else l.x[r.toNat]'(by have := r.isLt; omega)
  | none => s.rd r

/-- Source A: the back-referenced value where the wrap names one (R64). -/
def State.srcA (s : State) (r : XReg) : Word := s.refs.a.getD (s.src r)
/-- Source B. -/
def State.srcB (s : State) (r : XReg) : Word := s.refs.b.getD (s.src r)
/-- Source C. -/
def State.srcC (s : State) (r : XReg) : Word := s.refs.c.getD (s.src r)
/-- The address of the bundle in hand (R86). -/
def State.pcSeen (s : State) : Word :=
  match s.latch with
  | some l => l.pc
  | none => s.cur.pc

/-! ## Addresses of plain accesses -/

end Sys2Proof.Machine

namespace Sys2Proof

open Sys2Proof.Machine

/-- The size in bytes of a plain access (R157). -/
def Ty.size : Ty → Nat
  | .b8 | .i8 => 1
  | .b16 | .i16 | .f16 | .bf16 => 2
  | .b32 | .i32 | .f32 => 4
  | .b64 | .i64 | .f64 => 8

end Sys2Proof

namespace Sys2Proof.Machine

open Sys2Proof

/-- The address of an access: base bits 59:0 plus the signed offset in units, modulo 2^60 (R157). -/
def effAddr {n : Nat} (base : Word) (off : BitVec n) (unit : Nat) : Nat := modPow ((addr60 base : Int) + off.toInt * unit) 60

/-- An address with the selector bits of a base above it (R157). -/
def withSel (base : Word) (a : Nat) : Word := w64 (base.toNat / 2 ^ 60 * 2 ^ 60 + a)

/-- A loaded value extended as its type says (R158). -/
def extend (ty : Ty) (v : Nat) : Word :=
  match ty with
  | .i8 => (BitVec.ofNat 8 v).signExtend 64
  | .i16 => (BitVec.ofNat 16 v).signExtend 64
  | .i32 => (BitVec.ofNat 32 v).signExtend 64
  | _ => w64 v

/-! ## Format table entries (R25) -/

/-- A format table entry of the strand's launch (R24). -/
def fmtEntry (fmt : List (BitVec 128)) (sel : Nat) : Nat := (fmt.getD sel 0).toNat
/-- EF. -/
def eEF (e : Nat) : Nat := nbits e 0 4
/-- SCF. -/
def eSCF (e : Nat) : Nat := nbits e 7 2
/-- BLK. -/
def eBLK (e : Nat) : Nat := nbits e 9 3
/-- AX. -/
def eAX (e : Nat) : Nat := nbits e 12 1
/-- RND. -/
def eRND (e : Nat) : Nat := nbits e 13 3
/-- SOFF, a signed byte count. -/
def eSOFF (e : Nat) : Int := signedOf 48 (nbits e 80 48)

/-- Bytes per block in a space (R26). -/
def bpb (e : Nat) (scratch : Bool) : Nat := 2 ^ eBLK e * efBits (eEF e) scratch / 8

/-- The address of the scale of the element at byte offset `o` from a base; none under SCF 0b00 (R28). The integer division of an
offset below the base rounds toward minus infinity (DESIGN CHOICE, log 46). -/
def scaleAddr (e : Nat) (scratch : Bool) (base : Nat) (o : Int) : Option Nat :=
  if eSCF e = 1 then some (modPow ((base : Int) + eSOFF e + o / (bpb e scratch : Int)) 60)
  else if eSCF e = 2 then some (modPow ((base : Int) + eSOFF e) 60)
  else none

/-- A rounding mode in force: RM, or the entry's RND where RM says so (R127). -/
def rmCodeOf (rm : Rm) (entry : Nat) : Nat :=
  match rm with
  | .rne => 0
  | .rtz => 1
  | .sr => 2
  | .ns => 3
  | .nss => 4
  | .entry => eRND entry

/-- A mode draws random bits (R127, R135). -/
def modeDraws (m : Nat) : Bool := m = 2 || m = 4

/-- The rounding a mode performs, with its random bits (R127). -/
def rmodeOf (m : Nat) (bits24 : Nat) : RMode :=
  if m = 1 then .rtz else if modeDraws m then .sr bits24 else .rne

/-! ## Elements of a scalar access (R160, R161) -/

/-- Where the element of an LD.E or ST.E lies. -/
structure ElemAt where
  scratch : Bool
  entry   : Nat
  nb      : Nat
  bitOff  : Nat
  addr    : Nat
  bytes   : Nat
  scale   : Option Nat
deriving DecidableEq, Repr

/-- Locates an element from the base operand, the element operand and the offset (R161). -/
def elemAt {n : Nat} (fmt : List (BitVec 128)) (base op : Word) (off : BitVec n) : ElemAt :=
  let scratch := op.getLsbD 63
  let entry := fmtEntry fmt (base.toNat / 2 ^ 60)
  let nb := efBits (eEF entry) scratch
  let pos : Int := ((nbits op.toNat 32 31 : Nat) + off.toInt) * nb
  let o : Int := pos / 8
  let bo := (pos % 8).toNat
  { scratch := scratch
    entry := entry
    nb := nb
    bitOff := if nb < 8 then bo else 0
    addr := modPow ((addr60 base : Int) + o) 60
    bytes := if nb < 8 then (bo + nb + 7) / 8 else nb / 8
    scale := scaleAddr entry scratch (addr60 base) o }

end Sys2Proof.Machine

namespace Sys2Proof

open Sys2Proof.Machine

/-- The float type of a register type (R160). -/
def Ty.flt : Ty → Option FTy
  | .f64 => some .d
  | .f32 => some .s
  | .f16 => some .h
  | .bf16 => some .bf
  | _ => none

end Sys2Proof

namespace Sys2Proof.Machine

open Sys2Proof

/-! ## Handle fields (R174, R177) -/

/-- Bits of a handle. -/
def hBits (h : Handle) (lo len : Nat) : Nat := nbits h.toNat lo len
/-- BASE. -/
def hBase (h : Handle) : Nat := hBits h 0 64
/-- BASE<59:0>. -/
def hAddr (h : Handle) : Nat := hBits h 0 60
/-- The format selector. -/
def hSel (h : Handle) : Nat := hBits h 60 4
/-- Rows. -/
def hRows (h : Handle) : Nat := hBits h 64 12 + 1
/-- Columns. -/
def hCols (h : Handle) : Nat := hBits h 76 12 + 1
/-- PITCH. -/
def hPitch (h : Handle) : Nat := hBits h 88 24
/-- SP: scratch. -/
def hScr (h : Handle) : Bool := h.getLsbD 112
/-- AX. -/
def hAX (h : Handle) : Nat := hBits h 113 1
/-- RSTEP, signed. -/
def hRStep (h : Handle) : Int := signedOf 12 (hBits h 128 12)
/-- CSTEP, signed. -/
def hCStep (h : Handle) : Int := signedOf 12 (hBits h 140 12)
/-- ETAG. -/
def hETag (h : Handle) : BitVec 16 := h.extractLsb' 160 16
/-- FILL. -/
def hFill (h : Handle) : Nat := hBits h 192 32

/-- Place and width of field f of R177, for f of 0 to 10. -/
def hField (f : Nat) : Nat × Nat :=
  [(0, 64), (64, 12), (76, 12), (88, 24), (112, 1), (113, 1), (128, 12), (140, 12), (160, 16), (192, 32), (60, 4)].getD f (0, 0)

/-- Replaces bits of a handle. -/
def hPut (h : Handle) (lo len v : Nat) : Handle :=
  BitVec.ofNat 256 (h.toNat - nbits h.toNat lo len * 2 ^ lo + v % 2 ^ len * 2 ^ lo)

/-! ## Tile geometry (R175) -/

/-- A tile: the handle and its format entry. -/
structure Tile where
  h     : Handle
  entry : Nat
deriving DecidableEq, Repr

/-- The tile of a handle under a launch's format table. -/
def tileOf (fmt : List (BitVec 128)) (h : Handle) : Tile := ⟨h, fmtEntry fmt (hSel h)⟩
/-- Bits per element in its space. -/
def Tile.nb (t : Tile) : Nat := efBits (eEF t.entry) (hScr t.h)
/-- Lines. -/
def Tile.lines (t : Tile) : Nat := if hAX t.h = 0 then hRows t.h else hCols t.h
/-- Elements per line. -/
def Tile.perLine (t : Tile) : Nat := if hAX t.h = 0 then hCols t.h else hRows t.h
/-- Bytes of a line. -/
def Tile.lineLen (t : Tile) : Nat := (t.perLine * t.nb + 7) / 8
/-- Bytes of the span. -/
def Tile.spanLen (t : Tile) : Nat := (t.lines - 1) * hPitch t.h + t.lineLen
/-- Line and position of element (r, c). -/
def Tile.lineOf (t : Tile) (r c : Nat) : Nat × Nat := if hAX t.h = 0 then (r, c) else (c, r)
/-- Byte offset and bit offset of position p of line ℓ. -/
def Tile.offs (t : Tile) (l p : Nat) : Nat × Nat := (l * hPitch t.h + p * t.nb / 8, p * t.nb % 8)
/-- The address of the scale of position p of line ℓ (R28). -/
def Tile.scaleAt (t : Tile) (l p : Nat) : Option Nat := scaleAddr t.entry (hScr t.h) (hAddr t.h) ((t.offs l p).1 : Nat)

/-- A handle's origin moved by n times its steps (R179); none where the move is no whole number of bytes. -/
def stepHandle (fmt : List (BitVec 128)) (h : Handle) (n : Int) : Option Handle :=
  let t := tileOf fmt h
  let b : Int := t.nb
  let p : Int := 8 * hPitch h
  let (rs, cs) := if hAX h = 0 then (p, b) else (b, p)
  let d := n * (hRStep h * rs + hCStep h * cs)
  if d % 8 != 0 then none
  else if hScr h then some (hPut h 0 22 (modPow ((hBits h 0 22 : Nat) + d / 8) 22))
  else some (hPut h 0 60 (modPow ((hAddr h : Nat) + d / 8) 60))

end Sys2Proof.Machine
end

