-- ==== Sys2Proof/Machine/Integer.lean ====
section
/-! DEFINITION. The integer and address instructions (spec/05). Each writes one value computed from its sources. -/

namespace Sys2Proof.Machine

open Sys2Proof

/-- Truncating division of R80: quotient and remainder. -/
def divTrunc (a b : Word) : Word × Word :=
  if b = 0 then (BitVec.ofInt 64 (-1), a)
  else if a = BitVec.ofNat 64 (2 ^ 63) && b = BitVec.ofInt 64 (-1) then (a, 0)
  else
    let q := a.toInt.tdiv b.toInt
    (BitVec.ofInt 64 q, BitVec.ofInt 64 (a.toInt - q * b.toInt))

/-- Unsigned division of R80: quotient and remainder. -/
def divFloor (a b : Word) : Word × Word :=
  if b = 0 then (BitVec.allOnes 64, a) else (w64 (a.toNat / b.toNat), w64 (a.toNat % b.toNat))

/-- 1 or 0. -/
def ofBool (c : Bool) : Word := if c then 1 else 0

/-- Number of zero bits above the highest 1 (R79). -/
def clz64 (a : Word) : Word := if a = 0 then 64 else w64 (63 - Nat.log2 a.toNat)

/-- Number of zero bits below the lowest 1 (R79). -/
def ctz64 (a : Word) : Word := w64 ((setBits a).headD 64)

/-- Number of 1 bits (R79). -/
def popc64 (a : Word) : Word := w64 (setBits a).length

/-- A mask of `w` low bits (R84). -/
def lowMask (w : Nat) : Word := w64 (2 ^ w - 1)

/-- A fat pointer with the selector of `p` and the address `v` modulo 2^60 (R89). -/
def keepSel (p : Word) (v : Int) : Word := withSel p (modPow v 60)

/-- Field k of a work index under a SHAPE word (R85). -/
def fieldOf (d : Desc) (v : Word) (k : Nat) : Word := w64 (v.toNat >>> d.widthSum k % 2 ^ d.width k)

/-- The value ADD writes (R79). -/
def valAdd (a b : Word) : Word := a + b

/-- ADD: a + b. -/
def execAdd (d a b : XReg) (s : State) : Out := .next (s.wr d (valAdd (s.srcA a) (s.srcB b)))

/-- The value SUB writes (R79). -/
def valSub (a b : Word) : Word := a - b

/-- SUB: a − b. -/
def execSub (d a b : XReg) (s : State) : Out := .next (s.wr d (valSub (s.srcA a) (s.srcB b)))

/-- The value MUL writes (R79). -/
def valMul (a b : Word) : Word := a * b

/-- MUL: low 64 bits of the product. -/
def execMul (d a b : XReg) (s : State) : Out := .next (s.wr d (valMul (s.srcA a) (s.srcB b)))

/-- The value MULH writes (R79). -/
def valMulh (a b : Word) : Word := BitVec.ofInt 64 (a.toInt * b.toInt / 2 ^ 64)

/-- MULH: high half of the signed product. -/
def execMulh (d a b : XReg) (s : State) : Out := .next (s.wr d (valMulh (s.srcA a) (s.srcB b)))

/-- The value MULHB writes (R79). -/
def valMulhb (a b : Word) : Word := w64 (a.toNat * b.toNat / 2 ^ 64)

/-- MULHB: high half of the unsigned product. -/
def execMulhb (d a b : XReg) (s : State) : Out := .next (s.wr d (valMulhb (s.srcA a) (s.srcB b)))

/-- The value DIV writes (R79). -/
def valDiv (a b : Word) : Word := (divTrunc a b).1

/-- DIV: signed quotient (R80). -/
def execDiv (d a b : XReg) (s : State) : Out := .next (s.wr d (valDiv (s.srcA a) (s.srcB b)))

/-- The value DIVB writes (R79). -/
def valDivb (a b : Word) : Word := (divFloor a b).1

/-- DIVB: unsigned quotient (R80). -/
def execDivb (d a b : XReg) (s : State) : Out := .next (s.wr d (valDivb (s.srcA a) (s.srcB b)))

/-- The value REM writes (R79). -/
def valRem (a b : Word) : Word := (divTrunc a b).2

/-- REM: signed remainder (R80). -/
def execRem (d a b : XReg) (s : State) : Out := .next (s.wr d (valRem (s.srcA a) (s.srcB b)))

/-- The value REMB writes (R79). -/
def valRemb (a b : Word) : Word := (divFloor a b).2

/-- REMB: unsigned remainder (R80). -/
def execRemb (d a b : XReg) (s : State) : Out := .next (s.wr d (valRemb (s.srcA a) (s.srcB b)))

/-- The value AND writes (R79). -/
def valAnd (a b : Word) : Word := a &&& b

/-- AND. -/
def execAnd (d a b : XReg) (s : State) : Out := .next (s.wr d (valAnd (s.srcA a) (s.srcB b)))

/-- The value OR writes (R79). -/
def valOr (a b : Word) : Word := a ||| b

/-- OR. -/
def execOr (d a b : XReg) (s : State) : Out := .next (s.wr d (valOr (s.srcA a) (s.srcB b)))

/-- The value XOR writes (R79). -/
def valXor (a b : Word) : Word := a ^^^ b

/-- XOR. -/
def execXor (d a b : XReg) (s : State) : Out := .next (s.wr d (valXor (s.srcA a) (s.srcB b)))

/-- The value SHL writes (R79). -/
def valShl (a b : Word) : Word := a <<< (b.toNat % 64)

/-- SHL by b<5:0>. -/
def execShl (d a b : XReg) (s : State) : Out := .next (s.wr d (valShl (s.srcA a) (s.srcB b)))

/-- The value SHR writes (R79). -/
def valShr (a b : Word) : Word := a >>> (b.toNat % 64)

/-- SHR by b<5:0>. -/
def execShr (d a b : XReg) (s : State) : Out := .next (s.wr d (valShr (s.srcA a) (s.srcB b)))

/-- The value SRA writes (R79). -/
def valSra (a b : Word) : Word := a.sshiftRight (b.toNat % 64)

/-- SRA by b<5:0>. -/
def execSra (d a b : XReg) (s : State) : Out := .next (s.wr d (valSra (s.srcA a) (s.srcB b)))

/-- The value ROL writes (R79). -/
def valRol (a b : Word) : Word := a.rotateLeft (b.toNat % 64)

/-- ROL by b<5:0>. -/
def execRol (d a b : XReg) (s : State) : Out := .next (s.wr d (valRol (s.srcA a) (s.srcB b)))

/-- The value MIN writes (R79). -/
def valMin (a b : Word) : Word := if a.sle b then a else b

/-- MIN, signed. -/
def execMin (d a b : XReg) (s : State) : Out := .next (s.wr d (valMin (s.srcA a) (s.srcB b)))

/-- The value MAX writes (R79). -/
def valMax (a b : Word) : Word := if b.sle a then a else b

/-- MAX, signed. -/
def execMax (d a b : XReg) (s : State) : Out := .next (s.wr d (valMax (s.srcA a) (s.srcB b)))

/-- The value MINB writes (R79). -/
def valMinb (a b : Word) : Word := if a.ule b then a else b

/-- MINB, unsigned. -/
def execMinb (d a b : XReg) (s : State) : Out := .next (s.wr d (valMinb (s.srcA a) (s.srcB b)))

/-- The value MAXB writes (R79). -/
def valMaxb (a b : Word) : Word := if b.ule a then a else b

/-- MAXB, unsigned. -/
def execMaxb (d a b : XReg) (s : State) : Out := .next (s.wr d (valMaxb (s.srcA a) (s.srcB b)))

/-- The value SLT writes (R79). -/
def valSlt (a b : Word) : Word := ofBool (a.slt b)

/-- SLT, signed. -/
def execSlt (d a b : XReg) (s : State) : Out := .next (s.wr d (valSlt (s.srcA a) (s.srcB b)))

/-- The value SLTB writes (R79). -/
def valSltb (a b : Word) : Word := ofBool (a.ult b)

/-- SLTB, unsigned. -/
def execSltb (d a b : XReg) (s : State) : Out := .next (s.wr d (valSltb (s.srcA a) (s.srcB b)))

/-- The value SEQ writes (R79). -/
def valSeq (a b : Word) : Word := ofBool (a = b)

/-- SEQ. -/
def execSeq (d a b : XReg) (s : State) : Out := .next (s.wr d (valSeq (s.srcA a) (s.srcB b)))

/-- The value SNE writes (R79). -/
def valSne (a b : Word) : Word := ofBool (a != b)

/-- SNE. -/
def execSne (d a b : XReg) (s : State) : Out := .next (s.wr d (valSne (s.srcA a) (s.srcB b)))

/-- The value ADDA writes (R79). -/
def valAdda (a b : Word) : Word := keepSel a ((addr60 a : Int) + b.toInt)

/-- ADDA: the selector of a, the address moved by b (R89). -/
def execAdda (d a b : XReg) (s : State) : Out := .next (s.wr d (valAdda (s.srcA a) (s.srcB b)))

/-- The value PTAG writes (R79). -/
def valPtag (a b : Word) : Word := w64 (b.toNat % 16 * 2 ^ 60 + addr60 a)

/-- PTAG: the address of a under selector b<3:0> (R89). -/
def execPtag (d a b : XReg) (s : State) : Out := .next (s.wr d (valPtag (s.srcA a) (s.srcB b)))

/-- The value CLZ writes (R79). -/
def valClz (a : Word) : Word := clz64 a

/-- CLZ. -/
def execClz (d a : XReg) (s : State) : Out := .next (s.wr d (valClz (s.srcA a)))

/-- The value CTZ writes (R79). -/
def valCtz (a : Word) : Word := ctz64 a

/-- CTZ. -/
def execCtz (d a : XReg) (s : State) : Out := .next (s.wr d (valCtz (s.srcA a)))

/-- The value POPC writes (R79). -/
def valPopc (a : Word) : Word := popc64 a

/-- POPC. -/
def execPopc (d a : XReg) (s : State) : Out := .next (s.wr d (valPopc (s.srcA a)))

/-- The value PFS writes (R79). -/
def valPfs (a : Word) : Word := w64 (a.toNat / 2 ^ 60)

/-- PFS: the selector (R89). -/
def execPfs (d a : XReg) (s : State) : Out := .next (s.wr d (valPfs (s.srcA a)))

/-- The value PCLR writes (R79). -/
def valPclr (a : Word) : Word := w64 (addr60 a)

/-- PCLR: the address with selector 0 (R89). -/
def execPclr (d a : XReg) (s : State) : Out := .next (s.wr d (valPclr (s.srcA a)))

/-- SEL: all three sources are read (R81). -/
def execSel (d a b c : XReg) (s : State) : Out :=
  .next (s.wr d (if s.srcA a != 0 then s.srcB b else s.srcC c))

/-- The value ADDI writes (R82). -/
def valAddi (v : Word) (imm : BitVec 12) : Word := v + sext imm

/-- ADDI. -/
def execAddi (d a : XReg) (imm : BitVec 12) (s : State) : Out := .next (s.wr d (valAddi (s.srcA a) imm))

/-- The value ANDI writes (R82). -/
def valAndi (v : Word) (imm : BitVec 12) : Word := v &&& sext imm

/-- ANDI. -/
def execAndi (d a : XReg) (imm : BitVec 12) (s : State) : Out := .next (s.wr d (valAndi (s.srcA a) imm))

/-- The value ORI writes (R82). -/
def valOri (v : Word) (imm : BitVec 12) : Word := v ||| sext imm

/-- ORI. -/
def execOri (d a : XReg) (imm : BitVec 12) (s : State) : Out := .next (s.wr d (valOri (s.srcA a) imm))

/-- The value XORI writes (R82). -/
def valXori (v : Word) (imm : BitVec 12) : Word := v ^^^ sext imm

/-- XORI. -/
def execXori (d a : XReg) (imm : BitVec 12) (s : State) : Out := .next (s.wr d (valXori (s.srcA a) imm))

/-- The value SLTI writes (R82). -/
def valSlti (v : Word) (imm : BitVec 12) : Word := ofBool (v.slt (sext imm))

/-- SLTI. -/
def execSlti (d a : XReg) (imm : BitVec 12) (s : State) : Out := .next (s.wr d (valSlti (s.srcA a) imm))

/-- The value ADDAI writes (R82). -/
def valAddai (v : Word) (imm : BitVec 12) : Word := keepSel v ((addr60 v : Int) + imm.toInt)

/-- ADDAI: the address moved, the selector kept (R89). -/
def execAddai (d a : XReg) (imm : BitVec 12) (s : State) : Out := .next (s.wr d (valAddai (s.srcA a) imm))

/-- The value SHLI writes (R83). -/
def valShli (v : Word) (n : BitVec 6) : Word := v <<< n.toNat

/-- SHLI by n. -/
def execShli (d a : XReg) (n : BitVec 6) (s : State) : Out := .next (s.wr d (valShli (s.srcA a) n))

/-- The value SHRI writes (R83). -/
def valShri (v : Word) (n : BitVec 6) : Word := v >>> n.toNat

/-- SHRI by n. -/
def execShri (d a : XReg) (n : BitVec 6) (s : State) : Out := .next (s.wr d (valShri (s.srcA a) n))

/-- The value SRAI writes (R83). -/
def valSrai (v : Word) (n : BitVec 6) : Word := v.sshiftRight n.toNat

/-- SRAI by n. -/
def execSrai (d a : XReg) (n : BitVec 6) (s : State) : Out := .next (s.wr d (valSrai (s.srcA a) n))

/-- The field BEXT extracts (R84). -/
def valBext (v : Word) (wm1 lsb : BitVec 6) : Word := (v >>> lsb.toNat) &&& lowMask (wm1.toNat + 1)

/-- BEXT. -/
def execBext (d a : XReg) (wm1 lsb : BitVec 6) (s : State) : Out := .next (s.wr d (valBext (s.srcA a) wm1 lsb))

/-- The value BINS writes: the low bits of `v` in a field of `old` (R84). -/
def valBins (old v : Word) (wm1 lsb : BitVec 6) : Word :=
  (old &&& ~~~(lowMask (wm1.toNat + 1) <<< lsb.toNat)) ||| ((v &&& lowMask (wm1.toNat + 1)) <<< lsb.toNat)

/-- BINS: D is read as well as written, without a back reference. -/
def execBins (d a : XReg) (wm1 lsb : BitVec 6) (s : State) : Out :=
  .next (s.wr d (valBins (s.src d) (s.srcA a) wm1 lsb))

/-- FLD: a field of a work index under the launch's SHAPE (R85). -/
def execFld (d a : XReg) (k : BitVec 12) (s : State) : Out :=
  .next (s.wr d (fieldOf s.curLaunch.desc (s.srcA a) k.toNat))

/-- LIH: imm20 sign-extended, times 4,096 (R86). -/
def execLih (d : XReg) (imm : BitVec 20) (s : State) : Out := .next (s.wr d (sext imm <<< 12))

/-- PCH: the bundle's address plus imm20 × 4,096, modulo 2^60 (R86). -/
def execPch (d : XReg) (imm : BitVec 20) (s : State) : Out :=
  .next (s.wr d (w64 (modPow ((addr60 s.pcSeen : Int) + imm.toInt * 4096) 60)))

end Sys2Proof.Machine
end

