-- ==== Sys2Proof/Machine/Float.lean ====
section
/-! DEFINITION. Long-latency issue (spec/04 R73, R74) and the scalar floating-point instructions (spec/06). -/

namespace Sys2Proof.Machine

open Sys2Proof

/-! ## Long-latency results -/

/-- Results a strand still waits for (R74). -/
def Strand.pending (t : Strand) : Nat := (t.pend.filter (fun p => !p.landed && p.reg != 0)).length

/-- Adds a pending result with its window; a result for x0 leaves nothing pending but still lands (R73). -/
def State.issueLong (s : State) (p : Pend) : State :=
  let p := if p.reg = 0 then { p with win := 0 } else p
  { s with cur := { s.cur with pend := s.cur.pend ++ [p] } }

/-- A ninth pending result waits at issue (R74). -/
def State.pendFull (s : State) (d : XReg) : Bool := d != 0 && 8 ≤ s.cur.pending

/-- A pending result of the bundle in hand for scalar register d. -/
def State.mkPend (s : State) (d : XReg) (la : La) (op : PendOp) : Pend where
  reg := d.toNat
  win := la.toNat
  prod := s.cur.pc
  op := op
  got := none
  missed := false
  flags := 0
  landed := false
  site := none
  start := s.now
  seq := s.nextId

/-- A quotient or root whose value is known at issue (R98). -/
def State.longValue (s : State) (d : XReg) (la : La) (v : Word) (e : Exc) : State :=
  if s.pendFull d then s.lose
  else (s.issueLong { s.mkPend d la (.float v) with flags := e }).markWritten d

/-! ## Operands and results (R91, R92) -/

end Sys2Proof.Machine

namespace Sys2Proof

open Sys2Proof.Machine

/-- The code of a float operand in a register (R91). -/
def FTy.code (t : FTy) (v : Word) : Nat := v.toNat % 2 ^ (t.fmt.e + t.fmt.m + 1)


/-- The value of a float operand in a register (R91). -/
def FTy.val (t : FTy) (v : Word) : Val := t.fmt.decode (t.code v)

end Sys2Proof

namespace Sys2Proof.Machine

open Sys2Proof

/-- NV where some operand is a signalling NaN (R92). -/
def snanExc (vs : List Val) : Exc := if vs.any Val.isSnan then xNV else 0

end Sys2Proof.Machine

namespace Sys2Proof

open Sys2Proof.Machine

/-- Rounds a result with its exceptions (R92). -/
def FTy.result (t : FTy) (r : Val × Exc) : Word × Exc :=
  let (c, e) := t.fmt.roundNE r.1
  (w64 c, r.2 ||| e)

end Sys2Proof

namespace Sys2Proof.Machine

open Sys2Proof

/-- The effect of R95: trap, or write the result and OR the exceptions in; subnormals cost two turns (R76). -/
def State.floatWrite (s : State) (d : XReg) (v : Word) (e : Exc) (sub : Bool) : State :=
  if s.trapsOn e then s.arithTrap e else ((s.wr d v).accrue e).normalise sub

/-- An arithmetic instruction with rounded result: exact operation, then one rounding (R92). -/
def State.floatArith (s : State) (t : FTy) (d : XReg) (ops : List Val) (r : Val × Exc) : State :=
  let (v, e) := t.result r
  s.floatWrite d v (e ||| snanExc ops) ((r.1 :: ops).any t.fmt.subnormal)

/-- FADD (R95). -/
def execFadd (t : FTy) (d a b : XReg) (s : State) : Out :=
  let x := t.val (s.srcA a)
  let y := t.val (s.srcB b)
  .next (s.floatArith t d [x, y] (x.add y))

/-- FSUB: FADD with the sign of b inverted (R95). -/
def execFsub (t : FTy) (d a b : XReg) (s : State) : Out :=
  let x := t.val (s.srcA a)
  let y := t.val (s.srcB b)
  .next (s.floatArith t d [x, y] (x.add y.neg))

/-- FMUL (R95). -/
def execFmul (t : FTy) (d a b : XReg) (s : State) : Out :=
  let x := t.val (s.srcA a)
  let y := t.val (s.srcB b)
  .next (s.floatArith t d [x, y] (x.mul y))

/-- minimumNumber or maximumNumber of two codes, with the canonical NaN for two NaNs (R95). -/
def extremumCode (t : FTy) (max : Bool) (a b : Word) : Word :=
  let x := t.val a
  let y := t.val b
  match x.isNan, y.isNan with
  | true, true => w64 ((t.fmt.canonNan).getD 0)
  | true, false => w64 (t.code b)
  | false, true => w64 (t.code a)
  | false, false => if Val.below x y = max then w64 (t.code b) else w64 (t.code a)

/-- FMIN (R95). -/
def execFmin (t : FTy) (d a b : XReg) (s : State) : Out :=
  let vs := [t.val (s.srcA a), t.val (s.srcB b)]
  .next (s.floatWrite d (extremumCode t false (s.srcA a) (s.srcB b)) (snanExc vs) (vs.any t.fmt.subnormal))

/-- FMAX (R95). -/
def execFmax (t : FTy) (d a b : XReg) (s : State) : Out :=
  let vs := [t.val (s.srcA a), t.val (s.srcB b)]
  .next (s.floatWrite d (extremumCode t true (s.srcA a) (s.srcB b)) (snanExc vs) (vs.any t.fmt.subnormal))

end Sys2Proof.Machine

namespace Sys2Proof

open Sys2Proof.Machine

/-- The weight of the sign bit. -/
def FTy.signWeight (t : FTy) : Nat := 2 ^ (t.fmt.e + t.fmt.m)

end Sys2Proof

namespace Sys2Proof.Machine

open Sys2Proof

/-- FABS: the sign bit cleared (R95). -/
def execFabs (t : FTy) (d a : XReg) (s : State) : Out :=
  .next (s.floatWrite d (w64 (t.code (s.srcA a) % t.signWeight)) 0 (t.fmt.subnormal (t.val (s.srcA a))))

/-- FNEG: the sign bit inverted (R95). -/
def execFneg (t : FTy) (d a : XReg) (s : State) : Out :=
  .next (s.floatWrite d (w64 ((t.code (s.srcA a) + t.signWeight) % (2 * t.signWeight))) 0 (t.fmt.subnormal (t.val (s.srcA a))))

/-- A comparison: 1 where `test` holds of the order of two numbers, 0 with a NaN; `quiet` raises NV for a signalling NaN
only (R95). -/
def State.floatCompare (s : State) (t : FTy) (d a b : XReg) (quiet : Bool) (test : Int → Bool) : State :=
  let x := t.val (s.srcA a)
  let y := t.val (s.srcB b)
  let nan := x.isNan || y.isNan
  let e := if quiet then snanExc [x, y] else if nan then xNV else 0
  s.floatWrite d (if !nan && test (Val.cmp x y) then 1 else 0) e (t.fmt.subnormal x || t.fmt.subnormal y)

/-- FLT (R95). -/
def execFlt (t : FTy) (d a b : XReg) (s : State) : Out := .next (s.floatCompare t d a b false (fun c => c < 0))

/-- FLE (R95). -/
def execFle (t : FTy) (d a b : XReg) (s : State) : Out := .next (s.floatCompare t d a b false (fun c => c ≤ 0))

/-- FEQ (R95). -/
def execFeq (t : FTy) (d a b : XReg) (s : State) : Out := .next (s.floatCompare t d a b true (fun c => c = 0))

/-- The class bit of R96. -/
def classOf (t : FTy) (v : Val) : Nat :=
  match v with
  | .nan sig => if sig then 8 else 9
  | .inf s => if s then 0 else 7
  | .num s n _ =>
    if n = 0 then (if s then 3 else 4)
    else if t.fmt.subnormal v then (if s then 2 else 5)
    else (if s then 1 else 6)

/-- FCLASS (R96). -/
def execFclass (t : FTy) (d a : XReg) (s : State) : Out :=
  let v := t.val (s.srcA a)
  .next (s.floatWrite d (w64 (2 ^ classOf t v)) 0 (t.fmt.subnormal v))

/-- FFMA: one rounding of the exact value (R97). -/
def execFfma (t : FTy) (d a b c : XReg) (s : State) : Out :=
  let x := t.val (s.srcA a)
  let y := t.val (s.srcB b)
  let z := t.val (s.srcC c)
  .next (s.floatArith t d [x, y, z] (x.fma y z))

/-- FDIV and FSQRT: with a trap enabled the bundle issues with its result landed, or traps (R94, R98). It waits while eight results are
pending, though its own would make no ninth (R74 does not say; DESIGN CHOICE, log 63). -/
def State.floatLong (s : State) (t : FTy) (d : XReg) (la : La) (ops : List Val) (r : Val × Exc) : State :=
  let (v, e) := t.result r
  let e := e ||| snanExc ops
  if s.anyTrap then
    if s.trapsOn e then s.arithTrap e
    else if s.pendFull d then s.lose
    else
      let s := (s.wr d v).accrue e
      if d = 0 then s else s.issueLong { s.mkPend d la (.value v) with landed := true }
  else s.longValue d la v e

/-- FDIV (R98). -/
def execFdiv (t : FTy) (d a b : XReg) (la : La) (s : State) : Out :=
  let x := t.val (s.srcA a)
  let y := t.val (s.srcB b)
  .next (s.floatLong t d la [x, y] (x.div y))

/-- The square root of R98, exact or as a value that rounds alike. -/
def sqrtOf (v : Val) : Val × Exc :=
  match v with
  | .nan _ => (.nan false, 0)
  | .inf s => if s then (.nan false, xNV) else (.inf false, 0)
  | .num s n d => if n = 0 then (.num s 0 1, 0) else if s then (.nan false, xNV) else (sqrtVal n d, 0)

/-- FSQRT (R98). -/
def execFsqrt (t : FTy) (d a : XReg) (la : La) (s : State) : Out :=
  let x := t.val (s.srcA a)
  .next (s.floatLong t d la [x] (sqrtOf x))

/-! ## Conversions (R99) -/

end Sys2Proof.Machine

namespace Sys2Proof

open Sys2Proof.Machine

/-- Bits and signedness of an integer type. -/
def Ty.intBits : Ty → Nat × Bool
  | .b8 => (8, false) | .b16 => (16, false) | .b32 => (32, false) | .b64 => (64, false)
  | .i8 => (8, true) | .i16 => (16, true) | .i32 => (32, true) | .i64 => (64, true)
  | .f64 | .f32 | .f16 | .bf16 => (64, false)

end Sys2Proof

namespace Sys2Proof.Machine

open Sys2Proof

/-- The integer source of FCVT (R99). -/
def intSource (ty : Ty) (v : Word) : Int :=
  let (n, sg) := ty.intBits
  if sg then signedOf n v.toNat else ((v.toNat % 2 ^ n : Nat) : Int)

/-- An integer written sign-extended for iN, zero-extended for bN (R99). -/
def intResult (ty : Ty) (z : Int) : Word :=
  let (n, sg) := ty.intBits
  if sg then BitVec.ofInt 64 z else w64 (modPow z n)

/-- A float value converted to an integer type: toward zero, saturating, NaN gives 0 (R99, R162). -/
def toIntTy (ty : Ty) (v : Val) : Word × Exc :=
  let (n, sg) := ty.intBits
  let hi : Int := if sg then 2 ^ (n - 1) - 1 else 2 ^ n - 1
  let lo : Int := if sg then -(2 ^ (n - 1)) else 0
  match v with
  | .nan _ => (0, xNV)
  | .inf s => (intResult ty (if s then lo else hi), xNV)
  | .num s a b =>
    let z := sgn s (a / b)
    if hi < z then (intResult ty hi, xNV)
    else if z < lo then (intResult ty lo, xNV)
    else (intResult ty z, if a % b != 0 then xNX else 0)

/-- FCVT (R99). -/
def execFcvt (dt st : Ty) (d a : XReg) (s : State) : Out :=
  let x := s.srcA a
  match dt.flt, st.flt with
  | some df, some sf =>
    let v := sf.val x
    let (r, e) := df.result (v, 0)
    .next (s.floatWrite d r (e ||| snanExc [v]) (sf.fmt.subnormal v || df.fmt.subnormal v))
  | some df, none =>
    let (r, e) := df.result (ofInt (intSource st x), 0)
    .next (s.floatWrite d r e false)
  | none, some sf =>
    let v := sf.val x
    let (r, e) := toIntTy dt v
    .next (s.floatWrite d r e (sf.fmt.subnormal v))
  | none, none => .next (s.illegal .code)

end Sys2Proof.Machine
end

