-- ==== Sys2Proof/Machine/Vintage.lean ====
section
/-! DEFINITION. Sites, vintage slots, VPICK and VREAD, and the performing of updates (spec/07 R105 to R116). -/

namespace Sys2Proof.Machine

open Sys2Proof

/-- Queues a site's update (R111). -/
def State.siteUpdate (s : State) (t : Strand) (slot kind : Nat) (w0 w1 w2 : Nat) : State :=
  let l := s.launch t.launch
  let (id, s) := s.fresh
  { s with vupd := s.vupd ++ [⟨id, t.sid, s.flat, t.launch, t.ctx, addr60 l.desc.vbase, addr60 l.desc.vdelta, slot, kind, w0, w1, w2⟩] }

/-- Applies an update of a kind to the words of a delta slot, given the base's (R111, R112): a branch sums two words, a load
three, a loop two and carries a maximum. -/
def applyUpdate (b d : List Nat) (kind : Nat) (u : List Nat) : List Nat :=
  let lim := 2 ^ 32 - 1
  let n := summedWords kind
  let loopK := kind = 3
  let w := fun i => d.getD i 0
  let hd := w 3
  if hdrSat (b.getD 3 0) || hdrSat hd then d
  else if (List.range n).any (fun i => lim < b.getD i 0 + w i + u.getD i 0) || (loopK && lim < u.getD 2 0) then
    [w 0, w 1, w 2, hd ||| 2 ^ 29]
  else
    [w 0 + u.getD 0 0, w 1 + u.getD 1 0,
      if loopK then Nat.max (w 2) (u.getD 2 0) else if n = 3 then w 2 + u.getD 2 0 else w 2, hd]

/-- Performs an update at its home (R112): discarded where the delta slot is unmapped or not writable; also where the base slot is
unmapped or not readable, and where either lies in system space or holds an uncorrectable error (DESIGN CHOICE, log 45). -/
def State.performUpd (s : State) (u : VUpd) : State :=
  let s := { s with vupd := s.vupd.filter (fun v => v.id != u.id) }
  match s.slotAt u.ctx (u.vdelta + 16 * u.slot) .write, s.slotAt u.ctx (u.vbase + 16 * u.slot) .read with
  | some (kd, d), some (kb, b) =>
    if s.badSlot kd || s.badSlot kb then s
    else (s.putSlot u.ctx kd (applyUpdate b d u.kind [u.w0, u.w1, u.w2])).noteUse (keysFrom kd 16) u.flat
  | _, _ => s

/-- The bytes of the delta slot that an update writes; none where it will be discarded. -/
def State.updKeys (s : State) (u : VUpd) : List Nat :=
  match s.slotAt u.ctx (u.vdelta + 16 * u.slot) .write with
  | some (k, _) => keysFrom k 16
  | none => []

/-- An earlier update of the same strand to a delta slot that shares bytes with this one's is still in flight (R113). -/
def State.updBehind (s : State) (u : VUpd) : Bool :=
  s.vupd.any (fun v => v.id < u.id && v.strand = u.strand
    && ((v.vdelta = u.vdelta && v.slot = u.slot) || (s.updKeys v).any ((s.updKeys u).contains ·)))

/-- The home of an update's slots is not ready for it: a copy command owns a line of them, or a strand of a higher flat slot number
has been performed there in this cycle (R117, R188). -/
def State.updHeld (s : State) (u : VUpd) : Bool :=
  let vd := (u.vdelta + 16 * u.slot) % 2 ^ 60
  let vb := (u.vbase + 16 * u.slot) % 2 ^ 60
  s.walkHeld u.ctx vd || s.walkHeld u.ctx vb
    || match s.slotAt u.ctx vd .write, s.slotAt u.ctx vb .read with
      | some (kd, _), some (kb, _) => !s.unowned (keysFrom kd 16 ++ keysFrom kb 16) || s.homeBehind (keysFrom kd 16) u.flat
      | _, _ => false

/-- An update of the strand to some bytes that was triggered before a read of them issued is still in flight: the read does not see the
slot yet (R113). -/
def State.updBefore (s : State) (t : Strand) (ks : List Nat) (upto : Nat) : Bool :=
  s.vupd.any (fun u => u.strand = t.sid && u.id < upto && (s.updKeys u).any (ks.contains ·))

/-- The slot a read sees: the base in a frozen launch, the combination in a live one (R110). -/
def slotView (frozen : Bool) (b d : List Nat) : List Nat :=
  if frozen then b
  else
    let lim := 2 ^ 32 - 1
    let h := b.getD 3 0
    let kind := hdrKind h
    let n := summedWords kind
    let sum := fun i => b.getD i 0 + d.getD i 0
    let w := fun i =>
      if i < n then Nat.min (sum i) lim
      else if kind = 3 && i = 2 then Nat.max (b.getD 2 0) (d.getD 2 0)
      else b.getD i 0
    let sat := hdrSat h || hdrSat (d.getD 3 0) || (List.range n).any (fun i => lim < sum i)
    [w 0, w 1, w 2, if sat then h ||| 2 ^ 29 else h]

/-- The test of a threshold (R107). -/
def slotTest (kind : Nat) (w : List Nat) (t : Nat) : Bool :=
  if kind = 1 then decide (t * w.getD 0 0 ≤ 64 * w.getD 1 0)
  else if kind = 2 then decide (4 * t * w.getD 0 0 ≤ w.getD 2 0)
  else decide (w.getD 0 0 * 2 ^ t ≤ w.getD 1 0)

/-- Class(s) of R116. -/
def slotClass (w : List Nat) : Nat :=
  let h := w.getD 3 0
  let kind := hdrKind h
  let def' := nbits h 27 2
  if kind = 0 then def'
  else
    let n := w.getD 0 0
    if n = 0 || n < nbits h 19 8 then def'
    else ([nbits h 13 6, nbits h 7 6, nbits h 1 6].filter (slotTest kind w)).length

/-- The value VPICK or VREAD gets when its result lands (R115). -/
def State.vintageValue (s : State) (t : Strand) (base delta : Nat) (word : Option Nat) : Word :=
  let ws := fun k => (List.range 4).map (fun i => s.natAs t.ctx (k + 4 * i) 4)
  let v := slotView ((s.launch t.launch).desc.vm = 1) (ws base) (ws delta)
  match word with
  | none => w64 (slotClass v)
  | some i => w64 (v.getD i 0)

/-- The key of a slot a strand reads, or the cause and subcode of its fault (R115). A slot in system space does not answer
(log 12). -/
def State.slotKey (s : State) (va : Nat) : Except (Nat × Nat) Nat :=
  match s.strandPlace .glob (va % 2 ^ 60) 16 .read with
  | .ok (.mem k _) => .ok k
  | .ok (.sys _) => .error (cProtection, 6)
  | .error e => .error e

/-- VPICK and VREAD (R115); a slot with an uncorrectable error is a machine check (R292). Of two slots that fault alike the lower-addressed
comes first (R270). -/
def State.vintageRead (s : State) (d : XReg) (la : La) (slot : BitVec 16) (word : Option Nat) : State :=
  let l := s.curLaunch
  let vb := (addr60 l.desc.vbase + 16 * slot.toNat) % 2 ^ 60
  let vd := (addr60 l.desc.vdelta + 16 * slot.toNat) % 2 ^ 60
  match s.slotKey vb, s.slotKey vd with
  | .error e, .ok _ => s.fault e.1 e.2 (w64 vb)
  | .ok _, .error f => s.fault f.1 f.2 (w64 vd)
  | .error e, .error f => if vd < vb then s.fault f.1 f.2 (w64 vd) else s.fault e.1 e.2 (w64 vb)
  | .ok kb, .ok kd =>
      if s.badSlot kd && (vd < vb || !s.badSlot kb) then s.machineCheck (w64 vd)
      else if s.badSlot kb then s.machineCheck (w64 vb)
      else if s.pendFull d then s.lose
      else (s.issueLong (s.mkPend d la (.vintage kb kd slot.toNat word s.nextId))).markWritten d

/-- VPICK (R115, R116). -/
def execVpick (d : XReg) (la : La) (slot : BitVec 16) (s : State) : Out :=
  .next (s.checked (.vpick d la slot) fun s => s.vintageRead d la slot none)

/-- VREAD (R115). -/
def execVread (d : XReg) (la : La) (w : BitVec 2) (slot : BitVec 16) (s : State) : Out :=
  .next (s.checked (.vread d la w slot) fun s => s.vintageRead d la slot (some w.toNat))

/-- VINTAGE_UPDATE_PERFORM: the update of identifier `k`, once no earlier one of its strand to its slot is in flight and
its home takes it (R113, R117, R188). -/
def execVintageUpdatePerform (k : Nat) (s : State) : Out :=
  match s.vupd.find? (fun u => u.id = k) with
  | some u => if s.updBehind u || s.updHeld u then .next s else .next (s.performUpd u)
  | none => .next s

end Sys2Proof.Machine
end

