-- ==== Sys2Proof/Machine/Control.lean ====
section
/-! DEFINITION. Transfers of control (spec/07 R100 to R104; spec/03 R51, R55). A meaning sets where the strand goes next
(`Strand.npc`); the step moves there when the bundle is complete. -/

namespace Sys2Proof.Machine

open Sys2Proof

/-- PC + off20 × 8 modulo 2^60 (R100, R102). -/
def State.relTarget (s : State) (off : BitVec 20) : Word := w64 (modPow ((addr60 s.cur.pc : Int) + off.toInt * 8) 60)

/-- PC + 8 modulo 2^60. -/
def State.nextPc (s : State) : Word := w64 ((addr60 s.cur.pc + 8) % 2 ^ 60)

/-- The no-operation of either slot (R55). -/
def execNop (s : State) : Out := .next s

/-- JMP (R100). -/
def execJmp (off : BitVec 20) (s : State) : Out := .next (s.goto (s.relTarget off))

/-- CALL: x31 gets PC + 8 (R100). -/
def execCall (off : BitVec 20) (s : State) : Out := .next ((s.wr 31 s.nextPc).goto (s.relTarget off))

/-- A jump to a register target, or its alignment fault (R51, R101). -/
def State.jumpReg (s : State) (a : XReg) (link : Bool) : State :=
  let t := w64 (addr60 (s.rd a))
  if t.toNat % 8 != 0 then s.misaligned t
  else (if link then s.wr 31 s.nextPc else s).goto t

/-- JR (R101). -/
def execJr (a : XReg) (s : State) : Out := .next (s.jumpReg a false)

/-- CALLR: A is read before x31 is written (R101). -/
def execCallr (a : XReg) (s : State) : Out := .next (s.jumpReg a true)

/-- A conditional branch with its optional site (R102). -/
def State.branch (s : State) (taken : Bool) (off : BitVec 20) (site : Option (BitVec 16)) : State :=
  let s := match site with
    | some j => s.siteUpdate s.cur j.toNat 1 1 (if taken then 1 else 0) 0
    | none => s
  s.goto (if taken then s.relTarget off else s.nextPc)

/-- B_EQ (R102). -/
def execBEq (a b : XReg) (off : BitVec 20) (site : Option (BitVec 16)) (s : State) : Out :=
  .next (s.checked (.bEq a b off site) fun s => s.branch (s.rd a = s.rd b) off site)

/-- B_NE (R102). -/
def execBNe (a b : XReg) (off : BitVec 20) (site : Option (BitVec 16)) (s : State) : Out :=
  .next (s.checked (.bNe a b off site) fun s => s.branch (s.rd a != s.rd b) off site)

/-- B_LT, signed (R102). -/
def execBLt (a b : XReg) (off : BitVec 20) (site : Option (BitVec 16)) (s : State) : Out :=
  .next (s.checked (.bLt a b off site) fun s => s.branch ((s.rd a).slt (s.rd b)) off site)

/-- B_GE, signed (R102). -/
def execBGe (a b : XReg) (off : BitVec 20) (site : Option (BitVec 16)) (s : State) : Out :=
  .next (s.checked (.bGe a b off site) fun s => s.branch ((s.rd b).sle (s.rd a)) off site)

/-- B_LTB, unsigned (R102). -/
def execBLtb (a b : XReg) (off : BitVec 20) (site : Option (BitVec 16)) (s : State) : Out :=
  .next (s.checked (.bLtb a b off site) fun s => s.branch ((s.rd a).ult (s.rd b)) off site)

/-- B_GEB, unsigned (R102). -/
def execBGeb (a b : XReg) (off : BitVec 20) (site : Option (BitVec 16)) (s : State) : Out :=
  .next (s.checked (.bGeb a b off site) fun s => s.branch ((s.rd b).ule (s.rd a)) off site)

/-- BZ (R102). -/
def execBz (a : XReg) (off : BitVec 20) (site : Option (BitVec 16)) (s : State) : Out :=
  .next (s.checked (.bz a off site) fun s => s.branch (s.rd a = 0) off site)

/-- BNZ (R102). -/
def execBnz (a : XReg) (off : BitVec 20) (site : Option (BitVec 16)) (s : State) : Out :=
  .next (s.checked (.bnz a off site) fun s => s.branch (s.rd a != 0) off site)

/-- LOOP: the counter advances; on exit the site records one entry of n iterations (R103). -/
def execLoop (a b : XReg) (off : BitVec 20) (slot : BitVec 16) (s : State) : Out :=
  .next (s.checked (.loop a b off slot) fun s =>
    let n := s.rd a + 1
    if n.ult (s.rd b) then (s.wr a n).goto (s.relTarget off)
    else
      let s := (s.wr a n).goto s.nextPc
      s.siteUpdate s.cur slot.toNat 3 1 n.toNat n.toNat)

/-- The strand's engine commands, complete or not, with a deferred fault not yet delivered among them (R104, R280). -/
def State.cmdsOf (s : State) (id : Nat) : List Cmd := s.cmds.filter (fun c => c.strand = id && !c.saved)

/-- The oldest of the strand's commands with an undelivered deferred fault (R279). -/
def State.dueFault (s : State) : Option Cmd := (s.cmdsOf s.cur.id).find? (fun c => c.dfault.isSome)

/-- The fault a strand takes for a deferred fault of a command (R271 to R274, R279). -/
def deferredInfo (t : Strand) (c : Cmd) (f : DFault) : FaultInfo where
  cause := f.cause
  sub := f.sub
  slotA := false
  elem := BitVec.ofNat 32 f.elem
  addr := if f.cause = 0x0D then f.addr else c.baddr
  baddr := c.baddr
  bundle := c.word
  resume := t.pc
  deferd := true
  prog := f.prog
  hnd := f.hnd
  pblk := if f.copy then c.pblk else 0

/-- Delivers a deferred fault: the command leaves its queue and the strand traps (R279). -/
def State.deliver (s : State) (c : Cmd) (f : DFault) : State :=
  (s.removeCmds (fun k => k.cid = c.cid)).raise (deferredInfo s.cur c f)

/-- END (R104): after its waits the strand awaits ITEM_RETIRE. With the repeat buffer armed it is a format fault (R212); a
deferred fault that a handler's END meets aborts as a double fault (R278). -/
def execFin (s : State) : Out :=
  if s.cur.rep.armed then .next (s.fault 7 0x15 0)
  else if !s.cur.settled then .next s.lose
  else if s.cur.status = .ending then .next s.lose
  else
    match s.dueFault with
    | some c =>
      match c.dfault with
      | some f => if (s.cmdsOf s.cur.id).all (fun k => k.dfault.isSome) || !s.cur.estat.getLsbD 0 then
          .next (s.deliver c f) else .next s.lose
      | none => .next s.lose
    | none =>
      if (s.cmdsOf s.cur.id).any (fun _ => true) then .next s.lose
      else .next { s with cur := { s.cur with status := .ending }, disp := .left }

end Sys2Proof.Machine
end

