-- ==== Sys2Proof/Machine/Holds.lean ====
section
/-! DEFINITION. The scratch bytes an engine command holds (spec/12 R182, spec/13 R206, spec/15 R221, spec/16 R235) and the order of
commands that follows. A command holds its spans whole until its first unit of work is done, and from then on what its remaining units
still reach (log 14). -/

namespace Sys2Proof.Machine

open Sys2Proof

/-! ## The parameter block (R184) -/

/-- Bits of a parameter block. -/
def pBits (b : BitVec 512) (lo len : Nat) : Nat := nbits b.toNat lo len
/-- MB. -/
def pMB (b : BitVec 512) : Bool := b.getLsbD 211
/-- DEC. -/
def pDEC (b : BitVec 512) : Bool := b.getLsbD 210
/-- LAY. -/
def pLAY (b : BitVec 512) : Nat := pBits b 208 2
/-- XID. -/
def pXID (b : BitVec 512) : BitVec 16 := b.extractLsb' 192 16
/-- NCOLS. -/
def pNCOLS (b : BitVec 512) : Nat := pBits b 160 32
/-- NROWS. -/
def pNROWS (b : BitVec 512) : Nat := pBits b 128 32
/-- COL0, signed. -/
def pCOL0 (b : BitVec 512) : Int := signedOf 32 (pBits b 96 32)
/-- ROW0, signed. -/
def pROW0 (b : BitVec 512) : Int := signedOf 32 (pBits b 64 32)
/-- HANDLER. -/
def pHANDLER (b : BitVec 512) : Word := b.setWidth 64

/-- The kinds of copy of R183. -/
inductive CopyKind where
  | cin | cout | cxc | gath | scat
deriving DecidableEq, Repr

/-- The kind of a copy command. -/
def Cmd.copyKind (c : Cmd) : CopyKind :=
  match c.instr with
  | .cpyOut .. => .cout
  | .cpyXc .. => .cxc
  | .gath .. => .gath
  | .scat .. => .scat
  | _ => .cin

/-- GATH or SCAT. -/
def CopyKind.listed : CopyKind → Bool
  | .gath | .scat => true
  | _ => false

/-- The command has a parameter block: X[XB] names an address, whose selector bits are ignored. One whose address is 0 names none, whatever
its selector (DESIGN CHOICE, log 63). -/
def Cmd.hasBlock (c : Cmd) : Bool := addr60 c.xs != 0
/-- The layout bits of a command. -/
def Cmd.lay (c : Cmd) : Nat := if c.hasBlock then pLAY c.pblk else 0

/-! ## Units of work of a copy (R185, R190, R191, R195) -/

/-- The box of elements inside the tensor, in coordinates of the tile that the bounds speak of: first row, end of rows, first
column, end of columns (R185). -/
def Cmd.box (fmt : List (BitVec 128)) (c : Cmd) : Nat × Nat × Nat × Nat :=
  let t := tileOf fmt (match c.copyKind with | .cin => c.ha | _ => c.hd)
  let rows := hRows t.h
  let cols := hCols t.h
  if c.hasBlock then
    let clip := fun (n : Nat) (z : Int) => (max 0 (min (n : Int) z)).toNat
    (clip rows (-pROW0 c.pblk), clip rows (pNROWS c.pblk - pROW0 c.pblk), clip cols (-pCOL0 c.pblk),
      clip cols (pNCOLS c.pblk - pCOL0 c.pblk))
  else (0, rows, 0, cols)

/-- The box in coordinates of the destination: exchanged under LAY 0b01 (R153, R186). -/
def Cmd.destBox (fmt : List (BitVec 128)) (c : Cmd) : Nat × Nat × Nat × Nat :=
  let (a, b, d, e) := c.box fmt
  if c.lay = 1 then (d, e, a, b) else (a, b, d, e)

/-- Units of work: lines of the box, or list positions (R195). -/
def Cmd.units (fmt : List (BitVec 128)) (c : Cmd) : Nat :=
  if c.copyKind.listed then c.idxs.length
  else
    let (a, b, d, e) := c.destBox fmt
    if b ≤ a || e ≤ d then 0 else if hAX c.hd = 0 then b - a else e - d

/-! ## Holds -/

/-- Held scratch bytes: cluster, first and last offset, and whether the command writes them. -/
structure Hold where
  cluster : Nat
  lo      : Nat
  hi      : Nat
  wr      : Bool
deriving DecidableEq, Repr

/-- What orders two commands of a cluster: issue cycle, then flat core number (R182); the identifier tells commands of one core apart. -/
structure IssueKey where
  cycle : Nat
  core  : Nat
  cid   : Nat
deriving DecidableEq, Repr

/-- Issued before (R182). -/
def IssueKey.before (a b : IssueKey) : Bool :=
  a.cycle < b.cycle || (a.cycle = b.cycle && (a.core < b.core || (a.core = b.core && a.cid < b.cid)))

/-- The place of a command in the order of R182. The destination of a CPY.XC is ordered among the commands of its target cluster by the
copy's own issue cycle and core, though another die may have counted that cycle (DESIGN CHOICE, log 63). -/
def Cmd.key182 (c : Cmd) : IssueKey := ⟨c.cycle, c.core0, c.cid⟩

/-- Rows `r0` to `r1 - 1` and columns `c0` to `c1 - 1` of a tile. -/
structure Rect where
  r0 : Nat
  r1 : Nat
  c0 : Nat
  c1 : Nat
deriving DecidableEq, Repr

/-- The hold of a handle's span in a cluster's scratchpad; none for a global handle. -/
def spanHold (fmt : List (BitVec 128)) (cl : Nat) (wr : Bool) (h : Handle) : List Hold :=
  if hScr h then
    let o := hBits h 0 22
    [⟨cl, o, o + (tileOf fmt h).spanLen - 1, wr⟩]
  else []

/-- The lines of a rectangle of a tile, and the positions of each: first and end (R175). -/
def Tile.rectLines (t : Tile) (q : Rect) : Nat × Nat × Nat × Nat :=
  if hAX t.h = 0 then (q.r0, q.r1, q.c0, q.c1) else (q.c0, q.c1, q.r0, q.r1)

/-- The holds of the elements of a rectangle of a scratch tile, line by line. -/
def rectHold (cl : Nat) (wr : Bool) (t : Tile) (q : Rect) : List Hold :=
  let (l0, l1, p0, p1) := t.rectLines q
  if !hScr t.h || p1 ≤ p0 then []
  else (upTo l0 (l1 - l0)).map (fun l =>
    let o := hBits t.h 0 22
    ⟨cl, o + (t.offs l p0).1, o + l * hPitch t.h + (p1 * t.nb - 1) / 8, wr⟩)

/-- The holds of the block scales of a rectangle of a scratch tile, and of a tensor scale that is read (R199, R221, R235). The tensor
scale of a destination has been read at issue (R219). -/
def scaleHold (cl : Nat) (wr : Bool) (t : Tile) (q : Rect) : List Hold :=
  let (l0, l1, p0, p1) := t.rectLines q
  if !hScr t.h || p1 ≤ p0 || l1 ≤ l0 then []
  else if eSCF t.entry = 2 then
    match t.scaleAt 0 0 with
    | some a => if wr then [] else [⟨cl, a, a + 3, false⟩]
    | none => []
  else if eSCF t.entry = 1 then
    (upTo l0 (l1 - l0)).filterMap (fun l =>
      match t.scaleAt l p0, t.scaleAt l (p1 - 1) with
      | some a, some b => some ⟨cl, a, b, wr⟩
      | _, _ => none)
  else []

/-- Every element of a tile. -/
def Tile.full (t : Tile) : Rect := ⟨0, hRows t.h, 0, hCols t.h⟩

/-- Lines `lo` to `hi - 1` of a tile. -/
def Tile.someLines (t : Tile) (lo hi : Nat) : Rect :=
  if hAX t.h = 0 then ⟨lo, hi, 0, hCols t.h⟩ else ⟨0, hRows t.h, lo, hi⟩

/-- What a source is read at for a rectangle of the destination, broadcast along an extent of 1 (R219). -/
def Tile.broadcast (t : Tile) (q : Rect) : Rect :=
  ⟨if hRows t.h = 1 then 0 else q.r0, if hRows t.h = 1 then 1 else q.r1, if hCols t.h = 1 then 0 else q.c0,
    if hCols t.h = 1 then 1 else q.c1⟩

/-! ## The holds of a command -/

/-- The holds of iteration j of a body command (R206, R211). -/
def iterHolds (fmt : List (BitVec 128)) (cl : Nat) (b : Body) (j : Nat) : List Hold :=
  let st := fun h => (stepHandle fmt h j).getD h
  let sc := fun h => scaleHold cl false (tileOf fmt h) (tileOf fmt h).full
  spanHold fmt cl true (st b.hd) ++ spanHold fmt cl false (st b.ha) ++ spanHold fmt cl false (st b.hb) ++ sc (st b.ha) ++ sc (st b.hb)

/-- The holds of body commands from the `prog`-th iteration of one of them on, each with what orders it. -/
def bodiesHolds (fmt : List (BitVec 128)) (cl n prog : Nat) (bs : List Body) : List (IssueKey × Hold) :=
  bs.zipIdx.flatMap (fun (p : Body × Nat) =>
    let first := prog / bs.length + (if p.2 < prog % bs.length then 1 else 0)
    (upTo first (n - first)).flatMap (fun j => (iterHolds fmt cl p.1 j).map (fun h => (⟨p.1.cycle, p.1.core0, p.1.cid⟩, h))))

/-- The holds of a tile or copy command as long as no unit is done: every span it names but an index list, which has been read, and the
scales it reads or writes (R182, R190, R221, R235). -/
def plainHolds (fmt : List (BitVec 128)) (c : Cmd) : List Hold :=
  let cl := c.core / 8
  let sp := spanHold fmt cl
  let sc := fun w h => scaleHold cl w (tileOf fmt h) (tileOf fmt h).full
  match c.instr with
  | .tselk .. => sp true c.hd ++ sp true c.hb ++ sp false c.ha
  | .tfill .. => sp true c.hd
  | .tmsk .. => sp true c.hd ++ sp false c.ha ++ sp false c.hb
  | .texp .. | .tlog .. | .trcp .. | .trsq .. | .tsig .. | .tred .. | .tcvt .. | .qst .. =>
    sp true c.hd ++ sp false c.ha ++ sc true c.hd ++ sc false c.ha
  | .tadd .. | .tsub .. | .tmul .. | .tfma .. | .tmax .. | .tmin .. | .tcmp .. =>
    sp true c.hd ++ sp false c.ha ++ sp false c.hb ++ sc true c.hd ++ sc false c.ha ++ sc false c.hb
  | .cpyXc .. => sp false c.ha ++ (if c.started then spanHold fmt c.target true c.hd else [])
  | .cpyIn .. => sp true c.hd ++ (if c.lay = 2 then sc true c.hd else [])
  | _ => sp true c.hd ++ sp false c.ha

/-- The scratch bytes that units `lo` to `hi - 1` of a tile command reach (R222 to R228, R236). -/
def tileUnitHolds (fmt : List (BitVec 128)) (c : Cmd) (lo hi : Nat) : List Hold :=
  let cl := c.core / 8
  let d := tileOf fmt c.hd
  let a := tileOf fmt c.ha
  let b := tileOf fmt c.hb
  let w := fun t q => rectHold cl true t q
  let r := fun t q => rectHold cl false t q
  let q := d.someLines lo hi
  match c.instr with
  | .tred .. =>
    let qa := a.someLines lo hi
    w d (if hAX a.h = 0 then ⟨lo, hi, 0, 1⟩ else ⟨0, 1, lo, hi⟩) ++ r a qa ++ scaleHold cl false a qa
  | .tselk .. => w d ⟨0, hRows d.h, lo, hi⟩ ++ w b ⟨0, hRows b.h, lo, hi⟩ ++ r a ⟨0, hRows a.h, lo, hi⟩
  | .ttrn .. => w d q ++ r a ⟨q.c0, q.c1, q.r0, q.r1⟩
  | .tfill .. => w d q
  | .tmsk .. => w d q ++ r a (a.broadcast q) ++ r b (b.broadcast q)
  | .tcpy .. => w d q ++ r a (a.broadcast q)
  | .texp .. | .tlog .. | .trcp .. | .trsq .. | .tsig .. | .tcvt .. | .qst .. =>
    w d q ++ scaleHold cl true d q ++ r a (a.broadcast q) ++ scaleHold cl false a (a.broadcast q)
  | _ =>
    w d q ++ scaleHold cl true d q ++ r a (a.broadcast q) ++ scaleHold cl false a (a.broadcast q) ++ r b (b.broadcast q)
      ++ scaleHold cl false b (b.broadcast q)

/-- The scratch bytes that units `lo` to `hi - 1` of a copy reach (R185, R190, R191, R195). -/
def copyUnitHolds (fmt : List (BitVec 128)) (c : Cmd) (lo hi : Nat) : List Hold :=
  let cl := c.core / 8
  let d := tileOf fmt c.hd
  let a := tileOf fmt c.ha
  match c.copyKind with
  | .gath => rectHold cl true d (d.someLines lo hi)
  | .scat => rectHold cl false a (a.someLines lo hi)
  | .cin | .cout | .cxc =>
    let (r0, r1, c0, c1) := c.destBox fmt
    let q : Rect := if hAX c.hd = 0 then ⟨r0 + lo, r0 + hi, c0, c1⟩ else ⟨r0, r1, c0 + lo, c0 + hi⟩
    rectHold c.target true d q ++ (if c.lay = 2 then scaleHold c.target true d q else [])
      ++ rectHold cl false a (if c.lay = 1 then ⟨q.c0, q.c1, q.r0, q.r1⟩ else q)

/-- The number of units of work of a tile command (R222, R230). -/
def tileUnitCount (fmt : List (BitVec 128)) (c : Cmd) : Nat :=
  match c.instr with
  | .tred .. => (tileOf fmt c.ha).lines
  | .tselk .. => hCols c.ha
  | _ => (tileOf fmt c.hd).lines

/-- The holds of a command with what orders them (R182): a unit that is done no longer holds what no later unit reaches. -/
def cmdHolds (fmt : List (BitVec 128)) (c : Cmd) : List (IssueKey × Hold) :=
  let mine := fun (hs : List Hold) => hs.map (fun h => (c.key182, h))
  match c.engine with
  | .matrix => bodiesHolds fmt (c.core / 8) c.iters c.prog c.body
  | .tile => mine (if c.prog = 0 then plainHolds fmt c else tileUnitHolds fmt c c.prog (tileUnitCount fmt c))
  | .copy => mine (if c.prog = 0 then plainHolds fmt c else copyUnitHolds fmt c c.prog (c.units fmt))

/-- The scratch bytes that a command's next unit of work reaches, with what orders them. -/
def nextHolds (fmt : List (BitVec 128)) (c : Cmd) : List (IssueKey × Hold) :=
  let mine := fun (hs : List Hold) => hs.map (fun h => (c.key182, h))
  match c.engine with
  | .matrix =>
    match c.body[c.prog % c.body.length]? with
    | some b => (iterHolds fmt (c.core / 8) b (c.prog / c.body.length)).map (fun h => (⟨b.cycle, b.core0, b.cid⟩, h))
    | none => []
  | .tile => mine (tileUnitHolds fmt c c.prog (c.prog + 1))
  | .copy => mine (copyUnitHolds fmt c c.prog (c.prog + 1))

/-- Two holds meet in a granule (R182). -/
def Hold.meets (a b : Hold) : Bool :=
  a.cluster = b.cluster && a.lo / 4096 ≤ b.hi / 4096 && b.lo / 4096 ≤ a.hi / 4096

/-- A launch is yielded in a cluster: its scratch is saved, and its holds with it (R285). -/
def State.asleep (s : State) (n cl : Nat) : Bool :=
  s.harvest.any (fun h => h.launch = n && h.cluster = cl && h.yielded)

/-- The holds of commands other than `cid` that have not completed, and of commands captured in repeat buffers, in slots and in
the cellar (R182, R206, R214). -/
def State.holdsBut (s : State) (cid : Nat) : List (IssueKey × Hold) :=
  (s.cmds.filter (fun c => c.cid != cid && c.dfault.isNone && !(c.saved && s.asleep c.launch (c.core / 8)))).flatMap
      (fun c => cmdHolds (s.launch c.launch).fmt c)
    ++ s.withSaved.flatMap (fun t =>
      if s.asleep t.launch (clusterOf t.id) then []
      else bodiesHolds (s.launch t.launch).fmt (clusterOf t.id) t.rep.n 0 t.rep.got)

/-- Scratch bytes of a cluster lie in a granule some command holds: a strand's store waits (R182). -/
def State.held (s : State) (cl o n : Nat) : Bool :=
  (s.holdsBut s.nextId).any (fun h => h.2.meets ⟨cl, o, o + n - 1, true⟩)

/-- A store of the strand to a place waits on a hold (R158, R182). -/
def State.heldAt (s : State) (p : Place) (n : Nat) : Bool :=
  match p with
  | .mem k _ => if scrBase ≤ k && k < capBase then s.held ((k - scrBase) / 2 ^ 22) ((k - scrBase) % 2 ^ 22) n else false
  | .sys _ => false

/-- Scratch bytes that the strand's engine command reads at its issue lie in a granule that an earlier command holds to write them: the
issue waits (R182, R190, R219). -/
def State.readHeld (s : State) (o n : Nat) : Bool :=
  let cl := clusterOf s.cur.id
  (s.holdsBut s.nextId).any (fun h => h.1.before ⟨s.now, coreOf s.cur.id, s.nextId⟩ && h.2.wr && h.2.meets ⟨cl, o, o + n - 1, false⟩)

/-- Accesses of a command may proceed: no command issued before it holds a granule that they reach and that either of them writes (R182);
every command of its own issue cycle has issued. -/
def State.holdsClear (s : State) (c : Cmd) (mine : List (IssueKey × Hold)) : Bool :=
  c.cycle != s.cycle (dieOfCluster (c.core / 8))
    && !(s.holdsBut c.cid).any (fun h => mine.any (fun k => h.1.before k.1 && h.2.meets k.2 && (h.2.wr || k.2.wr)))

/-- The next unit of a command may proceed. -/
def State.unitClear (s : State) (c : Cmd) : Bool := s.holdsClear c (nextHolds (s.launch c.launch).fmt c)

end Sys2Proof.Machine
end

