-- ==== Sys2Proof/Machine/Memory.lean ====
section
/-! DEFINITION. Accesses in flight and the value a load gets (spec/10 R140, spec/11 R158, R159, spec/19 R259), and the loads, stores,
element accesses, prefetch, atomics and fences of spec/11, with the events that perform and land them. -/

namespace Sys2Proof.Machine

open Sys2Proof

/-! ## The value of a load -/

/-- Bytes of a number placed over other bytes: bits `off` to `off + len − 1` replaced by `v` (R163). -/
def putBits (old off len v : Nat) : Nat := old - nbits old off len * 2 ^ off + v % 2 ^ len * 2 ^ off

/-- The effect of an access in flight on a byte, where it writes it without reading (R159). -/
def Access.byte? (a : Access) (k : Nat) (old : Byte) : Byte :=
  match a.op with
  | .store bs =>
    match (a.keys.zip bs).find? (fun p => p.1 = k) with
    | some p => p.2
    | none => old
  | .bitsAt off len v =>
    match a.keys.idxOf? k with
    | some i => BitVec.ofNat 8 (putBits (old.toNat * 2 ^ (8 * i)) off len v / 2 ^ (8 * i))
    | none => old
  | .amo .. | .event _ => old

/-- An access is one that a strand issued before a load, which comes after the identifiers below `upto`. -/
def Access.ownBefore (a : Access) (t : Strand) (upto : Nat) : Bool := a.strand = t.sid && a.id < upto

/-- A byte as a load of the strand sees it: its own earlier stores over the byte found in memory or the L1 (R159, R259). -/
def State.overOwn (s : State) (t : Strand) (upto k : Nat) (b : Byte) : Byte :=
  (s.stores.filter (fun a => a.ownBefore t upto && (scrBase ≤ k || a.kid = t.ctx))).foldl (fun b a => a.byte? k b) b

/-- A byte of a load: its key, and whether the L1 may serve it (R140). -/
abbrev LoadByte := Nat × Bool

/-- The L1 line that serves a strand's loads of a key: one of its KeyID that lacks no write the strand has acquired (R140, R264, R308). -/
def State.l1Line? (s : State) (t : Strand) (k : Nat) : Option L1Line :=
  (s.cluster (clusterOf t.id)).l1.find? (fun l => l.line = lineOf k && l.kid = t.ctx && !l.stale.contains t.sid)

/-- The L1 line that serves a byte of a load; none where the load takes it from the home (R140). -/
def State.lineFor? (s : State) (t : Strand) (q : LoadByte) : Option L1Line := if q.2 then s.l1Line? t q.1 else none

/-- A byte found by a load: from the L1 line that serves it, or else from the home (R140). -/
def State.byteSeen (s : State) (t : Strand) (q : LoadByte) : Byte :=
  match s.lineFor? t q with
  | some l => l.bytes.getD (q.1 % 64) 0
  | none => s.byteAs t.ctx q.1

/-- The releases before the write to a byte that its home holds (R262). -/
def State.toldHome (s : State) (k : Nat) : List Rel := ((s.told.find? (fun m => m.key = k)).map (·.last)).getD []

/-- The releases before the write that a load takes a byte from; none where that is the strand's own, or the line has another KeyID and holds
nothing for it (R262, R308). -/
def State.toldTo (s : State) (t : Strand) (upto : Nat) (q : LoadByte) : List Rel :=
  if s.stores.any (fun a => a.ownBefore t upto && a.keys.contains q.1) then []
  else
    match s.lineFor? t q with
    | some l => (find? q.1 l.told).getD []
    | none => if q.1 < sysBase && s.keyId q.1 != t.ctx then [] else s.toldHome q.1

/-- The strand in hand has read some bytes: it reads from the writes there (R262). -/
def State.hears (s : State) (upto : Nat) (qs : List LoadByte) : State :=
  { s with cur := { s.cur with heard := s.alive s.cur.heard }.hear (s.alive (qs.flatMap (s.toldTo s.cur upto))) }

/-- The words with an uncorrectable error among the bytes of the line at a key (R292). -/
def State.badWords (s : State) (line : Nat) : List Nat := s.poison.filter (fun p => line ≤ p && p < line + 64)

/-- Fills the L1 line of a key from the home for a load of the strand, its uncorrectable errors with it (R140, R292). A full L1 loses its
oldest line (R138; log 58). -/
def State.fillL1 (s : State) (t : Strand) (k : Nat) : State :=
  match s.l1Line? t k with
  | some _ => s
  | none =>
    let cl := clusterOf t.id
    let c := s.cluster cl
    let ks := keysFrom (lineOf k) 64
    let told := (ks.map (fun k => (k, s.toldHome k))).filter (fun p => !p.2.isEmpty)
    let new : L1Line := ⟨lineOf k, t.ctx, s.bytesAs t.ctx ks, s.badWords (lineOf k), told, []⟩
    s.setCluster cl { c with l1 := (new :: c.l1.filter (fun l => !(l.line = lineOf k && l.kid = t.ctx))).take (8192 * c.l1size) }

/-- The bytes of a load from consecutive keys. -/
def loadKeys (k n : Nat) (l1 : Bool) : List LoadByte := (keysFrom k n).map (fun k => (k, l1))

/-- Bytes a strand's load sees (R158, R159). -/
def State.loadBytes (s : State) (t : Strand) (upto : Nat) (qs : List LoadByte) : List Byte :=
  qs.map (fun q => s.overOwn t upto q.1 (s.byteSeen t q))

/-- The L1 of the cluster serves a byte. -/
def State.l1Serves (s : State) (t : Strand) (q : LoadByte) : Bool := (s.lineFor? t q).isSome

/-- Fills the L1 lines of a load's bytes. -/
def State.fillKeys (s : State) (t : Strand) (qs : List LoadByte) : State :=
  qs.foldl (fun s q => if q.2 && q.1 < sysBase then s.fillL1 t q.1 else s) s

/-- What a read of some bytes by the strand in hand leaves: it reads from the writes there, and its L1 has their lines (R140, R262). -/
def State.readOut (s : State) (upto : Nat) (qs : List LoadByte) : State := (s.hears upto qs).fillKeys s.cur qs

/-- An earlier AMO or event add of the strand on these bytes has not been performed: a load waits (R159). -/
def State.rmwBehind (s : State) (t : Strand) (upto : Nat) (ks : List Nat) : Bool :=
  s.stores.any (fun a => a.ownBefore t upto && a.keys.any (ks.contains ·) && (match a.op with
    | .amo .. | .event _ => true
    | .store _ | .bitsAt .. => false))

/-- A load waits for an access in flight to one of its bytes that happens before it; a byte that the L1 serves only where an acquire that
emptied the L1 stands between (R263, R264). -/
def State.readBehind (s : State) (t : Strand) (qs : List LoadByte) : Bool :=
  s.stores.any (fun a => t.before.any (fun b => b.id = a.id
    && qs.any (fun q => a.keys.contains q.1 && (b.deep || !s.l1Serves t q))))

/-- The bytes of a load can be read now: no atomic of the strand and no access that happens before it comes first, and no copy command owns a
line that the L1 does not serve (R159, R188, R263). -/
def State.canRead (s : State) (t : Strand) (upto : Nat) (qs : List LoadByte) : Bool :=
  !s.rmwBehind t upto (qs.map (·.1)) && !s.readBehind t qs && qs.all (fun q => s.l1Serves t q || s.unowned [q.1])

/-- A byte that a load takes from its L1 line, or else from memory, lies in a word with an uncorrectable error (R292). -/
def State.badBytes (s : State) (t : Strand) (qs : List LoadByte) : Bool :=
  qs.any (fun q =>
    match s.lineFor? t q with
    | some l => l.bad.contains (q.1 / 8 * 8)
    | none => s.poisoned [q.1])

/-- A load takes a byte from beyond the L1: not from scratch, and not from a line that the L1 has (R111). -/
def State.beyondL1 (s : State) (t : Strand) (qs : List LoadByte) : Bool :=
  qs.any (fun q => !(scrBase ≤ q.1 && q.1 < capBase) && !s.l1Serves t q)

/-- The value and exceptions of an element whose data and scale bytes are given (R162). -/
def elemValue (e : ElemRead) (data scale : List Byte) : Word × Exc :=
  let code := nbits (leNat data) e.bitOff e.nbits
  if e.ef = 0 then (if e.ty = .i32 then (BitVec.ofNat 8 code).signExtend 64 else w64 (code % 256), 0)
  else
    let v := if e.scf = 1 then e8m0Value e.ef code (leNat scale)
      else if e.scf = 2 then tensorValue e.ef code (leNat scale)
      else valueOf e.ef code
    match e.ty.flt with
    | some f =>
      let (c, x) := f.fmt.roundNE v
      (w64 c, x)
    | none => toIntTy e.ty v

/-- The bytes a pending result reads from memory. -/
def PendOp.reads : PendOp → List LoadByte
  | .load k ty l1 => loadKeys k ty.size l1
  | .elem e => e.data ++ e.scale
  | .handle k => loadKeys k 32 false
  | .vintage b d .. => loadKeys b 16 false ++ loadKeys d 16 false
  | .value _ | .float _ | .amo _ | .cmd _ => []

/-- The bytes a pending result has yet to read: of an element load, the part that has not been read before the other (R162). -/
def PendOp.todo : PendOp → List LoadByte
  | .elem e => (if e.gotData.isSome then [] else e.data) ++ (if e.gotScale.isSome then [] else e.scale)
  | op => op.reads

/-- The byte keys a pending load reads. -/
def PendOp.keys (p : PendOp) : List Nat := p.reads.map (·.1)

/-- The bytes that a pending load has yet to read, as the strand's accesses to them are ordered; vintage reads are no such accesses (R159,
R267). -/
def PendOp.ordered : PendOp → List Nat
  | .vintage .. => []
  | op => op.todo.map (·.1)

/-- The value of a pending load of the strand in hand, when it can be fixed, with the state after it (R140, R158, R162, R178). A vintage read
is ordered as R113 says and not otherwise (R267). R140 does not say how HLD and HST meet the L1: HLD reads past it, and HST updates a line that
is there (DESIGN CHOICE, log 64). -/
def State.fixLoad (s : State) (p : Pend) : Option (State × Handle × Exc) :=
  let t := s.cur
  let bytes := s.loadBytes t p.seq
  match p.op with
  | .load k ty l1 =>
    let qs := loadKeys k ty.size l1
    if s.canRead t p.seq qs then some (s.readOut p.seq qs, (extend ty (leNat (bytes qs))).setWidth 256, 0) else none
  | .elem e =>
    if s.canRead t p.seq p.op.todo then
      let (v, x) := elemValue e (e.gotData.getD (bytes e.data)) (e.gotScale.getD (bytes e.scale))
      some (s.readOut p.seq p.op.todo, v.setWidth 256, x)
    else none
  | .handle k =>
    let qs := loadKeys k 32 false
    if s.canRead t p.seq qs then some (s.readOut p.seq qs, BitVec.ofNat 256 (leNat (bytes qs)), 0) else none
  | .vintage b d _ w upto =>
    if s.unowned p.op.keys && !s.updBefore t p.op.keys upto then some (s, (s.vintageValue t b d w).setWidth 256, 0) else none
  | .value v | .float v => some (s, v.setWidth 256, p.flags)
  | .amo _ | .cmd _ => none

/-- A pending load whose value is not fixed. -/
def Pend.unread (p : Pend) : Bool := !p.landed && p.got.isNone

/-- Which of some pending results must have their values before an access to the bytes at `ks`: those that read one of them, and those that
read bytes of such a one and came before it (R159). -/
def earlierReads (ps : List Pend) (ks : List Nat) : List Bool :=
  (ps.foldr (fun p (acc : List Bool × List Nat) =>
    if p.unread && p.op.ordered.any (acc.2.contains ·) then (true :: acc.1, p.op.ordered ++ acc.2) else (false :: acc.1, acc.2)) ([], ks)).1

/-- Fixes the value of pending result `i` of the strand in hand, and with it whether it came from beyond the L1 (R111); none where it must
wait. -/
def State.fixAt (s : State) (i : Nat) : Option State :=
  match s.cur.pend[i]? with
  | none => some s
  | some p =>
    let far := p.missed || s.beyondL1 s.cur p.op.todo
    match s.fixLoad p with
    | none => none
    | some (s, v, x) => some { s with cur := { s.cur with pend := s.cur.pend.set i { p with got := some v, missed := far, flags := x } } }

/-- Fixes the values of those of the first `n` pending loads of the strand that come before an access to some bytes (R159); none where one
of them must wait. -/
def State.fixFirst (s : State) (n : Nat) (ks : List Nat) : Option State :=
  (earlierReads (s.cur.pend.take n) ks).zipIdx.foldl (fun o p =>
    match o with
    | none => none
    | some (s : State) => if p.1 then s.fixAt p.2 else some s) (some s)

/-- Fixes the value of every earlier pending load of the strand that overlaps an access about to be made (R159). -/
def State.fixBefore (s : State) (ks : List Nat) : Option State := s.fixFirst s.cur.pend.length ks

/-! ## Landing -/

/-- Writes a landed value into the register of a pending result: 0 to 63 scalar, 64 to 79 handle (R73, R288). A bundle that issues in the
cycle of its landing does not read it yet (R73). -/
def Strand.landReg (t : Strand) (r : Nat) (v : Handle) (cycle : Nat) : Strand :=
  let t := if r < 64 then t.setX (BitVec.ofNat 6 r) (v.setWidth 64) else t.setH (BitVec.ofNat 4 (r - 64)) v
  { t with justIn := (r, cycle) :: t.justIn.filter (fun p => p.2 = cycle) }

/-- Marks a pending result as landed; it stays only while its window is open (R73). -/
def landPend (i : Nat) (ps : List Pend) : List Pend :=
  match ps[i]? with
  | some p => if p.win = 0 then ps.eraseIdx i else ps.set i { p with landed := true }
  | none => ps

/-- An earlier vintage read of the same slot has not landed (R113). -/
def Strand.vintageBehind (t : Strand) (i : Nat) (op : PendOp) : Bool :=
  match op with
  | .vintage _ _ j _ _ => (t.pend.take i).any (fun p => !p.landed && (match p.op with
      | .vintage _ _ j' _ _ => j' = j
      | _ => false))
  | _ => false

/-- The load site's update, sent when the result lands (R111): `miss` says whether data came from beyond the die L2. -/
def State.loadUpdate (s : State) (p : Pend) (miss : Bool) : State :=
  match p.site with
  | none => s
  | some j => s.siteUpdate s.cur j 2 1 (if miss then 1 else 0) ((s.now - p.start) / 16)

/-- Whether a landing load counts a miss (R111): always from system space, and otherwise where some of what it read came from beyond the L1
and the home's die L2 did not have it, which `miss` says. -/
def Pend.countsMiss (p : Pend) (miss : Bool) : Bool :=
  match p.op with
  | .value _ | .float _ => true
  | _ => miss && p.missed

/-- RESULT_LAND: the k-th pending result of the strand lands, once its value is fixed, after the loads before it that read bytes of it
(R73, R111, R158, R159, R162). -/
def execResultLand (k : Nat) (miss : Bool) (s : State) : Out :=
  match s.cur.pend[k]? with
  | none => .next s
  | some p =>
    if p.landed || s.cur.vintageBehind k p.op then .next s
    else
      match if p.got.isSome then some s else (s.fixFirst k p.op.ordered).bind (fun s => s.fixAt k) with
      | none => .next s
      | some s1 =>
        match s1.cur.pend[k]? with
        | none => .next s
        | some q =>
          let t := (s1.cur.landReg q.reg (q.got.getD 0) s.now).accrue q.flags
          .next ({ s1 with cur := { t with pend := landPend k t.pend } }.loadUpdate q (q.countsMiss miss))

/-- Issues a load. Where the L1 has good bytes of a word that is bad at its home, the load reads them at once (R75, R292; log 59). -/
def State.issueLoad (s : State) (r : XReg) (p : Pend) : State :=
  let n := s.cur.pend.length
  let s' := (s.issueLong p).markWritten r
  if s.poisoned p.op.keys then ((s'.fixFirst n p.op.ordered).bind (fun s => s.fixAt n)).getD s.lose else s'

/-- An element load reads its data or its scale before the other part (R162, R268). -/
def State.readPart (s : State) (k : Nat) (scale : Bool) : State :=
  match s.cur.pend[k]? with
  | none => s
  | some p =>
    match p.op with
    | .elem e =>
      let qs := if scale then e.scale else e.data
      let got := if scale then e.gotScale else e.gotData
      if !p.unread || got.isSome then s
      else
        match s.fixFirst k (qs.map (·.1)) with
        | none => s
        | some s1 =>
          if !s1.canRead s1.cur p.seq qs then s
          else
            let bs := some (s1.loadBytes s1.cur p.seq qs)
            let e := if scale then { e with gotScale := bs } else { e with gotData := bs }
            let p := { p with op := .elem e, missed := p.missed || s1.beyondL1 s1.cur qs }
            let s2 := s1.readOut p.seq qs
            { s2 with cur := { s2.cur with pend := s2.cur.pend.set k p } }
    | _ => s

/-! ## System space (R301 to R304) -/

/-- An atomic of the strand at a target of system space. -/
def sysRmw : ExtOp → Bool
  | .amo .. | .fetchAdd _ | .swap _ | .cas _ _ => true
  | .read _ | .write _ | .bits .. => false

/-- A store or an atomic goes out to system space with the releases that it carries (R262). -/
def State.sysTell (s : State) (pa : Nat) (op : ExtOp) (rs : List Rel) : State :=
  match op with
  | .read _ => s
  | op => s.tell (keysFrom pa (extBytes op)) (sysRmw op) rs

/-- A load or an atomic of system space has its answer: it reads from the writes there (R262). -/
def State.sysHear (s : State) (pa : Nat) (op : ExtOp) : State :=
  match op with
  | .write _ | .bits .. => s
  | op => { s with cur := s.cur.hear (s.alive ((keysFrom pa (extBytes op)).flatMap s.toldHome)) }

/-- Asks the target of a system-space access, which carries the strand's releases if it writes; the strand loses turns until it answers (R262,
R302). The tag tells accesses of one bundle apart. -/
def State.sysAsk (s : State) (tag pa : Nat) (op : ExtOp) : Option SysResp × State :=
  match find? tag s.cur.sysGot with
  | some r => (some r, s.sysHear pa op)
  | none =>
    if s.cur.sys.isSome then (none, s.lose)
    else
      match s.send s.cur.ctx pa op with
      | some s => (none, { s.sysTell pa op s.cur.rels with cur := { s.cur with sys := some ⟨pa, op, s.portTo s.cur.ctx pa⟩ } }.lose)
      | none => (some .error, s)

/-- The translations of some addresses that the bundle in hand goes on with while it has an access outstanding (R150, R173). -/
def State.keep (s : State) (as : List Nat) : State :=
  { s with cur := { s.cur with
      leaves := s.cur.leaves ++ (s.cluster (clusterOf s.cur.id)).tlb.filter (fun l => as.any (l.covers s.cur.ctx) && !s.cur.leaves.contains l) } }

/-- The bundle's system-space accesses are over. -/
def State.sysEnd (s : State) : State := { s with cur := { s.cur with sys := none, sysGot := [], code := none, leaves := [] } }

/-- The tag under which a response to the strand's request is kept: writes are told from reads. -/
def SysReq.tag (r : SysReq) : Nat :=
  match r.op with
  | .read _ => r.pa
  | _ => r.pa + 2 ^ 60

/-- SYSTEM_ACCESS_COMPLETE: the target's answer to the strand's request (R302). -/
def execSystemAccessComplete (resp : SysResp) (s : State) : Out :=
  match s.cur.sys with
  | some r => .next { s with cur := { s.cur with sys := none, sysGot := bind r.tag resp s.cur.sysGot } }
  | none => .next s

/-- COMPLETION_TIMEOUT: after 50 ms without an answer the access completes with an error (R302). -/
def execCompletionTimeout (s : State) : Out :=
  match s.cur.sys with
  | some r => .next { s with cur := { s.cur with sys := none, sysGot := bind r.tag .error s.cur.sysGot } }
  | none => .next s

/-- The precise fault of a failed system-space access (R302). -/
def State.sysFault (s : State) (a : Word) : State := s.sysEnd.fault cProtection 6 a

/-! ## Plain loads and stores (R156 to R159) -/

/-- A plain load (R157, R158). The latency word of a load site in system space counts from the turn at which the target's answer is taken:
R111 with R302 does not say whether the load has issued by the time it waits for the answer (DESIGN CHOICE, log 64). -/
def State.loadFrom (s : State) (sp : Space) (d : XReg) (base : Word) (a : Nat) (la : La) (ty : Ty)
    (site : Option (BitVec 16)) : State :=
  if a % ty.size != 0 then s.misaligned (withSel base a)
  else
    match s.strandPlace sp a ty.size .read with
    | .error e => s.fault e.1 e.2 (w64 a)
    | .ok (.sys pa) =>
      if s.pendFull d then s.lose
      else
        match (s.keep [a]).sysAsk pa pa (.read ty.size) with
        | (none, s) => s
        | (some .error, s) => s.sysFault (w64 a)
        | (some (.ok v), s) =>
          let p := s.mkPend d la (.value (extend ty (v.toNat % 2 ^ (8 * ty.size))))
          (s.sysEnd.issueLong { p with site := site.map BitVec.toNat }).markWritten d
    | .ok (.mem k l1) =>
      if s.badBytes s.cur (loadKeys k ty.size l1) then s.machineCheck (w64 a)
      else if s.pendFull d then s.lose
      else s.issueLoad d { s.mkPend d la (.load k ty l1) with site := site.map BitVec.toNat }

/-- Queues an access of the strand to memory with the releases that it carries (R159, R171, R262). It follows the accesses that happen before
it, and the strand's engine commands follow those from then on (R263, R265). -/
def State.queueAccess (s : State) (ks : List Nat) (op : MemOp) (ticket : Option Nat) : Nat × State :=
  let (id, s) := s.fresh
  let after := (s.cur.before.map (·.id)).filter s.inFlight
  (id, { s with
    stores := s.stores ++ [⟨id, s.cur.sid, s.flat, s.alive s.cur.rels, after, s.cur.launch, clusterOf s.cur.id, s.cur.ctx, ks, op, ticket⟩]
    cur := { s.cur with before := s.cur.before.map (fun b => { b with led := true }) } })

/-- Issues a store of bytes at a place: it waits on holds and goes to its home (R158). -/
def State.storeAt (s : State) (p : Place) (a : Nat) (ks : List Nat) (op : MemOp) (bs : List Byte) : State :=
  match p with
  | .sys pa =>
    match (s.keep [a]).sysAsk (pa + 2 ^ 60) pa (.write bs) with
    | (none, s) => s
    | (some .error, s) => s.sysFault (w64 a)
    | (some (.ok _), s) => s.sysEnd
  | .mem _ _ =>
    if s.heldAt p ks.length then s.lose else (s.queueAccess ks op none).2

/-- A plain store (R157, R158). -/
def State.storeTo (s : State) (sp : Space) (base : Word) (a : Nat) (ty : Ty) (v : Word) : State :=
  if a % ty.size != 0 then s.misaligned (withSel base a)
  else
    match s.strandPlace sp a ty.size .write with
    | .error e => s.fault e.1 e.2 (w64 a)
    | .ok p =>
      let bs := leBytes ty.size v.toNat
      let ks := match p with
        | .mem k _ => keysFrom k ty.size
        | .sys _ => []
      s.storeAt p a ks (.store bs) bs

/-- LD_G_SHORT (R156). -/
def execLdGShort (d a : XReg) (la : La) (ty : Ty) (off : BitVec 5) (s : State) : Out :=
  .next (s.loadFrom .glob d (s.rd a) (effAddr (s.rd a) off ty.size) la ty none)

/-- LD_G_LONG (R156). -/
def execLdGLong (d a : XReg) (la : La) (ty : Ty) (off : BitVec 20) (site : Option (BitVec 16)) (s : State) : Out :=
  .next (s.checked (.ldGLong d a la ty off site) fun s =>
    s.loadFrom .glob d (s.rd a) (effAddr (s.rd a) off ty.size) la ty site)

/-- LD_S_SHORT (R156). -/
def execLdSShort (d a : XReg) (la : La) (ty : Ty) (off : BitVec 5) (s : State) : Out :=
  .next (s.loadFrom .scratch d (s.rd a) (effAddr (s.rd a) off ty.size) la ty none)

/-- LD_S_LONG (R156). -/
def execLdSLong (d a : XReg) (la : La) (ty : Ty) (off : BitVec 20) (site : Option (BitVec 16)) (s : State) : Out :=
  .next (s.checked (.ldSLong d a la ty off site) fun s =>
    s.loadFrom .scratch d (s.rd a) (effAddr (s.rd a) off ty.size) la ty site)

/-- ST_G_SHORT (R156). -/
def execStGShort (sr a : XReg) (ty : Ty) (off : BitVec 5) (s : State) : Out :=
  .next (s.storeTo .glob (s.rd a) (effAddr (s.rd a) off ty.size) ty (s.rd sr))

/-- ST_G_LONG (R156). -/
def execStGLong (sr a : XReg) (ty : Ty) (off : BitVec 20) (s : State) : Out :=
  .next (s.storeTo .glob (s.rd a) (effAddr (s.rd a) off ty.size) ty (s.rd sr))

/-- ST_S_SHORT (R156). -/
def execStSShort (sr a : XReg) (ty : Ty) (off : BitVec 5) (s : State) : Out :=
  .next (s.storeTo .scratch (s.rd a) (effAddr (s.rd a) off ty.size) ty (s.rd sr))

/-- ST_S_LONG (R156). -/
def execStSLong (sr a : XReg) (ty : Ty) (off : BitVec 20) (s : State) : Out :=
  .next (s.storeTo .scratch (s.rd a) (effAddr (s.rd a) off ty.size) ty (s.rd sr))

/-! ## Element access (R160 to R164) -/

/-- A fault found before an access: cause, subcode, address. -/
abbrev Flt := Nat × Nat × Word

/-- The alignment of an element and its tensor scale (R28, R161); it comes before the translation of either (DESIGN CHOICE, log 16). -/
def elemAlign (e : ElemAt) : Option Word :=
  if 16 ≤ e.nb && e.addr % (e.nb / 8) != 0 then some (w64 e.addr)
  else
    match e.scale with
    | some a => if eSCF e.entry = 2 && a % 4 != 0 then some (w64 a) else none
    | none => none

/-- The places of consecutive bytes of an access, each translated in its own page. -/
def State.placesOf (s : State) (sp : Space) (a n : Nat) (k : Kind) : Except Flt (List Place) :=
  (List.range n).foldr (fun i acc =>
    match s.strandPlace sp ((a + i) % 2 ^ 60) 1 k with
    | .error e => .error (e.1, e.2, w64 ((a + i) % 2 ^ 60))
    | .ok p =>
      match acc with
      | .error e => .error e
      | .ok ps => .ok (p :: ps)) (.ok [])

/-- Bytes of the scale an element reads: one E8M0 byte or one FP32 (R28). -/
def ElemAt.scaleLen (e : ElemAt) : Nat := if eSCF e.entry = 1 then 1 else if eSCF e.entry = 2 then 4 else 0

/-- The places of an element's data and scale; the lower-addressed access's fault comes first (R270). -/
def State.elemPlaces (s : State) (e : ElemAt) (k : Kind) : Except Flt (List Place × List Place) :=
  let sp : Space := if e.scratch then .scratch else .glob
  let dp := s.placesOf sp e.addr e.bytes k
  let scp := match e.scale with
    | some a => s.placesOf sp a e.scaleLen .read
    | none => .ok []
  match dp, scp with
  | .ok d, .ok c => .ok (d, c)
  | .error f, .ok _ => .error f
  | .ok _, .error f => .error f
  | .error f, .error g => if (e.scale.getD 0) < e.addr then .error g else .error f

/-- The byte at a place in memory, with whether the L1 may serve it. -/
def Place.loadByte? : Place → Option LoadByte
  | .mem k l1 => some (k, l1)
  | .sys _ => none

/-- The bytes of places in memory, each with whether the L1 may serve it; none where one lies in system space. -/
def memBytes (ps : List Place) : Option (List LoadByte) := ps.mapM Place.loadByte?

/-- The byte keys of places in memory; none where one lies in system space. -/
def memKeys (ps : List Place) : Option (List Nat) := (memBytes ps).map (fun qs => qs.map (·.1))

/-- Two places are neighbours in one access: consecutive bytes of one line of system space. -/
def Place.joins (p q : Place) : Bool :=
  match p, q with
  | .sys a, .sys b => b = a + 1 && b % 64 != 0
  | _, _ => false

/-- Places of consecutive bytes as accesses: bytes of memory by themselves, and runs of one line of system space, which its target performs
as one (R159). -/
def accessRuns : List Place → List (List Place)
  | [] => []
  | p :: ps =>
    match accessRuns ps with
    | [] => [[p]]
    | r :: rs => if (r.head?.map p.joins).getD false then (p :: r) :: rs else [p] :: r :: rs

/-- Why the bytes of an access are not there: it waits, its system-space target failed, or they hold an uncorrectable error. -/
inductive Stall where
  | wait | failed | bad
deriving DecidableEq, Repr

/-- Reads the bytes of some accesses, asking the targets of those in system space (R302). -/
def State.askRuns (s : State) : List (List Place) → Except Stall (List Byte) × State
  | [] => (.ok [], s)
  | r :: rs =>
    let (here, s) := match r with
      | .sys pa :: _ =>
        match s.sysAsk pa pa (.read r.length) with
        | (none, s) => (Except.error Stall.wait, s)
        | (some .error, s) => (.error .failed, s)
        | (some (.ok v), s) => (.ok (leBytes r.length v.toNat), s)
      | _ =>
        let qs := (memBytes r).getD []
        if s.badBytes s.cur qs then (.error .bad, s)
        else if s.canRead s.cur s.nextId qs then (.ok (s.loadBytes s.cur s.nextId qs), s)
        else (.error .wait, s.lose)
    match here with
    | .error e => (.error e, s)
    | .ok bs =>
      match s.askRuns rs with
      | (.ok cs, s) => (.ok (bs ++ cs), s)
      | (.error e, s) => (.error e, s)

/-- Reads the bytes at places of an access's parts. -/
def State.askBytes (s : State) (parts : List (List Place)) : Except Stall (List Byte) × State := s.askRuns (parts.flatMap accessRuns)

/-- Issues or traps an element load whose value is decided at issue: with a trap enabled (R94, R162), or from system space. -/
def State.elemNow (s : State) (d : XReg) (la : La) (v : Word) (x : Exc) (site : Option (BitVec 16)) (miss : Bool) : State :=
  if s.trapsOn x then s.arithTrap x
  else
    let p := { s.mkPend d la (.float v) with flags := x, site := site.map BitVec.toNat }
    if s.anyTrap then
      let s := ((s.wr d v).accrue x).loadUpdate p miss
      if d = 0 then s else s.issueLong { p with landed := true }
    else (s.issueLong p).markWritten d

/-- The addresses an element access names. -/
def ElemAt.addrs (e : ElemAt) : List Nat := upTo e.addr e.bytes ++ e.scale.toList

/-- An element load from memory with a trap enabled: its value is decided at issue (R94, R162); the die L2 has the data or not as a free
value says (R111). -/
def State.elemTrap (s : State) (d : XReg) (la : La) (e : ElemRead) (site : Option (BitVec 16)) : State :=
  let p := s.mkPend d la (.elem e)
  match s.fixBefore p.op.keys with
  | none => s.lose
  | some s1 =>
    let (w, s1) := s1.freeWord
    let miss := w.getLsbD 0 && s1.beyondL1 s1.cur p.op.reads
    match s1.fixLoad p with
    | none => s.lose
    | some (s, v, x) => s.elemNow d la (v.setWidth 64) x site miss

/-- LD.E (R160 to R162). Where the scale is what is bad or does not answer, the fault names the element's address (DESIGN CHOICE,
log 52). -/
def State.elemLoad {n : Nat} (s : State) (d a : XReg) (la : La) (ty : Ty) (off : BitVec n) (site : Option (BitVec 16)) : State :=
  let base := s.rd a
  let e := elemAt s.curLaunch.fmt base (s.rd d) off
  match elemAlign e with
  | some f => s.misaligned f
  | none =>
    match s.elemPlaces e .read with
    | .error f => s.fault f.1 f.2.1 f.2.2
    | .ok (dp, sp) =>
      if eEF e.entry = 0 && ty.flt.isSome then s.fault 7 2 0
      else
        let er := fun dk sk => (⟨dk, e.bitOff, e.nb, eEF e.entry, eSCF e.entry, sk, ty, none, none⟩ : ElemRead)
        match memBytes dp, memBytes sp with
        | some dk, some sk =>
          if s.badBytes s.cur (dk ++ sk) then s.machineCheck (w64 e.addr)
          else if s.pendFull d then s.lose
          else if s.anyTrap then s.elemTrap d la (er dk sk) site
          else s.issueLoad d { s.mkPend d la (.elem (er dk sk)) with site := site.map BitVec.toNat }
        | _, _ =>
          if s.pendFull d then s.lose
          else
            let here := (dp ++ sp).filterMap Place.loadByte?
            match s.fixBefore (here.map (·.1)) with
            | none => s.lose
            | some s =>
              match (s.keep e.addrs).askBytes [dp, sp] with
              | (.error .wait, s) => s
              | (.error .failed, s) => s.sysFault (w64 e.addr)
              | (.error .bad, s) => s.sysEnd.machineCheck (w64 e.addr)
              | (.ok bs, s) =>
                let (v, x) := elemValue (er [] []) (bs.take dp.length) (bs.drop dp.length)
                (s.readOut s.nextId here).sysEnd.elemNow d la v x site true

/-- LD_E_SHORT (R160). -/
def execLdEShort (d a : XReg) (la : La) (ty : Ty) (off : BitVec 5) (s : State) : Out :=
  .next (s.elemLoad d a la ty off none)

/-- LD_E_LONG (R160). -/
def execLdELong (d a : XReg) (la : La) (ty : Ty) (off : BitVec 20) (site : Option (BitVec 16)) (s : State) : Out :=
  .next (s.checked (.ldELong d a la ty off site) fun s => s.elemLoad d a la ty off site)

/-- The value ST.E converts: VAL read as its register type (R160, R163). -/
def storedVal (ty : Ty) (op : Word) : Val :=
  match ty.flt with
  | some f => f.val op
  | none => ofInt (intSource ty op)

/-- The code and exceptions ST.E writes, whether it draws, or the subcode of its format fault (R163, R164). -/
def elemCode (e : ElemAt) (ty : Ty) (op : Word) (scale : Nat) (rbits : Nat) : Except Nat (Nat × Exc) :=
  let ef := eEF e.entry
  if ef = 0 then (if ty.flt.isSome then .error 2 else .ok (op.toNat % 256, 0))
  else
    let v := storedVal ty op
    let m := rmodeOf (eRND e.entry) rbits
    if eSCF e.entry = 1 then
      if scale % 256 = 255 then .error 3
      else .ok (roundElem ef m (v.scale (127 - (scale % 256 : Nat) : Int)))
    else if eSCF e.entry = 2 then
      match tensorScale scale with
      | none => .error 4
      | some (n, d) => .ok (roundElem ef m (v.over n d))
    else .ok (roundElem ef m v)

/-- One line's part of an element's write: its places, the first bit and the bits written, and their value (R163). -/
structure ElemPart where
  at_ : List Place
  off : Nat
  len : Nat
  val : Nat
deriving DecidableEq, Repr

/-- The parts of an element's write: one, or for an FP6 element that straddles two lines one in each (R163). -/
def elemParts (e : ElemAt) (dp : List Place) (code : Nat) : List ElemPart :=
  match dp with
  | [p, q] =>
    if 8 ≤ e.nb || (e.addr + 1) % 64 != 0 then [⟨dp, e.bitOff, e.nb, code⟩]
    else [⟨[p], e.bitOff, 8 - e.bitOff, code⟩, ⟨[q], 0, e.nb - (8 - e.bitOff), code / 2 ^ (8 - e.bitOff)⟩]
  | _ => [⟨dp, e.bitOff, e.nb, code⟩]

/-- Sends a part of an element's write that lies in system space, as one access of its target (R163, R302); `none` where it lies in
memory or has been made. -/
def State.askPart (s : State) (p : ElemPart) : Option Stall × State :=
  match p.at_ with
  | .sys pa :: _ =>
    let n := p.at_.length
    match s.sysAsk (pa + 2 ^ 60) pa (if p.len = 8 * n then .write (leBytes n p.val) else .bits n p.off p.len p.val) with
    | (none, s) => (some .wait, s)
    | (some .error, s) => (some .failed, s)
    | (some (.ok _), s) => (none, s)
  | _ => (none, s)

/-- Sends the parts of an element's write that lie in system space. -/
def State.askParts (s : State) : List ElemPart → Option Stall × State
  | [] => (none, s)
  | p :: ps =>
    match s.askPart p with
    | (none, s) => s.askParts ps
    | r => r

/-- Queues the parts of an element's write that lie in memory (R163). -/
def State.queueParts (s : State) (ps : List ElemPart) : State :=
  ps.foldl (fun s p =>
    match memKeys p.at_ with
    | some ks =>
      if ks.isEmpty then s
      else (s.queueAccess ks (if p.len = 8 * ks.length then .store (leBytes ks.length p.val) else .bitsAt p.off p.len p.val) none).2
    | none => s) s

/-- Issues the write of an element's code (R163): sub-byte elements as read-modify-writes, each line's part by itself. -/
def State.elemWrite (s : State) (e : ElemAt) (dp : List Place) (code : Nat) : State :=
  if s.heldAt (dp.headD (.sys 0)) e.bytes then s.lose
  else
    let ps := elemParts e dp code
    match s.askParts ps with
    | (some .failed, s) => s.sysFault (w64 e.addr)
    | (some _, s) => s
    | (none, s) => s.sysEnd.queueParts ps

/-- Writes the code of an element and accrues its exceptions. Once some of the write has been sent, the strand keeps them: it completes with
what it has sent (R163, R302). -/
def State.elemPut (s : State) (e : ElemAt) (dp : List Place) (code : Nat) (x : Exc) (draws : Bool) : State :=
  let s1 := { s with disp := .done }.elemWrite e dp code
  match s1.disp with
  | .done =>
    let s2 := s1.accrue x
    if draws then { s2 with cur := { s2.cur with cuvc := s2.cur.cuvc + 1 } } else s2
  | .wait => if s1.cur.committed then { s1 with cur := { s1.cur with code := some (code, x) } } else s1
  | .trapped | .left => s1

/-- ST.E (R160, R161, R163). The scale is read at issue, once; where it is what is bad or does not answer, the fault names the element's
address (DESIGN CHOICE, log 52). -/
def State.elemStore {n : Nat} (s : State) (sr a : XReg) (ty : Ty) (off : BitVec n) : State :=
  let base := s.rd a
  let op := s.rd sr
  let e := elemAt s.curLaunch.fmt base op off
  match elemAlign e with
  | some f => s.misaligned f
  | none =>
    match s.elemPlaces e .write with
    | .error f => s.fault f.1 f.2.1 f.2.2
    | .ok (dp, sp) =>
      let sq := (memBytes sp).getD []
      let mode := eRND e.entry
      let draws := eEF e.entry != 0 && modeDraws mode
      match s.cur.code with
      | some (code, x) => (s.keep e.addrs).elemPut e dp code x draws
      | none =>
      match s.fixBefore (sq.map (·.1)) with
      | none => s.lose
      | some s =>
        match (s.keep e.addrs).askBytes [sp] with
        | (.error .wait, s) => s
        | (.error .failed, s) => s.sysFault (w64 e.addr)
        | (.error .bad, s) => s.sysEnd.machineCheck (w64 e.addr)
        | (.ok bs, s) =>
          let rb := if draws then drawBits s.curLaunch.seed (w64 s.cur.index) s.cur.cuvc 0 else 0
          match elemCode e ty op (leNat bs) rb with
          | .error sub => s.sysEnd.fault 7 sub 0
          | .ok (code, x) =>
            if s.trapsOn x then s.sysEnd.arithTrap x
            else if s.heldAt (dp.headD (.sys 0)) e.bytes then s.lose
            else (s.readOut s.nextId sq).elemPut e dp code x draws

/-- ST_E_SHORT (R160). -/
def execStEShort (sr a : XReg) (ty : Ty) (off : BitVec 5) (s : State) : Out := .next (s.elemStore sr a ty off)

/-- ST_E_LONG (R160). -/
def execStELong (sr a : XReg) (ty : Ty) (off : BitVec 20) (s : State) : Out := .next (s.elemStore sr a ty off)

/-! ## Prefetch (R165) -/

/-- PF: brings the line into the L1; a hint for the die L2 changes nothing a program sees, and nothing faults (R140, R155). A TLB miss
waits for its walk (R149). -/
def execPf (a : XReg) (l2 : Bool) (off : BitVec 5) (s : State) : Out :=
  let va := effAddr (s.rd a) off 64 / 64 * 64
  if capVa ≤ va then .next s
  else
    match s.strandPlace .glob va 64 .read with
    | .ok (.mem k true) =>
      if l2 || s.owned (lineOf k) then .next s else .next (s.fillL1 s.cur k)
    | .ok (.mem _ false) | .ok (.sys _) => .next s
    | .error e => if e.1 = cWalk then .next (s.missed (w64 va)) else .next s

/-! ## Performing at home (R142, R167, R171) -/

/-- The new value of an atomic (R167). -/
def amoNew (op : AmoOp) (size old b c : Nat) : Nat :=
  let n := 8 * size
  let so := signedOf n old
  let sb := signedOf n b
  match op with
  | .add => (old + b) % 2 ^ n
  | .and => old &&& b
  | .or => old ||| b
  | .xor => old ^^^ b
  | .min => if so ≤ sb then old else b
  | .max => if sb ≤ so then old else b
  | .minb => Nat.min old b
  | .maxb => Nat.max old b
  | .swp => b
  | .cas => if old = c then b else old
  | .fadd =>
    let f := if size = 4 then FTy.s else FTy.d
    (f.fmt.roundNE ((f.fmt.decode old).add (f.fmt.decode b)).1).1

/-- Another access to overlapping bytes comes first: an earlier one of the same strand (R159), or one that happens before it (R263). -/
def State.accessBehind (s : State) (a : Access) : Bool :=
  s.stores.any (fun b => b.keys.any (a.keys.contains ·) && ((b.id < a.id && b.strand = a.strand) || a.after.contains b.id))

/-- An earlier load of the strand has still to read one of the bytes of an access (R159); one into x0 is not seen. -/
def State.loadBehind (s : State) (a : Access) : Bool :=
  s.withSaved.any (fun t => t.sid = a.strand
    && t.pend.any (fun p => p.unread && p.reg != 0 && p.seq ≤ a.id && p.op.ordered.any (a.keys.contains ·)))

/-- No sequentially consistent operation with a smaller ticket is outstanding (R173). -/
def State.ticketTurn (s : State) (n : Nat) : Bool :=
  !(s.stores.any (fun a => match a.ticket with | some m => decide (m < n) | none => false))
    && !(s.allStrands.any (fun t => match t.fence with
      | some f => !f.done && f.acc.isNone && (match f.ticket with | some m => decide (m < n) | none => false)
      | none => false))

/-- The L1 of the issuing cluster after a write: a store updates a line in place, an atomic removes it (R140). -/
def State.l1After (s : State) (a : Access) (bs : List Byte) : State :=
  let c := s.cluster a.cluster
  match a.op with
  | .amo .. | .event _ =>
    s.setCluster a.cluster { c with l1 := c.l1.filter (fun l => !a.keys.any (fun k => lineOf k = l.line)) }
  | .store _ | .bitsAt .. =>
    s.setCluster a.cluster { c with l1 := c.l1.map (fun l =>
      if l.kid = a.kid then
        { l with
          bytes := l.bytes.mapIdx (fun i b =>
            match (a.keys.zip bs).find? (fun p => p.1 = l.line + i) with
            | some p => p.2
            | none => b)
          bad := l.bad.filter (fun w => !(keysFrom w 8).all a.keys.contains)
          told := ((a.keys.filter (fun k => lineOf k = l.line)).map (fun k => (k, a.carries))).filter (fun p => !p.2.isEmpty)
            ++ l.told.filter (fun p => !a.keys.contains p.1) }
      else l) }

/-- An atomic. -/
def MemOp.isRmw : MemOp → Bool
  | .amo .. | .event _ => true
  | .store _ | .bitsAt .. => false

/-- Gives an atomic's old value to the strand that waits for it. -/
def Strand.amoDone (t : Strand) (id : Nat) (old : Nat) : Strand :=
  { t with
    pend := t.pend.map (fun p => if p.op = .amo id then { p with got := some (BitVec.ofNat 256 old) } else p)
    fence := t.fence.map (fun f => if f.acc = some id then { f with old := some (w64 old) } else f) }

/-- An access that is performed leaves the L1 copies of its lines in other clusters old: they no longer serve the strands for which an acquire
that emptied their L1 has put it before what they do (R264). -/
def State.staleAfter (s : State) (a : Access) : State :=
  let ts := s.withSaved.filter (fun t => clusterOf t.id != a.cluster && t.before.any (fun b => b.id = a.id && b.deep))
  if ts.isEmpty then s
  else
    { s with clusters := s.clusters.map (fun (p : Nat × Cluster) => (p.1, { p.2 with l1 := p.2.l1.map (fun l =>
      if a.keys.any (fun k => lineOf k = l.line) then
        { l with stale := (ts.filter (fun t => clusterOf t.id = p.1)).map (·.sid) ++ l.stale }
      else l) })) }

/-- Performs an access at its home (R142, R167, R171). -/
def State.perform (s : State) (a : Access) : State :=
  let s := { s with stores := s.stores.filter (fun b => b.id != a.id) }
  let old := s.bytesAs a.kid a.keys
  let met := a.keys.flatMap s.toldHome
  let (bs, res) := match a.op with
    | .store bs => (bs, none)
    | .bitsAt off len v => (leBytes a.keys.length (putBits (leNat old) off len v), none)
    | .amo op size b c => (leBytes size (amoNew op size (leNat old) (b.toNat % 2 ^ (8 * size)) (c.toNat % 2 ^ (8 * size))), some (leNat old))
    | .event inc => (leBytes 8 (eventAdd (leNat old) inc.toNat false), none)
  let s := ((s.putBytes a.kid a.keys bs).tell a.keys a.op.isRmw a.carries).l1After a bs
  let s := (if a.op.isRmw then s.noteUse a.keys a.flat else s).staleAfter a
  match res with
  | some v => s.mapStrands (fun t => t.sid = a.strand) (fun t => (t.amoDone a.id v).hear (s.alive met))
  | none => s

/-- ACCESS_PERFORMED_AT_HOME: the access of identifier `k`, once those to the same bytes that come first are performed, the strand's earlier
loads of them have read, no decanter owns its line and its ticket's turn has come; atomics of one cycle in the order of their flat slot numbers (R159, R168, R173, R188, R297). -/
def execAccessPerformedAtHome (k : Nat) (s : State) : Out :=
  match s.stores.find? (fun a => a.id = k) with
  | none => .next s
  | some a =>
    let tick := match a.ticket with | some n => s.ticketTurn n | none => true
    if s.accessBehind a || s.loadBehind a || !s.unowned a.keys || !tick || (a.op.isRmw && s.homeBehind a.keys a.flat) then .next s else .next (s.perform a)

/-! ## Atomics (R166 to R169) -/

/-- Code of an atomic for a system-space request (R166). -/
def AmoOp.code : AmoOp → Nat
  | .add => 0 | .and => 1 | .or => 2 | .xor => 3 | .min => 4 | .max => 5 | .minb => 6 | .maxb => 7
  | .swp => 8 | .cas => 9 | .fadd => 10

/-- Whether a system-space target performs an atomic (R168, R298). -/
def sysAmoOk (op : AmoOp) (size : Nat) (sc host : Bool) : Bool :=
  !sc && (if host then size = 8 && (op = .add || op = .swp || op = .cas) else op != .fadd)

/-- The storage scope of a space. -/
def ssOf : Space → Storage
  | .glob => .globalSp
  | .scratch => .scratch

/-- An atomic at a memory place (R167, R172, R173): relaxed at strand scope; otherwise there is a fence before it and one after it, the bundle
losing turns until both have completed. -/
def State.amoMem (s : State) (op : AmoOp) (f : AmoForm) (p : Place) (ks : List Nat) (size a : Nat) (b c : Word) : State :=
  let acc := MemOp.amo op size b c
  let ss := if f.sc then Storage.all else ssOf f.space
  let req := fun (id : Option Nat) => (⟨true, if f.sc then .sc else .acqrel, f.scope, ss, none, id, none, false⟩ : FenceReq)
  match s.cur.fence with
  | none =>
    if s.heldAt p size || s.pendFull f.d then s.lose
    else if !f.sc && f.scope = .strand then
      let (id, s) := s.queueAccess ks acc none
      (s.issueLong (s.mkPend f.d f.la (.amo id))).markWritten f.d
    else
      match s.acquireRelease f.sc f.scope ss true with
      | none => s.lose
      | some s =>
        let s := s.keep [a]
        if f.sc then { s with cur := { s.cur with fence := some (req none) } }.lose
        else
          let (id, s) := s.queueAccess ks acc none
          { s with cur := { s.cur with fence := some (req (some id)) } }.lose
  | some r =>
    match r.ticket, r.acc, r.old with
    | some n, none, _ =>
      if s.heldAt p size then s.lose
      else
        let (id, s) := s.queueAccess ks acc (some n)
        { s with cur := { s.cur with fence := some { r with acc := some id } } }.lose
    | _, some _, some v =>
      match s.acquireRelease f.sc f.scope ss true with
      | none => s.lose
      | some s =>
        let s := { s with cur := { s.cur with fence := none, leaves := [] } }
        (s.issueLong (s.mkPend f.d f.la (.value v))).markWritten f.d
    | _, _, _ => s.lose

/-- An atomic (R166 to R168). Its checks are made at issue: one that has asked for its ticket or been sent goes on with the translation it
has, and meets no further fault (R167, R173). -/
def State.amo (s : State) (i : Instr) (op : AmoOp) (f : AmoForm) (c : XReg) : State :=
  s.checked i fun s =>
    let size := if f.wide then 8 else 4
    let base := s.rd f.a
    let a := addr60 base
    if a % size != 0 then s.misaligned (w64 a)
    else
      match s.strandPlace f.space a size .atomic with
      | .error e => s.fault e.1 e.2 (w64 a)
      | .ok (.mem k l1) =>
        if s.cur.fence.isNone && s.poisoned (keysFrom k size) then s.machineCheck (w64 a)
        else s.amoMem op f (.mem k l1) (keysFrom k size) size a (s.rd f.b) (s.rd c)
      | .ok (.sys pa) =>
        let host := nbits pa 50 1 = 0
        if !sysAmoOk op size f.sc host then s.fault cProtection 5 (w64 a)
        else if s.pendFull f.d then s.lose
        else
          let both := fun (s : State) => if f.scope = .strand then some s else s.acquireRelease false f.scope .globalSp true
          match both s with
          | none => s.lose
          | some s =>
            match (s.keep [a]).sysAsk (pa + 2 ^ 60) pa (.amo op.code size (s.rd f.b) (s.rd c)) with
            | (none, s) => s
            | (some .error, s) => s.sysFault (w64 a)
            | (some (.ok v), s) =>
              match both s with
              | none => s.lose
              | some s => (s.sysEnd.issueLong (s.mkPend f.d f.la (.value (w64 (v.toNat % 2 ^ (8 * size)))))).markWritten f.d

/-- AMO_ADD (R166). -/
def execAmoAdd (f : AmoForm) (s : State) : Out := .next (s.amo (.amoAdd f) .add f 0)
/-- AMO_AND (R166). -/
def execAmoAnd (f : AmoForm) (s : State) : Out := .next (s.amo (.amoAnd f) .and f 0)
/-- AMO_OR (R166). -/
def execAmoOr (f : AmoForm) (s : State) : Out := .next (s.amo (.amoOr f) .or f 0)
/-- AMO_XOR (R166). -/
def execAmoXor (f : AmoForm) (s : State) : Out := .next (s.amo (.amoXor f) .xor f 0)
/-- AMO_MIN, signed (R166). -/
def execAmoMin (f : AmoForm) (s : State) : Out := .next (s.amo (.amoMin f) .min f 0)
/-- AMO_MAX, signed (R166). -/
def execAmoMax (f : AmoForm) (s : State) : Out := .next (s.amo (.amoMax f) .max f 0)
/-- AMO_MINB, unsigned (R166). -/
def execAmoMinb (f : AmoForm) (s : State) : Out := .next (s.amo (.amoMinb f) .minb f 0)
/-- AMO_MAXB, unsigned (R166). -/
def execAmoMaxb (f : AmoForm) (s : State) : Out := .next (s.amo (.amoMaxb f) .maxb f 0)
/-- AMO_SWP (R166). -/
def execAmoSwp (f : AmoForm) (s : State) : Out := .next (s.amo (.amoSwp f) .swp f 0)
/-- AMO_CAS: compares with C, writes B (R166). -/
def execAmoCas (f : AmoForm) (c : XReg) (s : State) : Out := .next (s.amo (.amoCas f c) .cas f c)
/-- AMO_FADD (R166); a deterministic launch does not permit it. -/
def execAmoFadd (f : AmoForm) (s : State) : Out := .next (s.amo (.amoFadd f) .fadd f 0)

/-! ## Fences (R170 to R173) -/

/-- What a fence does once the earlier accesses it waits for are performed; none while one is not (R141, R171, R172, R261). -/
def State.fenceNow (s : State) (k : FenceKind) (sc : Scope) (ss : Storage) : Option State :=
  match k with
  | .acq => if s.loadsDone ss then some (s.acquireRead sc ss false) else none
  | .rel => s.release sc ss
  | .acqrel => s.acquireRelease false sc ss false
  | .sc => s.acquireRelease true sc ss false

/-- FENCE: the strand loses turns until the fence completes (R172). -/
def execFence (kind : FenceKind) (scope : Scope) (ss : Storage) (s : State) : Out :=
  match s.cur.fence with
  | some r =>
    if r.done then .next { s with cur := { s.cur with fence := none } } else .next s.lose
  | none =>
    match if kind = .sc then none else s.fenceNow kind scope ss with
    | some s => .next s
    | none => .next { s with cur := { s.cur with fence := some ⟨false, kind, scope, ss, none, none, none, false⟩ } }.lose

/-- FENCE_COMPLETE: the strand's fence completes once what it waits for is performed, an sc fence with its ticket in its turn
(R172, R173). An atomic completes as it is performed. -/
def execFenceComplete (s : State) : Out :=
  match s.cur.fence with
  | none => .next s
  | some r =>
    let tick := match r.kind, r.ticket with
      | .sc, some n => s.ticketTurn n
      | .sc, none => false
      | _, _ => true
    if r.amo || r.done || !tick then .next s
    else
      match s.fenceNow r.kind r.scope r.ss with
      | none => .next s
      | some s => .next { s with cur := { s.cur with fence := some { r with done := true } } }

/-- SC_TICKET_GRANT: the sequencer on BD0 grants the strand's sequentially consistent operation the next ticket (R173). -/
def execScTicketGrant (s : State) : Out :=
  match s.cur.fence with
  | none => .next s
  | some r =>
    if r.kind = .sc && r.ticket.isNone && !r.done then
      .next { s with
        cur := { s.cur with fence := some { r with ticket := some s.pkg.tickets } }
        pkg := { s.pkg with tickets := (s.pkg.tickets + 1) % 2 ^ 64 } }
    else .next s

/-! ## Walks and invalidations (R146 to R150, R300) -/

/-- A waiting strand or command receives the fault of its walk (R149). -/
def State.walkFailed (s : State) (page n : Nat) : Waiter → State
  | .strand sid => s.mapStrands (fun t => t.sid = sid) (fun t => { t with walkFault := some (page, n) })
  | .cmd cid => { s with cmds := s.cmds.map (fun c => if c.cid = cid then { c with walkFault := some (page, n) } else c) }

/-- A leaf enters a cluster's TLB of 512 entries (R148). -/
def State.fillTlb (s : State) (cl : Nat) (l : Leaf) : State :=
  let c := s.cluster cl
  if c.tlb.contains l then s else s.setCluster cl { c with tlb := (l :: c.tlb).take 512 }

/-- The misses of a walk are served by a leaf: its own, and those of walks of the die inside a 512 MiB page (R149). -/
def Walk.servedBy (w k : Walk) (l : Leaf) : Bool :=
  k.die = w.die && k.ctx = w.ctx && (k.page = w.page || l.covers w.ctx (k.page * 2 ^ 16))

/-- A walk ends: its leaf enters the TLBs of the clusters whose misses wait for it, or each miss receives its fault (R147 to R149). -/
def State.endWalk (s : State) (w : Walk) : State :=
  let s' := { s with walks := s.walks.filter (· != w) }
  match s.walk w.ctx (w.page * 2 ^ 16) with
  | .error n => (w.waiters.map (·.2)).foldl (fun s x => s.walkFailed w.page n x) s'
  | .ok l =>
    let served := (s.walks.filter (fun k => w.servedBy k l)).flatMap (·.waiters)
    ((served.map (·.1)).eraseDups).foldl (fun s cl => s.fillTlb cl l)
      { s' with walks := s'.walks.map (fun k => if w.servedBy k l then { k with waiters := [] } else k) }

/-- PAGE_WALK_COMPLETE: the walk in flight for a context's page on the die of a cluster ends, once no copy command owns a line it reads
(R147 to R149, R188). -/
def execPageWalkComplete (cluster ctx va : Nat) (s : State) : Out :=
  match s.walks.find? (fun k => k.die = dieOfCluster cluster && k.ctx = ctx && k.page = va / 2 ^ 16) with
  | none => .next s
  | some w => if s.unowned (s.walkReads (w.page * 2 ^ 16) (s.ctx ctx).rootAddr levels) then .next (s.endWalk w) else .next s

/-- TLBINV: starts an invalidation, or is ignored while one is in progress; in recovery only PF0 answers (R300, R307). -/
def execTlbinvWrite (ctx : Nat) (v : Word) (s : State) : Out :=
  let c := s.ctx ctx
  if 64 ≤ ctx || (s.pkg.recovery && ctx != 0) then .next s
  else if c.tlbBusy then .next (s.setCtx ctx { c with tlbErr := true })
  else .next (s.setCtx ctx { c with tlbBusy := true, tlbInv := v })

/-- A leaf falls under an invalidation request (R300). -/
def invCovers (v : Word) (ctx : Nat) (l : Leaf) : Bool :=
  l.ctx = ctx && (v.getLsbD 0 || (
    let vpn := nbits v.toNat 16 44 * 2 ^ 16
    let (lo, hi) := if v.getLsbD 1 then (vpn / 2 ^ 29 * 2 ^ 29, vpn / 2 ^ 29 * 2 ^ 29 + 2 ^ 29) else (vpn, vpn + 2 ^ 16)
    decide (l.va < hi ∧ lo < l.va + (if l.big then 2 ^ 29 else 2 ^ 16))))

/-- A strand of a context has an access outstanding that was translated (R150). -/
def Strand.translated (v : Nat) (t : Strand) : Bool :=
  t.ctx = v && (!t.leaves.isEmpty || t.pend.any (fun p => p.unread && p.op.keys.any (fun k => k < scrBase)))

/-- An access or a copy command of a context has used a translation and is not done with it (R150). -/
def State.translating (s : State) (v : Nat) : Bool :=
  s.stores.any (fun a => a.kid = v && a.keys.any (fun k => k < scrBase))
    || s.allStrands.any (Strand.translated v)
    || s.cmds.any (fun c => c.ctx = v && c.engine = .copy && !c.saved && c.dfault.isNone
      && (c.started || s.owners.any (fun o => o.cid = c.cid)))

/-- TLB_INVALIDATION_COMPLETE: every TLB has dropped the entries, and nothing that used one of the context goes on with it (R150). -/
def execTlbInvalidationComplete (ctx : Nat) (s : State) : Out :=
  let c := s.ctx ctx
  if !c.tlbBusy || s.translating ctx then .next s
  else
    let s := s.setCtx ctx { c with tlbBusy := false }
    .next { s with clusters := s.clusters.map (fun (p : Nat × Cluster) =>
      (p.1, { p.2 with tlb := p.2.tlb.filter (fun l => !invCovers c.tlbInv ctx l) })) }

end Sys2Proof.Machine
end

