-- ==== Sys2Proof/Machine/Engines.lean ====
section
/-! DEFINITION. What every engine command shares: the checks of its handles (spec/12 R175, R181, R327), its issue (R176, R206,
R221), deferred faults and removal (spec/20 R279, R280), and the landing of its completion register. -/

namespace Sys2Proof.Machine

open Sys2Proof

/-! ## Checks -/

/-- Cause and subcode of a deferred fault. -/
abbrev Sub := Nat × Nat

/-- Engine fault (R272). -/
def fEngine (n : Nat) : Sub := (0x0B, n)
/-- Format fault (R272). -/
def fFormat (n : Nat) : Sub := (0x07, n)
/-- Copy fault (R272). -/
def fCopy (n : Nat) : Sub := (0x0A, n)

/-- A check: its fault where it does not hold. -/
def need (ok : Bool) (f : Sub) : Option Sub := if ok then none else some f

/-- The first fault of a list of checks (R327). -/
def firstFault (l : List (Option Sub)) : Option Sub := l.findSome? id

/-- R175: reserved fields zero, and PITCH at least a line where there are several. -/
def Tile.fieldsOk (t : Tile) : Bool :=
  hBits t.h 224 32 = 0 && hBits t.h 176 16 = 0 && hBits t.h 152 8 = 0 && hBits t.h 114 14 = 0
    && (t.lines ≤ 1 || t.lineLen ≤ hPitch t.h)

/-- A scratch range lies in the allocation of the strand's group (R137). -/
def State.rangeIn (s : State) (a n : Nat) : Bool := a < 2 ^ 22 && s.inAlloc s.cur a n

/-- R137 for the span of a scratch handle. -/
def State.spanIn (s : State) (t : Tile) : Bool := !hScr t.h || s.rangeIn (hAddr t.h) t.spanLen

/-- Steps 1 and 2 of R327 for the handles of a command. -/
def State.handleChecks (s : State) (ts : List Tile) : List (Option Sub) :=
  [need (ts.all Tile.fieldsOk) (fEngine 1), need (ts.all s.spanIn) (fEngine 2)]

/-- The locations of the scales of a scratch tile: alignment, then scratch range (R28, R327 step 8). -/
def State.scaleChecks (s : State) (t : Tile) : List (Option Sub) :=
  if eSCF t.entry = 2 then
    match t.scaleAt 0 0 with
    | some a => [need (a % 4 = 0) (fEngine 5), need (s.rangeIn a 4) (fEngine 2)]
    | none => []
  else if eSCF t.entry = 1 then
    [need ((List.range t.lines).all (fun l =>
      [t.scaleAt l 0, t.scaleAt l (t.perLine - 1)].all (fun o => match o with
        | some a => s.rangeIn a 1
        | none => true))) (fEngine 2)]
  else []

/-- Two spans share a byte (R208, R220). -/
def spansMeet (a b : Tile) : Bool :=
  hAddr a.h < hAddr b.h + b.spanLen && hAddr b.h < hAddr a.h + a.spanLen

/-- PITCH is a multiple of the bytes per block in scratch (R199, R226, R234). -/
def Tile.pitchBlocks (t : Tile) : Bool := hPitch t.h % bpb t.entry true = 0

/-! ## Sequence tags (R180, R181) -/

/-- The granules of a cluster's scratchpad that a span touches. -/
def Tile.granules (t : Tile) : List Nat :=
  let lo := hAddr t.h / 4096
  upTo lo (Nat.min ((hAddr t.h + t.spanLen - 1) / 4096 + 1) 1024 - lo)

/-- The tags of the granules a span touches. -/
def State.spanTags (s : State) (cl : Nat) (t : Tile) : List (BitVec 16) :=
  t.granules.map (fun g => (find? g (s.cluster cl).tags).getD 0)

/-- Poison in a granule or in the ETAG (R181). -/
def State.tagPoison (s : State) (cl : Nat) (t : Tile) : Bool := hETag t.h = 0xFFFF || (s.spanTags cl t).contains 0xFFFF

/-- Every granule carries the ETAG (R181). -/
def State.tagMatch (s : State) (cl : Nat) (t : Tile) : Bool := (s.spanTags cl t).all (· = hETag t.h)

/-- The schedule fault of a handle an engine reads through (R181): its subcode. -/
def State.tagFault (s : State) (t : Tile) : Option Nat :=
  let cl := clusterOf s.cur.id
  if !hScr t.h then none
  else if s.tagPoison cl t then some 2
  else if !s.tagMatch cl t then some 1
  else none

/-- The schedule fault of the handles a command reads through (R181): that of the first handle, in the order of the list, that has one
(DESIGN CHOICE, log 53). -/
def State.tagFaults (s : State) (ts : List Tile) : Option Nat := ts.findSome? s.tagFault

/-! ## Deferred faults and removal -/

/-- A deferred fault of a command that names its handles. -/
def DFault.of (f : Sub) (elem prog : Nat) (hs : List Handle) (copy : Bool) : DFault where
  cause := f.1
  sub := f.2
  elem := elem
  prog := prog
  hnd := hs
  copy := copy
  addr := 0

/-- Changes the strand that issued a command, in its slot or in the cellar (R195, R214). -/
def State.onIssuer (s : State) (c : Cmd) (f : Strand → Strand) : State :=
  let mine := fun (t : Strand) => t.launch = c.launch && t.index = c.item
  let s := s.mapStrands (fun t => t.status != .idle && mine t) f
  let x := s.ctx c.ctx
  if x.saved.any (fun r => mine r.strand) then
    s.setCtx c.ctx { x with saved := x.saved.map (fun r => if mine r.strand then { r with strand := f r.strand } else r) }
  else s

/-- The commands whose completion registers a command carries. -/
def Cmd.ids (c : Cmd) : List Nat := c.cid :: c.body.map (·.cid)

/-- The completion registers of some commands are no longer pending; a window that is open stays open, since a breach depends on the
instruction stream alone (R73, R75). -/
def dropPending (ids : List Nat) (ps : List Pend) : List Pend :=
  ps.filterMap (fun p => match p.op with
    | .cmd i => if !ids.contains i then some p else if p.win = 0 then none else some { p with landed := true }
    | _ => some p)

/-- A strand no longer waits for a command: its completion register is not pending, its mailbox reservation is free (R75, R192,
R280). -/
def Strand.forget (t : Strand) (c : Cmd) : Strand :=
  { t with
    pend := dropPending c.ids t.pend
    mboxRes := t.mboxRes - (if c.mb then 1 else 0) }

/-- Removes a command without effect (R213, R280). -/
def State.removeCmd (s : State) (c : Cmd) : State :=
  (s.onIssuer c (fun t => t.forget c)).removeCmds (fun d => d.cid = c.cid)

/-- Commands of one item in one engine queue, in issue order. -/
def sameQueue (c d : Cmd) : Bool := c.launch = d.launch && c.item = d.item && c.engine = d.engine

/-- A command takes a deferred fault: it is recorded, the register is not pending, the reservation is free, and the strand's later
commands of the queue that have not started are removed (R192, R213, R279, R280). One that holds an undelivered fault of its own keeps its
entry, and the fault is delivered: R280 would remove it and R279 delivers each fault (DESIGN CHOICE, log 64). -/
def State.faultCmd (s : State) (c : Cmd) (f : DFault) : State :=
  let s := s.onIssuer c (fun t => t.forget c)
  let s := s.setCmd { c with dfault := some f, mb := false }
  let s := { s with owners := s.owners.filter (fun o => o.cid != c.cid) }
  (s.cmds.filter (fun d => sameQueue c d && c.cid < d.cid && !d.started && d.dfault.isNone)).foldl State.removeCmd s

/-! ## Issue -/

/-- A command of the bundle in hand, before it joins its queue (R176). -/
def State.mkCmd (s : State) (cid : Nat) (e : Engine) (i : Instr) (hd ha hb : Handle) (reg : XReg) : Cmd where
  cid := cid
  engine := e
  instr := i
  word := s.bundle
  baddr := s.cur.pc
  strand := s.cur.id
  launch := s.cur.launch
  ctx := s.cur.ctx
  item := s.cur.index
  core := coreOf s.cur.id
  core0 := coreOf s.cur.id
  cycle := s.now
  since := s.now
  hd := hd
  ha := ha
  hb := hb
  xs := 0
  pblk := 0
  idxs := []
  body := []
  iters := 1
  reg := reg.toNat
  started := false
  prog := 0
  c0 := s.cur.cuvc
  flags := 0
  cnt := 0
  bank := []
  mask := 0
  mb := false
  key := none
  target := clusterOf s.cur.id
  tscale := 0
  early := []
  late := none
  walkFault := none
  saved := false
  dfault := none

/-- Adds a command at the tail of its queue. -/
def State.addCmd (s : State) (c : Cmd) : State := { s with cmds := s.cmds ++ [c] }

/-- The completion register is pending from issue (R207, R222). -/
def State.pendCmd (s : State) (cid : Nat) (reg : XReg) (la : La) : State :=
  if reg = 0 then s else (s.issueLong (s.mkPend reg la (.cmd cid))).markWritten reg

/-- Commands of a cluster in a queue (R187, R221). -/
def State.queued (s : State) (e : Engine) (cl : Nat) : Nat :=
  (s.cmds.filter (fun c => c.engine = e && c.core / 8 = cl && !c.saved)).length

/-- Commands of the strand in a queue (R187, R221). -/
def State.outstanding (s : State) (e : Engine) : Nat := ((s.cmdsOf s.cur.id).filter (fun c => c.engine = e)).length

/-- A command waits for a page walk: its engine stalls (R149). -/
def State.cmdMissed (s : State) (c : Cmd) (a : Nat) : State := s.requestWalk (c.core / 8) c.ctx (a % 2 ^ 60) (.cmd c.cid)

/-- Joins a queue with the outcome of the deferred checks: with a fault the command has no effect and its register is not pending, but its
window opens all the same (R73, R75, R206, R221, R279). -/
def State.joinQueue (s : State) (c : Cmd) (chk : Option DFault) (reg : XReg) (la : La) : State :=
  let s := (s.addCmd c).pendCmd c.cid reg la
  match chk with
  | some f => s.faultCmd c f
  | none => s

/-! ## The order of a queue (R182, R221) -/

/-- The first of some commands of a queue: of those that issued in the same cycle as the one at the head, that of the lowest flat core
number (R221). -/
def firstIssued (cs : List Cmd) : Option Cmd :=
  cs.foldl (fun (o : Option Cmd) c =>
    match o with
    | none => some c
    | some d => if c.cycle = d.cycle && c.key182.before d.key182 then some c else some d) none

/-- The command of a queue that goes on next: the first, where it may; else one that issued before it, which the cellar put behind it and
whose holds it waits for (R182, R214, R230). R230 puts a restored command at the tail and R182 lets the head wait for it, and neither says
what the queue does then (DESIGN CHOICE, log 64). -/
def nextOf (ok : Cmd → Bool) (cs : List Cmd) : Option Cmd :=
  match firstIssued cs with
  | none => none
  | some h => if ok h then some h else cs.find? (fun c => c.key182.before h.key182 && ok c)

/-! ## The unit in progress (R268) -/

/-- Writes those of some bits that lie in the aligned 8 bytes of a key, and keeps the others for the end of the unit; nothing where none
does (R258). -/
def State.writeWord (s : State) (c : Cmd) (cells : List (Nat × Byte × Byte)) (k : Nat) : Option State :=
  let now := cells.filter (fun q => q.1 / 8 = k / 8)
  if now.isEmpty then none else some ((s.putCells now).setCmd { c with late := some (cells.filter (fun q => q.1 / 8 != k / 8)) })

/-- A unit has written some bits: words of which it has written every bit are good again (R292). -/
def State.healUnit (s : State) (bits : List (Nat × Byte)) : State := if s.poison.isEmpty then s else s.healWords (fullKeys bits)

/-! ## Bad data (R292) -/

/-- The scratch offset of the first word with an uncorrectable error that some reads would meet. -/
def State.badRead (s : State) (hs : List Hold) : Option Nat :=
  hs.findSome? (fun h =>
    let lo := scrKey h.cluster h.lo
    (s.poison.find? (fun p => p ≤ scrKey h.cluster h.hi && lo < p + 8)).map (fun p => Nat.max p lo - scrKey h.cluster 0))

/-- The deferred machine check of a command that reads a bad word at a scratch offset. R206 and R221 let no fault arise while a command runs;
R292 gives an engine's read of bad data this one (DEDUCED, log 59). -/
def badFault (a elem prog : Nat) (hs : List Handle) : DFault := { DFault.of (0x0D, 1) elem prog hs false with addr := w64 a }

/-! ## Completion -/

/-- Lands the completion register of a command in a strand (R207, R222). -/
def Strand.landCmd (t : Strand) (cid : Nat) (v : Word) (cycle : Nat) : Strand :=
  match t.pend.findIdx? (fun p => p.op = .cmd cid && !p.landed) with
  | none => t
  | some i =>
    match t.pend[i]? with
    | none => t
    | some p => { t.landReg p.reg (v.setWidth 256) cycle with pend := landPend i t.pend }

/-- Lands the completion register of a command in the strand that issued it. -/
def State.landOn (s : State) (c : Cmd) (cid : Nat) (v : Word) : State :=
  s.onIssuer c (fun t => t.landCmd cid v (s.cycle (dieOf t.id)))

/-- A command completes: its register lands and it leaves its queue. -/
def State.completeCmd (s : State) (c : Cmd) (v : Word) : State :=
  (s.landOn c c.cid v).removeCmds (fun d => d.cid = c.cid)

/-! ## Elements of scratch tiles -/

/-- The key of a scratch address of a cluster. -/
def tileKey (cl a : Nat) : Nat := scrKey cl (a % 2 ^ 22)

/-- The code at position p of line ℓ of a scratch tile (R175); FP6 ignores bits 7:6 (R122). -/
def State.codeAt (s : State) (cl : Nat) (t : Tile) (l p : Nat) : Nat :=
  let (o, b) := t.offs l p
  let n := (b + t.nb + 7) / 8
  let v := nbits (s.natAs 0 (tileKey cl (hAddr t.h + o)) n) b t.nb
  v % 2 ^ efCode (eEF t.entry)

/-- The E8M0 byte or FP32 scale of a position of a scratch tile, 0 where there is none (R28). -/
def State.scaleOf (s : State) (cl : Nat) (t : Tile) (l p : Nat) : Nat :=
  match t.scaleAt l p with
  | some a => s.natAs 0 (tileKey cl a) (if eSCF t.entry = 2 then 4 else 1)
  | none => 0

/-- The exact value of a code under its entry's scale (R124, R125). -/
def scaledValue (e code scale : Nat) : Val :=
  if eSCF e = 1 then e8m0Value (eEF e) code scale
  else if eSCF e = 2 then tensorValue (eEF e) code scale
  else valueOf (eEF e) code

/-- The value of a position of a scratch tile. -/
def State.valueAt (s : State) (cl : Nat) (t : Tile) (l p : Nat) : Val :=
  scaledValue t.entry (s.codeAt cl t l p) (s.scaleOf cl t l p)

/-- The bits that an element of a scratch tile takes: the key of each byte and the bits in it (R122, R175). -/
def Tile.elemBits (t : Tile) (cl l p : Nat) : List (Nat × Byte) :=
  let (o, b) := t.offs l p
  let k := tileKey cl (hAddr t.h + o)
  (List.range ((b + t.nb + 7) / 8)).map (fun i => (k + i, BitVec.ofNat 8 ((2 ^ t.nb - 1) * 2 ^ b / 2 ^ (8 * i))))

/-- The bits that the elements of a line of a scratch tile take. -/
def Tile.lineBits (t : Tile) (cl l : Nat) : List (Nat × Byte) := (List.range t.perLine).flatMap (t.elemBits cl l)

/-- The bits that the block scales of a line of a scratch tile take (R28). -/
def Tile.scaleBits (t : Tile) (cl l : Nat) : List (Nat × Byte) :=
  if eSCF t.entry = 1 then (List.range t.perLine).flatMap (fun p => (t.scaleAt l p).toList.map (fun a => (tileKey cl a, 0xFF))) else []

/-- Writes a code at a position of a scratch tile, keeping the other nibble of a 4-bit element (R122, R185). -/
def State.putCode (s : State) (cl : Nat) (t : Tile) (l p code : Nat) : State :=
  let (o, b) := t.offs l p
  let k := tileKey cl (hAddr t.h + o)
  let n := (b + t.nb + 7) / 8
  let v := code % 2 ^ efCode (eEF t.entry)
  s.putBytes 0 (keysFrom k n) (leBytes n (if t.nb < 8 then putBits (s.natAs 0 k n) b t.nb v else v))

/-- Writes the E8M0 scale byte of a position of a scratch tile (R28). -/
def State.putScale (s : State) (cl : Nat) (t : Tile) (l p x : Nat) : State :=
  match t.scaleAt l p with
  | some a => s.putBytes 0 [tileKey cl a] (leBytes 1 x)
  | none => s

/-- A tensor scale that cannot be used (R125, R327 step 8). -/
def State.tensorBad (s : State) (cl : Nat) (t : Tile) : Bool :=
  eSCF t.entry = 2 && (tensorScale (s.scaleOf cl t 0 0)).isNone

end Sys2Proof.Machine
end

