-- ==== Sys2Proof/Machine/Handles.lean ====
section
/-! DEFINITION. The handle instructions (spec/12 R177 to R179) and TWAIT (R181). -/

namespace Sys2Proof.Machine

open Sys2Proof

/-- HSET: a handle with BASE and SP, every other field 0 (R177). -/
def execHset (h : HReg) (a : XReg) (sp : Bool) (s : State) : Out :=
  .next (s.wrH h (hPut ((s.rd a).setWidth 256) 112 1 (if sp then 1 else 0)))

/-- The address of HLD and HST (R178). -/
def State.handleAddr (s : State) (a : XReg) (off : BitVec 7) : Nat := effAddr (s.rd a) off 32

/-- A pending result for a handle register (R178, R288). -/
def State.mkHandlePend (s : State) (h : HReg) (la : La) (op : PendOp) : Pend :=
  { s.mkPend 0 la op with reg := 64 + h.toNat }

/-- The 32 bytes of a handle hold an uncorrectable error (R292). -/
def State.badHandle (s : State) (p : Place) : Bool :=
  match p with
  | .mem k _ => s.poisoned (keysFrom k 32)
  | .sys _ => false

/-- HLD: 32 bytes in one access (R178). -/
def execHld (h : HReg) (a : XReg) (la : La) (space : Space) (off : BitVec 7) (s : State) : Out :=
  let ad := s.handleAddr a off
  if ad % 32 != 0 then .next (s.misaligned (w64 ad))
  else
    match s.strandPlace space ad 32 .read with
    | .error e => .next (s.fault e.1 e.2 (w64 ad))
    | .ok p =>
      if s.badHandle p then .next (s.machineCheck (w64 ad))
      else if 8 ≤ s.cur.pending then .next s.lose
      else
        match p with
        | .mem k _ =>
          .next (s.issueLong (s.mkHandlePend h la (.handle k)))
        | .sys pa =>
          match (s.keep [ad]).sysAsk pa pa (.read 32) with
          | (none, s) => .next s
          | (some .error, s) => .next (s.sysFault (w64 ad))
          | (some (.ok v), s) =>
            .next (s.sysEnd.issueLong { s.mkHandlePend h la (.value 0) with got := some (v.setWidth 256) })

/-- HST (R178). -/
def execHst (h : HReg) (a : XReg) (space : Space) (off : BitVec 7) (s : State) : Out :=
  let ad := s.handleAddr a off
  if ad % 32 != 0 then .next (s.misaligned (w64 ad))
  else
    match s.strandPlace space ad 32 .write with
    | .error e => .next (s.fault e.1 e.2 (w64 ad))
    | .ok p =>
      let bs := leBytes 32 (s.rdH h).toNat
      let ks := match p with
        | .mem k _ => keysFrom k 32
        | .sys _ => []
      .next (s.storeAt p ad ks (.store bs) bs)

/-- Field f of a handle: RSTEP and CSTEP sign-extended, the others zero-extended (R177). -/
def handleField (h : Handle) (f : Nat) : Word :=
  let (lo, w) := hField f
  if f = 6 || f = 7 then BitVec.ofInt 64 (signedOf w (hBits h lo w)) else w64 (hBits h lo w)

/-- HGET (R177). -/
def execHget (h : HReg) (d : XReg) (f : BitVec 8) (s : State) : Out := .next (s.wr d (handleField (s.rdH h) f.toNat))

/-- HPUT (R177). -/
def execHput (h : HReg) (a : XReg) (f : BitVec 8) (s : State) : Out :=
  let (lo, w) := hField f.toNat
  .next (s.wrH h (hPut (s.rdH h) lo w (s.rd a).toNat))

/-- HSTEP (R179). -/
def execHstep (h : HReg) (a : XReg) (s : State) : Out :=
  match stepHandle s.curLaunch.fmt (s.rdH h) (s.rd a).toInt with
  | some v => .next (s.wrH h v)
  | none => .next (s.fault 7 1 0)

/-- TWAIT: loses turns until every granule of the span carries the ETAG (R181). -/
def execTwait (h : HReg) (s : State) : Out :=
  let t := tileOf s.curLaunch.fmt (s.rdH h)
  let cl := clusterOf s.cur.id
  if !hScr t.h then .next s
  else if !s.spanIn t then .next (s.fault cProtection 4 (w64 (hAddr t.h)))
  else if s.tagPoison cl t then .next (s.fault 3 2 0)
  else if s.tagMatch cl t then .next s
  else .next s.lose

end Sys2Proof.Machine
end

