-- ==== Sys2Proof/Machine/Copies.lean ====
section
/-! DEFINITION. The decanter copies (spec/12 R183 to R196; spec/10 R153): parameter block, checks at issue, messages, ownership of
destination lines and completion. -/

namespace Sys2Proof.Machine

open Sys2Proof

/-! ## Addresses of a copy -/

/-- The engine fault of an address fault (R196); a walk that must be waited for is none. -/
def engineSub (e : Nat × Nat) : Sub :=
  if e.1 = cWalk then (cWalk, 0) else if e.1 = cTranslation then fEngine 3 else fEngine 4

/-- The place of a global byte of an engine command; the capability space is protected (R151, R196). -/
def State.engPlace (s : State) (via : Option Via) (v a : Nat) (k : Kind) : Except Sub Place :=
  let a := a % 2 ^ 60
  if capVa ≤ a then .error (fEngine 4)
  else
    match s.globalPlace via v a k with
    | .ok p => .ok p
    | .error e => .error (engineSub e)

/-- The translations of a command: its cluster's TLB, and a failed walk it waited for (R148, R149). -/
def Cmd.via (c : Cmd) : Via := ⟨c.core / 8, [], c.walkFault⟩

/-- The place of a global byte of a command as its issue finds it, walked at once where the TLB has no entry (log 60). -/
def State.engNow (s : State) (c : Cmd) (a : Nat) (k : Kind) : Except Sub Place :=
  match s.engPlace (some c.via) c.ctx a k with
  | .ok p => .ok p
  | .error e => if e.1 = cWalk then s.engPlace none c.ctx a k else .error e

/-- The addresses at the ends of a global tile's lines, and of their scales. -/
def Tile.lineEnds (t : Tile) : List Nat :=
  if hScr t.h then []
  else (List.range t.lines).flatMap (fun l =>
    let o := hAddr t.h + l * hPitch t.h
    [o, o + t.lineLen - 1] ++ (t.scaleAt l 0).toList ++ (t.scaleAt l (t.perLine - 1)).toList)

/-- The addresses of the first and the last byte of each line of a rectangle of a global tile. -/
def Tile.rectEnds (t : Tile) (q : Rect) : List Nat :=
  let (l0, l1, p0, p1) := t.rectLines q
  if hScr t.h || p1 ≤ p0 then []
  else (upTo l0 (l1 - l0)).flatMap (fun l =>
    let o := hAddr t.h + l * hPitch t.h
    [hAddr t.h + (t.offs l p0).1, o + (p1 * t.nb - 1) / 8])

/-- The ends of the lines of a copy's source inside its box: the bytes outside it are not translated (R175). -/
def Cmd.sourceEnds (fmt : List (BitVec 128)) (c : Cmd) : List Nat :=
  let (r0, r1, c0, c1) := c.box fmt
  (tileOf fmt c.ha).rectEnds ⟨r0, r1, c0, c1⟩

/-- The place of a byte of a source or destination tile. -/
def State.copyPlace (s : State) (c : Cmd) (dst : Bool) (t : Tile) (a : Nat) (k : Kind) : Except Sub Place :=
  if hScr t.h then .ok (.mem (tileKey (if dst then c.target else c.core / 8) a) false)
  else s.engPlace (some c.via) c.ctx a k

/-- A copy command issued before owns the line of a key: the read waits for its write (R188, R265). A later command's ownership is no bar:
what its line holds until it writes is what this command could have read before the request. -/
def State.ownedBefore (s : State) (c : Cmd) (k : Nat) : Bool :=
  k < sysBase && s.owners.any (fun o => o.line = lineOf k && o.cid < c.cid)

/-- No fault: the copy waits for the owner of a line it reads (R188). -/
def ownerWait (a : Nat) : Flt := (cWalk, 1, w64 a)

/-- A source byte in memory, when it can be read: one read early, or as it stands (R265). -/
def State.sourceByte (s : State) (c : Cmd) (a k : Nat) : Except Flt Byte :=
  match find? a c.early with
  | some b => .ok b
  | none =>
    if s.ownedBefore c k then .error (ownerWait a)
    else if s.poisoned [k] then .error (0x0D, 1, w64 a)
    else .ok (s.byteAs c.ctx k)

/-- Reads bytes at addresses; a system-space target's bytes come from `ext`, and their absence is its error (R187, R302). -/
def State.copyRead (s : State) (c : Cmd) (t : Tile) : List Nat → List Byte → Except Flt (List Byte × List Byte)
  | [], ext => .ok ([], ext)
  | a :: as, ext =>
    let here : Except Flt (Byte × List Byte) :=
      match s.copyPlace c false t a .read with
      | .error f => .error (f.1, f.2, w64 a)
      | .ok (.mem k _) =>
        match s.sourceByte c a k with
        | .ok b => .ok (b, ext)
        | .error f => .error f
      | .ok (.sys pa) =>
        match s.sysRoute c.ctx pa, ext with
        | true, b :: ext => .ok (b, ext)
        | _, _ => .error (0x0B, 8, w64 a)
    match here with
    | .error f => .error f
    | .ok (b, ext) =>
      match s.copyRead c t as ext with
      | .ok (bs, ext) => .ok (b :: bs, ext)
      | .error f => .error f

/-- A decanter reads a source byte in memory before the unit it belongs to (R265, R268). -/
def State.readEarly (s : State) (cid a : Nat) : State :=
  match s.cmd? cid with
  | none => s
  | some c =>
    if c.engine != .copy || c.saved || c.dfault.isSome || hScr c.ha || (find? a c.early).isSome then s
    else
      match s.engPlace (some c.via) c.ctx a .read with
      | .ok (.mem k _) =>
        match s.sourceByte c (a % 2 ^ 60) k with
        | .ok b => (s.setCmd { c with early := (a % 2 ^ 60, b) :: c.early }).noteOther [k]
        | .error _ => s
      | .ok (.sys _) | .error _ => s

/-- The byte addresses of position p of line ℓ, with the bit offset (R175). -/
def Tile.bytesAt (t : Tile) (l p : Nat) : List Nat × Nat :=
  let (o, b) := t.offs l p
  ((upTo (hAddr t.h + o) ((b + t.nb + 7) / 8)).map (· % 2 ^ 60), b)

/-- Reads the code at a position of the source (R122). -/
def State.copyCode (s : State) (c : Cmd) (t : Tile) (l p : Nat) (ext : List Byte) : Except Flt (Nat × List Byte) :=
  let (as, b) := t.bytesAt l p
  match s.copyRead c t as ext with
  | .ok (bs, ext) => .ok (nbits (leNat bs) b t.nb % 2 ^ efCode (eEF t.entry), ext)
  | .error f => .error f

/-! ## Writes of a copy -/

/-- A write of bits into consecutive bytes of the destination: places, first address, first bit, number of bits, and their value. -/
structure CopyWrite where
  at_  : List Place
  addr : Nat
  off  : Nat
  len  : Nat
  val  : Nat
deriving DecidableEq, Repr

/-- The places of consecutive destination bytes; a target in system space that does not answer is an error (R302, R304). -/
def State.copyPlaces (s : State) (c : Cmd) (t : Tile) : List Nat → Except Flt (List Place)
  | [] => .ok []
  | a :: as =>
    match s.copyPlace c true t a .write with
    | .error f => .error (f.1, f.2, w64 a)
    | .ok p =>
      if (match p with | .sys pa => !s.sysRoute c.ctx pa | .mem .. => false) then .error (0x0B, 8, w64 a)
      else
        match s.copyPlaces c t as with
        | .ok ps => .ok (p :: ps)
        | .error f => .error f

/-- Some place is in system space. -/
def anySys (ps : List Place) : Bool := ps.any (fun p => match p with | .sys _ => true | .mem .. => false)

/-- The write of a code at a position of the destination: the last FP6 element of a global line also clears the rest of its byte
(R122, R185). -/
def State.copyWrite (s : State) (c : Cmd) (t : Tile) (l p code : Nat) : Except Flt CopyWrite :=
  let (as, b) := t.bytesAt l p
  let pad := if t.nb = 6 && p + 1 = t.perLine then (8 - (b + 6) % 8) % 8 else 0
  match s.copyPlaces c t as with
  | .error f => .error f
  | .ok ps => .ok ⟨ps, as.headD 0, b, t.nb + pad, code % 2 ^ efCode (eEF t.entry)⟩

/-- The parts of a write in groups of its bytes, `at_` being the first byte's number. -/
def CopyWrite.cut (w : CopyWrite) (i : Nat) : List (List Place) → List CopyWrite
  | [] => []
  | g :: gs =>
    let lo := Nat.max w.off (8 * i)
    let hi := Nat.min (w.off + w.len) (8 * (i + g.length))
    ⟨g, w.addr + i, lo - 8 * i, hi - lo, w.val / 2 ^ (lo - w.off) % 2 ^ (hi - lo)⟩ :: w.cut (i + g.length) gs

/-- Performs a part of a write: bytes of memory at their home, or one access of a target in system space. -/
def State.doPart (s : State) (kid : Nat) (w : CopyWrite) : State :=
  match memKeys w.at_ with
  | some ks => (s.putBytes kid ks (leBytes ks.length (putBits (leNat (s.bytesAs kid ks)) w.off w.len w.val))).noteOther ks
  | none =>
    let n := w.at_.length
    match w.at_ with
    | .sys pa :: _ => (s.send kid pa (if w.len = 8 * n then .write (leBytes n w.val) else .bits n w.off w.len w.val)).getD s
    | _ => s

/-- Performs a write. -/
def State.doWrite (s : State) (kid : Nat) (w : CopyWrite) : State :=
  if anySys w.at_ then (w.cut 0 (accessRuns w.at_)).foldl (State.doPart · kid) s else s.doPart kid w

/-! ## Elements -/

/-- One element of a unit: line and position in the destination, and in the source, or none for a fill. -/
abbrev CopyElem := (Nat × Nat) × Option (Nat × Nat)

/-- An index lies in the tensor (R190). -/
def indexIn (t : Tile) (i : BitVec 32) : Bool := 0 ≤ i.toInt && i.toInt < hRows t.h

/-- The elements of unit k. -/
def Cmd.unit (fmt : List (BitVec 128)) (c : Cmd) (k : Nat) : List CopyElem :=
  let d := tileOf fmt c.hd
  let a := tileOf fmt c.ha
  match c.copyKind with
  | .gath =>
    let i := c.idxs.getD k 0
    (List.range (hCols a.h)).map (fun p => ((k, p), if indexIn a i then some (a.lineOf i.toNat p) else none))
  | .scat =>
    let i := c.idxs.getD k 0
    if !indexIn d i || (c.idxs.drop (k + 1)).contains i then []
    else (List.range (hCols d.h)).map (fun p => (d.lineOf i.toNat p, some (k, p)))
  | .cin | .cout | .cxc =>
    let (r0, r1, c0, c1) := c.destBox fmt
    let src := fun (r q : Nat) => if c.lay = 1 then a.lineOf q r else a.lineOf r q
    if hAX c.hd = 0 then (upTo c0 (c1 - c0)).map (fun q => (d.lineOf (r0 + k) q, some (src (r0 + k) q)))
    else (upTo r0 (r1 - r0)).map (fun r => (d.lineOf r (c0 + k), some (src r (c0 + k))))

/-- The writes of elements whose codes are moved unchanged (R186, R190). -/
def State.planMoves (s : State) (fmt : List (BitVec 128)) (c : Cmd) : List CopyElem → List Byte → Except Flt (List CopyWrite × List Byte)
  | [], ext => .ok ([], ext)
  | (d, a) :: es, ext =>
    let code := match a with
      | some q => s.copyCode c (tileOf fmt c.ha) q.1 q.2 ext
      | none => .ok (hFill c.hd, ext)
    match code with
    | .error f => .error f
    | .ok (v, ext) =>
      match s.copyWrite c (tileOf fmt c.hd) d.1 d.2 v with
      | .error f => .error f
      | .ok w =>
        match s.planMoves fmt c es ext with
        | .error f => .error f
        | .ok (ws, ext) => .ok (w :: ws, ext)

/-- The exact values of the sources of elements, with their scales (R124, R153); a scale in system space is what its target answers. -/
def State.copyValues (s : State) (c : Cmd) (t : Tile) : List CopyElem → List Byte → Except Flt (List Val × List Byte)
  | [], ext => .ok ([], ext)
  | (_, a) :: es, ext =>
    let q := a.getD (0, 0)
    match s.copyCode c t q.1 q.2 ext with
    | .error f => .error f
    | .ok (v, ext) =>
      match s.copyRead c t ((t.scaleAt q.1 q.2).toList) ext with
      | .error f => .error f
      | .ok (sc, ext) =>
        match s.copyValues c t es ext with
        | .error f => .error f
        | .ok (vs, ext) => .ok (scaledValue t.entry v (leNat sc) :: vs, ext)

/-- The codes of one new block under its scale (R126, R128, R153, R326). -/
def reblock (ef : Nat) (vs : List Val) : Nat × List Nat :=
  let x := scaleFor vs ef
  (x, vs.map (fun v => if x = 255 then (nanElem ef).1 else (roundElem ef .rne (v.scale (127 - (x : Int)))).1))

/-- The writes of a list of codes at positions. -/
def State.planCodes (s : State) (c : Cmd) (t : Tile) : List (CopyElem × Nat) → Except Flt (List CopyWrite)
  | [] => .ok []
  | ((d, _), v) :: es =>
    match s.copyWrite c t d.1 d.2 v with
    | .error f => .error f
    | .ok w =>
      match s.planCodes c t es with
      | .error f => .error f
      | .ok ws => .ok (w :: ws)

/-- The writes of one destination block under LAY 0b10: its scale and its codes (R153). -/
def State.planBlock (s : State) (fmt : List (BitVec 128)) (c : Cmd) (es : List CopyElem) (ext : List Byte) :
    Except Flt (List CopyWrite × List Byte) :=
  let d := tileOf fmt c.hd
  match es, s.copyValues c (tileOf fmt c.ha) es ext with
  | [], _ => .ok ([], ext)
  | _, .error f => .error f
  | (q, _) :: _, .ok (vs, ext) =>
    let (x, codes) := reblock (eEF d.entry) vs
    match s.planCodes c d (es.zip codes), s.copyPlaces c d ((d.scaleAt q.1 q.2).toList) with
    | .ok ws, .ok ps => .ok (⟨ps, 0, 0, 8, x⟩ :: ws, ext)
    | .error f, _ => .error f
    | .ok _, .error f => .error f

/-- The elements of a unit in block b of their line. -/
def inBlock (es : List CopyElem) (b : Nat) : List CopyElem := es.filter (fun e => e.1.2 / 32 = b)

/-- The writes of a destination line under LAY 0b10, block by block. -/
def State.planBlocks (s : State) (fmt : List (BitVec 128)) (c : Cmd) (es : List CopyElem) :
    List Nat → List Byte → Except Flt (List CopyWrite × List Byte)
  | [], ext => .ok ([], ext)
  | b :: bs, ext =>
    match s.planBlock fmt c (inBlock es b) ext with
    | .error f => .error f
    | .ok (ws, ext) =>
      match s.planBlocks fmt c es bs ext with
      | .error f => .error f
      | .ok (us, ext) => .ok (ws ++ us, ext)

/-- The blocks of a destination line under LAY 0b10: 32 positions each along the lines of the destination handle, whatever its AX
(DESIGN CHOICE, log 51). -/
def lineBlocks (d : Tile) : List Nat := List.range (d.perLine / 32 + 1)

/-- The writes of unit k. -/
def State.planUnit (s : State) (c : Cmd) (k : Nat) (ext : List Byte) : Except Flt (List CopyWrite × List Byte) :=
  let fmt := (s.launch c.launch).fmt
  let es := c.unit fmt k
  if c.lay = 2 then s.planBlocks fmt c es (lineBlocks (tileOf fmt c.hd)) ext else s.planMoves fmt c es ext

/-- The global bytes that unit k writes. -/
def Cmd.destBytes (fmt : List (BitVec 128)) (c : Cmd) (k : Nat) : List Nat :=
  let d := tileOf fmt c.hd
  if hScr c.hd then [] else (c.unit fmt k).flatMap (fun e => (d.bytesAt e.1.1 e.1.2).1)

/-- A page that a command must have at once, and that its TLB lacks, takes a walk that reads an entry in a line that another copy command owns:
the command waits (R188). Those are the pages that its destination units still reach, where `dst` says so, and at its issue, which `src` says,
those of the source that its checks ask for (R153, R193). -/
def State.pagesHeld (s : State) (c : Cmd) (dst src : Bool) : Bool :=
  let fmt := (s.launch c.launch).fmt
  let o := { s with owners := s.owners.filter (fun o => o.cid != c.cid) }
  let n := c.units fmt
  !o.owners.isEmpty && ((if dst then (upTo c.prog (n - c.prog)).flatMap (c.destBytes fmt) else [])
      ++ (if src && (c.lay != 0 || (c.hasBlock && pDEC c.pblk)) then c.sourceEnds fmt else [])).any (fun a =>
    (match s.engPlace (some c.via) c.ctx a .read with | .error e => e.1 = cWalk | .ok _ => false) && o.walkHeld c.ctx (a % 2 ^ 60))

/-- The source bytes that unit k reads, with the scales that re-blocking reads. -/
def Cmd.unitSources (fmt : List (BitVec 128)) (c : Cmd) (k : Nat) : List Nat :=
  let a := tileOf fmt c.ha
  (c.unit fmt k).flatMap (fun e =>
    match e.2 with
    | some q => (a.bytesAt q.1 q.2).1 ++ (if c.lay = 2 then (a.scaleAt q.1 q.2).toList else [])
    | none => [])

/-- The reads of source bytes reach the homes of those in memory that have not been read early, and go to the targets of those in system space
(R168, R187, R301, R303). -/
def State.askTargets (s : State) (c : Cmd) (as : List Nat) : State :=
  let t := tileOf (s.launch c.launch).fmt c.ha
  let ps := as.map (fun a => (a, s.copyPlace c false t a .read))
  let ks := ps.filterMap (fun p => match p.2 with | .ok (.mem k _) => if (find? p.1 c.early).isNone then some k else none | _ => none)
  let pas := ps.filterMap (fun p => match p.2 with | .ok (.sys pa) => some pa | _ => none)
  let s := s.noteOther ks
  (accessRuns (pas.eraseDups.map Place.sys)).foldl (fun s r =>
    match r with
    | .sys pa :: _ => (s.send c.ctx pa (.read r.length)).getD s
    | _ => s) s

/-! ## Ownership (R188) -/

/-- Keys of the lines that unit k writes in global memory; bytes whose translation fails own nothing. -/
def State.unitLines (s : State) (c : Cmd) (k : Nat) : List Nat :=
  let as := (c.destBytes (s.launch c.launch).fmt k).map (· / 64 * 64)
  (as.eraseDups.filterMap (fun a =>
    match s.engNow c a .write with
    | .ok (.mem key _) => some (lineOf key)
    | _ => none)).eraseDups

/-- Lines of the units from k on. -/
def State.linesFrom (s : State) (c : Cmd) (k : Nat) : List Nat :=
  let n := c.units (s.launch c.launch).fmt
  ((upTo k (n - k)).flatMap (s.unitLines c)).eraseDups

/-- Requests ownership of lines that a command has not requested. -/
def State.ownLines (s : State) (c : Cmd) (ls : List Nat) : State :=
  { s with owners := s.owners ++
      (ls.filter (fun l => !s.owners.any (fun o => o.line = l && o.cid = c.cid))).map (fun l => ⟨l, c.cid, false⟩) }

/-- Requests ownership of every destination line still to be written (R188, R195). -/
def State.requestLines (s : State) (c : Cmd) : State := s.ownLines c (s.linesFrom c c.prog)

/-- OWNERSHIP_GRANT: the first request for a line is granted while no other command owns it (R188). -/
def execOwnershipGrant (line : Nat) (s : State) : Out :=
  match s.owners.find? (fun o => o.line = line) with
  | none => .next s
  | some o =>
    .next { s with owners := s.owners.map (fun p => if p.line = line && p.cid = o.cid then { p with granted := true } else p) }

/-- The lines of a unit are granted to its command. -/
def State.unitGranted (s : State) (c : Cmd) (k : Nat) : Bool :=
  (s.unitLines c k).all (fun l => s.owners.any (fun o => o.line = l && o.cid = c.cid && o.granted))

/-- Releases the lines that no later unit of the command writes (R188). -/
def State.releaseLines (s : State) (c : Cmd) (k : Nat) : State :=
  let left := s.linesFrom c (k + 1)
  { s with owners := s.owners.filter (fun o => o.cid != c.cid || left.contains o.line) }

/-! ## Issue -/

/-- Reads the parameter block, 64 bytes in one access (R184): its bits or its fault, or `none` while it must wait. -/
def State.readBlock (s : State) (a : Nat) : Option (Except DFault (BitVec 512)) × State :=
  let flt := fun (f : Sub) => some (Except.error (DFault.of f 0 0 [] false))
  if a = 0 then (some (.ok 0), s)
  else if a % 64 != 0 then (flt (fEngine 5), s)
  else
    match s.engPlace (some s.via) s.cur.ctx a .read with
    | .error f => if f.1 = cWalk then (none, s.missed (w64 a)) else (flt f, s)
    | .ok (.mem k _) =>
      let ks := keysFrom k 64
      if !s.unowned ks then (none, s.lose)
      else if s.poisoned ks then (some (.error { DFault.of (0x0D, 1) 0 0 [] false with addr := w64 a }), s)
      else (some (.ok (BitVec.ofNat 512 (s.natAs s.cur.ctx k 64))), s.noteOther ks)
    | .ok (.sys pa) =>
      match (s.keep [a]).sysAsk pa pa (.read 64) with
      | (none, s) => (none, s)
      | (some .error, s) => (flt (fEngine 8), s.sysEnd)
      | (some (.ok v), s) => (some (.ok v), s.sysEnd)

/-- A global byte lies in host memory (R301). -/
def State.inHost (s : State) (c : Cmd) (a : Nat) : Bool :=
  match s.engNow c a .read with
  | .ok (.sys pa) => nbits pa 50 1 = 0
  | _ => false

/-- A global byte lies in system space (R144). -/
def State.inSystem (s : State) (c : Cmd) (a : Nat) : Bool :=
  match s.engNow c a .read with
  | .ok (.sys _) => true
  | _ => false

/-- The uses of DEC that R193 permits. -/
def State.decOk (s : State) (c : Cmd) (a : Tile) : Bool :=
  let b := c.pblk
  c.copyKind = .cin && eEF a.entry = 0 && !hScr a.h && s.inHost c (hAddr a.h) && s.inHost c (hAddr a.h + a.spanLen - 1)
    && hAX a.h = 0 && hPitch a.h = hCols a.h && hRows a.h * hCols a.h ≤ 65536
    && pROW0 b = 0 && pCOL0 b = 0 && hRows a.h ≤ pNROWS b && hCols a.h ≤ pNCOLS b && pLAY b = 0 && c.key.isSome

/-- The fields of the parameter block (R184, R185, R193, R194). -/
def State.blockFields (s : State) (c : Cmd) (a : Tile) : Bool :=
  let b := c.pblk
  !c.hasBlock || (pBits b 352 32 = 0 && pBits b 212 44 = 0 && (pDEC b || (pBits b 384 128 = 0 && pBits b 256 96 = 0))
    && pXID b != 0xFFFF && (pHANDLER b).toNat % 8 = 0 && (!pDEC b || s.decOk c a)
    && (!c.copyKind.listed || pBits b 64 128 = 0))

/-- The list of GATH and SCAT lies within its limits (R190). -/
def listOk (t : Tile) : Bool := hScr t.h && eEF t.entry = 11 && hAX t.h = 0 && hRows t.h = 1 && hCols t.h ≤ 32

/-- Spaces and shapes (R183, R186, R190, R191). -/
def shapesOk (c : Cmd) (d a b : Tile) : Bool :=
  match c.copyKind with
  | .gath => hScr d.h && !hScr a.h && listOk b && d.lines = hCols b.h && d.perLine = hCols a.h
  | .scat => !hScr d.h && hScr a.h && listOk b && a.lines = hCols b.h && a.perLine = hCols d.h
  | k =>
    let sh := if c.lay = 1 then (hCols a.h, hRows a.h) else (hRows a.h, hCols a.h)
    (match k with
      | .cin => hScr d.h && !hScr a.h
      | .cout => !hScr d.h && hScr a.h
      | _ => hScr d.h && hScr a.h)
      && hRows d.h = sh.1 && hCols d.h = sh.2

/-- The element formats of CPY tiles agree, and a re-blocked destination has its entry (R186). R327 names no step for the second; the model
tests it with the first, in step 5 (DESIGN CHOICE, log 63). -/
def formatsOk (c : Cmd) (d a : Tile) : Bool :=
  c.copyKind.listed || (eEF d.entry = eEF a.entry
    && (c.lay != 2 || (eSCF d.entry = 1 && eBLK d.entry = 5 && eAX d.entry != eAX a.entry)))

/-- A global byte lies outside HBM: in system space or in the capability space (R144, R151, R153). -/
def State.outsideHbm (s : State) (c : Cmd) (a : Nat) : Bool := capVa ≤ a % 2 ^ 60 || s.inSystem c a

/-- The layout bits may be used (R153, R186): what the copy reads of every line of the source lies in HBM. A page that does not translate
faults as the copy runs. -/
def State.layoutOk (s : State) (c : Cmd) (a : Tile) : Bool :=
  c.lay = 0 || (c.lay != 3 && !c.copyKind.listed && !hScr a.h
    && (c.sourceEnds s.curLaunch.fmt).all (fun e => !s.outsideHbm c e)
    && a.lines * a.lineLen ≤ 2 ^ 18
    && (c.lay != 2 || (1 ≤ eEF a.entry && eEF a.entry ≤ 7 && eSCF a.entry = 1 && eBLK a.entry = 5
      && hRows a.h % 32 = 0 && hCols a.h % 32 = 0)))

/-- The target of CPY.XC (R196): a cluster of the context with an allocation of the launch around the span. -/
def State.targetOk (s : State) (c : Cmd) (d : Tile) : Bool :=
  c.target < 96 && (s.ctx c.ctx).clset.getLsbD c.target
    && s.groups.any (fun g => g.launch = c.launch && g.cluster = c.target && g.gran != 0 && !g.yielded
      && g.off ≤ hAddr d.h && hAddr d.h + d.spanLen ≤ g.off + g.gran * 4096)

/-- The deferred checks of a copy in the order of R327; `blk` is the fault of the block's read. The destination of a CPY.XC is tested by R196
alone, whatever lies outside the target's scratchpad being a copy fault, where R175 with R327 tests every scratch span (DESIGN CHOICE,
log 64). -/
def State.copyChecks (s : State) (c : Cmd) (blk : Option DFault) : Option DFault :=
  let fmt := s.curLaunch.fmt
  let d := tileOf fmt c.hd
  let a := tileOf fmt c.ha
  let b := tileOf fmt c.hb
  let xc := c.copyKind = .cxc
  let all := if c.copyKind.listed then [d, a, b] else [d, a]
  let spans := if xc then [a] else all
  let hs := [c.hd, c.ha, c.hb]
  let out := fun (f : Sub) => DFault.of f 0 0 hs (f.1 = 0x0A)
  match firstFault [need (all.all Tile.fieldsOk) (fEngine 1), need (spans.all s.spanIn) (fEngine 2)], blk with
  | some f, _ => some (out f)
  | none, some f => some { f with hnd := hs }
  | none, none =>
    (firstFault ([need (s.blockFields c a) (fCopy 4), need (shapesOk c d a b) (fCopy 2), need (formatsOk c d a) (fCopy 2),
        need (s.layoutOk c a) (fCopy 1)] ++ (if c.lay = 2 then s.scaleChecks d else [])
        ++ [need (!xc || s.targetOk c d) (fCopy 6)])).map out

/-- The mailbox entries of a strand, posted and reserved (R192). -/
def Strand.mailUse (t : Strand) : Nat := t.mbox.length + t.mboxRes

/-- The mailbox entries taken in the core of the strand (R192). -/
def State.mailTaken (s : State) : Nat :=
  ((s.allStrands.filter (fun t => coreOf t.id = coreOf s.cur.id)).map Strand.mailUse).sum

/-- A list that the command captures at its issue. -/
def State.listRead (s : State) (t : Tile) : Bool := listOk t && s.spanIn t

/-- The indices of a list (R190). -/
def State.readList (s : State) (t : Tile) : List (BitVec 32) :=
  if s.listRead t then
    (List.range (hCols t.h)).map (fun p => BitVec.ofNat 32 (s.codeAt (clusterOf s.cur.id) t 0 p))
  else []

/-- The status mask: bit j set where index j lies outside the tensor (R190, R191). -/
def statusMask (t : Tile) (is : List (BitVec 32)) : BitVec 32 :=
  BitVec.ofNat 32 (((is.zipIdx).map (fun (p : BitVec 32 × Nat) => if indexIn t p.1 then 0 else 2 ^ p.2)).sum)

/-- The deferred machine check of the read at issue of a list that is bad (R190, R292). -/
def State.listMark (s : State) (t : Tile) (hs : List Handle) : Option DFault :=
  (s.badRead (if s.listRead t then rectHold (clusterOf s.cur.id) false t t.full else [])).map (fun a => badFault a 0 0 hs)

/-- Issues a copy command: it observes the strand's earlier stores, then its tags are checked (R176, R181, R183, R187, R192). A tag fault comes
before the waits for a full queue and for a held list, and those before the mailbox fault: R181 and R187 make both at issue and do not order
them (DESIGN CHOICE, log 64). -/
def State.issueCopy (s : State) (i : Instr) (hd ha : HReg) (hb : Handle) (target : Nat) (xb : XReg) : State :=
  let fmt := s.curLaunch.fmt
  let vd := s.rdH hd
  let va := s.rdH ha
  let xs := s.rd xb
  let c := { s.mkCmd s.nextId .copy i vd va hb 0 with xs := xs, target := target }
  let read := match c.copyKind with
    | .cin => []
    | .cout | .cxc => [tileOf fmt va]
    | .gath => [tileOf fmt hb]
    | .scat => [tileOf fmt va, tileOf fmt hb]
  let list := tileOf fmt hb
  if !s.sendReady then s.lose
  else
  match s.tagFaults read with
  | some n => s.fault 3 n 0
  | none =>
    if 16 ≤ s.outstanding .copy || 32 ≤ s.queued .copy (clusterOf s.cur.id)
        || (c.copyKind.listed && s.listRead list && s.readHeld (hAddr hb) list.spanLen) then s.lose
    else
      match s.readBlock (addr60 xs) with
      | (none, s) => s
      | (some blk, s1) =>
        let pblk := match blk with | .ok b => b | .error _ => 0
        let mb := pMB pblk
        let is := s.readList list
        let tensor := tileOf fmt (match c.copyKind with | .gath => va | _ => vd)
        let c := { c with
          pblk := pblk
          mb := mb
          idxs := is
          mask := statusMask tensor is
          key := if pDEC pblk then (s.ctx c.ctx).impKey else none }
        let chk := (s1.copyChecks c (match blk with | .ok _ => none | .error f => some f)).or
          (if c.copyKind.listed then s1.listMark list [vd, va, hb] else none)
        if mb && 16 ≤ s1.cur.mailUse then s1.raise { s1.precise 0x0A 5 0 with pblk := pblk }
        else if (mb && 16 ≤ s1.mailTaken) || s1.pagesHeld c chk.isNone true then s1.lose
        else
          let (cid, s) := s1.fresh
          let c := { c with cid := cid }
          let s := { s with cur := { s.cur with mboxRes := s.cur.mboxRes + (if mb then 1 else 0) } }
          let s := s.joinQueue c chk 0 0
          if chk.isSome then s else s.requestLines c

/-- CPY_IN (R183). -/
def execCpyIn (hd ha : HReg) (la : La) (xb : XReg) (s : State) : Out :=
  .next (s.issueCopy (.cpyIn hd ha la xb) hd ha 0 (clusterOf s.cur.id) xb)

/-- CPY_OUT (R183). -/
def execCpyOut (hd ha : HReg) (la : La) (xb : XReg) (s : State) : Out :=
  .next (s.issueCopy (.cpyOut hd ha la xb) hd ha 0 (clusterOf s.cur.id) xb)

/-- CPY_XC: the target is X[XA]<6:0> (R183). -/
def execCpyXc (hd ha : HReg) (la : La) (xa xb : XReg) (s : State) : Out :=
  .next (s.issueCopy (.cpyXc hd ha la xa xb) hd ha 0 ((s.rd xa).toNat % 128) xb)

/-- GATH (R183, R190). -/
def execGath (hd ha hb : HReg) (la : La) (xb : XReg) (s : State) : Out :=
  .next (s.issueCopy (.gath hd ha hb la xb) hd ha (s.rdH hb) (clusterOf s.cur.id) xb)

/-- SCAT (R183, R191). -/
def execScat (hd ha hb : HReg) (la : La) (xb : XReg) (s : State) : Out :=
  .next (s.issueCopy (.scat hd ha hb la xb) hd ha (s.rdH hb) (clusterOf s.cur.id) xb)

/-! ## Messages (R187, R193) -/

/-- The granules of the destination take a tag (R180, R189, R193). -/
def State.tagDest (s : State) (c : Cmd) (tag : BitVec 16) : State :=
  let t := tileOf (s.launch c.launch).fmt c.hd
  if !hScr c.hd then s
  else
    let k := s.cluster c.target
    s.setCluster c.target { k with tags := t.granules.foldl (fun m g => bind g tag m) k.tags }

/-- The writes that elements would have made, those of a source that does not answer with free codes (R189, R302). -/
def State.newWrites (s : State) (c : Cmd) (es : List CopyElem) : State × List CopyWrite :=
  let fmt := (s.launch c.launch).fmt
  es.foldl (fun (x : State × List CopyWrite) e =>
    let (w, s) := x.1.freeWord
    match s.planMoves fmt c [e] (leBytes 8 w.toNat) with
    | .ok (ws, _) => (s, x.2 ++ ws)
    | .error _ => (s, x.2)) (s, [])

/-- The state in which every page of a copy's tiles has been walked, but for walks that an owned line holds (R188). -/
def State.walkAll (s : State) (c : Cmd) : State :=
  let fmt := (s.launch c.launch).fmt
  let as := ((tileOf fmt c.hd).lineEnds ++ (tileOf fmt c.ha).lineEnds).map (fun a => a % 2 ^ 60 / 2 ^ 16 * 2 ^ 16)
  let ls := (as.eraseDups.filter (fun a => !s.walkHeld c.ctx a)).filterMap (fun a =>
    match s.walk c.ctx a with | .ok l => some l | .error _ => none)
  let k := s.cluster (c.core / 8)
  s.setCluster (c.core / 8) { k with tlb := k.tlb ++ ls }

/-- The writes that re-blocking elements of one block would have made: where a source does not answer, with free codes under a free scale
(R153, R189). -/
def State.newBlock (s : State) (c : Cmd) (es : List CopyElem) : State × List CopyWrite :=
  let fmt := (s.launch c.launch).fmt
  let d := tileOf fmt c.hd
  match es with
  | [] => (s, [])
  | (q, _) :: _ =>
    let (w, s) := s.freeWord
    let (frees, s) := es.foldl (fun (x : List Nat × State) _ => let (w, s) := x.2.freeWord; (x.1 ++ [w.toNat], s)) ([], s)
    let (x, codes) := match s.copyValues c (tileOf fmt c.ha) es (frees.flatMap (leBytes 8)) with
      | .ok (vs, _) => reblock (eEF d.entry) vs
      | .error _ => (w.toNat % 256, frees)
    let scale := match s.copyPlaces c d ((d.scaleAt q.1 q.2).toList) with
      | .ok ps => [(⟨ps, 0, 0, 8, x⟩ : CopyWrite)]
      | .error _ => []
    (s, scale ++ (es.zip codes).filterMap (fun p => (s.copyWrite c d p.1.1.1 p.1.1.2 p.2).toOption))

/-- The writes that a faulting copy may still have made, element by element. -/
def State.lateWrites (s : State) (c : Cmd) : State × List CopyWrite :=
  let fmt := (s.launch c.launch).fmt
  (upTo c.prog (c.units fmt - c.prog)).foldl (fun (x : State × List CopyWrite) k =>
    let es := c.unit fmt k
    if c.lay = 2 then
      (lineBlocks (tileOf fmt c.hd)).foldl (fun (y : State × List CopyWrite) b =>
        let (s, ws) := y.1.newBlock c (inBlock es b)
        (s, y.2 ++ ws)) x
    else
      let (s, ws) := x.1.newWrites c es
      (s, x.2 ++ ws)) (s, [])

/-- Bytes of a faulting copy at or after its progress count: any mixture of old and new, each byte by a free value (R189). -/
def State.mixture (s : State) (c : Cmd) : State :=
  let (s', ws) := (s.walkAll c).lateWrites c
  (ws.flatMap (fun w => w.cut 0 (w.at_.map (fun p => [p])))).foldl (fun s w =>
    let (b, s) := s.freeWord
    if b.getLsbD 0 then s.doPart c.ctx w else s) { s with free := s'.free }

/-- A copy meets a fault as it runs (R189, R196). -/
def State.copyFault (s : State) (c : Cmd) (f : Flt) : State :=
  let df := DFault.of (f.1, f.2.1) (if c.copyKind.listed then c.prog else 0) c.prog [c.hd, c.ha, c.hb] (f.1 = 0x0A)
  s.faultCmd c { df with addr := f.2.2 }

/-- The copy decrypts (R193). -/
def Cmd.decrypts (c : Cmd) : Bool := c.hasBlock && pDEC c.pblk

/-- The source bytes that a copy's next message reads: those of its next unit, or the whole source of a decrypting copy (R193). -/
def Cmd.nextSources (fmt : List (BitVec 128)) (c : Cmd) : List Nat :=
  let a := tileOf fmt c.ha
  if c.decrypts then (upTo (hAddr a.h) (a.lines * a.perLine)).map (· % 2 ^ 60) else c.unitSources fmt c.prog

/-- The message of a decrypting copy: its bytes, or none where the tag fails (R193). -/
def State.plainText (s : State) (c : Cmd) (ext : List Byte) : Except Flt (Option (List Byte)) :=
  let fmt := (s.launch c.launch).fmt
  match s.copyRead c (tileOf fmt c.ha) (c.nextSources fmt) ext with
  | .error f => .error f
  | .ok (bs, _) => .ok (Config.gcmOpen (c.key.getD 0) (c.pblk.extractLsb' 256 96) (c.pblk.extractLsb' 384 128) bs)

/-- What the next message of a copy writes: the writes of a unit, or the bytes of a decrypted tile. -/
inductive CopyPlan where
  | writes (ws : List CopyWrite)
  | tile (bs : List Byte)
  /-- The tag of a decrypting copy fails. -/
  | forged
deriving DecidableEq, Repr

/-- The plan of a copy's next message, or its fault. A write to system space is acknowledged by a further byte of `ext`. -/
def State.copyPlan (s : State) (c : Cmd) (ext : List Byte) : Except Flt CopyPlan :=
  if c.decrypts then
    match s.plainText c ext with
    | .error f => .error f
    | .ok none => .ok .forged
    | .ok (some bs) => .ok (.tile bs)
  else
    match s.planUnit c c.prog ext with
    | .error f => .error f
    | .ok (ws, rest) => if ws.any (fun w => anySys w.at_) && rest = [] then .error (0x0B, 8, 0) else .ok (.writes ws)

/-- The bits of memory that a write takes. -/
def CopyWrite.bits (w : CopyWrite) : List (Nat × Byte) :=
  ((w.at_.zipIdx).filterMap (fun p => match p.1 with
    | .mem k _ => some (k, BitVec.ofNat 8 ((2 ^ w.len - 1) * 2 ^ w.off / 2 ^ (8 * p.2)))
    | .sys _ => none)).filter (fun q => q.2 != 0)

/-- The bits that the next message of a copy writes in scratch. -/
def Cmd.copyBits (fmt : List (BitVec 128)) (c : Cmd) : List (Nat × Byte) :=
  let d := tileOf fmt c.hd
  if !hScr c.hd then []
  else if c.decrypts then (List.range d.lines).flatMap (d.lineBits c.target)
  else (c.unit fmt c.prog).flatMap (fun e => d.elemBits c.target e.1.1 e.1.2
    ++ (if c.lay = 2 then (d.scaleAt e.1.1 e.1.2).toList.map (fun a => (tileKey c.target a, 0xFF)) else []))

/-- Carries out the writes of a plan; words of which it writes every bit are good again (R292). -/
def State.doPlan (s : State) (c : Cmd) : CopyPlan → State
  | .writes ws => (ws.foldl (fun s w => s.doWrite c.ctx w) s).healUnit (ws.flatMap CopyWrite.bits)
  | .tile bs =>
    let fmt := (s.launch c.launch).fmt
    let a := tileOf fmt c.ha
    let d := tileOf fmt c.hd
    ((List.range (a.lines * a.perLine)).foldl (fun (s : State) j =>
      let (l, p) := d.lineOf (j / hCols a.h) (j % hCols a.h)
      s.putCode c.target d l p (bs.getD j 0).toNat) s).healUnit (c.copyBits fmt)
  | .forged => s

/-- A copy's unit is written: its lines are released and it goes on to the next. -/
def State.unitDone (s : State) (c : Cmd) : State :=
  let n := if c.decrypts then c.units (s.launch c.launch).fmt else c.prog + 1
  (s.releaseLines c c.prog).setCmd { c with prog := n, walkFault := none, late := none }

/-- The copy carries out its next message: a fault, a wait for a walk or for an owner of a line it reads, or the writes. -/
def State.copyUnit (s : State) (c : Cmd) (ext : List Byte) : State :=
  let asked := s.askTargets c (c.nextSources (s.launch c.launch).fmt)
  match s.copyPlan c ext with
  | .error f =>
    if f.1 = cWalk then (if f.2.1 = 0 then s.cmdMissed c f.2.2.toNat else s)
    else if c.decrypts then asked.copyFault c f
    else (asked.mixture c).copyFault c f
  | .ok .forged => (asked.tagDest c 0xFFFF).copyFault c (0x0A, 3, 0)
  | .ok p => (asked.doPlan c p).unitDone c

/-- A decrypting copy writes its tile at once, all others unit by unit; the next writes wait for the holds of earlier commands (R182,
R193). -/
def State.copyClear (s : State) (c : Cmd) : Bool :=
  if c.decrypts then s.holdsClear c (cmdHolds (s.launch c.launch).fmt { c with started := true }) else s.unitClear c

/-- A copy has a unit to carry out, and no earlier command's hold and no held walk bars it (R182, R188). -/
def State.copyNext (s : State) (c : Cmd) : Bool :=
  let fmt := (s.launch c.launch).fmt
  c.engine = .copy && !c.saved && c.dfault.isNone && c.prog < c.units fmt && s.copyClear c && !s.pagesHeld c true false

/-- What the next message of a copy writes in memory, where it may carry it out, every line being granted. -/
def State.copyWrites (s : State) (c : Cmd) (ext : List Byte) : Option State :=
  if s.copyNext c && s.unitGranted c c.prog then
    match s.copyPlan c ext with
    | .error _ | .ok .forged => none
    | .ok p => some ((s.askTargets c (c.nextSources (s.launch c.launch).fmt)).doPlan c p)
  else none

/-- DECANTER_MESSAGE: a decanter carries out the next unit of copy `cid`, or what is left of it: the next destination line or list position.
`ext` holds the bytes that system-space targets answer with, and one further byte as the acknowledgement of writes to them (R187, R302). A
line that a changed translation adds is requested first (R150, R188). A CPY.XC that runs goes on writing the scratchpad of its target,
whatever becomes of the allocation there: R187 tests it at issue alone (DESIGN CHOICE, log 63). -/
def execDecanterMessage (cid : Nat) (ext : List Byte) (s : State) : Out :=
  match s.cmd? cid with
  | none => .next s
  | some c =>
    if !s.copyNext c then .next s
    else if !s.unitGranted c c.prog then .next (s.ownLines c (s.unitLines c c.prog))
    else if c.late.isSome then .next ((s.flush c).unitDone c)
    else
      let c := { c with started := true }
      .next ((s.setCmd c).copyUnit c ext)

/-! ## Completion (R189, R192, R194) -/

/-- The mailbox entry of a copy (R192). The status mask of GATH and SCAT takes bits 31:0 (log 15). -/
def mailEntry (fmt : List (BitVec 128)) (c : Cmd) : Word :=
  let xid := (pXID c.pblk).toNat * 2 ^ 48
  if c.copyKind.listed then w64 (xid + c.mask.toNat)
  else
    let (r0, r1, c0, c1) := c.box fmt
    if r1 ≤ r0 || c1 ≤ c0 then w64 (xid + 0xFFF * 2 ^ 36 + 0xFFF * 2 ^ 24)
    else w64 (xid + r0 * 2 ^ 36 + c0 * 2 ^ 24 + (r1 - 1) * 2 ^ 12 + (c1 - 1))

/-- What the strand receives at a copy's completion: the mailbox entry, and the completion interrupt held for it (R189). -/
def Strand.copyDone (t : Strand) (c : Cmd) (e : Word) : Strand :=
  let t := if c.mb then { t with mbox := t.mbox ++ [e], mboxRes := t.mboxRes - 1 } else t
  if c.hasBlock && pHANDLER c.pblk != 0 then { t with heldInts := t.heldInts ++ [(pXID c.pblk, pHANDLER c.pblk)] } else t

/-- COPY_COMPLETE: every write of copy `cid` is performed; mailbox, tags, interrupt follow, and its holds end (R189). -/
def execCopyComplete (cid : Nat) (s : State) : Out :=
  match s.cmd? cid with
  | none => .next s
  | some c =>
    let fmt := (s.launch c.launch).fmt
    if c.engine != .copy || c.saved || c.dfault.isSome || c.prog < c.units fmt then .next s
    else
      let s := (s.onIssuer c (fun t => t.copyDone c (mailEntry fmt c))).tagDest c (hETag c.hd)
      .next (s.removeCmds (fun d => d.cid = cid))

end Sys2Proof.Machine
end

