-- ==== Sys2Proof/Machine/Matrix.lean ====
section
/-! DEFINITION. The matrix unit (spec/13): checks and issue of MMA and MMZ, the repeat buffer, the queue, the arithmetic of one
iteration and the gust permits. -/

namespace Sys2Proof.Machine

open Sys2Proof

/-! ## Formats and shapes (R197 to R199) -/

/-- What a format pair makes of a command: K elements, the window of the float path or none for the integer path, and whether the elements
are integers. -/
structure Pair where
  kc  : Nat
  win : Option Nat
  int : Bool
deriving DecidableEq, Repr

/-- The pair of two format entries (R197). -/
def pairOf (ea eb : Nat) : Option Pair :=
  let a := eEF ea
  let b := eEF eb
  let plain := eSCF ea = 0 && eSCF eb = 0
  let small := fun e => 2 ≤ e && e ≤ 5
  if a = 1 && b = 1 then some ⟨128, some 25, false⟩
  else if a = 6 && b = 6 then some ⟨128, if plain then none else some 25, true⟩
  else if small a && small b then some ⟨64, some 25, false⟩
  else if a = 7 && b = 7 then some ⟨64, if plain then none else some 25, true⟩
  else if a = b && (a = 8 || a = 9) then some ⟨32, some 34, false⟩
  else if a = 10 && b = 10 then some ⟨16, some 50, false⟩
  else none

/-- Spaces, axes and the extents that do not depend on the format pair (R198). -/
def matrixShape (d a b : Tile) : Bool :=
  hScr d.h && hScr a.h && hScr b.h && hAX a.h = 0 && hAX b.h = 1 && hRows a.h = 16 && hCols b.h = 16 && hRows d.h = 16
    && hCols d.h = 16

/-- The scale layout of an operand (R199). -/
def matrixScale (t : Tile) : Bool :=
  eSCF t.entry = 0 || (eSCF t.entry = 1 && eAX t.entry = hAX t.h && t.pitchBlocks)

/-- The handles of an iteration (R211): each as captured and, where its step is a whole number of bytes, as stepped. -/
structure Iter where
  d  : Handle
  a  : Handle
  b  : Handle
  d' : Option Handle
  a' : Option Handle
  b' : Option Handle
deriving DecidableEq, Repr

/-- Iteration j of a command. -/
def iterAt (fmt : List (BitVec 128)) (hd ha hb : Handle) (j : Nat) : Iter :=
  ⟨hd, ha, hb, stepHandle fmt hd j, stepHandle fmt ha j, stepHandle fmt hb j⟩

/-- The handles that could be stepped. -/
def Iter.steps (i : Iter) : List Handle := i.d'.toList ++ i.a'.toList ++ i.b'.toList

/-- The three handles of the fault record: stepped where they can be (R213, R274). -/
def Iter.handles (i : Iter) : List Handle := [i.d'.getD i.d, i.a'.getD i.a, i.b'.getD i.b]

/-- Every step is a whole number of bytes (R211). -/
def Iter.whole (i : Iter) : Bool := i.d'.isSome && i.a'.isSome && i.b'.isSome

/-- The formats and the scale layout of a command, which no step changes (steps 4 to 7 of R327). -/
def matrixFormats (d a b : Tile) : List (Option Sub) :=
  match pairOf a.entry b.entry with
  | none => [need (matrixShape d a b) (fEngine 6), some (fFormat 0x10)]
  | some p =>
    [need (matrixShape d a b && hCols a.h = p.kc && hRows b.h = p.kc) (fEngine 6),
      need (eEF d.entry = (if p.win.isSome then 10 else 11) && eSCF d.entry = 0) (fFormat 0x11),
      need (matrixScale a && matrixScale b) (fFormat 0x12)]

/-- The checks of one iteration in the order of R327 (R175, R197 to R199, R208, R211): those of places, for the handles whose step is a whole
number of bytes; then the step itself. -/
def State.matrixChecks (s : State) (fmt : List (BitVec 128)) (i : Iter) : Option Sub :=
  let t := tileOf fmt
  firstFault ([need ([t i.d, t i.a, t i.b].all Tile.fieldsOk) (fEngine 1), need ((i.steps.map t).all s.spanIn) (fEngine 2)]
    ++ matrixFormats (t i.d) (t i.a) (t i.b)
    ++ (i.a'.toList ++ i.b'.toList).flatMap (fun h => s.scaleChecks (t h))
    ++ [need i.whole (fFormat 0x13)]
    ++ (match i.d', i.a', i.b' with
      | some d, some a, some b => [need (!(spansMeet (t d) (t a) || spansMeet (t d) (t b))) (fEngine 7)]
      | _, _, _ => []))

/-- The iterations of a command. -/
def iterations (fmt : List (BitVec 128)) (hd ha hb : Handle) (n : Nat) : List Iter := (List.range n).map (iterAt fmt hd ha hb)

/-- The deferred fault of the first failing iteration (R206, R213, R327). R206 gives it a progress count of 0 and R274 the iteration; the
model writes the iteration, in PROG as in the element field (DESIGN CHOICE, log 63). -/
def State.iterationFault (s : State) (fmt : List (BitVec 128)) (its : List Iter) : Option DFault :=
  its.zipIdx.findSome? (fun (p : Iter × Nat) => (s.matrixChecks fmt p.1).map (fun f => DFault.of f p.2 p.2 p.1.handles false))

/-- The schedule fault of the iterations' handles: HA and HB, and HD of an MMA (R206). -/
def State.iterationTags (s : State) (fmt : List (BitVec 128)) (mmz : Bool) (its : List Iter) : Option Nat :=
  its.findSome? (fun i =>
    s.tagFaults (((if mmz then [] else i.d'.toList) ++ i.a'.toList ++ i.b'.toList).map (tileOf fmt)))

/-! ## Issue (R206, R207, R209, R211, R212) -/

/-- The strand runs a trap or completion handler (R212). -/
def Strand.inHandler (t : Strand) : Bool := t.inUi || t.estat.getLsbD 0

/-- Sets the repeat buffer. -/
def State.setRep (s : State) (r : Rep) : State := { s with cur := { s.cur with rep := r } }

/-- Matrix commands in the queue of a core (R209). -/
def State.matrixQueued (s : State) (core : Nat) : Nat :=
  (s.cmds.filter (fun c => c.engine = .matrix && c.core = core && !c.saved)).length

/-- A body joins the core's queue as one command (R209, R211). -/
def State.joinMatrix (s : State) (i : Instr) (n : Nat) (bs : List Body) : State :=
  let (cid, s) := s.fresh
  let b := bs.headD ⟨false, 0, 0, 0, 0, 0, 0, 0, 0, 0⟩
  s.addCmd { s.mkCmd cid .matrix i b.hd b.ha b.hb 0 with word := b.word, baddr := b.baddr, body := bs, iters := n }

/-- A captured command with a deferred fault discards its body (R212); open windows stay open (R73). -/
def State.discardBody (s : State) : State :=
  let ids := s.cur.rep.got.map (·.cid)
  { s with cur := { s.cur with
      rep := .disarmed
      pend := dropPending ids s.cur.pend } }

/-- Counts a captured command, whose body joins the queue when it is the last; without iterations nothing joins (R211). -/
def State.capture (s : State) (i : Instr) (b : Body) : State :=
  let r := s.cur.rep
  let got := r.got ++ [b]
  if got.length < r.k then s.setRep { r with got := got }
  else
    let s := s.setRep .disarmed
    if r.n = 0 then s else s.joinMatrix i r.n got

/-- MMA and MMZ: the strand's earlier stores are observed, then the tags of every iteration are checked (R200, R206, R211). -/
def State.issueMatrix (s : State) (i : Instr) (mmz : Bool) (hd ha hb : HReg) (la : La) (xa : XReg) : State :=
  let fmt := s.curLaunch.fmt
  let r := s.cur.rep
  let cap := r.armed && !s.cur.inHandler
  let n := if cap then r.n else 1
  let vd := s.rdH hd
  let va := s.rdH ha
  let vb := s.rdH hb
  let its := iterations fmt vd va vb n
  if n = 0 then
    if s.pendFull xa then s.lose
    else
      let (cid, s) := s.fresh
      let s := s.capture i ⟨mmz, vd, va, vb, xa.toNat, cid, s.cur.pc, s.bundle, s.now, coreOf s.cur.id⟩
      if xa = 0 then s else (s.wr xa 0).issueLong { s.mkPend xa la (.value 0) with landed := true }
  else if !s.sendReady then s.lose
  else
    match s.iterationTags fmt mmz its with
    | some k => s.fault 3 k 0
    | none =>
      let last := !cap || r.got.length + 1 = r.k
      if s.pendFull xa || (last && 16 ≤ s.matrixQueued (coreOf s.cur.id)) then s.lose
      else
        let (cid, s) := s.fresh
        match s.iterationFault fmt its with
        | some f => (if cap then s.discardBody else s).joinQueue (s.mkCmd cid .matrix i vd va vb xa) (some f) xa la
        | none =>
          let b : Body := ⟨mmz, vd, va, vb, xa.toNat, cid, s.cur.pc, s.bundle, s.now, coreOf s.cur.id⟩
          let s := s.pendCmd cid xa la
          if cap then s.capture i b else s.joinMatrix i 1 [b]

/-- MMA (R200). -/
def execMma (hd ha hb : HReg) (la : La) (xa : XReg) (s : State) : Out :=
  .next (s.issueMatrix (.mma hd ha hb la xa) false hd ha hb la xa)

/-- MMZ: the accumulator is not read (R201). -/
def execMmz (hd ha hb : HReg) (la : La) (xa : XReg) (s : State) : Out :=
  .next (s.issueMatrix (.mmz hd ha hb la xa) true hd ha hb la xa)

/-- Arms the repeat buffer (R211). -/
def State.arm (s : State) (n k : Nat) : State :=
  if 4096 < n || k = 0 || 8 < k then s.fault 7 0x14 0
  else if s.cur.rep.armed then s.fault 7 0x15 0
  else s.setRep ⟨true, n, k, []⟩

/-- REP (R211). -/
def execRep (_la : La) (xa : XReg) (s : State) : Out := .next (s.arm (s.rd xa).toNat 1)

/-- REPW (R211). -/
def execRepw (_la : La) (xa xb : XReg) (s : State) : Out := .next (s.arm (s.rd xa).toNat (s.rd xb).toNat)

/-! ## Arithmetic (R201 to R205) -/

/-- The canonical NaN of FP32. -/
def qnan32 : Nat := 0x7FC00000

/-- An infinity of FP32. -/
def inf32 (neg : Bool) : Nat := if neg then 0xFF800000 else 0x7F800000

/-- |n/d| in units of 2^k, toward zero. -/
def truncUnits (n d : Nat) (k : Int) : Nat := if 0 ≤ k then n / (d * 2 ^ k.toNat) else n * 2 ^ (-k).toNat / d

/-- The windowed sum S of finite products (R202). -/
def windowSum (w : Nat) (ps : List Val) : Val :=
  let f := ps.filterMap (fun v => match v with
    | .num s n d => if n = 0 then none else some (s, n, d)
    | _ => none)
  match f with
  | [] => .num (ps.all Val.sign) 0 1
  | (_, n, d) :: r =>
    let top := r.foldl (fun (m : Int) (q : Bool × Nat × Nat) => max m (floorLog2 q.2.1 q.2.2)) (floorLog2 n d)
    let k := top - w + 1
    let z : Int := (f.map (fun q => sgn q.1 (truncUnits q.2.1 q.2.2 k))).sum
    if z = 0 then .num false 0 1 else dyadic (decide (z < 0)) z.natAbs k

/-- A product of integers: there is no negative zero among them (R121, R205). -/
def Val.intZero : Val → Val
  | .num s n d => .num (s && n != 0) n d
  | v => v

/-- FloatAccumulate (R202, R203, R205): the FP32 code of one element, `int` where the elements are integers; `acc` is none for MMZ. -/
def floatRow (int : Bool) (w : Nat) (as bs : List Val) (acc : Option Val) : Nat :=
  let ps := (as.zip bs).map (fun p => let q := Val.mul p.1 p.2; if int then (q.1.intZero, q.2) else q)
  let vs := ps.map (·.1) ++ acc.toList
  if as.any Val.isNan || bs.any Val.isNan || (match acc with | some v => v.isNan | none => false) then qnan32
  else if ps.any (fun p => p.2 != 0) then qnan32
  else
    let infs := vs.filter Val.isInf
    match infs with
    | v :: r => if r.any (fun u => u.sign != v.sign) then qnan32 else inf32 v.sign
    | [] =>
      let sum := windowSum w (ps.map (·.1))
      (fp32.roundNE (match acc with | some v => (sum.add v).1 | none => sum)).1

/-- The integer of a code of the integer path. -/
def Val.toInt : Val → Int
  | .num s n d => sgn s (n / d)
  | _ => 0

/-- A signed sum clamped to INT32 (R204). -/
def clamp32 (z : Int) : Nat := modPow (max (-(2 ^ 31)) (min (2 ^ 31 - 1) z)) 32

/-- IntAccumulate (R204). -/
def intRow (as bs : List Val) (acc : Option Nat) : Nat :=
  let z : Int := ((as.zip bs).map (fun p => p.1.toInt * p.2.toInt)).sum
  clamp32 (z + (match acc with | some v => s32 v | none => 0))

/-- The values of one line of an operand. -/
def State.lineValues (s : State) (cl : Nat) (t : Tile) (l : Nat) : List Val :=
  (List.range t.perLine).map (fun p => s.valueAt cl t l p)

/-- One element of the accumulator (R201). -/
def State.matrixElem (s : State) (cl : Nat) (p : Pair) (mmz : Bool) (d : Tile) (as bs : List Val) (r c : Nat) : State :=
  let (l, q) := d.lineOf r c
  let old := s.codeAt cl d l q
  let v := match p.win with
    | some w => floatRow p.int w as bs (if mmz then none else some (fp32.decode old))
    | none => intRow as bs (if mmz then none else some old)
  s.putCode cl d l q v

/-- One iteration of one body command (R201). -/
def State.matrixIteration (s : State) (cl : Nat) (fmt : List (BitVec 128)) (b : Body) (j : Nat) : State :=
  match stepHandle fmt b.hd j, stepHandle fmt b.ha j, stepHandle fmt b.hb j with
  | some hd, some ha, some hb =>
    let d := tileOf fmt hd
    let a := tileOf fmt ha
    let t := tileOf fmt hb
    match pairOf a.entry t.entry with
    | none => s
    | some p =>
      let rows := (List.range 16).map (s.lineValues cl a)
      let cols := (List.range 16).map (s.lineValues cl t)
      (List.range 256).foldl (fun s e =>
        s.matrixElem cl p b.mmz d (rows.getD (e / 16) []) (cols.getD (e % 16) []) (e / 16) (e % 16)) s
  | _, _, _ => s

/-! ## The queue (R209, R210, R214) -/

/-- The matrix commands of a core that are neither saved nor faulted, in queue order. -/
def State.matrixQueue (s : State) (core : Nat) : List Cmd :=
  s.cmds.filter (fun c => c.engine = .matrix && c.core = core && !c.saved && c.dfault.isNone)

/-- MATRIX_COMMAND_START: the next command of a core's queue not yet started starts, with a permit, when its accesses may proceed
(R182, R209, R214, R216). -/
def execMatrixCommandStart (core : Nat) (s : State) : Out :=
  match nextOf s.unitClear ((s.matrixQueue core).filter (fun c => !c.started)) with
  | none => .next s
  | some c => if (s.cluster (core / 8)).permit then .next (s.setCmd { c with started := true }) else .next s

/-- The started command of a core that performs its next iteration: the oldest, where its accesses may proceed (R182, R210). -/
def State.matrixNext (s : State) (core : Nat) : Option Cmd := nextOf s.unitClear ((s.matrixQueue core).filter (fun c => c.started))

/-- The scratch bytes that iteration j of a body command reads (R201). -/
def Body.reads (fmt : List (BitVec 128)) (cl : Nat) (b : Body) (j : Nat) : List Hold :=
  let rd := fun (h : Handle) => let t := tileOf fmt ((stepHandle fmt h j).getD h); rectHold cl false t t.full ++ scaleHold cl false t t.full
  (if b.mmz then [] else rd b.hd) ++ rd b.ha ++ rd b.hb

/-- The bits that iteration j of a body command writes. -/
def Body.bits (fmt : List (BitVec 128)) (cl : Nat) (b : Body) (j : Nat) : List (Nat × Byte) :=
  let d := tileOf fmt ((stepHandle fmt b.hd j).getD b.hd)
  (List.range d.lines).flatMap (d.lineBits cl)

/-- The deferred fault of the next iteration of a matrix command, which reads a bad word (R292). -/
def State.matrixBad (s : State) (c : Cmd) : Option DFault :=
  let fmt := (s.launch c.launch).fmt
  let j := c.prog / c.body.length
  match c.body[c.prog % c.body.length]? with
  | some b => (s.badRead (b.reads fmt (c.core / 8) j)).map (fun a => badFault a j j (iterAt fmt b.hd b.ha b.hb j).handles)
  | none => none

/-- The bits that the next iteration of a matrix command writes. -/
def State.matrixBits (s : State) (c : Cmd) : List (Nat × Byte) :=
  match c.body[c.prog % c.body.length]? with
  | some b => b.bits (s.launch c.launch).fmt (c.core / 8) (c.prog / c.body.length)
  | none => []

/-- What the next iteration of a matrix command writes. -/
def State.matrixWrites (s : State) (c : Cmd) : State :=
  match c.body[c.prog % c.body.length]? with
  | some b => s.matrixIteration (c.core / 8) (s.launch c.launch).fmt b (c.prog / c.body.length)
  | none => s

/-- The iteration of a matrix command is done, the last of a body command landing its completion register, and the last of all ending it. -/
def State.matrixDone (s : State) (c : Cmd) (b : Body) : State :=
  let k := c.body.length
  let s := if c.prog / k + 1 = c.iters then s.landOn c b.cid (w64 c.iters) else s
  if c.prog + 1 = c.iters * k then s.removeCmds (fun d => d.cid = c.cid)
  else s.setCmd { c with prog := c.prog + 1, late := none }

/-- MATRIX_ITERATION_COMPLETE: the oldest started command of a core performs its next iteration, or what is left of it; the last iteration of
a body command lands its completion register (R182, R207, R210, R211, R268). One that reads a bad word takes a deferred machine check (R292). -/
def execMatrixIterationComplete (core : Nat) (s : State) : Out :=
  match s.matrixNext core with
  | none => .next s
  | some c =>
    match c.body[c.prog % c.body.length]?, s.matrixBad c with
    | none, _ => .next s
    | some b, bad =>
      if c.late.isSome then .next ((s.flush c).matrixDone c b)
      else
        match bad with
        | some f => .next (s.faultCmd c f)
        | none => .next (((s.matrixWrites c).healUnit (s.matrixBits c)).matrixDone c b)

/-! ## Gust permits (R216) -/

/-- Permits held on a die. -/
def State.permitsHeld (s : State) (die : Nat) : Nat :=
  (s.clusters.filter (fun p => dieOfCluster p.1 = die && p.2.permit)).length

/-- The matrix commands of a cluster. -/
def State.clusterMatrix (s : State) (cl : Nat) : List Cmd :=
  s.cmds.filter (fun c => c.engine = .matrix && c.core / 8 = cl && !c.saved && c.dfault.isNone)

/-- The first cycle from `since` on in which a free permit stands at a cluster of its die; it moves on by one cluster a cycle (R216). -/
def Permit.reaches (p : Permit) (cl since : Nat) : Nat :=
  let t := Nat.max p.cycle since
  let spot := (p.spot + (t - p.cycle)) % 24
  t + (cl % 24 + 24 - spot) % 24

/-- The cycle from which a cluster without a permit has waited for one: that in which the first of its commands that have not started joined
its queue; none where it does not wait. -/
def State.waitsFrom (s : State) (cl : Nat) : Option Nat :=
  if (s.cluster cl).permit then none
  else (((s.clusterMatrix cl).filter (fun c => !c.started)).map (·.since)).min?

/-- The next free permit that reaches a waiting cluster of a die, with the cluster and the cycle: the first to reach any of them. -/
def State.nextPermit (s : State) (die : Nat) : Option (Nat × Nat × Permit) :=
  let meets := (upTo (24 * die) 24).flatMap (fun c =>
    match s.waitsFrom c with
    | some t => (s.pkg.ring.filter (fun p => p.die = die)).map (fun p => (p.reaches c t, c, p))
    | none => [])
  meets.foldl (fun (o : Option (Nat × Nat × Permit)) m =>
    match o with
    | none => some m
    | some n => if m.1 < n.1 then some m else some n) none

/-- PERMIT_ACQUIRE: a cluster with a command to start and no permit takes the next free permit that reaches it, in the cycle in which it does.
A permit goes to the waiting cluster that it reaches first. -/
def execPermitAcquire (cluster : Nat) (s : State) : Out :=
  let c := s.cluster cluster
  let die := dieOfCluster cluster
  match s.nextPermit die with
  | none => .next s
  | some (t, cl, p) =>
    if cl = cluster && t ≤ s.cycle die && s.permitsHeld die < s.pkg.permits.getD die 0 then
      .next { s.setCluster cluster { c with permit := true } with pkg := { s.pkg with ring := s.pkg.ring.erase p } }
    else .next s

/-- Permits of a die, free and held. -/
def State.permitsOut (s : State) (die : Nat) : Nat := (s.pkg.ring.filter (fun p => p.die = die)).length + s.permitsHeld die

/-- PERMIT_RETURN: a cluster whose matrix units have been idle for 64 cycles returns its permit to the ring, which keeps it unless P has
fallen. -/
def execPermitReturn (cluster : Nat) (s : State) : Out :=
  let c := s.cluster cluster
  let die := dieOfCluster cluster
  if c.permit && (s.clusterMatrix cluster).isEmpty && c.idle + 64 ≤ s.cycle die then
    let ring := if s.permitsOut die ≤ s.pkg.permits.getD die 0 then s.pkg.ring ++ [⟨die, cluster % 24, s.cycle die⟩] else s.pkg.ring
    .next { s.setCluster cluster { c with permit := false } with pkg := { s.pkg with ring := ring } }
  else .next s

end Sys2Proof.Machine
end

