-- ==== Sys2Proof/Machine/Tile.lean ====
section
/-! DEFINITION. The tile ALU and the select unit (spec/15): operands, checks and issue, and the arithmetic of one unit of work. -/

namespace Sys2Proof.Machine

open Sys2Proof

/-! ## Operands (R218) -/

/-- The operand fields of a tile command. -/
structure TileArgs where
  hd : HReg
  ha : Option HReg
  hb : Option HReg
  la : La
  xa : XReg
  xb : Option XReg
  rm : Option Rm
deriving DecidableEq, Repr

/-- The operands of a tile command. -/
def tileArgs : Instr → TileArgs
  | .tadd f rm | .tsub f rm | .tmul f rm | .tfma f rm | .tmax f rm | .tmin f rm => ⟨f.hd, some f.ha, some f.hb, f.la, f.xa, none, some rm⟩
  | .texp hd ha la xa rm | .tlog hd ha la xa rm | .trcp hd ha la xa rm | .trsq hd ha la xa rm | .tsig hd ha la xa rm
  | .tcvt hd ha la xa rm => ⟨hd, some ha, none, la, xa, none, some rm⟩
  | .tcmp f _ | .tmsk f => ⟨f.hd, some f.ha, some f.hb, f.la, f.xa, none, none⟩
  | .tfill hd la xa xb => ⟨hd, none, none, la, xa, some xb, none⟩
  | .tcpy hd ha la xa | .ttrn hd ha la xa => ⟨hd, some ha, none, la, xa, none, none⟩
  | .tred hd ha la xa rm _ => ⟨hd, some ha, none, la, xa, none, some rm⟩
  | .tselk f xb _ => ⟨f.hd, some f.ha, some f.hb, f.la, f.xa, some xb, none⟩
  | .qst hd ha la xa rm _ => ⟨hd, some ha, none, la, xa, none, some rm⟩
  | _ => ⟨0, none, none, 0, 0, none, none⟩

/-- The families of tile commands that share their rules (R219). -/
inductive TileKind where
  /-- SUB 0 to 10. -/
  | arith
  | cmp | msk | fill | cpy | trn | red | selk | cvt
deriving DecidableEq, Repr

/-- The family of a command. -/
def tileKind : Instr → TileKind
  | .tcmp .. => .cmp
  | .tmsk .. => .msk
  | .tfill .. => .fill
  | .tcpy .. => .cpy
  | .ttrn .. => .trn
  | .tred .. => .red
  | .tselk .. => .selk
  | .tcvt .. => .cvt
  | _ => .arith

/-- The command reads the old HD and checks its tags (R221). -/
def readsDest : Instr → Bool
  | .tfma .. | .tmsk .. => true
  | _ => false

/-! ## Checks (R219, R220, R225 to R228) -/

/-- A source has the extents of the destination, or 1 (R219). -/
def broadcasts (d a : Tile) : Bool :=
  (hRows a.h = hRows d.h || hRows a.h = 1) && (hCols a.h = hCols d.h || hCols a.h = 1)

/-- Two handles have one shape. -/
def sameShape (d a : Tile) : Bool := hRows a.h = hRows d.h && hCols a.h = hCols d.h

/-- The shape rule of a command; `k` is the count of TSELK. -/
def tileShape (kd : TileKind) (k : Nat) (d a : Tile) (b : Option Tile) : Bool :=
  match kd with
  | .arith | .cmp | .msk => broadcasts d a && (match b with | some b => broadcasts d b | none => true)
  | .fill => true
  | .cpy | .cvt => sameShape d a
  | .trn => hRows d.h = hCols a.h && hCols d.h = hRows a.h
  | .red => if hAX a.h = 0 then hRows d.h = hRows a.h && hCols d.h = 1 else hRows d.h = 1 && hCols d.h = hCols a.h
  | .selk => hRows a.h ≤ 1024 && hRows d.h = k && hCols d.h = hCols a.h
      && (match b with | some b => hRows b.h = k && hCols b.h = hCols a.h | none => true)

/-- The source formats (format fault 0x20). -/
def tileSource (kd : TileKind) (a : Tile) (b : Option Tile) : Bool :=
  match kd with
  | .arith | .cmp => eEF a.entry != 0 && (match b with | some b => eEF b.entry != 0 | none => true)
  | .red | .cvt => eEF a.entry != 0
  | .selk => eEF a.entry != 0 && eSCF a.entry = 0
  | .msk | .fill | .cpy | .trn => true

/-- A byte or INT32 format: masks and comparisons. -/
def flagFormat (t : Tile) : Bool := eEF t.entry = 0 || eEF t.entry = 11

/-- The destination, mask and compare formats (format fault 0x21). -/
def tileDest (kd : TileKind) (d a : Tile) (b : Option Tile) : Bool :=
  match kd with
  | .arith | .red => eEF d.entry != 0 && eSCF d.entry != 1
  | .cvt => eEF d.entry != 0
  | .cmp => flagFormat d && eSCF d.entry = 0
  | .msk => eEF d.entry = eEF a.entry && (match b with | some b => flagFormat b | none => true)
  | .cpy | .trn => eEF d.entry = eEF a.entry
  | .fill => true
  | .selk => eEF d.entry = eEF a.entry && eSCF d.entry = 0 && (match b with | some b => eEF b.entry = 11 | none => true)

/-- The block layout of a TCVT destination (R226). -/
def cvtBlocks (d : Tile) : Bool :=
  eSCF d.entry != 1 || (eAX d.entry = hAX d.h && d.perLine % 2 ^ eBLK d.entry = 0 && d.pitchBlocks)

/-- Two handles denote exactly the same tile (R220). -/
def sameTile (d a : Tile) : Bool :=
  hBase a.h = hBase d.h && hPitch a.h = hPitch d.h && hAX a.h = hAX d.h && sameShape d a && a.entry = d.entry

/-- The overlap rule (R220). -/
def tileOverlapOk (kd : TileKind) (d a : Tile) (b : Option Tile) : Bool :=
  let ok := fun (t : Tile) => !spansMeet d t
  match kd with
  | .arith | .cmp | .msk | .cpy => (ok a || sameTile d a) && (match b with | some b => ok b || sameTile d b | none => true)
  | .fill => true
  | .trn | .red | .cvt => ok a
  | .selk => ok a && (match b with | some b => ok b && !spansMeet b a | none => true)

/-- Whether a command reads or writes scales (R219, R224, R225). -/
def usesScales : TileKind → Bool
  | .arith | .cmp | .red | .cvt => true
  | .msk | .fill | .cpy | .trn | .selk => false

/-- The deferred checks of a tile command in the order of R327. -/
def State.tileChecks (s : State) (kd : TileKind) (k : Nat) (d : Tile) (a b : Option Tile) : Option Sub :=
  let all := d :: (a.toList ++ b.toList)
  let a' := a.getD d
  let cl := clusterOf s.cur.id
  firstFault (s.handleChecks all ++
    [need (all.all (fun t => hScr t.h) && tileShape kd k d a' b) (fEngine 6),
      need (tileSource kd a' b) (fFormat 0x20),
      need (tileDest kd d a' b) (fFormat 0x21),
      need (kd != .cvt || cvtBlocks d) (fFormat 0x23)]
    ++ (if usesScales kd then
        s.scaleChecks d ++ [need (!s.tensorBad cl d) (fFormat 0x22)] ++ (a.toList ++ b.toList).flatMap s.scaleChecks
      else [])
    ++ [need (kd != .selk || (1 ≤ k && k ≤ 64 && k ≤ hRows a'.h)) (fFormat 0x24),
      need (tileOverlapOk kd d a' b) (fEngine 7)])

/-! ## Issue (R221, R222, R229) -/

/-- Elements that a command converts, for its draws (R229). -/
def tileDraws (kd : TileKind) (d a : Tile) : Nat :=
  match kd with
  | .red => a.lines
  | _ => hRows d.h * hCols d.h

/-- The mode of a command as its entry resolves it. -/
def modeOf (rm : Option Rm) (entry : Nat) : Nat :=
  match rm with
  | some r => rmCodeOf r entry
  | none => 0

/-- The tensor scale of a destination lies in a granule that an earlier command holds to write it: its read at issue waits (R182, R219). -/
def State.tensorHeld (s : State) (d : Tile) : Bool :=
  hScr d.h && eSCF d.entry = 2 && (match d.scaleAt 0 0 with | some a => s.readHeld (a % 2 ^ 22) 4 | none => false)

/-- The deferred machine check of the read at issue of a tensor scale that is bad (R219, R292). -/
def State.tensorMark (s : State) (d : Tile) (hs : List Handle) : Option DFault :=
  let cl := clusterOf s.cur.id
  (s.badRead (if eSCF d.entry = 2 then scaleHold cl false d d.full else [])).map (fun a => badFault a 0 0 hs)

/-- The tile queue, the strand's share of it or the strand's pending results are full: the issue waits (R74, R221). -/
def State.tileFull (s : State) (xa : XReg) : Bool :=
  8 ≤ s.outstanding .tile || 32 ≤ s.queued .tile (clusterOf s.cur.id) || s.pendFull xa

/-- Issues a command to the tile queue: `scaled` says that it divides by the tensor scale of its destination, `reads` are tag-checked after
the strand's earlier stores, `chk` is the first failing check, draws for `draws` elements are reserved whether or not it faults (R135). -/
def State.issueTileWith (s : State) (i : Instr) (scaled : Bool) (reads : List Tile) (chk : State → Option Sub) (draws : Nat) : State :=
  let p := tileArgs i
  let vd := s.rdH p.hd
  let va := match p.ha with | some h => s.rdH h | none => 0
  let vb := match p.hb with | some h => s.rdH h | none => 0
  let d := tileOf s.curLaunch.fmt vd
  if !s.sendReady then s.lose
  else
  match s.tagFaults reads with
  | some n => s.fault 3 n 0
  | none =>
    if s.tileFull p.xa || (scaled && s.tensorHeld d) then s.lose
    else
      let hs := [vd, va, vb]
      let f := ((chk s).map (fun f => DFault.of f 0 0 hs false)).or (if scaled then s.tensorMark d hs else none)
      let (cid, s) := s.fresh
      let c := { s.mkCmd cid .tile i vd va vb p.xa with
        xs := match p.xb with | some x => s.rd x | none => 0
        tscale := if scaled && eSCF d.entry = 2 then s.scaleOf (clusterOf s.cur.id) d 0 0 else 0 }
      let s := s.joinQueue c f p.xa p.la
      if draws = 0 then s
      else { s with cur := { s.cur with cuvc := s.cur.cuvc + BitVec.ofNat 32 ((draws + 1) / 2) } }

/-- Issues a tile command. -/
def State.issueTile (s : State) (i : Instr) : State :=
  let fmt := s.curLaunch.fmt
  let p := tileArgs i
  let d := tileOf fmt (s.rdH p.hd)
  let a := p.ha.map (fun h => tileOf fmt (s.rdH h))
  let b := p.hb.map (fun h => tileOf fmt (s.rdH h))
  let kd := tileKind i
  let k := match p.xb with | some x => (s.rd x).toNat | none => 0
  let srcs := if kd = .selk then a.toList else a.toList ++ b.toList
  let draws := if p.rm.isSome && modeDraws (modeOf p.rm d.entry) then tileDraws kd d (a.getD d) else 0
  s.issueTileWith i (usesScales kd) ((if readsDest i then [d] else []) ++ srcs) (fun s => s.tileChecks kd k d a b) draws

/-- TADD (R223). -/
def execTadd (f : TileForm) (rm : Rm) (s : State) : Out := .next (s.issueTile (.tadd f rm))
/-- TSUB (R223). -/
def execTsub (f : TileForm) (rm : Rm) (s : State) : Out := .next (s.issueTile (.tsub f rm))
/-- TMUL (R223). -/
def execTmul (f : TileForm) (rm : Rm) (s : State) : Out := .next (s.issueTile (.tmul f rm))
/-- TFMA (R223). -/
def execTfma (f : TileForm) (rm : Rm) (s : State) : Out := .next (s.issueTile (.tfma f rm))
/-- TMAX (R223). -/
def execTmax (f : TileForm) (rm : Rm) (s : State) : Out := .next (s.issueTile (.tmax f rm))
/-- TMIN (R223). -/
def execTmin (f : TileForm) (rm : Rm) (s : State) : Out := .next (s.issueTile (.tmin f rm))
/-- TEXP (R223). -/
def execTexp (hd ha : HReg) (la : La) (xa : XReg) (rm : Rm) (s : State) : Out := .next (s.issueTile (.texp hd ha la xa rm))
/-- TLOG (R223). -/
def execTlog (hd ha : HReg) (la : La) (xa : XReg) (rm : Rm) (s : State) : Out := .next (s.issueTile (.tlog hd ha la xa rm))
/-- TRCP (R223). -/
def execTrcp (hd ha : HReg) (la : La) (xa : XReg) (rm : Rm) (s : State) : Out := .next (s.issueTile (.trcp hd ha la xa rm))
/-- TRSQ (R223). -/
def execTrsq (hd ha : HReg) (la : La) (xa : XReg) (rm : Rm) (s : State) : Out := .next (s.issueTile (.trsq hd ha la xa rm))
/-- TSIG (R223). -/
def execTsig (hd ha : HReg) (la : La) (xa : XReg) (rm : Rm) (s : State) : Out := .next (s.issueTile (.tsig hd ha la xa rm))
/-- TCMP (R224). -/
def execTcmp (f : TileForm) (p : TPred) (s : State) : Out := .next (s.issueTile (.tcmp f p))
/-- TMSK (R224). -/
def execTmsk (f : TileForm) (s : State) : Out := .next (s.issueTile (.tmsk f))
/-- TFILL (R225). -/
def execTfill (hd : HReg) (la : La) (xa xb : XReg) (s : State) : Out := .next (s.issueTile (.tfill hd la xa xb))
/-- TCPY (R225). -/
def execTcpy (hd ha : HReg) (la : La) (xa : XReg) (s : State) : Out := .next (s.issueTile (.tcpy hd ha la xa))
/-- TTRN (R225). -/
def execTtrn (hd ha : HReg) (la : La) (xa : XReg) (s : State) : Out := .next (s.issueTile (.ttrn hd ha la xa))
/-- TRED (R227). -/
def execTred (hd ha : HReg) (la : La) (xa : XReg) (rm : Rm) (op : TRedOp) (s : State) : Out :=
  .next (s.issueTile (.tred hd ha la xa rm op))
/-- TSELK (R228). -/
def execTselk (f : TileForm) (xb : XReg) (isMin : Bool) (s : State) : Out := .next (s.issueTile (.tselk f xb isMin))
/-- TCVT (R226). -/
def execTcvt (hd ha : HReg) (la : La) (xa : XReg) (rm : Rm) (s : State) : Out := .next (s.issueTile (.tcvt hd ha la xa rm))

/-! ## Values and results (R223) -/

/-- The exact value of a source for element (r, c), broadcast along an extent of 1 (R219). -/
def State.srcVal (s : State) (cl : Nat) (t : Tile) (r c : Nat) : Val :=
  let (l, p) := t.lineOf (if hRows t.h = 1 then 0 else r) (if hCols t.h = 1 then 0 else c)
  s.valueAt cl t l p

/-- The code of a source for element (r, c), broadcast alike. -/
def State.srcCode (s : State) (cl : Nat) (t : Tile) (r c : Nat) : Nat :=
  let (l, p) := t.lineOf (if hRows t.h = 1 then 0 else r) (if hCols t.h = 1 then 0 else c)
  s.codeAt cl t l p

/-- The result of an arithmetic command divided by the tensor scale tn/td, exactly or as a number that rounds alike; none where
the precision tried does not decide (R223). -/
def tileOp (i : Instr) (a b d : Val) (tn td : Nat) : Option (Val × Exc) :=
  let by_ := fun (r : Val × Exc) => some (r.1.over tn td, r.2)
  match i with
  | .tadd .. => by_ (a.add b)
  | .tsub .. => by_ (a.add b.neg)
  | .tmul .. => by_ (a.mul b)
  | .tfma .. => by_ (a.fma b d)
  | .tmax .. => by_ (Val.extremum true a b, 0)
  | .tmin .. => by_ (Val.extremum false a b, 0)
  | .texp .. => Trans.eval .exp a tn td
  | .tlog .. => Trans.eval .log a tn td
  | .tsig .. => Trans.eval .sig a tn td
  | .trcp .. => by_ ((Val.num false 1 1).div a)
  | .trsq .. =>
    match a with
    | .nan _ => some (.nan false, 0)
    | .inf s => some (if s then (.nan false, xNV) else (.num false 0 1, 0))
    | .num s n m =>
      if n = 0 then some (.inf s, xDZ)
      else if s then some (.nan false, xNV)
      else some (sqrtVal (m * td * td) (n * tn * tn), 0)
  | _ => by_ (a, 0)

/-- The tensor scale of a command's destination as read at its issue (R219), 1 where it has none. -/
def Cmd.destScale (c : Cmd) (d : Tile) : Nat × Nat :=
  if eSCF d.entry = 2 then (tensorScale c.tscale).getD (1, 1) else (1, 1)

/-- The old value of a position of the destination of a command (R223). -/
def State.oldValue (s : State) (c : Cmd) (cl : Nat) (d : Tile) (l p : Nat) : Val :=
  if eSCF d.entry = 2 then scaledValue d.entry (s.codeAt cl d l p) c.tscale else s.valueAt cl d l p

/-- The random bits of element e of a command (R130, R135). -/
def State.cmdBits (s : State) (c : Cmd) (e : Nat) : Nat := drawBits (s.launch c.launch).seed (w64 c.item) c.c0 e

/-- Rounds element e of a command into an element format under a mode (R127 to R130). -/
def State.roundCmd (s : State) (c : Cmd) (m ef e : Nat) (v : Val) : Nat × Exc :=
  roundElem ef (rmodeOf m (if modeDraws m then s.cmdBits c e else 0)) v

/-- Adds flags and a count to a command. -/
def Cmd.report (c : Cmd) (x : BitVec 6) (n : Nat) : Cmd := { c with flags := c.flags ||| x, cnt := c.cnt + n }

/-! ## Units of work (R224 to R230) -/

/-- One element of an arithmetic command: its code and flags; a value that no precision tried decides is free (log 5). -/
def State.arithElem (s : State) (c : Cmd) (cl m : Nat) (d a : Tile) (b : Option Tile) (r q : Nat) : State × BitVec 6 :=
  let (tn, td) := c.destScale d
  let (l, p) := d.lineOf r q
  let old := s.oldValue c cl d l p
  let x := s.srcVal cl a r q
  let y := match b with | some t => s.srcVal cl t r q | none => x
  match tileOp c.instr x y old tn td with
  | some (v, e) =>
    let (code, e2) := s.roundCmd c m (eEF d.entry) (r * hCols d.h + q) v
    (s.putCode cl d l p code, (e ||| e2).setWidth 6)
  | none =>
    let (w, s) := s.freeWord
    (s.putCode cl d l p (w.setWidth 32).toNat, (w.extractLsb' 32 5).setWidth 6)

/-- The test of TCMP on exact values (R224). -/
def cmpTest (p : TPred) (a b : Val) : Bool :=
  let nan := a.isNan || b.isNan
  let c := Val.cmp a b
  match p with
  | .eq => !nan && c = 0
  | .ne => nan || c != 0
  | .lt => !nan && c < 0
  | .le => !nan && c ≤ 0
  | .un => nan

/-- One element of HD of a command that moves, compares or computes element by element. -/
def State.tileElem (s : State) (c : Cmd) (cl m : Nat) (d a : Tile) (b : Option Tile) (r q : Nat) : State × BitVec 6 :=
  let (l, p) := d.lineOf r q
  let put := fun (v : Nat) => (s.putCode cl d l p v, (0 : BitVec 6))
  match c.instr with
  | .tcmp _ t =>
    put (if cmpTest t (s.srcVal cl a r q) (match b with | some b => s.srcVal cl b r q | none => .nan false) then 1 else 0)
  | .tmsk _ =>
    match b with
    | some b => put (if s.srcCode cl b r q != 0 then s.srcCode cl a r q else s.codeAt cl d l p)
    | none => (s, 0)
  | .tfill .. => put c.xs.toNat
  | .tcpy .. => put (s.srcCode cl a r q)
  | .ttrn .. =>
    let (l', p') := a.lineOf q r
    put (s.codeAt cl a l' p')
  | _ => s.arithElem c cl m d a b r q

/-- One line of HD, element by element. -/
def State.tileLine (s : State) (c : Cmd) (cl m : Nat) (d a : Tile) (b : Option Tile) (l : Nat) : State × BitVec 6 :=
  (List.range d.perLine).foldl (fun (x : State × BitVec 6) p =>
    let (r, q) := d.lineOf l p
    let (s, e) := x.1.tileElem c cl m d a b r q
    (s, x.2 ||| e)) (s, 0)

/-- One block of a TCVT or QST destination line: positions from p0, exact values, and the codes with their flags under a chosen
scale (R226, R326). -/
def State.cvtBlock (s : State) (c : Cmd) (cl m : Nat) (d : Tile) (l p0 : Nat) (vs : List Val) : State × BitVec 6 :=
  let ef := eEF d.entry
  let x := scaleFor vs ef
  let s := s.putScale cl d l p0 x
  vs.zipIdx.foldl (fun (acc : State × BitVec 6) (v : Val × Nat) =>
    let p := p0 + v.2
    let (r, q) := d.lineOf l p
    let (code, e) := if x = 255 then ((nanElem ef).1, if (nanElem ef).2 then xNV else 0)
      else s.roundCmd c m ef (r * hCols d.h + q) (v.1.scale (127 - (x : Int)))
    (acc.1.putCode cl d l p code, acc.2 ||| e.setWidth 6)) (s, 0)

/-- One line of a TCVT destination (R226). -/
def State.cvtLine (s : State) (c : Cmd) (cl m : Nat) (d a : Tile) (l : Nat) : State × BitVec 6 :=
  if eSCF d.entry != 1 then s.tileLine c cl m d a none l
  else
    let n := 2 ^ eBLK d.entry
    (List.range (d.perLine / n)).foldl (fun (acc : State × BitVec 6) k =>
      let vs := (upTo (k * n) n).map (fun p =>
        let (r, q) := d.lineOf l p
        acc.1.srcVal cl a r q)
      let (s, e) := acc.1.cvtBlock c cl m d l (k * n) vs
      (s, acc.2 ||| e)) (s, 0)

/-- A value rounded into FP32, with its flags (R227). -/
def round32 (v : Val) : Val × Exc :=
  let (c, e) := fp32.roundNE v
  (fp32.decode c, e)

/-- A step of the reduction tree (R227). -/
def redStep (op : TRedOp) (a b : Val) : Val × Exc :=
  match op with
  | .sum =>
    let (v, e) := a.add b
    let (r, e2) := round32 v
    (r, e ||| e2)
  | .max => if a.isNan || b.isNan then (.nan false, 0) else (Val.extremum true a b, 0)
  | .min => if a.isNan || b.isNan then (.nan false, 0) else (Val.extremum false a b, 0)

/-- The largest power of two below n, for n of 2 or more (R227). -/
def treeSplit (n : Nat) : Nat := 2 ^ Nat.log2 (n - 1)

/-- The reduction tree of a line (R227); the first argument bounds its depth. -/
def redTree (op : TRedOp) : Nat → List Val → Val × Exc
  | _, [] => (.num false 0 1, 0)
  | _, [v] => round32 v
  | 0, v :: _ => round32 v
  | k + 1, vs =>
    let m := treeSplit vs.length
    let (a, e1) := redTree op k (vs.take m)
    let (b, e2) := redTree op k (vs.drop m)
    let (r, e3) := redStep op a b
    (r, e1 ||| e2 ||| e3)

/-- One output element of TRED: line l of HA (R227). -/
def State.redLine (s : State) (c : Cmd) (cl m : Nat) (op : TRedOp) (d a : Tile) (l : Nat) : State × BitVec 6 :=
  let (tn, td) := c.destScale d
  let (v, e) := redTree op 13 (s.lineValues cl a l)
  let (code, e2) := s.roundCmd c m (eEF d.entry) l (v.over tn td)
  let (l', p') := if hAX a.h = 0 then d.lineOf l 0 else d.lineOf 0 l
  (s.putCode cl d l' p' code, (e ||| e2).setWidth 6)

/-- Row x ranks before row y (R228). -/
def ranksBefore (isMin : Bool) (x y : Val × Nat) : Bool :=
  match x.1.isNan, y.1.isNan with
  | true, false => false
  | false, true => true
  | true, true => x.2 ≤ y.2
  | false, false =>
    if (if isMin then Val.below x.1 y.1 else Val.below y.1 x.1) then true
    else if (if isMin then Val.below y.1 x.1 else Val.below x.1 y.1) then false
    else x.2 ≤ y.2

/-- Inserts a row in rank order. -/
def rankInsert (isMin : Bool) (x : Val × Nat) : List (Val × Nat) → List (Val × Nat)
  | [] => [x]
  | y :: r => if ranksBefore isMin x y then x :: y :: r else y :: rankInsert isMin x r

/-- One column of TSELK (R228). -/
def State.selColumn (s : State) (cl : Nat) (isMin : Bool) (d a b : Tile) (q : Nat) : State × BitVec 6 :=
  let k := hRows d.h
  let rows := ((List.range (hRows a.h)).map (fun r => (s.srcVal cl a r q, r))).foldr (rankInsert isMin) []
  let sel := rows.take k
  let s := sel.zipIdx.foldl (fun (s : State) (x : (Val × Nat) × Nat) =>
    let (la, pa) := a.lineOf x.1.2 q
    let (ld, pd) := d.lineOf x.2 q
    let (lb, pb) := b.lineOf x.2 q
    (s.putCode cl d ld pd (s.codeAt cl a la pa)).putCode cl b lb pb x.1.2) s
  (s, if sel.any (fun x => x.1.isNan) then 32 else 0)

/-- The elements that each unit of a tile command writes (R222, R230). -/
def unitSize (i : Instr) (d : Tile) : Nat :=
  match tileKind i with
  | .red => 1
  | .selk => hRows d.h
  | _ => d.perLine

/-- The scratch bytes that the next unit of a tile command reads. -/
def Cmd.tileReads (fmt : List (BitVec 128)) (c : Cmd) : List Hold :=
  let d := tileOf fmt c.hd
  (tileUnitHolds fmt c c.prog (c.prog + 1)).filter (fun h => !h.wr)
    ++ (if readsDest c.instr then rectHold (c.core / 8) false d (d.someLines c.prog (c.prog + 1)) else [])

/-- The bits that the next unit of a tile command writes. -/
def Cmd.tileBits (fmt : List (BitVec 128)) (c : Cmd) : List (Nat × Byte) :=
  let cl := c.core / 8
  let d := tileOf fmt c.hd
  let b := tileOf fmt c.hb
  let elem := fun (t : Tile) (q : Nat × Nat) => t.elemBits cl q.1 q.2
  match tileKind c.instr with
  | .red => elem d (if hAX c.ha = 0 then d.lineOf c.prog 0 else d.lineOf 0 c.prog)
  | .selk => (List.range (hRows d.h)).flatMap (fun r => elem d (d.lineOf r c.prog) ++ elem b (b.lineOf r c.prog))
  | kd => d.lineBits cl c.prog ++ (if usesScales kd then d.scaleBits cl c.prog else [])

/-- The deferred fault of the next unit of a tile command, which reads a bad word (R292). -/
def State.tileBad (s : State) (c : Cmd) : Option DFault :=
  (s.badRead (c.tileReads (s.launch c.launch).fmt)).map (fun a => badFault a c.prog c.prog [c.hd, c.ha, c.hb])

/-- Performs unit k of a tile command other than QST. -/
def State.tileUnit (s : State) (c : Cmd) (k : Nat) : State × BitVec 6 :=
  let fmt := (s.launch c.launch).fmt
  let cl := c.core / 8
  let p := tileArgs c.instr
  let d := tileOf fmt c.hd
  let a := tileOf fmt c.ha
  let b := p.hb.map (fun _ => tileOf fmt c.hb)
  let m := modeOf p.rm d.entry
  match c.instr with
  | .tred _ _ _ _ _ op => s.redLine c cl m op d a k
  | .tselk _ _ isMin => s.selColumn cl isMin d a (tileOf fmt c.hb) k
  | .tcvt .. => s.cvtLine c cl m d a k
  | _ => s.tileLine c cl m d a b k

end Sys2Proof.Machine
end

