-- ==== Sys2Proof/Machine/Quant.lean ====
section
/-! DEFINITION. The quantising store, the lees bank and its receipt over the lees vine (spec/16 R232 to R242; spec/18 R250), and the
events of the tile queue (spec/15 R221, R230). -/

namespace Sys2Proof.Machine

open Sys2Proof

/-! ## The lees tag (R232) -/

/-- POS. -/
def tagPos (t : Word) : Nat := nbits t.toNat 0 32
/-- LINES. -/
def tagLines (t : Word) : Nat := nbits t.toNat 32 7
/-- EF, BLK, FSEL and AX together. -/
def tagFormat (t : Word) : Nat := nbits t.toNat 39 12

/-- The tag of a destination with a position (R232, R237). Only a receipt at the launch's start can meet a destination of more than 64 lines:
the model then takes the line count modulo 128, and R238 does not say (DESIGN CHOICE, log 64). -/
def tagOf (d : Tile) (pos : Nat) : Word :=
  w64 (eEF d.entry * 2 ^ 47 + eBLK d.entry * 2 ^ 44 + hSel d.h * 2 ^ 40 + eAX d.entry * 2 ^ 39 + d.lines % 128 * 2 ^ 32 + pos)

/-- Residue j of a bank; +0 beyond those stored (R232). -/
def Lees.residue (l : Lees) (j : Nat) : BitVec 32 := l.c.getD j 0

/-! ## Receipt (R238, R250) -/

/-- What item i would receive on the lees vine: not yet arrived, the launch-start bank, or a bank. -/
inductive LeesIn where
  | waiting
  | start
  | bank (l : Lees)
deriving DecidableEq, Repr

/-- A publication has arrived in a cluster (R249). -/
def LeesPubl.arrived (p : LeesPubl) (cl : Nat) : Bool := (p.cluster = cl && p.here) || p.away = some cl

/-- The bank that the strand's item would receive (R250). -/
def State.leesIn (s : State) : LeesIn :=
  if s.cur.index = s.curLaunch.desc.first.toNat then .start
  else
    match s.leesPubs.find? (fun p => p.launch = s.cur.launch && p.item + 1 = s.cur.index && p.arrived (clusterOf s.cur.id)) with
    | none => .waiting
    | some p => match p.bank with | none => .start | some l => .bank l

/-- Removes the publication that the item has received (R250). -/
def State.consumeLees (s : State) : State :=
  { s with leesPubs := s.leesPubs.filter (fun p => !(p.launch = s.cur.launch && p.item + 1 = s.cur.index)) }

/-- The receipt of a continue QST on an empty bank; `none` while the publication has not arrived (R238). -/
def State.receiveLees (s : State) (d : Tile) : Option State :=
  let got := fun (l : Lees) =>
    some { s.consumeLees with cur := { s.cur with lees := l, leesRcv := true, leesPart := true } }
  match s.leesIn with
  | .waiting => none
  | .start => got ⟨tagOf d 0, []⟩
  | .bank l => got l

/-! ## Checks and issue (R234, R235, R237) -/

/-- The resolved mode is noise-shaped. -/
def shapedMode (m : Nat) : Bool := m = 3 || m = 4

/-- The continue conditions of R237. -/
def continues (t : Word) (d : Tile) : Bool :=
  t != 0 && tagFormat t = tagFormat (tagOf d 0) && tagLines t = d.lines && tagPos t % 2 ^ eBLK d.entry = 0
    && tagPos t + d.perLine ≤ 2 ^ 32 - 1

/-- The deferred checks of QST in the order of R327. -/
def State.qstChecks (s : State) (d a : Tile) (m : Nat) (cont : Bool) : Option Sub :=
  firstFault (s.handleChecks [d, a] ++
    [need (hScr d.h && hScr a.h && sameShape d a) (fEngine 6),
      need ((eEF a.entry = 10 || eEF a.entry = 9) && eSCF a.entry = 0) (fFormat 0x30),
      need (1 ≤ eEF d.entry && eEF d.entry ≤ 7 && (eSCF d.entry = 1 || eSCF d.entry = 2) && hAX d.h = eAX d.entry
        && (eSCF d.entry != 1 || d.pitchBlocks)) (fFormat 0x31),
      need (d.lines ≤ 64) (fFormat 0x32)]
    ++ s.scaleChecks d ++
    [need (!s.tensorBad (clusterOf s.cur.id) d) (fFormat 0x22),
      need (!cont || shapedMode m) (fFormat 0x34),
      need (!cont || continues s.cur.lees.tag d) (fFormat 0x33),
      need (!spansMeet d a) (fEngine 7)])

/-- A shaped QST that passed its checks sets the tag at issue and takes part in the lees vine (R237, R250). -/
def State.shapeTag (s : State) (d : Tile) (cont : Bool) : State :=
  let l := s.cur.lees
  let tag := if cont then l.tag + w64 d.perLine else tagOf d d.perLine
  { s with cur := { s.cur with lees := { l with tag := tag }, leesPart := true } }

/-- QST (R233 to R238). -/
def execQst (hd ha : HReg) (la : La) (xa : XReg) (rm : Rm) (cont : Bool) (s : State) : Out :=
  let i := Instr.qst hd ha la xa rm cont
  let fmt := s.curLaunch.fmt
  let d := tileOf fmt (s.rdH hd)
  let a := tileOf fmt (s.rdH ha)
  let m := rmCodeOf rm d.entry
  let draws := if modeDraws m then d.lines * d.perLine else 0
  let go := fun (s : State) =>
    let n := s.cmds.length
    let s' := s.issueTileWith i true [a] (fun s => s.qstChecks d a m cont) draws
    if s'.cmds.length = n + 1 && (s.qstChecks d a m cont).isNone && (s.tensorMark d []).isNone && shapedMode m then s'.shapeTag d cont else s'
  if cont && s.cur.lees.tag = 0 && s.curLaunch.desc.lv && !s.cur.leesRcv && (s.tagFaults [a]).isNone then
    if !s.sendReady || s.tileFull xa || s.tensorHeld d then .next s.lose
    else
      match s.receiveLees d with
      | none => .next s.lose
      | some t => .next (go (if s.cur.index = s.curLaunch.desc.first.toNat then t else t.acquire .package .all))
  else .next (go s)

/-! ## Conversion (R236) -/

/-- One element of a shaped line: the code, its flags and the next residue (R236); the value is divided by sn/sd. A sum x + c that is an exact
zero takes its sign by R95: +0 but for two negative zeros (R236 does not say; DESIGN CHOICE, log 63), and so does a new residue v − Value(q)·s
(DESIGN CHOICE, log 64). -/
def shapeElem (ef : Nat) (m : RMode) (x c : Val) (sn sd : Nat) : Nat × Exc × Val :=
  let v := fp32.decode (fp32.roundNE (x.add c).1).1
  let (q, e) := roundElem ef m (v.over sn sd)
  let zero := Val.num false 0 1
  if x.isNan || x.isInf then (q, e ||| (if v.isInf then xOF else 0), zero)
  else if v.isInf then (q, e ||| xOF, zero)
  else if e &&& xOF != 0 then (q, e, zero)
  else
    let back := (valueOf ef q).mul (.num false sn sd)
    (q, e, fp32.decode (fp32.roundNE (v.add back.1.neg).1).1)

/-- The scale 2^(X − 127) of an E8M0 byte as a fraction. -/
def e8m0Frac (x : Nat) : Nat × Nat := if 127 ≤ x then (2 ^ (x - 127), 1) else (1, 2 ^ (127 - x))

/-- One block of a QST line: positions p0 on, with the residue going in and out (R236). -/
def State.qstBlock (s : State) (c : Cmd) (cl m : Nat) (d : Tile) (l p0 : Nat) (vs : List Val) (res : Val) :
    State × BitVec 6 × Val :=
  let ef := eEF d.entry
  let n := d.perLine
  let x := scaleFor vs ef
  let block := eSCF d.entry = 1
  if block && x = 255 then
    let (code, nv) := nanElem ef
    let s := (upTo p0 vs.length).foldl (fun (s : State) p => s.putCode cl d l p code) (s.putScale cl d l p0 x)
    (s, if nv then xNV.setWidth 6 else 0, .num false 0 1)
  else
    let (sn, sd) := if block then e8m0Frac x else c.destScale d
    let s := if block then s.putScale cl d l p0 x else s
    vs.zipIdx.foldl (fun (acc : State × BitVec 6 × Val) (v : Val × Nat) =>
      let p := p0 + v.2
      let bits := if modeDraws m then s.cmdBits c (l * n + p) else 0
      if shapedMode m then
        let (q, e, r) := shapeElem ef (rmodeOf m bits) v.1 acc.2.2 sn sd
        (acc.1.putCode cl d l p q, acc.2.1 ||| e.setWidth 6, r)
      else
        let (q, e) := roundElem ef (rmodeOf m bits) (v.1.over sn sd)
        (acc.1.putCode cl d l p q, acc.2.1 ||| e.setWidth 6, acc.2.2)) (s, 0, res)

/-- One line of QST: the state, the flags and the residue left (R236). Where HA and HD run along different axes, the element of HA is that of
the same row and column as HD's, not that of HA's own line and position (DESIGN CHOICE, log 63). -/
def State.qstLine (s : State) (c : Cmd) (cl m : Nat) (d a : Tile) (l : Nat) (res : Val) : State × BitVec 6 × Val :=
  let n := d.perLine
  let len := if eSCF d.entry = 1 then 2 ^ eBLK d.entry else n
  (List.range ((n + len - 1) / len)).foldl (fun (acc : State × BitVec 6 × Val) k =>
    let p0 := k * len
    let vs := (upTo p0 (Nat.min len (n - p0))).map (fun p =>
      let (r, q) := d.lineOf l p
      acc.1.srcVal cl a r q)
    let (s, e, r) := acc.1.qstBlock c cl m d l p0 vs acc.2.2
    (s, acc.2.1 ||| e, r)) (s, 0, res)

/-- The strand that issued a command, in its slot. -/
def State.issuer (s : State) (c : Cmd) : Strand :=
  (s.allStrands.find? (fun t => t.status != .idle && t.launch = c.launch && t.index = c.item)).getD (Strand.empty c.strand)

/-- Performs line k of a QST; the residue goes into the command's record (R236, R241). -/
def State.qstUnit (s : State) (c : Cmd) (k : Nat) : State × Cmd :=
  let fmt := (s.launch c.launch).fmt
  let cl := c.core / 8
  let d := tileOf fmt c.hd
  let a := tileOf fmt c.ha
  let m := modeOf (tileArgs c.instr).rm d.entry
  let cont := match c.instr with | .qst _ _ _ _ _ b => b | _ => false
  let res := if cont then fp32.decode ((s.issuer c).lees.residue k).toNat else .num false 0 1
  let (s, e, r) := s.qstLine c cl m d a k res
  (s, { c.report e d.perLine with bank := c.bank ++ [BitVec.ofNat 32 (fp32.roundNE r).1] })

/-- A completed shaped QST leaves its residues in the bank (R236, R237). -/
def Strand.qstDone (t : Strand) (c : Cmd) : Strand := { t with lees := { t.lees with c := c.bank } }

/-! ## The tile queue (R221, R222, R230) -/

/-- The tile commands of a cluster that are neither saved nor faulted, in queue order. -/
def State.tileQueue (s : State) (cl : Nat) : List Cmd :=
  s.cmds.filter (fun c => c.engine = .tile && c.core / 8 = cl && !c.saved && c.dfault.isNone)

/-- The command is a QST. -/
def Cmd.isQst (c : Cmd) : Bool :=
  match c.instr with
  | .qst .. => true
  | _ => false

/-- An earlier QST of the item has not completed (R237). -/
def State.qstBefore (s : State) (c : Cmd) : Bool :=
  c.isQst && s.cmds.any (fun d => sameQueue c d && d.isQst && d.cid < c.cid && d.dfault.isNone)

/-- A command's next unit may proceed: no hold bars it, and no earlier QST of its item is before it (R182, R237). -/
def State.tileClear (s : State) (c : Cmd) : Bool := s.unitClear c && !s.qstBefore c

/-- TILE_COMMAND_START: the next command of a cluster's tile queue not yet started starts when its accesses may proceed (R182, R221,
R230). -/
def execTileCommandStart (cluster : Nat) (s : State) : Out :=
  match nextOf s.tileClear ((s.tileQueue cluster).filter (fun c => !c.started)) with
  | none => .next s
  | some c => .next (s.setCmd { c with started := true })

/-- The started command of a cluster that performs its next unit: the oldest, where its accesses may proceed (R182, R222). -/
def State.tileNext (s : State) (cluster : Nat) : Option Cmd := nextOf s.unitClear ((s.tileQueue cluster).filter (fun c => c.started))

/-- The next unit of a tile command: what it writes, and the command with what it reports and leaves. -/
def State.tileWrites (s : State) (c : Cmd) : State × Cmd :=
  if c.isQst then s.qstUnit c c.prog
  else
    let (s, e) := s.tileUnit c c.prog
    (s, c.report e (unitSize c.instr (tileOf (s.launch c.launch).fmt c.hd)))

/-- The status word of R222. -/
def statusWord (c : Cmd) : Word := w64 (c.cnt % 2 ^ 32 * 2 ^ 32 + c.flags.toNat)

/-- A unit of a tile command is done; after the last its status word lands, and a shaped QST leaves its residues (R222, R237). -/
def State.tileDone (s : State) (c : Cmd) : State :=
  let fmt := (s.launch c.launch).fmt
  let c := { c with prog := c.prog + 1, late := none }
  if c.prog < tileUnitCount fmt c then s.setCmd c
  else
    let shaped := c.isQst && shapedMode (modeOf (tileArgs c.instr).rm (tileOf fmt c.hd).entry)
    (if shaped then s.onIssuer c (fun t => t.qstDone c) else s).completeCmd c (statusWord c)

/-- TILE_UNIT_COMPLETE: the oldest started command of a cluster performs its next unit, or what is left of it; after the last its status word
lands (R182, R222, R230, R236, R268). A unit that reads a bad word takes a deferred machine check (R292). -/
def execTileUnitComplete (cluster : Nat) (s : State) : Out :=
  match s.tileNext cluster with
  | none => .next s
  | some c =>
    if c.late.isSome then .next ((s.flush c).tileDone c)
    else
      match s.tileBad c with
      | some f => .next (s.faultCmd c f)
      | none =>
        let (t, d) := s.tileWrites c
        .next ((t.healUnit (c.tileBits (s.launch c.launch).fmt)).tileDone d)

/-! ## A unit in progress (R268) -/

/-- What the next unit of a command writes, where that unit may proceed and reads no bad word, and the command with what the unit leaves in
it; `ext` is what targets in system space answer. -/
def State.unitWrites (s : State) (c : Cmd) (ext : List Byte) : Option (State × Cmd) :=
  match c.engine with
  | .matrix => if (s.matrixNext c.core).map (·.cid) = some c.cid && (s.matrixBad c).isNone then some (s.matrixWrites c, c) else none
  | .tile => if (s.tileNext (c.core / 8)).map (·.cid) = some c.cid && (s.tileBad c).isNone then some (s.tileWrites c) else none
  | .copy => (s.copyWrites c ext).map (fun s => (s, { c with started := true }))

/-- The bits that the next unit of a command writes in scratch. -/
def State.unitBits (s : State) (c : Cmd) : List (Nat × Byte) :=
  let fmt := (s.launch c.launch).fmt
  match c.engine with
  | .matrix => s.matrixBits c
  | .tile => c.tileBits fmt
  | .copy => c.copyBits fmt

/-- An engine writes one aligned 8 bytes of scratch before the rest of its unit in progress: what the unit computes is fixed then, and its end
writes what is left, bit by bit as the unit would (R258). -/
def State.writeEarly (s : State) (cid k : Nat) (ext : List Byte) : State :=
  match s.cmd? cid with
  | none => s
  | some c =>
    match c.late with
    | some cells => (s.writeWord c cells k).getD s
    | none =>
      match s.unitWrites c ext with
      | none => s
      | some (s', c') =>
        let cells := (s.unitBits c).map (fun q => (q.1, q.2, s'.raw q.1))
        ({ s' with mem := s.mem, poison := s.poison, told := s.told }.writeWord c' cells k).getD s

/-! ## LEES.CLR, LEES.SV, LEES.LD (R239, R240) -/

/-- An earlier QST of the strand has not completed (R239). -/
def State.qstPending (s : State) : Bool := (s.cmdsOf s.cur.id).any (fun c => c.isQst && c.dfault.isNone)

/-- LEES.CLR (R239). -/
def execLeesClr (s : State) : Out :=
  if s.qstPending then .next s.lose else .next { s with cur := { s.cur with lees := .empty } }

/-- The 264 bytes of a bank image (R240). -/
def Lees.image (l : Lees) : List Byte :=
  if l.tag = 0 then List.replicate 264 0
  else (List.range 64).flatMap (fun j => leBytes 4 (l.residue j).toNat) ++ leBytes 8 l.tag.toNat

/-- An FP32 code is finite. -/
def finite32 (c : BitVec 32) : Bool := nbits c.toNat 23 8 != 255

/-- The validity of an image (R240). -/
def Lees.valid (l : Lees) : Bool :=
  let n := tagLines l.tag
  let ef := nbits l.tag.toNat 47 4
  let blk := nbits l.tag.toNat 44 3
  nbits l.tag.toNat 51 13 = 0 && n ≤ 64 &&
    (if n = 0 then l.tag = 0 && l.c.all (· = 0)
      else 1 ≤ ef && ef ≤ 7 && (blk = 0 || blk = 4 || blk = 5 || blk = 6) && (l.c.take n).all finite32
        && (l.c.drop n).all (· = 0))

/-- The bank of an image. -/
def leesOf (bs : List Byte) : Lees :=
  ⟨w64 (leNat (bs.drop 256)), (List.range 64).map (fun j => BitVec.ofNat 32 (leNat ((bs.drop (4 * j)).take 4)))⟩

/-- The address checks of a bank image (R240): a place in scratch, or the fault taken; an alignment fault's address keeps the selector. -/
def State.imagePlace (s : State) (x : Word) : Except State Nat :=
  let a := addr60 x
  if a % 8 != 0 then .error (s.misaligned x)
  else if !s.rangeIn a 264 then .error (s.fault cProtection 4 (w64 a))
  else .ok (scrKey (clusterOf s.cur.id) a)

/-- LEES.SV: a scratch store of the image, eight bytes at a time, after the strand's earlier QSTs (R239, R240). -/
def execLeesSv (a : XReg) (s : State) : Out :=
  if s.qstPending then .next s.lose
  else
  match s.imagePlace (s.rd a) with
  | .error s => .next s
  | .ok k =>
    if s.heldAt (.mem k false) 264 then .next s.lose
    else
      let img := s.cur.lees.image
      .next ((List.range 33).foldl (fun (s : State) j =>
        (s.queueAccess (keysFrom (k + 8 * j) 8) (.store ((img.drop (8 * j)).take 8)) none).2) s)

/-- The bytes of word j of an image at a key. -/
def imageWord (k j : Nat) : List LoadByte := loadKeys (k + 8 * j) 8 false

/-- Some of the 33 words of an image as the strand sees them now. -/
def State.leesWords (s : State) (k : Nat) (js : List Nat) : List (Nat × List Byte) :=
  js.map (fun j => (j, s.loadBytes s.cur s.nextId (imageWord k j)))

/-- The words of an image that a LEES.LD has still to read. -/
def Strand.leesTodo (t : Strand) : List Nat := (List.range 33).filter (fun j => (find? j t.leesGot).isNone)

/-- The strand reads some words of an image, each once; none while it must wait (R159, R240). -/
def State.leesRead (s : State) (k : Nat) (js : List Nat) : Option State :=
  let js := js.filter s.cur.leesTodo.contains
  let qs := js.flatMap (imageWord k)
  match s.fixBefore (qs.map (·.1)) with
  | none => none
  | some s =>
    if s.canRead s.cur s.nextId qs then
      let got := s.cur.leesGot ++ s.leesWords k js
      let s := s.readOut s.nextId qs
      some { s with cur := { s.cur with leesGot := got } }
    else none

/-- A word of an image that a LEES.LD has still to read holds an uncorrectable error (R292). -/
def State.leesBad (s : State) (k : Nat) : Bool := s.badBytes s.cur (s.cur.leesTodo.flatMap (imageWord k))

/-- LEES.LD: a scratch load of an image, checked, into the bank, after the strand's earlier QSTs and loads of these bytes; some of its words
may have been read before the others (R159, R239, R240, R250). -/
def execLeesLd (a : XReg) (s : State) : Out :=
  if s.qstPending then .next s.lose
  else
  match s.imagePlace (s.rd a) with
  | .error s => .next s
  | .ok k =>
    if s.leesBad k then .next (s.machineCheck (w64 (addr60 (s.rd a))))
    else
      match s.leesRead k (List.range 33) with
      | none => .next s.lose
      | some s =>
        let l := leesOf ((List.range 33).flatMap (fun j => (find? j s.cur.leesGot).getD []))
        let s := { s with cur := { s.cur with leesGot := [] } }
        if !l.valid then .next (s.fault 7 0x36 0)
        else .next { s with cur := { s.cur with lees := if l.tag = 0 then .empty else l, leesPart := true } }

/-- The LEES.LD that the strand in hand is at reads some words of its image before the others (R240, R268). -/
def State.leesEarly (s : State) (a : XReg) (js : List Nat) : State :=
  match s.imagePlace (s.rd a) with
  | .error _ => s
  | .ok k => if s.qstPending || s.leesBad k then s else (s.leesRead k js).getD s

end Sys2Proof.Machine
end

