-- ==== Sys2Proof/Machine/Vine.lean ====
section
/-! DEFINITION. Back references, publications of the vine and of the lees bank, group barriers and events (spec/03 R64; spec/18). -/

namespace Sys2Proof.Machine

open Sys2Proof

/-! ## Publications (R244 to R250) -/

/-- A publication has arrived in a cluster (R249). -/
def Pub.arrived (p : Pub) (cl : Nat) : Bool := (p.cluster = cl && p.here) || p.away = some cl

/-- What a back reference finds (R244). -/
inductive VineIn where
  | waiting
  | vdef (v : Word)
  | got (v : Word)
deriving DecidableEq, Repr

/-- The value that entry j of the item k places before index i gives in a cluster (R244). -/
def State.vineIn (s : State) (l : Launch) (cl i k j : Nat) : VineIn :=
  if i < l.desc.first.toNat + k then .vdef (l.desc.vdefOf j)
  else
    match s.pubs.find? (fun p => p.launch = l.num && p.item + k = i && p.entry = j && p.arrived cl) with
    | some p => .got p.value
    | none => .waiting

/-- The vine fault of R251: its address is a work index. -/
def State.vineFault (s : State) (sub : Nat) (i : Word) : State := s.fault 8 sub i

/-- What the back-referenced sources of an A-word resolve to. -/
inductive Resolved where
  | bad (k : Nat)
  | wait (ws : List WaitRef)
  | ok (o : Over) (acquires : Bool)
deriving DecidableEq, Repr

/-- Resolves the sources of a wrap in the order A, B, C (R64, R244): register and back distance of each. Where several name no vine register,
the fault is that of the first: R251 does not say whose work index %faddr holds (DESIGN CHOICE, log 64). -/
def State.resolve (s : State) (src : List (XReg × Nat)) : Resolved :=
  let l := s.curLaunch
  match src.find? (fun p => p.2 != 0 && (s.vineEntry p.1).isNone) with
  | some p => .bad p.2
  | none =>
    let got := src.map (fun p =>
      if p.2 = 0 then none
      else some (s.vineIn l (clusterOf s.cur.id) s.cur.index p.2 ((s.vineEntry p.1).getD 0)))
    let late := (got.zip src).zipIdx.filter (fun q => q.1.1 = some VineIn.waiting)
    if !late.isEmpty then .wait (late.map (fun q => ⟨(s.vineEntry q.1.2.1).getD 0, q.1.2.2, q.2⟩))
    else
      let val := fun (o : Option (Option VineIn)) => match o with
        | some (some (.vdef v)) => some v
        | some (some (.got v)) => some v
        | _ => none
      .ok ⟨val got[0]?, val got[1]?, val got[2]?⟩ (got.any (fun o => match o with | some (.got _) => true | _ => false))

/-- The registers of sources A, B and C of an A-word (R63). -/
def aRegs (w : Instr) : List XReg :=
  match w with
  | .ffma _ _ a b c => [a, b, c]
  | .fcvt _ _ _ a => [a, 0, 0]
  | i => (xFields i).drop 1

/-- Runs one A-word (R63); no other word stands in the A-slot. -/
def execInner (w : Instr) (s : State) : Out :=
  match w with
  | .nop => execNop s
  | .add d a b => execAdd d a b s
  | .sub d a b => execSub d a b s
  | .mul d a b => execMul d a b s
  | .mulh d a b => execMulh d a b s
  | .mulhb d a b => execMulhb d a b s
  | .div d a b => execDiv d a b s
  | .divb d a b => execDivb d a b s
  | .rem d a b => execRem d a b s
  | .remb d a b => execRemb d a b s
  | .and d a b => execAnd d a b s
  | .or d a b => execOr d a b s
  | .xor d a b => execXor d a b s
  | .shl d a b => execShl d a b s
  | .shr d a b => execShr d a b s
  | .sra d a b => execSra d a b s
  | .rol d a b => execRol d a b s
  | .min d a b => execMin d a b s
  | .max d a b => execMax d a b s
  | .minb d a b => execMinb d a b s
  | .maxb d a b => execMaxb d a b s
  | .slt d a b => execSlt d a b s
  | .sltb d a b => execSltb d a b s
  | .seq d a b => execSeq d a b s
  | .sne d a b => execSne d a b s
  | .clz d a => execClz d a s
  | .ctz d a => execCtz d a s
  | .popc d a => execPopc d a s
  | .adda d a b => execAdda d a b s
  | .ptag d a b => execPtag d a b s
  | .pfs d a => execPfs d a s
  | .pclr d a => execPclr d a s
  | .sel d a b c => execSel d a b c s
  | .addi d a imm => execAddi d a imm s
  | .andi d a imm => execAndi d a imm s
  | .ori d a imm => execOri d a imm s
  | .xori d a imm => execXori d a imm s
  | .slti d a imm => execSlti d a imm s
  | .shli d a n => execShli d a n s
  | .shri d a n => execShri d a n s
  | .srai d a n => execSrai d a n s
  | .bext d a wm1 lsb => execBext d a wm1 lsb s
  | .bins d a wm1 lsb => execBins d a wm1 lsb s
  | .fld d a k => execFld d a k s
  | .addai d a imm => execAddai d a imm s
  | .lih d imm => execLih d imm s
  | .pch d imm => execPch d imm s
  | .fadd t d a b => execFadd t d a b s
  | .fsub t d a b => execFsub t d a b s
  | .fmul t d a b => execFmul t d a b s
  | .fmin t d a b => execFmin t d a b s
  | .fmax t d a b => execFmax t d a b s
  | .fabs t d a => execFabs t d a s
  | .fneg t d a => execFneg t d a s
  | .flt t d a b => execFlt t d a b s
  | .fle t d a b => execFle t d a b s
  | .feq t d a b => execFeq t d a b s
  | .fclass t d a => execFclass t d a s
  | .ffma t d a b c => execFfma t d a b c s
  | .fdiv t d a b la => execFdiv t d a b la s
  | .fsqrt t d a la => execFsqrt t d a la s
  | .fcvt dt st d a => execFcvt dt st d a s
  | _ => .next (s.illegal .code)

/-- The end of a back-referenced A-word: the operands are spent, and a read of a publication acquires at package scope (R247). -/
def State.endWrap (s : State) (acquires : Bool) : State :=
  let s := { s with refs := ⟨none, none, none⟩ }
  match s.disp with
  | .done =>
    let s := if acquires then s.acquire .package .all else s
    { s with cur := { s.cur with waitRef := [] } }
  | _ => s

/-- BACK_REFERENCE_WRAP (R64, R244, R251). -/
def execBackRefWrap (ka kb kc : BitVec 4) (w : Instr) (s : State) : Out :=
  match s.resolve ((aRegs w).zip [ka.toNat, kb.toNat, kc.toNat]) with
  | .bad k => .next (s.vineFault 1 (w64 s.cur.index - w64 k))
  | .wait ws => .next { s with cur := { s.cur with waitRef := ws } }.lose
  | .ok o acq =>
    match execInner w { s with refs := o, disp := .done } with
    | .next s => .next (s.endWrap acq)
    | .fault f => .fault f
    | .refused r => .refused r

/-- Publishes a value for a vine entry (R245, R246). -/
def State.publish (s : State) (j : Nat) (v : Word) : State :=
  { s with
    pubs := s.pubs ++ [⟨s.cur.launch, s.cur.index, j, v, clusterOf s.cur.id, false, none⟩]
    cur := { s.cur with vp := s.cur.vp ||| (1 <<< j) } }

/-- PUB: releases at package scope, then publishes X[A] (R245, R247). -/
def execPub (a : XReg) (s : State) : Out :=
  match s.vineEntry a with
  | none => .next (s.vineFault 2 (w64 s.cur.index))
  | some j =>
    if s.cur.vp.getLsbD j then .next s
    else if !s.quiet .all then .next s.lose
    else .next (s.publish j (s.rd a))

/-- A cluster may still be handed chunks of a launch. -/
def Launch.moreChunks (l : Launch) (c : Nat) : Bool :=
  if l.desc.dyn then decide (l.nchunk < l.desc.chunks)
  else
    match l.parts.idxOf? c with
    | some i => decide (l.nchunk + (i + l.parts.length - l.nchunk % l.parts.length) % l.parts.length < l.desc.chunks)
    | Option.none => false

/-- A harvest state holds a vine context, from its launch's first item in the cluster to its last (R248). -/
def State.holdsContext (s : State) (h : Harvest) : Bool :=
  h.trellis && (!h.live.isEmpty || !h.chunks.isEmpty || (s.launch h.launch).moreChunks h.cluster)

/-- The place reserved for the eldest item of a launch in a cluster is still to be taken: that item has no publication there (R250). -/
def State.placeReserved (s : State) (h : Harvest) : Bool :=
  !s.leesPubs.any (fun p => p.launch = h.launch && p.cluster = h.cluster && h.live.min? = some p.item)

/-- The item may publish its lees bank: it is the eldest of its launch in the cluster, or of the eight places one is free that is not
reserved (R250). -/
def State.leesRoom (s : State) : Bool :=
  let cl := clusterOf s.cur.id
  let h := s.harvest.find? (fun h => h.launch = s.cur.launch && h.cluster = cl)
  let eldest := match h with
    | some h => h.live.all (fun i => s.cur.index ≤ i)
    | none => true
  let kept := (s.harvest.filter (fun h => h.cluster = cl && (s.launch h.launch).desc.lv && s.holdsContext h && s.placeReserved h)).length
  let used := (s.leesPubs.filter (fun p => p.cluster = cl && (p.away.isNone || p.away = some cl))).length
  eldest || used + kept < 8

/-- Publishes the lees bank, or the launch-start bank, and empties the bank (R250). -/
def State.publishLees (s : State) (b : Option Lees) : State :=
  { s with
    leesPubs := s.leesPubs ++ [⟨s.cur.launch, s.cur.index, b, clusterOf s.cur.id, false, none⟩]
    cur := { s.cur with lees := .empty, leesPub := true } }

/-- PUB LEES (R250). What an item that takes no part hands on stays for it to receive (R238). -/
def execPubLees (s : State) : Out :=
  if !s.curLaunch.desc.lv then .next (s.vineFault 3 (w64 s.cur.index))
  else if s.cur.leesPub then .next s
  else if s.qstPending || !s.quiet .all then .next s.lose
  else
    -- an item that takes no part hands on what it would receive
    if s.cur.leesPart then (if s.leesRoom then .next (s.publishLees (some s.cur.lees)) else .next s.lose)
    else
      match s.leesIn with
      | .waiting => .next s.lose
      | .start => if s.leesRoom then .next (s.publishLees none) else .next s.lose
      | .bank l => if s.leesRoom then .next (s.publishLees (some l)) else .next s.lose

/-- The cluster of the chunk after that of an item, where the item is one of its chunk's last n (R249). -/
def Launch.nextCluster (l : Launch) (i n : Nat) : Option Nat :=
  let c := l.desc.chunkOf i
  if i + n < l.desc.chunkHi c then Option.none
  else (l.chunks.find? (fun k => k.n = c + 1)).map (·.cluster)

/-! ## Group barriers (R252 to R256) -/

/-- The strands of a group that hold an item. -/
def State.groupStrands (s : State) (n cl g0 : Nat) : List Strand :=
  s.allStrands.filter (fun t => t.status != .idle && t.launch = n && clusterOf t.id = cl && t.g0 = g0)

/-- The barrier count of the strand's group. -/
def State.barrierOf (s : State) (t : Strand) : Nat := match s.groupOf? t with | some g => g.barrier | none => 0

/-- An item of a group arrives at its next barrier, or retires: the accesses in flight that its own follow, and its own, come before what the
items of the group do after that barrier (R254, R263). -/
def State.arrive (s : State) (n cl g0 : Nat) : State :=
  let ids := (s.stores.filter s.cur.precededBy).map (·.id)
  { s with groups := s.groups.map (fun g =>
      if g.launch = n && g.cluster = cl && g.g0 = g0 then { g with told := ids ++ g.told.filter s.inFlight } else g) }

/-- GBAR: arrives as a release at cluster scope, loses turns until the barrier completes and its release comes (R252 to R254). One issued
again after a trap arrives anew: at a barrier that has completed it waits for the release that it was given. -/
def execGbar (s : State) : Out :=
  .next (s.checked .gbar fun s =>
    if s.cur.atBar then
      if s.cur.gbar ≤ s.barrierOf s.cur && s.cur.relAt.isNone then { s with cur := { s.cur with atBar := false } }
      else s.lose
    else
      if !s.releases .cluster .all then s.lose
      else
        let s := s.arrive s.cur.launch (clusterOf s.cur.id) s.cur.g0
        { s with cur := { s.cur with atBar := true, gbar := s.cur.gbar + 1 } }.lose)

/-- The core of a slot within its cluster. -/
def coreInCluster (id : Nat) : Nat := coreOf id % 8

/-- GBAR_COMPLETE: every item of the group has arrived at the next barrier or retired; the releases are staggered (R252, R253). -/
def execGbarComplete (launch cluster g0 : Nat) (s : State) : Out :=
  match s.groups.find? (fun g => g.launch = launch && g.cluster = cluster && g.g0 = g0) with
  | none => .next s
  | some g =>
    let ts := s.groupStrands launch cluster g0
    let n := g.barrier + 1
    let drz := (s.launch launch).desc.drz
    let now := s.cycle (dieOfCluster cluster)
    if g.yielded || !(ts.any (fun t => t.atBar && t.gbar = n)) || (ts.filter (fun t => n ≤ t.gbar)).length + g.retired < g.size then .next s
    else
      let s := { s with groups := s.groups.map (fun (k : Group) => if k.launch = launch && k.cluster = cluster && k.g0 = g0 then { k with barrier := n, told := [], ready := k.told } else k) }
      .next (s.mapStrands (fun t => t.status != .idle && t.launch = launch && clusterOf t.id = cluster && t.g0 = g0 && t.atBar && t.gbar = n)
        (fun (t : Strand) => { t with relAt := some (now + 1 + drz * coreInCluster t.id) }))

/-- GBAR_RELEASE: the stagger of the release of the strand at its barrier expires; release acquires at cluster scope, after what the arrivals
put before it (R253, R254). -/
def execGbarRelease (s : State) : Out :=
  match s.cur.relAt with
  | none => .next s
  | some c =>
    if s.now < c || !s.cur.atBar then .next s
    else
      let ready := match s.groupOf? s.cur with | some g => g.ready | none => []
      .next (({ s with cur := { s.cur with relAt := none } }.follow ready true false).acquire .cluster .all)

/-- An item of the group that waits at its next barrier and has not published an entry, or its lees bank. -/
def holdsBack (n i : Nat) (lacks : Strand → Bool) (ts : List Strand) : Bool :=
  ts.any (fun t => t.index = i && t.atBar && t.gbar = n && lacks t)

/-- A strand that neither arrived nor retired waits for an item that waits at the barrier (R255): the source item, of all it waits for the
first that is such. -/
def Strand.blockedBy (t : Strand) (d : Desc) (n : Nat) (ts : List Strand) : Option Nat :=
  match t.waitRef with
  | w :: ws =>
    ((w :: ws).find? (fun w => w.dist ≤ t.index && holdsBack n (t.index - w.dist) (fun u => !u.vp.getLsbD w.entry) ts)).map
      (fun w => t.index - w.dist)
  | [] =>
    let carries := (List.range d.vcnt).any (fun j => !t.vw.getLsbD j && !t.vp.getLsbD j
        && holdsBack n (t.index - 1) (fun u => !u.vp.getLsbD j) ts)
      || (d.lv && !t.leesPub && !t.leesPart && holdsBack n (t.index - 1) (fun u => !u.leesPub) ts)
    if t.status = .ending && 1 ≤ t.index && carries then some (t.index - 1) else none

/-- The deadlock fault of a strand at the bundle where it waits, with the bits it had when it was last tried (R255, R273, R274). -/
def deadlockInfo (t : Strand) (i : Nat) : FaultInfo where
  cause := 9
  sub := 0
  slotA := false
  elem := 0
  addr := w64 i
  baddr := t.pc
  bundle := t.word
  resume := t.pc
  deferd := false
  prog := 0
  hnd := []
  pblk := 0

/-- VINE_BARRIER_DEADLOCK: where every item that has not arrived waits for one that has, every strand of the group faults (R255). -/
def execVineBarrierDeadlock (launch cluster g0 : Nat) (s : State) : Out :=
  match s.groups.find? (fun g => g.launch = launch && g.cluster = cluster && g.g0 = g0) with
  | none => .next s
  | some g =>
    let ts := s.groupStrands launch cluster g0
    let n := g.barrier + 1
    let d := (s.launch launch).desc
    let late := ts.filter (fun t => t.gbar < n)
    if g.yielded || ts.length + g.retired < g.size || late.isEmpty || late.any (fun t => (t.blockedBy d n ts).isNone) then .next s
    else
      .next (s.mapStrands (fun t => t.status != .idle && t.launch = launch && clusterOf t.id = cluster && t.g0 = g0)
        (fun (t : Strand) => { t with status := .running, faulting := some (deadlockInfo t ((t.blockedBy d n ts).getD t.index)) }))

/-! ## Events (R257) -/

/-- SEVT: a release, then an atomic add at the home that nothing waits for (R257). -/
def execSevt (a b : XReg) (scope : Scope) (s : State) : Out :=
  let ad := addr60 (s.rd a)
  let inc := s.rd b &&& 0x7FFFFFFFFFFFFFFF
  if ad % 8 != 0 then .next (s.misaligned (w64 ad))
  else
    match s.strandPlace .glob ad 8 .atomic with
    | .error e => .next (s.fault e.1 e.2 (w64 ad))
    | .ok p =>
      if (match p with | .mem k _ => s.poisoned (keysFrom k 8) | .sys _ => false) then .next (s.machineCheck (w64 ad))
      else
      match s.release scope .globalSp with
      | none => .next s.lose
      | some s =>
        match p with
        | .mem k _ => .next (s.queueAccess (keysFrom k 8) (.event inc) none).2
        | .sys pa =>
          match (s.keep [ad]).sysAsk (pa + 2 ^ 60) pa (.fetchAdd inc) with
          | (none, s) => .next s
          | (some .error, s) => .next (s.sysFault (w64 ad))
          | (some (.ok _), s) => .next s.sysEnd

/-- A WEVT is satisfied by a value of its event (R257). -/
def eventMet (v b : Word) : Bool := v.getLsbD 63 || decide (b.toNat % 2 ^ 63 ≤ v.toNat % 2 ^ 63)

/-- WEVT with the value last read: completes with an acquire, which waits for the strand's earlier loads, or loses the turn (R172, R257). -/
def State.wevtWith (s : State) (v b : Word) (scope : Scope) : State :=
  if eventMet v b && s.loadsDone .globalSp then { s with cur := { s.cur with seen := none } }.acquireRead scope .globalSp false
  else { s with cur := { s.cur with seen := some v } }.lose

/-- WEVT: reads the event at issue, and again when it is reread (R257). -/
def execWevt (a b : XReg) (scope : Scope) (s : State) : Out :=
  let ad := addr60 (s.rd a)
  if ad % 8 != 0 then .next (s.misaligned (w64 ad))
  else
    match s.strandPlace .glob ad 8 .read with
    | .error e => .next (s.fault e.1 e.2 (w64 ad))
    | .ok p =>
      match s.cur.seen with
      | some v => .next (s.wevtWith v (s.rd b) scope)
      | none =>
        match p with
        | .mem k _ =>
          let ks := keysFrom k 8
          let qs := loadKeys k 8 false
          if s.poisoned ks then .next (s.machineCheck (w64 ad))
          else
            match s.fixBefore ks with
            | none => .next s.lose
            | some s =>
              if !s.canRead s.cur s.nextId qs then .next s.lose
              else .next ((s.hears s.nextId qs).wevtWith (w64 (leNat (s.loadBytes s.cur s.nextId qs))) (s.rd b) scope)
        | .sys pa =>
          match (s.keep [ad]).sysAsk pa pa (.read 8) with
          | (none, s) => .next s
          | (some .error, s) => .next (s.sysFault (w64 ad))
          | (some (.ok v), s) => .next (s.sysEnd.wevtWith (v.setWidth 64) (s.rd b) scope)

/-- The strand's WEVT reads its event again at its next turn. -/
def State.reread (s : State) : State :=
  if s.cur.seen.isSome then { s with cur := { s.cur with seen := none } } else s

/-- WEVT_REREAD: after a write to the event's line (R257). -/
def execWevtReread (s : State) : Out := .next s.reread

/-- WEVT_POLL_TIMER: at the latest 10 µs after the last read (R257). -/
def execWevtPollTimer (s : State) : Out := .next s.reread

end Sys2Proof.Machine
end

