-- ==== Sys2Proof/Machine/System.lean ====
section
/-! DEFINITION. The system C-words (spec/04 R70 to R72; spec/02 R34; spec/09 R133; spec/12 R192, R194; spec/20 R277), the fetch of
bundles (spec/03 R51), illegal bundles (R65), and the deliveries before a bundle issues (spec/20 R270, R279; spec/12 R194). -/

namespace Sys2Proof.Machine

open Sys2Proof

/-! ## TRAP, ERET, HALT, UIRET -/

/-- TRAP: the strand resumes at the bundle after it (R271, R277). -/
def execTrap (code : BitVec 14) (s : State) : Out :=
  .next (s.raise { s.precise 0x0E 0 0 with elem := code.setWidth 32, resume := s.nextPc })

/-- ERET (R277). -/
def execEret (s : State) : Out := .next (s.checked .eret State.eretTo)

/-- HALT aborts the launch; the fault record of the handler's trap caused it (R277, R281). -/
def execHalt (s : State) : Out := .next (s.checked .halt fun s => s.abort s.cur.launch 3 s.cur.record)

/-- UIRET (R194). -/
def execUiret (s : State) : Out :=
  .next (s.checked .uiret fun s =>
    let t := s.cur.openWindows s.cur.uiWins
    { s with cur := { t with uiWins := [], inUi := false, npc := s.cur.uiPc } })

/-! ## Special registers (R71, R72) -/

/-- %vmode. -/
def Desc.vmode (d : Desc) : Word := w64 ((if d.det then 8 else 0) + (if d.lv then 4 else 0) + d.vm)

/-- %slotmode. -/
def slotmode (four : Bool) : Word := if four then 0x104 else 0x008

/-- %coord (R2, R72). -/
def coordOf (four : Bool) (id : Nat) : Word :=
  let fs := (if four then 4 else 8) * coreOf id + slotOf id
  w64 (fs * 2 ^ 19 + slotOf id * 2 ^ 16 + coreOf id % 8 * 2 ^ 13 + clusterOf id % 24 * 2 ^ 8 + dieOf id)

/-- The value of a special register, zero-extended; none where no register has the number. -/
def State.srRead (s : State) (n : Nat) : Option Word :=
  let t := s.cur
  match n with
  | 0x000 => some t.fpc
  | 0x001 => some t.fcause
  | 0x002 => some t.faddr
  | 0x003 => some (w64 (s.frecOf t))
  | 0x004 => some t.uid
  | 0x005 => some t.lees.tag
  | 0x006 => some (zext t.cuvc)
  | 0x007 => some s.curLaunch.desc.vmode
  | 0x008 => some (slotmode s.four)
  | 0x009 => some (coordOf s.four t.id)
  | 0x00A => some (w64 s.now)
  | 0x100 => some t.tvec
  | 0x101 => some t.epc
  | 0x102 => some (zext t.estat)
  | _ => none

/-- Bits 59:3, the address fields of %tvec and %epc (R275, R276). -/
def pcMask : Word := 0x0FFFFFFFFFFFFFF8

/-- Writes a special register: RW fields take the value, others keep theirs; none where no register or no writable field has the
number. -/
def State.srWrite (s : State) (n : Nat) (v : Word) : Option State :=
  let t := s.cur
  match n with
  | 0x000 => some { s with cur := { t with fpc := v &&& fpcMask } }
  | 0x006 => some { s with cur := { t with cuvc := v.setWidth 32 } }
  | 0x100 => some { s with cur := { t with tvec := v &&& pcMask } }
  | 0x101 => some { s with cur := { t with epc := v &&& pcMask } }
  | 0x102 => some { s with cur := { t with estat := (t.estat &&& 0b0111) ||| (v.setWidth 4 &&& 0b1000) } }
  | _ => none

/-- A quotient, root or element load of the strand has not landed (R93, R162). -/
def Strand.floatPending (t : Strand) : Bool :=
  t.pend.any (fun p => !p.landed && (match p.op with
    | .float _ | .elem .. => true
    | _ => false))

/-- MFS; of %fpc it waits for quotients, roots and element loads (R71, R93, R162). -/
def execMfs (d : XReg) (sr : BitVec 10) (s : State) : Out :=
  .next (s.checked (.mfs d sr) fun s =>
    match s.srRead sr.toNat with
    | none => s.illegal .code
    | some v => if sr = 0 && s.cur.floatPending then s.lose else s.wr d v)

/-- MTS; of %fpc it waits for quotients, roots and element loads (R71, R93, R162). -/
def execMts (sr : BitVec 10) (a : XReg) (s : State) : Out :=
  .next (s.checked (.mts sr a) fun s =>
    match s.srWrite sr.toNat (s.rd a) with
    | none => s.illegal .code
    | some s' => if sr = 0 && s.cur.floatPending then s.lose else s')

/-! ## REPART (R70) -/

/-- Some REPART waits for a core: the harvest unit hands it no item. -/
def State.stopped (s : State) (core : Nat) : Bool :=
  s.allStrands.any (fun t => t.status = .running && (match t.doing with
    | some (.repart c _) => c = core
    | _ => false))

/-- A slot of a core is occupied: an item, a reservation, or a strand that a yield put into the cellar and no restoration has taken
out. -/
def State.occupied (s : State) (core : Nat) : Bool :=
  s.allStrands.any (fun t => coreOf t.id = core && (t.status != .idle || t.reserved.isSome))
    || s.ctxs.any (fun p => p.2.saved.any (fun r => coreOf r.strand.id = core && r.yielded))

/-- A launch in the cluster needs the other slot mode. -/
def State.blocking (s : State) (cluster : Nat) (four : Bool) : Bool :=
  s.launches.any (fun l => l.live && l.parts.contains cluster && l.desc.sm != 0 && l.desc.sm != (if four then 2 else 1))

/-- REPART: stops dispatch to the target, and loses turns until it has switched. -/
def execRepart (a : XReg) (s : State) : Out :=
  .next (s.checked (.repart a) fun s =>
    match s.cur.doing with
    | some .acted => { s with cur := { s.cur with doing := none } }
    | some (.repart _ _) => s.lose
    | _ =>
      let q := s.rd a
      let t := nbits q.toNat 0 10
      if nbits q.toNat 17 47 != 0 || nbits q.toNat 10 6 != 0 || 767 < t || t = coreOf s.cur.id
          || !(s.ctx s.cur.ctx).clset.getLsbD (t / 8) then s.fault cProtection 7 q
      else { s with cur := { s.cur with doing := some (.repart t (q.getLsbD 16)) } }.lose)

/-- REPART_SWITCH: the drained target of the strand's REPART changes mode, its registers are zeroed, and dispatch resumes. -/
def execRepartSwitch (s : State) : Out :=
  match s.cur.doing with
  | some (.repart t four) =>
    if s.occupied t || s.blocking (t / 8) four then .next s
    else
      let s := (s.setCore t { s.core t with four := four }).mapStrands (fun u => coreOf u.id = t)
        (fun u => { u with x := Vector.replicate 64 0, h := Vector.replicate 16 0 })
      .next { s with cur := { s.cur with doing := some .acted } }
  | _ => .next s

/-! ## LAUNCH (R33, R34) -/

/-- The device queue of a context has room (R33). -/
def Context.room (c : Context) : Bool := c.devq.length < 256

/-- Appends a record to the device queue of the strand's context. -/
def State.appendRecord (s : State) (ws : List Word) : State :=
  let c := s.ctx s.cur.ctx
  s.setCtx s.cur.ctx { c with devq := c.devq ++ [ws] }

/-- The record is read: it is appended, or waits for room. -/
def State.launchWith (s : State) (ws : List Word) : State :=
  if (s.ctx s.cur.ctx).room then s.appendRecord ws
  else { s with cur := { s.cur with doing := some (.launch ws) } }.lose

/-- The eight words of a 64-byte value. -/
def wordsOf (v : Nat) : List Word := (List.range 8).map (fun i => w64 (v >>> (64 * i)))

/-- LAUNCH: the record is read in one access (R34). -/
def execLaunch (a : XReg) (s : State) : Out :=
  match s.cur.doing with
  | some .acted => .next { s with cur := { s.cur with doing := none } }
  | some (.launch _) => .next s.lose
  | _ =>
    let ad := addr60 (s.rd a)
    if ad % 64 != 0 then .next (s.misaligned (w64 ad))
    else
      match s.strandPlace .glob ad 64 .read with
      | .error e => .next (s.fault e.1 e.2 (w64 ad))
      | .ok p =>
        if !s.quiet .globalSp then .next s.lose
        else
          match p with
          | .mem k _ =>
            if s.poisoned (keysFrom k 64) then .next (s.machineCheck (w64 ad))
            else if !s.canRead s.cur s.nextId (loadKeys k 64 false) then .next s.lose
            else .next (s.launchWith (wordsOf (s.natAs s.cur.ctx k 64)))
          | .sys pa =>
            match (s.keep [ad]).sysAsk pa pa (.read 64) with
            | (none, s) => .next s
            | (some .error, s) => .next (s.sysFault (w64 ad))
            | (some (.ok v), s) => .next (s.sysEnd.launchWith (wordsOf v.toNat))

/-- LAUNCH_APPEND: the record of the strand's LAUNCH enters the device queue once it has room (R34). -/
def execLaunchAppend (s : State) : Out :=
  match s.cur.doing with
  | some (.launch ws) =>
    if (s.ctx s.cur.ctx).room then
      let s := s.appendRecord ws
      .next { s with cur := { s.cur with doing := some .acted } }
    else .next s
  | _ => .next s

/-! ## MBOX and RND -/

/-- MBOX: the oldest posted entry, freed, or all ones (R192). -/
def execMbox (d : XReg) (la : La) (s : State) : Out :=
  if s.pendFull d then .next s.lose
  else
    let v := s.cur.mbox.headD 0xFFFFFFFFFFFFFFFF
    let s := { s with cur := { s.cur with mbox := s.cur.mbox.drop 1 } }
    .next (if d = 0 then s else (s.issueLong (s.mkPend d la (.value v))).markWritten d)

/-- RND: the counter advances at issue (R133). -/
def execRnd (d : XReg) (la : La) (s : State) : Out :=
  if s.pendFull d then .next s.lose
  else
    let v := cuvee s.curLaunch.seed (w64 s.cur.index) s.cur.cuvc
    let s := { s with cur := { s.cur with cuvc := s.cur.cuvc + 1 } }
    .next (if d = 0 then s else (s.issueLong (s.mkPend d la (.value v))).markWritten d)

/-! ## Fetch (R51) and illegal bundles (R65) -/

/-- An address lies in a loaded .text of a context (R11, R51). -/
def Context.inText (c : Context) (va : Nat) : Bool := c.objects.any (fun o => o.text ≤ va && va < o.text + o.textLen)

/-- The next bundle has been fetched (R67). -/
def Strand.fetched (t : Strand) : Bool :=
  match t.ibuf with
  | some b => b.1 = t.pc
  | none => false

/-- A fault of a fetch: its address is the fetched one, its bundle the one that led to the fetch (R51). -/
def State.fetchFault (s : State) (cause sub : Nat) : State :=
  let t := s.cur
  if cause = cWalk then s.missed t.pc
  else
    s.raise { s.precise cause sub t.pc with
      slotA := false
      baddr := (t.last.map (·.1)).getD t.pc
      bundle := (t.last.map (·.2)).getD 0 }

/-- Fetches the strand's next bundle, or takes the fault of the fetch (R51). -/
def State.fetch (s : State) : State :=
  let a := addr60 s.cur.pc
  match s.strandPlace .glob a 8 .fetch with
  | .error e => s.fetchFault e.1 e.2
  | .ok p =>
    if !(s.ctx s.cur.ctx).inText a then s.fetchFault cProtection 8
    else
      match p with
      | .mem k _ =>
        if s.poisoned (keysFrom k 8) then s.fetchFault 0x0D 1
        else if !s.unowned (keysFrom k 8) then s.lose
        else { s with cur := { s.cur with ibuf := some (s.cur.pc, w64 (s.natAs s.cur.ctx k 8)) } }
      | .sys pa =>
        match (s.keep [a]).sysAsk pa pa (.read 8) with
        | (none, s) => s
        | (some .error, s) => s.sysEnd.fetchFault cProtection 6
        | (some (.ok v), s) => { s.sysEnd with cur := { s.sysEnd.cur with ibuf := some (s.cur.pc, v.setWidth 64) } }

/-- ILLEGAL_BUNDLE: a bundle of no assigned instruction (R65). -/
def execIllegalBundle (slotA : Bool) (sub : BitVec 8) (s : State) : Out :=
  .next ({ s with inA := slotA }.fault 1 sub.toNat 0)

/-! ## Deliveries before a bundle issues (R270) -/

/-- A deferred fault the strand takes at this turn: none while a handler runs, which holds it (R278, R279). -/
def State.readyFault (s : State) : Option (Cmd × DFault) :=
  if s.cur.status = .running && !s.cur.estat.getLsbD 0 && !s.cur.committed then
    match s.dueFault with
    | some c => c.dfault.map (fun f => (c, f))
    | none => none
  else none

/-- DEFERRED_FAULT_DELIVERY: at the strand's issue turn, after its pending scalar results have landed (R279). -/
def execDeferredFaultDelivery (s : State) : Out :=
  match s.readyFault with
  | some (c, f) => if s.cur.settled && s.cur.faulting.isNone then .next (s.deliver c f) else .next s
  | none => .next s

/-- A completion interrupt the strand takes at this turn (R194). -/
def State.readyInterrupt (s : State) : Option (BitVec 16 × Word) :=
  let t := s.cur
  if t.status = .running && !t.estat.getLsbD 0 && !t.inUi && !t.committed then t.heldInts.head? else none

/-- BUNDLE_FETCH: the fetch of the strand's next bundle ends (R51). What is delivered before a bundle comes before the fetch too (R270). -/
def execBundleFetch (s : State) : Out :=
  if s.cur.status = .running && s.cur.faulting.isNone && !s.cur.fetched && s.readyFault.isNone && s.readyInterrupt.isNone then .next s.fetch
  else .next s

/-- Takes a completion interrupt: the PC and the windows are saved, %uid is set, and the handler runs (R194). -/
def State.interrupt (s : State) (xid : BitVec 16) (handler : Word) : State :=
  let t := { s.cur with uiWins := s.cur.windows, heldInts := s.cur.heldInts.drop 1 }.closeWindows.abandon
  { s with cur := { t with uiPc := s.cur.pc, uid := zext xid, inUi := true, pc := w64 (addr60 handler) }, disp := .trapped }

/-- COMPLETION_INTERRUPT: at the strand's issue turn, after deferred faults and pending scalar results (R194, R270). -/
def execCompletionInterrupt (s : State) : Out :=
  match s.readyInterrupt with
  | some (xid, h) =>
    if s.cur.settled && s.cur.faulting.isNone && s.readyFault.isNone then .next (s.interrupt xid h) else .next s
  | none => .next s

end Sys2Proof.Machine
end

