-- ==== Sys2Proof/Machine/Loader.lean ====
section
/-! DEFINITION. The loader (spec/01 R10 to R15): the checks of a code object, its relocations, and the mapping of its sections. -/

namespace Sys2Proof.Machine

open Sys2Proof

/-! ## Page tables (R146, R147) -/

/-- Writes a page table entry under a context's KeyID. -/
def State.putPte (s : State) (v table idx e : Nat) : State := s.putBytes v (keysFrom (table + 8 * idx) 8) (leBytes 8 e)

/-- Zeroes a 64 KiB frame that becomes a table. -/
def State.clearFrame (s : State) (pa : Nat) : State :=
  { s with mem := s.mem.filter (fun c => !(pa ≤ c.1 && c.1 < pa + 2 ^ 16)) }

/-- Maps a 64 KiB page below a table, taking frames for missing tables from a list; none where the page is already mapped or no
frame is left. -/
def State.mapBelow (s : State) (v va leaf : Nat) (frames : List Nat) (table : Nat) :
    List (Nat × Nat × Nat) → Option (State × List Nat)
  | [] => none
  | [(_, lo, len)] =>
    let i := nbits va lo len
    if nbits (s.pte table i) 0 1 = 1 then none else some (s.putPte v table i leaf, frames)
  | (_, lo, len) :: ls =>
    let i := nbits va lo len
    let e := s.pte table i
    if nbits e 0 1 = 0 then
      match frames with
      | [] => none
      | f :: fs => ((s.clearFrame f).putPte v table i (f + 1)).mapBelow v va leaf fs f ls
    else if nbits e 1 1 = 1 then none
    else s.mapBelow v va leaf frames (pteAddr e) ls

/-- A leaf entry for a physical page with R, W and X. -/
def leafEntry (pa : Nat) (r w x : Bool) : Nat :=
  pa / 2 ^ 16 * 2 ^ 16 + 3 + (if r then 4 else 0) + (if w then 8 else 0) + (if x then 16 else 0)

/-- The 64 KiB pages that a range of bytes touches. -/
def pagesOf (va n : Nat) : List Nat := if n = 0 then [] else upTo (va / 2 ^ 16) ((va + n - 1) / 2 ^ 16 + 1 - va / 2 ^ 16)

/-- Maps a range of a context to consecutive physical bytes with one protection. -/
def State.mapRange (s : State) (v va pa n : Nat) (r w x : Bool) (frames : List Nat) : Option (State × List Nat) :=
  (pagesOf va n).foldl (fun o p =>
    match o with
    | none => none
    | some (s, fs) =>
      s.mapBelow v (p * 2 ^ 16) (leafEntry (pa / 2 ^ 16 * 2 ^ 16 + (p - va / 2 ^ 16) * 2 ^ 16) r w x) fs (s.ctx v).rootAddr levels)
    (some (s, frames))

/-- Clears the leaf entry of a page. -/
def State.unmapBelow (s : State) (v va table : Nat) : List (Nat × Nat × Nat) → State
  | [] => s
  | [(_, lo, len)] => s.putPte v table (nbits va lo len) 0
  | (_, lo, len) :: ls =>
    let e := s.pte table (nbits va lo len)
    if nbits e 0 1 = 0 || nbits e 1 1 = 1 then s else s.unmapBelow v va (pteAddr e) ls

/-- Unmaps a range of a context and drops its translations. -/
def State.unmapRange (s : State) (v va n : Nat) : State :=
  let s := (pagesOf va n).foldl (fun s p => s.unmapBelow v (p * 2 ^ 16) (s.ctx v).rootAddr levels) s
  { s with clusters := s.clusters.map (fun (q : Nat × Cluster) =>
    (q.1, { q.2 with tlb := q.2.tlb.filter (fun l => !(l.ctx = v && (pagesOf va n).contains (l.va / 2 ^ 16))) })) }

/-! ## Checks (R10, R11) -/

/-- R10. -/
def headerOk (o : CodeObject) : Bool :=
  o.eiClass = 2 && o.eiData = 1 && o.machine = 0x5A32 && (o.etype = 1 || o.etype = 3) && o.flags % 256 ≤ Config.acv
    && o.flags / 256 = 0

/-- R11 for one section. -/
def sectionOk (c : Section) : Bool :=
  let n := c.data.length
  if c.name = ".text" then c.progbits && c.alloc && c.exec && !c.write && c.align = 8 && n % 8 = 0
  else if c.name = ".const" then c.progbits && c.alloc && !c.exec && !c.write && 256 ≤ c.align
  else if c.name = ".vintage" then c.progbits && c.alloc && !c.exec && c.write && c.align = 16 && n % 16 = 0 && n ≤ 2 ^ 20
  else !c.alloc

/-- A section of an object by its name: the first of that name, which alone is mapped; the object may have another (DESIGN CHOICE,
log 47). -/
def sectionOf (o : CodeObject) (name : String) : List Byte :=
  match o.sections.find? (fun c => c.name = name) with
  | some c => c.data
  | none => []

/-- Slots of the vintage section. -/
def vintageSlots (o : CodeObject) : Nat := (sectionOf o ".vintage").length / 16

/-! ## Relocations (R13) -/

/-- The address at which a section is loaded; sections that are not mapped count from 0. -/
def placedAt (p : Placement) (name : String) : Nat :=
  if name = ".text" then p.text else if name = ".const" then p.const else if name = ".vintage" then p.vbase else 0

/-- The name of a section of an object. -/
def sectionName (o : CodeObject) (i : Nat) : String :=
  match o.sections[i]? with
  | some c => c.name
  | none => ""

/-- S: the final address of the symbol a relocation names, 0 for none; it must be a symbol of a section. -/
def symAddr (o : CodeObject) (p : Placement) (i : Nat) : Option Nat :=
  if i = 0 then some 0
  else
    match o.syms[i]? with
    | some y => if y.sec < o.sections.length then some ((placedAt p (sectionName o y.sec) + y.value) % 2 ^ 60) else none
    | none => none

/-- The types that patch an instruction field: P is then the address of the bundle. -/
def patchesBundle (r : Reloc) : Bool := 4 ≤ r.type && r.type ≤ 9

/-- P of R13. -/
def relocPlace (o : CodeObject) (p : Placement) (r : Reloc) : Nat :=
  let a := placedAt p (sectionName o r.sec) + r.off
  if patchesBundle r then a / 8 * 8 else a

/-- A patch: byte offset from r_offset, bytes of the word, first bit, bits, value. -/
structure Patch where
  skip : Nat
  size : Nat
  lo   : Nat
  len  : Nat
  val  : Int
deriving DecidableEq, Repr

/-- An integer lies in a range. -/
def within (lo v hi : Int) : Bool := decide (lo ≤ v) && decide (v ≤ hi)

/-- The +0x800 carry and the shift of the high parts. -/
def highPart (v : Int) : Int := (v + 0x800) / 4096

/-- S + A − P of a relocation. -/
def distance (o : CodeObject) (p : Placement) (r : Reloc) (sym : Nat) : Int := sym + r.addend - relocPlace o p r

/-- The patch of a relocation that computes with S, or none where its check fails (R13). -/
def symPatch (o : CodeObject) (p : Placement) (r : Reloc) : Option Patch :=
  match symAddr o p r.sym with
  | none => none
  | some sym =>
    let v : Int := sym + r.addend
    let d := distance o p r sym
    let top : Int := 2 ^ 31 - 2 ^ 11 - 1
    let bot : Int := -(2 ^ 31) - 2 ^ 11
    let ok := fun (c : Bool) (q : Patch) => if c then some q else none
    match r.type with
    | 1 => ok (within 0 v (2 ^ 60 - 1)) ⟨0, 8, 0, 64, v⟩
    | 2 => ok (within 0 v (2 ^ 60 - 1)) ⟨0, 8, 0, 60, v⟩
    | 3 => ok (within 0 v (2 ^ 32 - 1)) ⟨0, 4, 0, 32, v⟩
    | 4 => ok (within bot v top) ⟨0, 4, 0, 20, highPart v⟩
    | 5 => some ⟨0, 4, 0, 12, v⟩
    | 6 => ok (within bot d top) ⟨0, 4, 0, 20, highPart d⟩
    | 7 =>
      match o.relocs.find? (fun q => q.type = 6 && relocPlace o p q = sym) with
      | none => none
      | some q =>
        match symAddr o p q.sym with
        | none => none
        | some t => ok (r.addend = 0) ⟨0, 4, 0, 12, distance o p q t⟩
    | 8 => ok (d % 8 = 0 && within (-(2 ^ 22)) d (2 ^ 22 - 8)) ⟨0, 4, 0, 20, d / 8⟩
    | 9 =>
      let z := v - p.vbase
      ok (z % 16 = 0 && within 0 (z / 16) ((vintageSlots o : Int) - 1)) ⟨6, 2, 0, 16, z / 16⟩
    | _ => none

/-- The patch of one relocation, or none where its check fails: Z2_NONE patches no field, and the last three types name no symbol
(R13). -/
def patchOf (o : CodeObject) (p : Placement) (r : Reloc) : Option Patch :=
  match r.type with
  | 0 => some ⟨0, 0, 0, 0, 0⟩
  | 10 => some ⟨0, 8, 0, 64, if vintageSlots o = 0 then 0 else p.vbase⟩
  | 11 => some ⟨0, 8, 0, 64, if vintageSlots o = 0 then 0 else p.vdelta⟩
  | 12 => some ⟨0, 8, 0, 64, vintageSlots o⟩
  | _ => symPatch o p r

/-- Patches the bytes of a section; none where a word to be patched lies beyond it (DESIGN CHOICE, log 47). -/
def applyPatch (q : Patch) (off : Nat) (bs : List Byte) : Option (List Byte) :=
  let a := off + q.skip
  if q.size = 0 then some bs
  else if bs.length < a + q.size then none
  else
    let old := leNat ((bs.drop a).take q.size)
    some (bs.take a ++ leBytes q.size (putBits old q.lo q.len (modPow q.val q.len)) ++ bs.drop (a + q.size))

/-- APPLY_RELOCATION over the object: its patched sections, or the first relocation that fails (R13). -/
def relocate (p : Placement) (o : CodeObject) : List Reloc → List Section → Except Reloc (List Section)
  | [], cs => .ok cs
  | r :: rs, cs =>
    match patchOf o p r with
    | none => .error r
    | some q =>
      let c := cs[r.sec]?
      match applyPatch q r.off ((c.map (·.data)).getD []) with
      | some bs => relocate p o rs (match c with | some c => cs.set r.sec { c with data := bs } | none => cs)
      | none => .error r

/-! ## Slots and sites of .vintage (R108) -/

/-- A slot as the object holds it. -/
def fileSlot (o : CodeObject) (j : Nat) : Nat := leNat (((sectionOf o ".vintage").drop (16 * j)).take 16)

/-- A slot that may be loaded: an unused one is zero, bit 96 is 0, and so is word 2 of a branch slot. -/
def slotOk (n : Nat) : Bool :=
  let kind := nbits n 126 2
  (kind != 0 || n = 0) && nbits n 96 1 = 0 && (kind != 1 || nbits n 64 32 = 0)

/-- The KIND of the site in a long form with V = 1; none where the word is no site (R60, R106). -/
def siteKind (w : Nat) : Option Nat :=
  let op := nbits w 25 6
  let kind := if op = 4 then 1 else if op = 5 then 3 else 2
  let v := if op ≤ 5 then nbits w 35 1 else nbits w 47 1
  if nbits w 31 1 = 1 && (op = 4 || op = 5 || op = 8 || op = 9 || op = 0xC) && v = 1 then some kind else none

/-- A Z2_VSLOT16 relocation patches a site of .text, of the KIND of the slot it names. A slot out of range is left to R13. -/
def vslotOk (o : CodeObject) (p : Placement) (r : Reloc) : Bool :=
  let c := o.sections[r.sec]?
  let bs := (c.map (·.data)).getD []
  r.type != 9 || ((c.map (·.name)) = some ".text" && r.off % 8 = 0 && r.off + 8 ≤ bs.length
    && (match siteKind (leNat ((bs.drop r.off).take 8)), patchOf o p r with
      | some k, some q => nbits (fileSlot o q.val.toNat) 126 2 = k
      | some _, none => true
      | none, _ => false))

/-- The checks of R108, made in step 1 of R14. -/
def vintageOk (o : CodeObject) (p : Placement) : Bool :=
  (List.range (vintageSlots o)).all (fun j => slotOk (fileSlot o j)) && o.relocs.all (vslotOk o p)

/-! ## Loading (R14) -/

/-- A section may be placed: congruent addresses inside the memory of contexts and below the capability space. -/
def placeOk (va pa n al : Nat) : Bool :=
  n = 0 || (va % al = 0 && va % 2 ^ 16 = pa % 2 ^ 16 && va + n ≤ capVa && pa / 2 ^ 16 * 2 ^ 16 + n + 2 ^ 17 ≤ hbmTop)

/-- Pages of two ranges are distinct. -/
def apart (a n b m : Nat) : Bool := !(pagesOf a n).any (fun p => (pagesOf b m).contains p)

/-- The places the loader chose fit the object (R14 step 2, R11). -/
def placementOk (o : CodeObject) (p : Placement) : Bool :=
  let t := (sectionOf o ".text").length
  let c := (sectionOf o ".const").length
  let v := (sectionOf o ".vintage").length
  let al := match o.sections.find? (fun s => s.name = ".const") with
    | some s => s.align
    | none => 1
  let vas := [(p.text, t), (p.const, c), (p.vbase, v), (p.vdelta, v)]
  let pas := [(p.pText, t), (p.pConst, c), (p.pVbase, v), (p.pVdelta, v)]
  let disjoint := fun (l : List (Nat × Nat)) => (List.range 4).all (fun i => (List.range i).all (fun j =>
    match l[i]?, l[j]? with
    | some a, some b => apart a.1 a.2 b.1 b.2
    | _, _ => true))
  placeOk p.text p.pText t 8 && placeOk p.const p.pConst c al && placeOk p.vbase p.pVbase v 64 && placeOk p.vdelta p.pVdelta v 64
    && disjoint vas && disjoint pas
    && p.tables.all (fun f => f % 2 ^ 16 = 0 && f + 2 ^ 16 ≤ hbmTop && pas.all (fun q => apart q.1 q.2 f 1))

/-- The kernel symbols of R12: name, address, and whether the lookup service accepts the symbol. -/
def kernelsOf (o : CodeObject) (p : Placement) : List (String × Nat × Bool) :=
  o.syms.zipIdx.filterMap (fun y =>
    match symAddr o p y.2 with
    | some a => if y.2 = 0 || !y.1.isGlobal then none else some (y.1.name, a, y.1.isObject && y.1.size = 256)
    | none => none)

/-- Writes a section's bytes at its physical address and maps it. -/
def State.loadSection (v va pa : Nat) (bs : List Byte) (r w x : Bool) (o : Option (State × List Nat)) : Option (State × List Nat) :=
  match o with
  | none => none
  | some (s, fs) => (s.putBytes v (keysFrom pa bs.length) bs).mapRange v va pa bs.length r w x fs

/-- LOAD_CODE_OBJECT (R14): the object becomes visible whole, or is rejected and nothing changes. -/
def execLoadCodeObject (ctx : Nat) (obj : CodeObject) (pl : Placement) (s : State) : Out :=
  if 64 ≤ ctx || (s.ctx ctx).cstate != .created then .next s
  else if !headerOk obj || !obj.sections.all sectionOk then .next (s.answer (.status 1))
  else if !placementOk obj pl then .next s
  else if !vintageOk obj pl then .next (s.answer (.status 1))
  else
    match relocate pl obj obj.relocs obj.sections with
    | .error r => .next (s.answer (.rejected r.off r.type))
    | .ok cs =>
      let o := { obj with sections := cs }
      let vint := sectionOf o ".vintage"
      let m := State.loadSection ctx pl.text pl.pText (sectionOf o ".text") false false true (some (s, pl.tables))
      let m := State.loadSection ctx pl.const pl.pConst (sectionOf o ".const") true false false m
      let m := State.loadSection ctx pl.vbase pl.pVbase vint true true false m
      let m := State.loadSection ctx pl.vdelta pl.pVdelta (vint.map (fun _ => 0)) true true false m
      match m with
      | none => .next s
      | some (s, _) =>
        let c := s.ctx ctx
        let l : Loaded := ⟨c.nextObj, pl.text, (sectionOf o ".text").length, pl.const, (sectionOf o ".const").length, pl.vbase, pl.vdelta,
          vintageSlots o, kernelsOf obj pl⟩
        .next ((s.setCtx ctx { c with objects := c.objects ++ [l], nextObj := c.nextObj + 1 }).answer (.objectId c.nextObj))

/-! ## Unloading and lookup (R12, R15) -/

/-- An address lies in a loaded object. -/
def Loaded.holds (o : Loaded) (a : Nat) : Bool :=
  let inn := fun lo n => lo ≤ a && a < lo + n
  inn o.text o.textLen || inn o.const o.constLen || inn o.vbase (16 * o.vcount) || inn o.vdelta (16 * o.vcount)

/-- The valid records of a host ring, by index (R32). -/
def Context.valid (c : Context) : List Nat := (List.range ((c.tail + 2 ^ c.logn - c.head) % 2 ^ c.logn)).map (fun i => (c.head + i) % 2 ^ c.logn)

/-- The descriptor addresses of the launches queued in a context. -/
def State.queuedDescs (s : State) (v : Nat) : List Nat :=
  let c := s.ctx v
  let ring := c.valid.filterMap (fun i =>
    match s.seqPlace v (addr60 c.lqbase + 64 * i) .read with
    | some (.mem k _) => some (s.natAs v k 8)
    | _ => none)
  let held := match c.hostSt with
    | .waiting ws | .copying ws _ => [(ws.headD 0).toNat]
    | .none => []
  ring ++ held ++ c.devq.map (fun ws => (ws.headD 0).toNat)

/-- The launches that are queued or running and whose descriptor lies in an object (R15). -/
def State.usersOf (s : State) (v : Nat) (o : Loaded) : Nat :=
  ((s.queuedDescs v).filter o.holds).length
    + (s.launches.filter (fun l => l.ctx = v && (l.live || l.unfinished) && o.holds l.descAt)).length

/-- UNLOAD_CODE_OBJECT: Busy (status 1) while launches use the object; otherwise it is unmapped (R15). -/
def execUnloadCodeObject (ctx obj : Nat) (s : State) : Out :=
  let c := s.ctx ctx
  match c.objects.find? (fun o => o.id = obj) with
  | none => .next s
  | some o =>
    if s.usersOf ctx o != 0 then .next (s.answer (.status 1))
    else
      let s := s.setCtx ctx { c with objects := c.objects.filter (fun p => p.id != obj) }
      let s := (((s.unmapRange ctx o.text o.textLen).unmapRange ctx o.const o.constLen).unmapRange ctx o.vbase (16 * o.vcount)).unmapRange
        ctx o.vdelta (16 * o.vcount)
      .next (s.answer (.status 0))

/-- KERNEL_LOOKUP: the relocated address of a kernel symbol, or a refusal (status 1) (R12). -/
def execKernelLookup (ctx obj : Nat) (name : String) (s : State) : Out :=
  match (s.ctx ctx).objects.find? (fun o => o.id = obj) with
  | none => .next (s.answer (.status 1))
  | some o =>
    match o.kernels.find? (fun k => k.1 = name) with
    | some (_, a, true) => .next (s.answer (.value (w64 a)))
    | _ => .next (s.answer (.status 1))

end Sys2Proof.Machine
end

