-- ==== Sys2Proof/Machine/Launch.lean ====
section
/-! DEFINITION. The launch queues and the launch sequencer (spec/01 R16 to R27; spec/02 R29 to R38): queue registers, launch records,
acceptance and rejection, waits on events, and the seed stack. -/

namespace Sys2Proof.Machine

open Sys2Proof

/-! ## Queue registers (R32) -/

/-- The sequencer is handling the record at the head of the host ring: ACT. -/
def Context.act (c : Context) : Bool := c.hostSt != .none

/-- Empties the ring. -/
def Context.resetRing (c : Context) : Context := { c with head := 0, tail := 0 }

/-- A write to LQBASE. -/
def Context.writeBase (c : Context) (v : Word) : Context :=
  if c.en || c.act then c else { c.resetRing with lqbase := v &&& 0x0FFFFFFFFFFFF000 }

/-- EN becomes 1; a ring of no legal size sets ERR. -/
def Context.enable (c : Context) : Context := { c with en := true, err := c.err || !(6 ≤ c.logn && c.logn ≤ 16) }

/-- EN becomes 0: a wait at the head is abandoned, its record stays; a record past step 3 goes on. -/
def Context.stop (c : Context) : Context :=
  { c with
    en := false
    hostSt := match c.hostSt with
      | .copying ws got => .copying ws got
      | .waiting _ | .none => .none }

/-- A write to LQCFG: a change of LOGN first, under the old EN; then ERR is cleared by a 1; then EN. -/
def Context.writeCfg (c : Context) (v : Word) : Context :=
  let n := nbits v.toNat 0 5
  let c := if n = c.logn || c.en || c.act then c else { c.resetRing with logn := n }
  let c := if v.getLsbD 32 then { c with err := false } else c
  if v.getLsbD 31 then c.enable else c.stop

/-- A write to LQTAIL: taken, or ignored with ERR. -/
def Context.writeTail (c : Context) (v : Word) : Context :=
  let m := 2 ^ c.logn
  let t := nbits v.toNat 0 16
  let n := (c.tail + m - c.head) % m
  let a := (t + m - c.tail) % m
  if m ≤ t || m - 1 < n + a then { c with err := true } else { c with tail := t }

/-- Changes a context's registers; there are 64. -/
def State.onCtx (s : State) (v : Nat) (f : Context → Context) : State := if 64 ≤ v then s else s.setCtx v (f (s.ctx v))

/-- Changes queue registers through the function of their context; in recovery only PF0 answers (R307). -/
def State.onQueue (s : State) (v : Nat) (f : Context → Context) : State :=
  if s.pkg.recovery && v != 0 then s else s.onCtx v f

/-- LQBASE_WRITE. -/
def execLqbaseWrite (ctx : Nat) (v : Word) (s : State) : Out := .next (s.onQueue ctx (fun c => c.writeBase v))
/-- LQCFG_WRITE. -/
def execLqcfgWrite (ctx : Nat) (v : Word) (s : State) : Out := .next (s.onQueue ctx (fun c => c.writeCfg v))
/-- QUEUE_ENABLE: EN set to 1 with LOGN unchanged. -/
def execQueueEnable (ctx : Nat) (s : State) : Out := .next (s.onQueue ctx Context.enable)
/-- QUEUE_STOP: EN set to 0 with LOGN unchanged. -/
def execQueueStop (ctx : Nat) (s : State) : Out := .next (s.onQueue ctx Context.stop)
/-- LQTAIL_DOORBELL. -/
def execLqtailDoorbell (ctx : Nat) (v : Word) (s : State) : Out := .next (s.onQueue ctx (fun c => c.writeTail v))

/-! ## Reads of the sequencer -/

/-- The 64-byte piece or word at an address, as `n` words in one access; none where a page forbids it or its target fails. Words of
system space are free values, and so is whether their target fails (log 56). Bytes marked with an uncorrectable error are read as they
stand (DESIGN CHOICE, log 50). -/
def State.seqRead (s : State) (v a n : Nat) : Option (List Word) × State :=
  match s.seqPlace v a .read with
  | none => (none, s)
  | some (.mem k _) => (some ((List.range n).map (fun i => w64 (s.natAs v (k + 8 * i) 8))), s)
  | some (.sys pa) =>
    match s.send v pa (.read (8 * n)) with
    | none => (none, s)
    | some s =>
      let f := s.free
      (if (Config.freeValue f).getLsbD 0 then none else some ((List.range n).map (fun i => Config.freeValue (f + 1 + i))),
        { s with free := f + n + 1 })

/-- A read of `n` words that the sequencer has gone by reached the home of those in memory (R168); one after which it goes on waiting might as
well have been made before. -/
def State.seqNote (s : State) (v a n : Nat) : State :=
  match s.seqPlace v a .read with
  | some (.mem k _) => s.noteOther (keysFrom k (8 * n))
  | some (.sys _) | none => s

/-! ## Launch records (R29, R30) -/

/-- A launch record. -/
structure Rcd where
  desc : Word
  lctl : Word
  weva : Word
  wval : Word
  seva : Word
  sinc : Word
  seed : Word
  stat : Word
deriving DecidableEq, Repr

/-- The record of eight words. -/
def rcdOf (ws : List Word) : Rcd :=
  let w := fun i => ws.getD i 0
  ⟨w 0, w 1, w 2, w 3, w 4, w 5, w 6, w 7⟩

/-- PRI. -/
def Rcd.pri (r : Rcd) : Nat := nbits r.lctl.toNat 0 3
/-- SOP. -/
def Rcd.sop (r : Rcd) : Nat := nbits r.lctl.toNat 4 2

/-- Step 1 of R35 for a record that was read. -/
def Rcd.wellFormed (r : Rcd) : Bool :=
  nbits r.lctl.toNat 9 55 = 0 && nbits r.lctl.toNat 6 2 = 0 && nbits r.lctl.toNat 3 1 = 0 && !r.wval.getLsbD 63 && !r.sinc.getLsbD 63
    && nbits r.desc.toNat 60 4 = 0 && r.desc.toNat % 256 = 0 && r.stat.toNat % 8 = 0

/-- An event address of a record can be used (R35 step 2). -/
def State.eventOk (s : State) (v : Nat) (a : Word) : Bool :=
  a = 0 || (a.toNat % 8 = 0 && (s.seqPlace v (addr60 a) .atomic).isSome)

/-! ## Descriptor and table checks (R16 to R27) -/

/-- A descriptor from its 32 words. -/
def descOf (ws : List Word) : Desc :=
  let w := fun i => ws.getD i 0
  ⟨w 0, w 1, w 2, w 3, w 4, w 5, w 6, w 7, w 8, w 9, (List.range 8).map (fun j => w (10 + j)), w 18⟩

/-- Check 0x04: reserved fields and regions are zero. -/
def reservedOk (ws : List Word) (d : Desc) : Bool :=
  nbits d.shape.toNat 48 16 = 0 && nbits d.shape.toNat 42 3 = 0 && nbits d.ctl.toNat 56 8 = 0 && nbits d.ctl.toNat 22 17 = 0
    && nbits d.vine.toNat 44 20 = 0 && (List.range 8).all (fun j => j < d.vcnt || (d.vreg j = 0 && d.vdefOf j = 0))
    && nbits d.ident.toNat 32 32 = 0 && (ws.drop 19).all (· = 0)

/-- Check 0x07. -/
def Desc.rangeOk (d : Desc) : Bool :=
  let last := d.fin - 1
  d.count = 0 || (last < 2 ^ 64 && (64 ≤ d.widthSum 6 || last < 2 ^ d.widthSum 6))

/-- Check 0x09: the group fits the strands of a cluster in the required mode; an invalid mode is left to check 0x0C. -/
def Desc.groupOk (d : Desc) : Bool := !d.gb || d.sm = 3 || 2 ^ d.gbits ≤ (if d.sm = 1 then 64 else 32)

/-- Check 0x0A. -/
def Desc.vineOk (d : Desc) : Bool :=
  d.vcnt ≤ 8 && (List.range d.vcnt).all (fun j => 8 ≤ d.vreg j && d.vreg j ≤ 31 && (List.range j).all (fun i => d.vreg i != d.vreg j))

/-- Check 0x0D. -/
def Desc.spbOk (d : Desc) : Bool := d.gran * 4096 + (if d.l1s = 0 then 1 else d.l1s) * 2 ^ 19 ≤ 2 ^ 22

/-- Validity of a format table entry (R27). -/
def entryOk (i e : Nat) : Bool :=
  let ef := eEF e
  let scf := eSCF e
  let blk := eBLK e
  let low := 1 ≤ ef && ef ≤ 7
  ef < 12 && scf != 3 && (ef != 0 || e = 0) && (i != 0 || e = 0) && (scf != 1 || (low && (blk = 4 || blk = 5 || blk = 6)))
    && (scf = 1 || blk = 0) && (scf != 2 || low) && (scf != 0 || nbits e 80 48 = 0) && eRND e ≤ 4 && (eRND e < 3 || low)
    && nbits e 16 64 = 0 && nbits e 4 3 = 0

/-- Check 0x0F. -/
def Desc.vintageOk (d : Desc) : Bool :=
  d.vcount.toNat ≤ 65536 && (if d.vcount = 0 then d.vbase = 0 && d.vdelta = 0 else d.vbase.toNat % 64 = 0 && d.vdelta.toNat % 64 = 0)

/-- The checks of R23 in order on a descriptor's words: the first that fails; 0x0E's table is `fmt`, none where it is not readable. -/
def descFault (c : Context) (ws : List Word) (fmt : Option (List (BitVec 128))) : Option Nat :=
  let d := descOf ws
  let checks : List (Bool × Nat) := [
    (nbits d.ident.toNat 16 16 = 0x4B44 && nbits d.ident.toNat 8 8 = 1, 2),
    (nbits d.ident.toNat 0 8 ≤ Config.acv, 3),
    (reservedOk ws d, 4),
    (nbits d.entry.toNat 60 4 = 0 && d.entry.toNat % 8 = 0 && c.inText (addr60 d.entry), 5),
    ((List.range 6).all (fun k => d.width k ≤ 64) && d.widthSum 6 ≤ 64, 6),
    (d.rangeOk, 7),
    (d.glv != 6, 8),
    (d.groupOk, 9),
    (d.vineOk, 10),
    (d.vm ≤ 1 && (!d.det || d.vm = 1), 11),
    (d.sm != 3 && d.l1s ≤ 4, 12),
    (d.spbOk, 13),
    (match fmt with | some f => f.zipIdx.all (fun p => entryOk p.2 p.1.toNat) | none => false, 14),
    (d.vintageOk, 15)]
  (checks.find? (fun p => !p.1)).map (·.2)

/-! ## Seed operations (R38) -/

/-- The seed stack after an operation, top first, and the job seed; or the code of its rejection. -/
def seedOp (sop : Nat) (seed : Word) (st : List Word) : Except Nat (List Word × Word) :=
  let top := st.headD 0
  if sop = 0 then .ok (st, top)
  else if sop = 2 then (if st.length ≤ 1 then .error 0x12 else .ok (st.drop 1, (st.drop 1).headD 0))
  else if 16 ≤ st.length then .error 0x13
  else
    let p := if sop = 1 then seed else mix64 (top ^^^ (seed * cuveeC))
    .ok (p :: st, p)

/-! ## Acceptance and rejection (R35) -/

/-- The record leaves the head of its queue. -/
def Context.popHead (c : Context) (dev : Bool) : Context :=
  if dev then { c with devq := c.devq.drop 1, devSt := .none }
  else { c with head := (c.head + 1) % 2 ^ c.logn, hostSt := .none }

/-- A status or signal write that a record asks for waits for a copy command that owns its line (R188). -/
def State.reportHeld (s : State) (v : Nat) (r : Rcd) (signal : Bool) : Bool :=
  (r.stat != 0 && s.seqHeld v (addr60 r.stat) .write) || (signal && r.seva != 0 && s.seqHeld v (addr60 r.seva) .atomic)

/-- LAUNCH_REJECT: STATE 0x4 with the code, and poison of the signal event except under code 0x15. -/
def State.reject (s : State) (v : Nat) (dev : Bool) (r : Rcd) (code : Nat) : State :=
  if s.reportHeld v r (code != 0x15) then s
  else
    let s := s.writeStatus v r.stat 0 4 code
    let s := if code = 0x15 then s else (s.signalEvent v r.seva r.sinc true).1
    s.setCtx v ((s.ctx v).popHead dev)

/-- LAUNCH_ACCEPT: the seed operation, the launch number, STATE 0x1 (R35 step 7). -/
def State.accept (s : State) (v : Nat) (dev : Bool) (r : Rcd) (d : Desc) (fmt : List (BitVec 128)) (st : List Word) (seed : Word) : State :=
  let n := s.pkg.nextNum
  let l : Launch := { Launch.none with
    num := n
    ctx := v
    pri := r.pri
    descAt := addr60 r.desc
    desc := d
    fmt := fmt
    seed := seed
    stat := r.stat
    seva := r.seva
    sinc := r.sinc
    ssys := r.lctl.getLsbD 8
    state := .accepted
    merged := false
    signed := false
    owed := [] }
  let c := { (s.ctx v).popHead dev with seeds := st }
  let s := { s.setCtx v c with launches := s.launches ++ [l], pkg := { s.pkg with nextNum := n + 1 } }
  s.writeStatus v r.stat n 1 0

/-- What the sequencer does with the record at the head of a context's queue. -/
def Context.headOf (c : Context) (dev : Bool) : HeadState := if dev then c.devSt else c.hostSt

/-- Keeps a record at the head of its queue while its wait or its copying lasts. -/
def State.setHead (s : State) (v : Nat) (dev : Bool) (h : HeadState) : State :=
  let c := s.ctx v
  s.setCtx v (if dev then { c with devSt := h } else { c with hostSt := h })

/-- The descriptor and the table have been copied: R23 checks them, and the record is rejected or accepted. A seed operation that no
longer fits, after the other queue's, rejects it then (log 62). -/
def State.checkCopy (s : State) (v : Nat) (dev : Bool) (r : Rcd) (got : List Word) (fmt : Option (List (BitVec 128))) : State :=
  match descFault (s.ctx v) got fmt with
  | some n => s.reject v dev r n
  | none =>
    match seedOp r.sop r.seed (s.ctx v).seeds with
    | .error n => s.reject v dev r n
    | .ok (st, seed) => if s.reportHeld v r false then s else s.accept v dev r (descOf got) (fmt.getD []) st seed

/-- A format table from its 32 words. -/
def tableOf (ws : List Word) : List (BitVec 128) := (List.range 16).map (fun i => ws.getD (2 * i + 1) 0 ++ ws.getD (2 * i) 0)

/-- FMTP has selector 0 and is aligned to 256 (R23). -/
def fmtpOk (fmtp : Word) : Bool := nbits fmtp.toNat 60 4 = 0 && fmtp.toNat % 256 = 0

/-- Step 6 of R35: reads the next 64-byte piece of the descriptor, then of the table, and checks the copy once it is whole (R22). -/
def State.copyPiece (s : State) (v : Nat) (dev : Bool) (ws got : List Word) : State :=
  let r := rcdOf ws
  let n := got.length
  let d := descOf got
  if n = 64 then s.checkCopy v dev r (got.take 32) (some (tableOf (got.drop 32)))
  else if n = 32 && !fmtpOk d.fmtp then s.checkCopy v dev r got none
  else
    let a := if n < 32 then addr60 r.desc + 8 * n else addr60 d.fmtp + 8 * (n - 32)
    if s.seqHeld v a .read then s
    else
      match s.seqRead v a 8 with
      | (some p, s) => (s.seqNote v a 8).setHead v dev (.copying ws (got ++ p))
      | (none, s) => if n < 32 then s.reject v dev r 1 else s.checkCopy v dev r (got.take 32) none

/-- Step 5 of R35; the copying of step 6 begins. -/
def State.enter (s : State) (v : Nat) (dev : Bool) (ws : List Word) : State :=
  let r := rcdOf ws
  match seedOp r.sop r.seed (s.ctx v).seeds with
  | .error n => s.reject v dev r n
  | .ok _ => s.setHead v dev (.copying ws [])

/-- Steps 3 to 5 of R35: reads the wait event, and waits, rejects or goes on (R36). -/
def State.await (s : State) (v : Nat) (dev : Bool) (ws : List Word) : State :=
  let r := rcdOf ws
  if r.weva = 0 then s.enter v dev ws
  else if s.seqHeld v (addr60 r.weva) .read then s.setHead v dev (.waiting ws)
  else
    match s.seqRead v (addr60 r.weva) 1 with
    | (none, s) => s.reject v dev r 0x11
    | (some es, s) =>
      let e := es.headD 0
      let t := s.seqNote v (addr60 r.weva) 1
      if e.getLsbD 63 then t.reject v dev r 0x14
      else if r.wval.toNat % 2 ^ 63 ≤ e.toNat % 2 ^ 63 then t.enter v dev ws
      else s.setHead v dev (.waiting ws)

/-- A walk that the checks of a record's events take waits for a copy command that owns a line it reads (R188). -/
def State.eventsHeld (s : State) (v : Nat) (r : Rcd) : Bool :=
  (r.weva != 0 && s.walkHeld v (addr60 r.weva)) || (r.seva != 0 && s.walkHeld v (addr60 r.seva))

/-- A record at the head of a queue from step 1 on (R35). -/
def State.handleRecord (s : State) (v : Nat) (dev : Bool) (ws : List Word) : State :=
  let r := rcdOf ws
  if !r.wellFormed then s.setCtx v ((s.ctx v).popHead dev)
  else if s.eventsHeld v r then s
  else if !s.eventOk v r.weva then s.reject v dev r 0x11
  else if !s.eventOk v r.seva then s.reject v dev r 0x15
  else s.await v dev ws

/-- The host ring has a record to handle (R32). -/
def Context.ringReady (c : Context) : Bool :=
  c.en && 6 ≤ c.logn && c.logn ≤ 16 && c.head != c.tail && c.hostSt = .none

/-- The record at the head of a queue is read: a host record from the ring, a device record from the queue (R32, R33). -/
def State.readHead (s : State) (v : Nat) (dev : Bool) : State :=
  let c := s.ctx v
  if dev then
    match c.devq with
    | ws :: _ => s.handleRecord v true ws
    | [] => s
  else
    let a := addr60 c.lqbase + 64 * c.head
    if !c.ringReady || s.seqHeld v a .read then s
    else
      match s.seqRead v a 8 with
      | (none, s) => s.setCtx v (c.popHead false)
      | (some ws, s) => (s.seqNote v a 8).handleRecord v false ws

/-- LAUNCH_RECORD_HEAD: the sequencer handles the record at the head of a context's host or device queue, or reads the next piece of what
it copies for it (R35, R22). -/
def execLaunchRecordHead (ctx : Nat) (dev : Bool) (s : State) : Out :=
  let c := s.ctx ctx
  if c.cstate != .created || s.pkg.recovery then .next s
  else
    match c.headOf dev with
    | .waiting _ => .next s
    | .copying ws got => .next (s.copyPiece ctx dev ws got)
    | .none => .next (s.readHead ctx dev)

/-- A wait at the head of a queue is looked at again (R36). -/
def State.reevaluate (s : State) (v : Nat) (dev : Bool) : State :=
  match (s.ctx v).headOf dev with
  | .waiting ws => s.await v dev ws
  | .copying _ _ | .none => s

/-- EVENT_WAIT_REEVALUATE: after a write to the event (R36). -/
def execEventWaitReevaluate (ctx : Nat) (dev : Bool) (s : State) : Out := .next (s.reevaluate ctx dev)

/-- EVENT_POLL_TIMER: at the latest every 10 µs (R36). -/
def execEventPollTimer (ctx : Nat) (dev : Bool) (s : State) : Out := .next (s.reevaluate ctx dev)

end Sys2Proof.Machine
end

