-- ==== Sys2Proof/Machine/Harvest.lean ====
section
/-! DEFINITION. Placement and the life of items (spec/02 R39 to R49; spec/07 R114; spec/10 R138, R139; spec/18 R246, R248, R250;
spec/19 R266; spec/20 R295). -/

namespace Sys2Proof.Machine

open Sys2Proof

/-! ## Participation (R41, R138) -/

/-- Scratch bytes of a cluster whose L1 takes n × 512 KiB. -/
def scratchOf (n : Nat) : Nat := 2 ^ 22 - n * 2 ^ 19

/-- A cluster may change its split: no item, reservation, group allocation, held chunk or yielded launch (R138), and no launch that may still
be handed a chunk there, whose groups might then wait for space for ever (R41; DESIGN CHOICE, log 48). -/
def State.idleCluster (s : State) (c : Nat) : Bool :=
  s.allStrands.all (fun t => clusterOf t.id != c || (t.status = .idle && t.reserved.isNone))
    && s.groups.all (fun g => g.cluster != c) && s.harvest.all (fun h => h.cluster != c
      || (h.chunks.isEmpty && !h.yielded && !(s.launch h.launch).moreChunks c))

/-- No core of the cluster is in a mode other than SM requires. -/
def State.modesOk (s : State) (c sm : Nat) : Bool :=
  (List.range 8).all (fun k => sm = 0 || (s.core (8 * c + k)).four == (sm == 2))

/-- The L1 size with which a cluster participates in a launch; none where it does not. -/
def State.splitFor (s : State) (c : Nat) (d : Desc) : Option Nat :=
  let k := s.cluster c
  let now := k.split.getD k.l1size
  let idle := k.split.isNone && s.idleCluster c
  let fits := fun n => d.gran * 4096 ≤ scratchOf n
  if d.l1s != 0 then (if now = d.l1s then some now else if idle then some d.l1s else none)
  else if fits now then some now
  else if idle then [4, 3, 2, 1].find? fits
  else none

/-- The participating clusters of a launch, rising (R41). -/
def State.participants (s : State) (l : Launch) : List Nat :=
  (List.range 96).filter (fun c => (s.ctx l.ctx).clset.getLsbD c && !(s.cluster c).retired && s.modesOk c l.desc.sm
    && (s.splitFor c l.desc).isSome)

/-- Starts the change of a cluster's split that a launch needs. -/
def State.startSplit (s : State) (c : Nat) (d : Desc) : State :=
  let k := s.cluster c
  match s.splitFor c d with
  | some n => if k.split.isNone && n != k.l1size then s.setCluster c { k with split := some n } else s
  | none => s

/-- PARTICIPATION_EVALUATE: fixes a launch's clusters and sets the splits of idle ones, or leaves the launch waiting (R41). -/
def execParticipationEvaluate (launch : Nat) (s : State) : Out :=
  match s.launch? launch with
  | none => .next s
  | some l =>
    let ps := s.participants l
    if !l.live || !l.parts.isEmpty || ps.isEmpty then .next s
    else
      let s := ps.foldl (fun s c => s.startSplit c l.desc) s
      .next { s.setLaunch { l with parts := ps } with
        harvest := s.harvest ++ ps.map (fun c => ⟨launch, c, [], 0, [], false, false, false, false, 0⟩) }

/-- L1_SPLIT_COMPLETE: the change ends with the L1 empty (R138). -/
def execL1SplitComplete (cluster : Nat) (s : State) : Out :=
  let k := s.cluster cluster
  match k.split with
  | some n => .next (s.setCluster cluster { k with l1size := n, split := none, l1 := [] })
  | none => .next s

/-! ## Chunks (R42, R43) -/

/-- The harvest state of a launch in a cluster. -/
def State.harvestOf? (s : State) (n c : Nat) : Option Harvest := s.harvest.find? (fun h => h.launch = n && h.cluster = c)

/-- Replaces a harvest state. -/
def State.setHarvest (s : State) (h : Harvest) : State :=
  { s with harvest := s.harvest.map (fun k => if k.launch = h.launch && k.cluster = h.cluster then h else k) }

/-- The cluster of the next chunk of a launch: n mod P, or the lowest that has requested one. Of requests that arrived in different cycles R43
does not say which is served first: the lowest cluster's is, as of those of one cycle (DESIGN CHOICE, log 64). -/
def State.chunkTarget (s : State) (l : Launch) : Option Nat :=
  if l.desc.dyn then l.parts.find? (fun c => (s.harvestOf? l.num c).any (·.wants))
  else l.parts[l.nchunk % l.parts.length]?

/-- CHUNK_ASSIGN: the next chunk goes to its cluster, which accepts none while its split changes (R43, R138). -/
def execChunkAssign (launch : Nat) (s : State) : Out :=
  match s.launch? launch with
  | none => .next s
  | some l =>
    match s.chunkTarget l with
    | none => .next s
    | some c =>
      match s.harvestOf? launch c with
      | none => .next s
      | some h =>
        if !l.live || l.desc.chunks ≤ l.nchunk || (s.cluster c).split.isSome then .next s
        else
          let s := s.setLaunch { l with nchunk := l.nchunk + 1, chunks := l.chunks ++ [⟨l.nchunk, c⟩] }
          .next (s.setHarvest { h with chunks := h.chunks ++ [l.nchunk], wants := false })

/-- CHUNK_REQUEST: under dynamic placement a cluster with fewer than two chunks asks for one (R43). -/
def execChunkRequest (launch cluster : Nat) (s : State) : Out :=
  match s.launch? launch, s.harvestOf? launch cluster with
  | some l, some h =>
    if l.live && l.desc.dyn && h.chunks.length < 2 && !h.wants && !h.yielded && l.nchunk < l.desc.chunks then
      .next (s.setHarvest { h with wants := true })
    else .next s
  | _, _ => .next s

/-! ## Groups (R44, R139) -/

/-- The next index a harvest unit dispatches. -/
def Harvest.nextItem (h : Harvest) (d : Desc) : Option Nat :=
  h.chunks.findSome? (fun n =>
    let i := Nat.max h.next (d.chunkLo n)
    if i < d.chunkHi n then some i else none)

/-- A group's record. -/
def State.group? (s : State) (n c g0 : Nat) : Option Group :=
  s.groups.find? (fun g => g.launch = n && g.cluster = c && g.g0 = g0)

/-- A run of granules meets no allocation in force in the cluster. -/
def State.scratchFree (s : State) (c off gran : Nat) : Bool :=
  off % 4096 = 0 && off + gran * 4096 ≤ scratchOf (s.cluster c).l1size
    && s.groups.all (fun g => g.cluster != c || g.yielded || off + gran * 4096 ≤ g.off || g.off + g.gran * 4096 ≤ off)

/-- Zeroes granules and sets their tags to 0; nothing an earlier group did reaches them any more (R139, R180). -/
def State.clearScratch (s : State) (c off gran : Nat) : State :=
  let lo := scrKey c off
  let inn := fun k => lo ≤ k && k < lo + gran * 4096
  let k := s.cluster c
  { s.setCluster c { k with tags := k.tags.filter (fun t => !(off / 4096 ≤ t.1 && t.1 < off / 4096 + gran)) } with
    mem := s.mem.filter (fun x => !inn x.1)
    poison := s.poison.filter (fun p => !inn p)
    told := s.told.filter (fun m => !inn m.key)
    stores := s.stores.filter (fun a => !a.keys.any inn) }

/-- GROUP_ALLOCATE: the next group of a launch in a cluster gets its granules at offset `off` (R44, R139). -/
def execGroupAllocate (launch cluster off : Nat) (s : State) : Out :=
  match s.launch? launch, s.harvestOf? launch cluster with
  | some l, some h =>
    match h.nextItem l.desc with
    | none => .next s
    | some i =>
      let g0 := l.desc.groupOf i
      let n := l.desc.gran
      if !l.live || h.yielded || h.yielding || (s.group? launch cluster g0).isSome || (s.cluster cluster).split.isSome
          || !(n = 0 || s.scratchFree cluster off n) then .next s
      else
        let s := s.clearScratch cluster off n
        .next { s with groups := s.groups ++ [⟨launch, cluster, g0, if n = 0 then 0 else off, n, l.desc.groupSize g0, 0, 0, false, [], []⟩] }
  | _, _ => .next s

/-! ## Strands (R39, R44) -/

/-- A slot of its core's mode in which a launch may run: idle, its core neither draining nor retired. -/
def State.usable (s : State) (l : Launch) (id : Nat) : Bool :=
  let four := (s.core (coreOf id)).four
  clusterOf id < 96 && slotOf id < (if four then 4 else 8) && (l.desc.sm = 0 || four == (l.desc.sm == 2)) && !s.stopped (coreOf id)
    && !(s.cluster (clusterOf id)).retired && (s.strand id).status = .idle

/-- The harvest states that hold a vine context in a cluster (R248). -/
def State.trellises (s : State) (c : Nat) : List Harvest := s.harvest.filter (fun h => h.cluster = c && s.holdsContext h)

/-- The lowest vine context of a cluster that nothing holds, of four (R248). -/
def State.freeTrellis (s : State) (c : Nat) : Option Nat :=
  (List.range 4).find? (fun j => (s.trellises c).all (fun h => h.slot != j))

/-- The launch needs a vine context (R248). -/
def Desc.needsTrellis (d : Desc) : Bool := d.vcnt != 0 || d.lv

/-- A merge into the launch's delta copy is in progress (R114 step 3). -/
def State.merging (s : State) (l : Launch) : Bool := s.launches.any (fun k => k.num != l.num && !k.live && !k.merged && sameDelta k l)

/-- The next item of a launch in a cluster, where nothing but a strand is missing (R44, R114, R248). -/
def State.readyItem (s : State) (l : Launch) (h : Harvest) : Option (Nat × Group) :=
  match h.nextItem l.desc with
  | none => none
  | some i =>
    match s.group? l.num h.cluster (l.desc.groupOf i) with
    | none => none
    | some g =>
      if l.live && !h.yielded && !h.yielding && h.live.all (fun j => i < j + 64)
          && (!l.desc.needsTrellis || h.trellis || (s.freeTrellis h.cluster).isSome) && !s.merging l then some (i, g)
      else none

/-- The strands reserved for a group. -/
def State.reservedFor (s : State) (n g0 : Nat) : Nat := (s.allStrands.filter (fun t => t.reserved = some (n, g0))).length

/-- Strands a group under GB still has to reserve before item i (R44). -/
def State.unreserved (s : State) (g : Group) (i : Nat) : Nat := g.size - (i - g.g0) - s.reservedFor g.launch g.g0

/-- The saved strands of a launch that may return to a cluster (R284). -/
def State.savedOf (s : State) (l : Launch) (c : Nat) : List Saved :=
  if s.asleep l.num c then [] else (s.ctx l.ctx).saved.filter (fun r => r.strand.launch = l.num && clusterOf r.strand.id = c)

/-- A saved strand of a launch returns to a cluster before any new item is dispatched there, where a free strand in its mode, of those
that `may` serve the launch, is at hand (R284). -/
def State.restoresFirst (s : State) (l : Launch) (c : Nat) (may : Nat → Bool) : Bool :=
  (s.savedOf l c).any (fun r => (upTo (64 * c) 64).any (fun id =>
    s.usable l id && (s.strand id).reserved.isNone && (s.core (coreOf id)).four = r.four && may id))

/-- A launch can take a strand now: for a saved strand, for its next item, or for a reservation. -/
def State.wants (s : State) (l : Launch) (id : Nat) : Bool :=
  let c := clusterOf id
  let four := (s.core (coreOf id)).four
  s.usable l id &&
    match s.harvestOf? l.num c with
    | none => false
    | some h =>
      let t := s.strand id
      if (s.savedOf l c).any (fun r => r.four = four) then t.reserved.isNone
      else if s.restoresFirst l c (fun _ => true) then false
      else
        match s.readyItem l h with
        | none => false
        | some (i, g) =>
          if l.desc.gb then t.reserved = some (l.num, g.g0) || (t.reserved.isNone && s.unreserved g i != 0) else t.reserved.isNone

/-- A launch is served before another (R39). -/
def Launch.before (k l : Launch) : Bool := l.pri < k.pri || (k.pri = l.pri && k.num < l.num)

/-- No launch that is served earlier can use the strand (R39). -/
def State.served (s : State) (l : Launch) (id : Nat) : Bool :=
  s.launches.all (fun k => !(k.live && k.before l && s.wants k id))

/-- STRAND_RESERVE: one free strand for every item of the next group, once enough are free (R44). -/
def execStrandReserve (launch cluster : Nat) (ids : List Nat) (s : State) : Out :=
  match s.launch? launch, s.harvestOf? launch cluster with
  | some l, some h =>
    match s.readyItem l h with
    | none => .next s
    | some (i, g) =>
      let ok := fun id => clusterOf id = cluster && (s.strand id).reserved.isNone && s.usable l id && s.served l id
      if l.desc.gb && ids.length = s.unreserved g i && decide ids.Nodup && ids.all ok && !s.restoresFirst l cluster (s.served l) then
        .next (ids.foldl (fun s id => s.setStrand { s.strand id with reserved := some (launch, g.g0) }) s)
      else .next s
  | _, _ => .next s

/-! ## Item start (R45) -/

/-- The scalar registers at item start. -/
def startRegs (l : Launch) (i : Nat) (g : Group) (x : Vector Word 64) : Vector Word 64 :=
  let d := l.desc
  let low : List Word := [0, w64 i, w64 (i - g.g0), d.first, d.count, if d.spb = 0 then 0 else w64 g.off, l.seed, w64 g.size]
  Vector.ofFn (fun (j : Fin 64) => match low[j.val]? with
    | some v => v
    | none => if d.det then 0 else x[j.val])

/-- A strand takes an item: registers, PC at ENTRY, everything else as R45 and R275 say. -/
def Strand.start (t : Strand) (l : Launch) (i : Nat) (g : Group) (tvec : Word) : Strand :=
  { t.drop with
    status := .running
    x := startRegs l i g t.x
    h := if l.desc.det then Vector.replicate 16 0 else t.h
    pc := w64 (addr60 l.desc.entry)
    fpc := 0
    fcause := 0
    cuvc := 0
    tvec := tvec &&& pcMask
    lees := .empty
    vw := 0
    vp := 0
    leesPub := false
    leesRcv := false
    leesPart := false
    gbar := 0
    index := i
    launch := l.num
    ctx := l.ctx
    g0 := g.g0
    record := [] }

/-- The status word that the first item of a launch changes lies in a line that a copy command owns: the dispatch waits (R31, R188). -/
def State.startHeld (s : State) (l : Launch) : Bool := l.state = .accepted && l.stat != 0 && s.seqHeld l.ctx (addr60 l.stat) .write

/-- ITEM_DISPATCH: the next item of a launch in a cluster starts in a slot of a flat core (R39, R44, R45, R266, R284). -/
def execItemDispatch (launch cluster core slot : Nat) (s : State) : Out :=
  let id := 8 * core + slot
  match s.launch? launch, s.harvestOf? launch cluster with
  | some l, some h =>
    match s.readyItem l h with
    | none => .next s
    | some (i, g) =>
      let t := s.strand id
      if core / 8 != cluster || 8 ≤ slot || s.startHeld l || !s.usable l id || s.restoresFirst l cluster (s.served l) || !s.served l id
          || (if l.desc.gb then t.reserved != some (launch, g.g0) || s.unreserved g i != 0 else t.reserved.isSome) then .next s
      else
        let s := if h.next = 0 then s.emptyL1 cluster else s
        let s := s.setStrand (t.start l i g (s.ctx l.ctx).tvec)
        let place := if h.trellis then h.slot else (s.freeTrellis cluster).getD 0
        let s := s.setHarvest { h with next := i + 1, live := h.live ++ [i], trellis := h.trellis || l.desc.needsTrellis, slot := place }
        if l.state = .accepted then
          .next ((s.setLaunch { l with state := .running }).writeStatus l.ctx l.stat l.num 2 0)
        else .next s
  | _, _ => .next s

/-! ## Item retirement (R246, R250, R295) -/

/-- The value an item publishes at END for an entry it has not published; none while a carried value has not arrived (R246). -/
def State.carry (s : State) (l : Launch) (j : Nat) : Option Word :=
  if s.cur.vw.getLsbD j then some (s.rd (BitVec.ofNat 6 (l.desc.vreg j)))
  else
    match s.vineIn l (clusterOf s.cur.id) s.cur.index 1 j with
    | .waiting => none
    | .vdef v => some v
    | .got v => some v

/-- Publishes each entry still unpublished at END whose value is at hand, by itself (R246). -/
def State.publishRest (s : State) (l : Launch) : State :=
  (List.range l.desc.vcnt).foldl (fun (s : State) j =>
    if s.cur.vp.getLsbD j then s
    else
      match s.carry l j with
      | some v => s.publish j v
      | none => s) s

/-- Publishes the lees bank at END, unless it must wait (R250). -/
def State.publishBank (s : State) (l : Launch) : State :=
  if !l.desc.lv || s.cur.leesPub || !s.leesRoom then s
  else if s.cur.leesPart then s.publishLees (some s.cur.lees)
  else
    match s.leesIn with
    | .waiting => s
    | .start => s.publishLees none
    | .bank b => s.publishLees (some b)

/-- Every publication of the item has been made (R246, R250). -/
def Strand.published (t : Strand) (d : Desc) : Bool := (List.range d.vcnt).all (fun j => t.vp.getLsbD j) && (!d.lv || t.leesPub)

/-- The publications that END can make now, each a release of everything the item did (R246, R247, R250). -/
def State.publications (s : State) (l : Launch) : State :=
  if l.desc.needsTrellis && s.quiet .all then (s.publishRest l).publishBank l else s

/-- The site updates of loads into x0, for which END does not wait, are sent when the item retires at the latest; what they count is a
free value (R73, R104, R111). -/
def State.sendSites (s : State) : State :=
  (s.cur.pend.filter (fun p => p.reg = 0 && !p.landed)).foldl (fun (s : State) p =>
    let (w, s) := s.freeWord
    let p := { p with start := p.start - nbits w.toNat 1 12, missed := p.missed || (p.got.isNone && s.beyondL1 s.cur p.op.todo) }
    s.loadUpdate p (p.countsMiss (w.getLsbD 0))) s

/-- The group counts a retired item, and frees its allocation after the last (R295 step 5). -/
def State.retireGroup (s : State) (t : Strand) : State :=
  let gs := s.groups.map (fun (g : Group) =>
    if g.launch = t.launch && g.cluster = clusterOf t.id && g.g0 = t.g0 then { g with retired := g.retired + 1 } else g)
  { s with groups := gs.filter (fun g => g.retired < g.size) }

/-- A chunk of a harvest state has items left. -/
def Harvest.busy (h : Harvest) (d : Desc) (n : Nat) : Bool :=
  decide (Nat.max h.next (d.chunkLo n) < d.chunkHi n) || h.live.any (fun i => d.chunkLo n ≤ i && i < d.chunkHi n)

/-- The harvest window advances past a retired item (R295 step 6). -/
def State.retireHarvest (s : State) (l : Launch) (t : Strand) : State :=
  match s.harvestOf? t.launch (clusterOf t.id) with
  | none => s
  | some h =>
    let h := { h with live := h.live.filter (· != t.index) }
    s.setHarvest { h with chunks := h.chunks.filter (h.busy l.desc) }

/-- An index of a launch has no item that may still read a publication: it lies beyond the last, or its item has retired (R248). -/
def State.itemGone (s : State) (l : Launch) (i : Nat) : Bool :=
  decide (l.desc.fin ≤ i) ||
    match l.chunks.find? (fun k => k.n = l.desc.chunkOf i) with
    | none => false
    | some k =>
      match s.harvestOf? l.num k.cluster with
      | none => false
      | some h => decide (i < h.next) && !h.live.contains i

/-- Releases the publications of a launch that none of the eight items after theirs may still read (R248). -/
def State.dropSpent (s : State) (l : Launch) : State :=
  { s with pubs := s.pubs.filter (fun p => p.launch != l.num || !(List.range 8).all (fun k => s.itemGone l (p.item + 1 + k))) }

/-- The item's strand is free: the publication it has not received goes, the group and the harvest window follow, and publications that are
spent are released (R248, R250, R295). What its acquires put before it comes before the end of the launch (R37, R263). -/
def State.retire (s : State) (l : Launch) : State :=
  let t := s.cur
  let owed := (t.before.map (·.id)).filter (fun i => s.inFlight i && !l.owed.contains i) ++ l.owed.filter s.inFlight
  let s := s.sendSites
  let s := { s with
    leesPubs := s.leesPubs.filter (fun p => !(p.launch = t.launch && p.item + 1 = t.index))
    cur := s.cur.drop
    disp := .left }
  (((s.retireGroup t).retireHarvest l t).dropSpent l).setLaunch { l with nretired := l.nretired + 1, owed := owed }

/-- ITEM_RETIRE: the item at END makes the publications it can, and retires once all are made (R246, R295). Its retirement counts as an
arrival at the barriers of its group, a release at cluster scope (R252, R254, R262). -/
def execItemRetire (s : State) : Out :=
  let t := s.cur
  if t.status != .ending || t.chosen then .next s
  else
    match s.launch? t.launch with
    | none => .next s
    | some l =>
      let s := s.publications l
      if !s.cur.published l.desc then .next s
      else if !l.desc.gb then .next (s.retire l)
      else if s.releases .cluster .all then .next ((s.arrive t.launch (clusterOf t.id) t.g0).retire l)
      else .next s

/-! ## Launch retirement (R49, R114) -/

/-- Forgets what only a running launch needs. -/
def State.forgetLaunch (s : State) (n : Nat) : State :=
  { s with
    harvest := s.harvest.filter (fun h => h.launch != n)
    pubs := s.pubs.filter (fun p => p.launch != n)
    leesPubs := s.leesPubs.filter (fun p => p.launch != n) }

/-- Every item of a launch has retired. -/
def Launch.done (l : Launch) : Bool := decide (l.nchunk = l.desc.chunks) && decide (l.nretired = l.desc.count.toNat)

/-- LAUNCH_RETIRE: a launch whose items have all retired leaves its delta's count; then merge, signal and status follow in order, as
they do for an aborted launch that still has to wait for them (R49, R114, R281). -/
def execLaunchRetire (launch : Nat) (s : State) : Out :=
  match s.launch? launch with
  | none => .next s
  | some l =>
    if l.live && !l.done then .next s
    else
      let s := if l.live then (s.setLaunch { s.leaveDelta l with state := .retired }).forgetLaunch launch else s
      .next ((s.finish launch).getD s)

/-- VINTAGE_MERGE: the merge of a launch that has left the count last, once every update is performed (R114). -/
def execVintageMerge (launch : Nat) (s : State) : Out :=
  match s.launch? launch with
  | none => .next s
  | some l => if l.live then .next s else .next ((s.mergeStep l).getD s)

end Sys2Proof.Machine
end

