-- ==== Sys2Proof/Machine/Cellar.lean ====
section
/-! DEFINITION. Pre-emption and the cellar (spec/02 R47; spec/20 R282 to R289): the choice of a victim, eviction and restoration of
strands, yield and resumption of launches. The state of a saved strand stands in `Context.saved`; its record's bytes are also written to
the cellar area, with the packing of log 24 where R288 and R289 give a field no layout. -/

namespace Sys2Proof.Machine

open Sys2Proof

/-! ## Records (R288, R289) -/

/-- A pending entry or saved window of 16 bits. -/
def winEntry (reg win : Nat) : Nat := reg % 128 + win % 16 * 2 ^ 8 + 2 ^ 15

/-- Bytes padded with a filler to a length. -/
def padTo (n : Nat) (f : Byte) (bs : List Byte) : List Byte := (bs ++ List.replicate (n - bs.length) f).take n

/-- The vine state word of R288. -/
def Strand.vineWord (t : Strand) : Nat :=
  t.vw.toNat + t.vp.toNat * 2 ^ 8 + (if t.leesPub then 2 ^ 16 else 0) + (if t.leesRcv then 2 ^ 17 else 0)
    + (match t.waitRef with
      | w :: _ => 2 ^ 18 + w.entry % 8 * 2 ^ 19 + w.dist % 16 * 2 ^ 22
      | [] => 0)

/-- Saved windows, eight bytes each. -/
def winBytes (ws : List (Nat × Nat × Word)) : List Byte := padTo 64 0 (ws.flatMap (fun w => leBytes 8 (winEntry w.1 w.2.1)))

/-- The registers with a pending result or an open window. -/
def Strand.pendRegs (t : Strand) : List Nat := ((t.pend.filter (fun p => p.reg != 0)).map (·.reg)).eraseDups

/-- The window count of a register. -/
def Strand.openFor (t : Strand) (r : Nat) : Nat := (t.pend.filter (fun p => p.reg = r)).foldl (fun n p => Nat.max n p.win) 0

/-- The bytes of a strand record before its command records (R288). -/
def strandBytes (four : Bool) (t : Strand) : List Byte :=
  let st := (if four then 1 else 0) + (if t.super then 2 else 0) + t.estat.toNat * 4 + (if t.inUi then 64 else 0)
  let q := fun (v : Nat) => leBytes 8 v
  q t.index ++ q t.launch ++ q t.pc.toNat ++ q st
    ++ q t.epc.toNat ++ q t.tvec.toNat ++ q t.fpc.toNat ++ q t.cuvc.toNat ++ q t.uid.toNat
    ++ q t.vineWord
    ++ padTo 16 0 (t.pendRegs.flatMap (fun r => leBytes 2 (winEntry r (t.openFor r))))
    ++ q (t.rep.n + t.rep.k * 2 ^ 32) ++ q (if t.rep.armed then t.rep.k - t.rep.got.length else 0)
    ++ q t.gbar ++ q t.uiPc.toNat ++ winBytes t.trapWins ++ winBytes t.uiWins
    ++ padTo 256 0 t.record
    ++ t.x.toList.flatMap (fun v => leBytes 8 v.toNat) ++ t.h.toList.flatMap (fun v => leBytes 32 v.toNat)
    ++ padTo 512 0 t.lees.image
    ++ padTo 128 0xFF (t.mbox.flatMap (fun v => leBytes 8 v.toNat))
    ++ padTo 1920 0 (t.heldInts.flatMap (fun p => leBytes 2 p.1.toNat))

/-- The number of an engine. -/
def Engine.num : Engine → Nat
  | .matrix => 0
  | .tile => 1
  | .copy => 2

/-- The bytes of one command record (R289). -/
def recordBytes (t : Strand) (c : Cmd) : List Byte :=
  let q := fun (v : Nat) => leBytes 8 v
  let win := (t.pend.find? (fun p => p.op = .cmd c.cid)).map (·.win)
  let state := c.engine.num + (if c.started then 4 else 0) + c.reg % 64 * 8 + win.getD 0 * 2 ^ 12 + c.flags.toNat * 2 ^ 16
    + (if c.dfault.isSome then 2 ^ 24 else 0)
  let last := if c.engine = .copy then c.idxs.flatMap (fun i => leBytes 4 i.toNat) ++ leBytes 4 c.mask.toNat
    else c.bank.flatMap (fun r => leBytes 4 r.toNat)
  q c.word.toNat ++ q c.baddr.toNat ++ q (c.cycle % 2 ^ 48 + c.core0 * 2 ^ 48) ++ q c.prog ++ q c.c0.toNat ++ q state
    ++ List.replicate 16 0 ++ leBytes 32 c.hd.toNat ++ leBytes 32 c.ha.toNat ++ leBytes 32 c.hb.toNat ++ List.replicate 32 0
    ++ leBytes 64 c.pblk.toNat ++ padTo 256 0 last

/-- The next iteration of the i-th body command of a queue entry that has performed `prog` iterations of its k body commands in turn (R211,
R289). -/
def nextIteration (prog k i : Nat) : Nat := prog / k + (if i < prog % k then 1 else 0)

/-- The commands of a queue entry that have not completed, one record each: a repeat's body commands with the handles, word, cycle and next
iteration of each (R211, R289); a command whose body is gone, with its undelivered fault. -/
def Cmd.records (c : Cmd) : List Cmd :=
  if c.engine != .matrix || c.body.isEmpty then [c]
  else (c.body.zipIdx.map (fun (b : Body × Nat) => { c with
    cid := b.1.cid
    word := b.1.word
    baddr := b.1.baddr
    cycle := b.1.cycle
    core0 := b.1.core0
    hd := b.1.hd
    ha := b.1.ha
    hb := b.1.hb
    reg := b.1.reg
    prog := nextIteration c.prog c.body.length b.2 })).filter (fun d => d.prog < c.iters)

/-- A command captured in an armed repeat buffer as a command record gives it: nothing of it has been performed (R212, R214). -/
def Strand.captured (t : Strand) (b : Body) : Cmd where
  cid := b.cid
  engine := .matrix
  instr := if b.mmz then .mmz 0 0 0 0 0 else .mma 0 0 0 0 0
  word := b.word
  baddr := b.baddr
  strand := t.id
  launch := t.launch
  ctx := t.ctx
  item := t.index
  core := coreOf t.id
  core0 := b.core0
  cycle := b.cycle
  since := b.cycle
  hd := b.hd
  ha := b.ha
  hb := b.hb
  xs := 0
  pblk := 0
  idxs := []
  body := [b]
  iters := t.rep.n
  reg := b.reg
  started := false
  prog := 0
  c0 := 0
  flags := 0
  cnt := 0
  bank := []
  mask := 0
  mb := false
  key := none
  target := clusterOf t.id
  tscale := 0
  early := []
  late := none
  walkFault := none
  saved := true
  dfault := none

/-- Inserts a command in issue order. -/
def issueInsert (c : Cmd) : List Cmd → List Cmd
  | [] => [c]
  | d :: ds => if c.cid ≤ d.cid then c :: d :: ds else d :: issueInsert c ds

/-- The commands of a strand as its record gives them, in issue order: those of its queue entries, and those its repeat buffer has captured
(R288). -/
def Strand.records (t : Strand) (cs : List Cmd) : List Cmd := (cs.flatMap Cmd.records ++ t.rep.got.map t.captured).foldr issueInsert []

/-- The bytes of the command records of a strand; there is room for 40 (R288, R289). -/
def cmdsBytes (t : Strand) (cs : List Cmd) : List Byte := ((t.records cs).take 40).flatMap (recordBytes t)

/-- Writes the record of a strand and its commands into slot n of the cellar area of its context (R286). -/
def State.writeCellar (s : State) (n : Nat) (four : Bool) (t : Strand) (cs : List Cmd) : State :=
  let bs := strandBytes four t ++ cmdsBytes t cs
  s.putBytes t.ctx (keysFrom ((s.ctx t.ctx).cellarAddr + 0x18010000 + 0x8000 * n) bs.length) bs

/-! ## Eviction (R282, R283) -/

/-- The strand's part of eviction: its waits are abandoned, END and the bundle in hand are issued again; a yield keeps its barrier state
(R282, R256). Turns that a normaliser still had to leave unused are forgotten: R76, R282 and R288 do not say (DESIGN CHOICE, log 64). -/
def Strand.park (t : Strand) (keepBar : Bool) : Strand :=
  let u := t.abandon
  let u := if keepBar then { u with atBar := t.atBar, gbar := t.gbar, relAt := t.relAt } else u
  { u with
    status := .running
    reserved := none
    chosen := false
    stall := 0
    justIn := []
    ibuf := none
    waitRef := t.waitRef }

/-- A strand that the cellar engine may save now: its scalar results have landed and nothing it has begun outside must end (R75, R173). -/
def Strand.parkable (t : Strand) : Bool := t.status != .idle && t.settled && !t.committed

/-- The strand in a slot may leave it: it can be saved, and its engines have finished their units (R282). -/
def State.mayLeave (s : State) (t : Strand) : Bool :=
  t.parkable && !s.cmds.any (fun c => c.strand = t.id && !c.saved && c.late.isSome)

/-- The lowest free record slot of a context (R283). -/
def Context.freeSlot (c : Context) : Option Nat :=
  (List.range c.nslot).find? (fun n => c.saved.all (fun r => r.num != n))

/-- A command whose strand goes to the cellar: its engine has finished its unit, and it is in no queue (R195, R214, R230). -/
def Cmd.toCellar (c : Cmd) : Cmd := { c with saved := true, early := [], walkFault := none }

/-- Saves a strand with its commands in record slot n, and frees its slot for another strand; a yield keeps its barrier state. -/
def State.save (s : State) (t : Strand) (n : Nat) (yields : Bool) : State :=
  let four := (s.core (coreOf t.id)).four
  let u := t.park yields
  let mine := fun (c : Cmd) => c.strand = t.id && !c.saved
  let cs := s.cmds.filter mine
  let s := s.writeCellar n four u cs
  let c := s.ctx t.ctx
  let s := s.setCtx t.ctx { c with saved := c.saved ++ [⟨n, four, yields, u⟩] }
  let s := { s.noteIdle cs with
    owners := s.owners.filter (fun o => !cs.any (fun c => c.cid = o.cid))
    cmds := s.cmds.map (fun c => if mine c then c.toCellar else c)
    nextSid := s.nextSid + 1 }
  s.setStrand { t.drop with sid := s.nextSid - 1 }

/-- EVICT_STRAND: the strand chosen by a pre-emption decision goes into a free record slot; where none is free it is not evicted, and its
launch's rival waits (R282, R283). -/
def execEvictStrand (s : State) : Out :=
  if !s.cur.chosen || !s.mayLeave s.cur then .next s
  else
    match (s.ctx s.cur.ctx).freeSlot with
    | none => .next { s with cur := { s.cur with chosen := false } }
    | some n => .next { s.save s.cur n false with disp := .left }

/-! ## Restoration (R284) -/

/-- A saved strand's commands rejoin the tails of their queues under the new slot, to be started again at their progress counts, and
copies ask for their lines again (R195, R214, R230). -/
def State.requeue (s : State) (t : Strand) : State :=
  let mine := fun (c : Cmd) => c.saved && c.launch = t.launch && c.item = t.index
  let back := (s.cmds.filter mine).map (fun (c : Cmd) =>
    { c with saved := false, started := false, strand := t.id, core := coreOf t.id, since := s.cycle (dieOf t.id) })
  let s := { s with cmds := s.cmds.filter (fun c => !mine c) ++ back }
  (back.filter (fun c => c.engine = .copy && c.dfault.isNone)).foldl State.requestLines s

/-- The reserved bits of a strand record (R288) and of its m command records (R289): byte offset, lowest bit and number of bits, in the
little-endian word there. Those of the state word, of %epc, %tvec, %fpc, %cuvc and %uid (R72, R93, R194, R275, R276), of the vine word and of
the pending entries; of the fault record's cause and of the lees tag (R232, R240, R272, R274); and the bytes of a command record that no field
takes. -/
def recordReserved (m : Nat) : List (Nat × Nat × Nat) :=
  [(0x18, 7, 57), (0x20, 0, 3), (0x20, 60, 4), (0x28, 0, 3), (0x28, 60, 4), (0x30, 5, 3), (0x30, 13, 51), (0x38, 32, 32), (0x40, 16, 48),
      (0x48, 26, 38), (0x108, 6, 2), (0x108, 17, 15), (0x700, 51, 13)]
    ++ (List.range 8).flatMap (fun i => [(0x50 + 2 * i, 7, 1), (0x50 + 2 * i, 12, 3)])
    ++ (List.range m).flatMap (fun j =>
      let r := 0x1000 + 512 * j
      [(r + 0x30, 0, 128), (r + 0xA0, 0, 256)])

/-- The command records of saved record n of a context. -/
def State.recordCount (s : State) (ctx n : Nat) : Nat :=
  match (s.ctx ctx).saved.find? (fun r => r.num = n) with
  | none => 0
  | some r =>
    let t := r.strand
    Nat.min 40 (t.records (s.cmds.filter (fun c => c.saved && c.launch = t.launch && c.item = t.index))).length

/-- Every reserved byte of the header of a context's cellar area is zero; nothing returns from an area where one is not (R8, R286,
R287; DESIGN CHOICE, log 55). -/
def State.headerOk (s : State) (ctx : Nat) : Bool :=
  let base := (s.ctx ctx).cellarAddr + 0x18000000
  s.mem.all (fun m => m.1 < base + 0x140 || base + 0x10000 ≤ m.1 || s.byteAs ctx m.1 = 0)

/-- Every reserved bit of the header, of strand record n of a context and of its command records is zero; a record where one is not is
rejected (R8, R287 to R289; DESIGN CHOICE, log 55). -/
def State.recordOk (s : State) (ctx n : Nat) : Bool :=
  let base := (s.ctx ctx).cellarAddr + 0x18010000 + 0x8000 * n
  s.headerOk ctx && (recordReserved (s.recordCount ctx n)).all (fun f => nbits (s.natAs ctx (base + f.1) ((f.2.1 + f.2.2 + 7) / 8)) f.2.1 f.2.2 = 0)

/-- RESTORE_STRAND: saved strand n of a context returns to its cluster, in a slot of a flat core (R284). Its mailbox entries and reservations
come with it, though its new core may then have more than 16 (R192 does not say; DESIGN CHOICE, log 63). Its fault record is written at its
new %frec; where it has taken no trap nothing is written, and where the write fails it is restored all the same (R284 does not say; DESIGN
CHOICE, log 64). -/
def execRestoreStrand (ctx n core slot : Nat) (s : State) : Out :=
  let id := 8 * core + slot
  let x := s.ctx ctx
  match x.saved.find? (fun r => r.num = n) with
  | none => .next s
  | some r =>
    match s.launch? r.strand.launch with
    | none => .next s
    | some l =>
      let c := clusterOf r.strand.id
      let t := { r.strand with id := id }
      if core / 8 != c || 8 ≤ slot || (s.core core).four != r.four || !s.usable l id || (s.strand id).reserved.isSome || s.asleep l.num c
          || (s.savedOf l c).any (fun q => q.strand.index < r.strand.index) || !s.served l id || !s.recordOk ctx n || !s.recordFree t then .next s
      else
        let s := s.setCtx ctx { x with saved := x.saved.filter (fun q => q.num != n) }
        let s := (s.setStrand t).requeue t
        .next (if t.record.isEmpty then s else (s.writeRecord t t.record).getD s)

/-! ## Yield and resumption (R47, R285) -/

/-- Saves several strands in the lowest free slots; none where a slot is missing. -/
def State.saveAll (s : State) : List Strand → Option State
  | [] => some s
  | t :: ts =>
    match (s.ctx t.ctx).freeSlot with
    | none => none
    | some n => (s.save t n true).saveAll ts

/-- The image of a group allocation: its bytes and tags, and which of its words are bad (R292). -/
def State.imageOf (s : State) (g : Group) : Image where
  launch := g.launch
  off := g.off
  bytes := (keysFrom (scrKey g.cluster g.off) (g.gran * 4096)).map s.raw
  tags := (upTo (g.off / 4096) g.gran).map (fun n => (find? n (s.cluster g.cluster).tags).getD 0)
  bad := (s.poison.filter (fun p => scrKey g.cluster g.off ≤ p && p < scrKey g.cluster g.off + g.gran * 4096)).map (· - scrKey g.cluster 0)

/-- Words are stored with a mark of their uncorrectable error (R292). -/
def State.markBad (s : State) (ws : List Nat) : State := { s with poison := ws ++ s.poison.filter (fun p => !ws.contains p) }

/-- Writes an image into the cellar area, its bad words with their marks (R287, R292). -/
def State.writeImage (s : State) (v c : Nat) (i : Image) : State :=
  let base := (s.ctx v).cellarAddr + 2 ^ 22 * c
  let s := s.putBytes v (keysFrom (base + i.off) i.bytes.length) i.bytes
  let ts := i.tags.flatMap (fun t => leBytes 2 t.toNat)
  (s.putBytes v (keysFrom (base + 0x380000 + 2 * (i.off / 4096)) ts.length) ts).markBad (i.bad.map (base + ·))

/-- The bytes of a lees publication: its item, and its bank with a mark, or zeros for the launch-start bank. -/
def LeesPubl.image (p : LeesPubl) : List Byte :=
  leBytes 8 (p.item % 2 ^ 63 + (if p.bank.isSome then 2 ^ 63 else 0)) ++ padTo 264 0 ((p.bank.map Lees.image).getD [])

/-- The bytes of the trellis context of a launch in a cluster, with its barrier counts and its harvest state (R285, R287; log 24). -/
def State.trellisBytes (s : State) (h : Harvest) : List Byte :=
  let q := fun (v : Nat) => leBytes 8 v
  let list := fun (vs : List Nat) => q vs.length ++ vs.flatMap q
  let gs := s.groups.filter (fun g => g.launch = h.launch && g.cluster = h.cluster)
  let ps := s.pubs.filter (fun p => p.launch = h.launch && p.arrived h.cluster)
  let ls := s.leesPubs.filter (fun p => p.launch = h.launch && ((p.cluster = h.cluster && p.here) || p.away = some h.cluster))
  (q h.launch ++ q h.next ++ list h.live ++ list (gs.flatMap (fun g => [g.g0, g.barrier, g.retired]))
    ++ q ps.length ++ ps.flatMap (fun p => q p.item ++ q p.entry ++ q p.value.toNat) ++ q ls.length ++ ls.flatMap LeesPubl.image
    ++ list h.chunks).take 65536

/-- Writes the trellis context of a launch in a cluster into the cluster's image (R287, R296). -/
def State.writeTrellis (s : State) (h : Harvest) : State :=
  let v := (s.launch h.launch).ctx
  let base := (s.ctx v).cellarAddr + 2 ^ 22 * h.cluster + 0x381000 + 2 ^ 16 * h.slot
  let bs := s.trellisBytes h
  s.putBytes v (keysFrom base bs.length) bs

/-- The place of a yielding launch in the image of a cluster: its trellis context, or else the lowest that no other has (R287). -/
def State.imagePlaceOf (s : State) (h : Harvest) : Nat :=
  if s.holdsContext h then h.slot
  else
    let used := s.harvest.filter (fun k => k.cluster = h.cluster && k.launch != h.launch && (k.yielded || s.holdsContext k))
    ((List.range 4).find? (fun j => used.all (fun k => k.slot != j))).getD 0

/-- A publication has arrived in a cluster: where its launch is yielded there, the cellar engine writes it into the image (R296). -/
def State.imageArrival (s : State) (n c : Nat) : State :=
  match s.harvestOf? n c with
  | some h => if h.yielded then s.writeTrellis h else s
  | none => s

/-- PUBLICATION_ARRIVE: publication k of the vine, or of the lees vine, reaches its own cluster, or then the cluster of the next chunk
(R249, R250, R296). -/
def execPublicationArrive (k : Nat) (lees : Bool) (s : State) : Out :=
  if lees then
    match s.leesPubs[k]? with
    | none => .next s
    | some p =>
      if !p.here then .next ({ s with leesPubs := s.leesPubs.set k { p with here := true } }.imageArrival p.launch p.cluster)
      else
        match p.away, (s.launch p.launch).nextCluster p.item 1 with
        | none, some c => .next ({ s with leesPubs := s.leesPubs.set k { p with away := some c } }.imageArrival p.launch c)
        | _, _ => .next s
  else
    match s.pubs[k]? with
    | none => .next s
    | some p =>
      if !p.here then .next ({ s with pubs := s.pubs.set k { p with here := true } }.imageArrival p.launch p.cluster)
      else
        match p.away, (s.launch p.launch).nextCluster p.item 8 with
        | none, some c => .next ({ s with pubs := s.pubs.set k { p with away := some c } }.imageArrival p.launch c)
        | _, _ => .next s

/-- The strands of a launch in a cluster. -/
def State.strandsIn (s : State) (n c : Nat) : List Strand :=
  s.allStrands.filter (fun t => t.status != .idle && t.launch = n && clusterOf t.id = c)

/-- Marks the groups of a launch in a cluster as yielded or not. -/
def State.markGroups (s : State) (n c : Nat) (y : Bool) : State :=
  { s with groups := s.groups.map (fun (g : Group) => if g.launch = n && g.cluster = c then { g with yielded := y } else g) }

/-- A launch has stores to scratchpad in flight in a cluster. -/
def State.scratchStores (s : State) (n c : Nat) : Bool :=
  s.stores.any (fun a => a.launch = n && a.cluster = c && a.keys.any (scrBase ≤ ·))

/-- YIELD_LAUNCH: a launch chosen to yield in a cluster is saved there whole: strands, allocations, barrier and harvest state (R47,
R285). -/
def execYieldLaunch (launch cluster : Nat) (s : State) : Out :=
  match s.launch? launch, s.harvestOf? launch cluster with
  | some l, some h =>
    let ts := s.strandsIn launch cluster
    if !h.yielding || !ts.all s.mayLeave || s.scratchStores launch cluster then .next s
    else
      match s.saveAll ts with
      | none => .next (s.setHarvest { h with yielding := false })
      | some s =>
        let s := s.mapStrands (fun t => t.reserved.any (·.1 = launch) && clusterOf t.id = cluster) (fun t => { t with reserved := none })
        let images := (s.groups.filter (fun g => g.launch = launch && g.cluster = cluster && g.gran != 0)).map s.imageOf
        let s := images.foldl (fun s i => s.writeImage l.ctx cluster i) s
        let k := s.cluster cluster
        let s := (s.setCluster cluster { k with images := k.images ++ images }).markGroups launch cluster true
        let s := { s with disp := if s.cur.status = Status.idle then .left else s.disp }
        let h := { h with yielding := false, yielded := true, slot := s.imagePlaceOf h }
        .next ((s.setHarvest h).writeTrellis h)
  | _, _ => .next s

/-- A yielded launch may resume: its offsets are free, no launch of higher priority that is not yielded there has work there, and the
cellar area of its context is not rejected. -/
def State.resumable (s : State) (l : Launch) (c : Nat) : Bool :=
  match s.harvestOf? l.num c with
  | none => false
  | some h =>
    l.live && h.yielded && (s.cluster c).split.isNone
      && (s.groups.filter (fun g => g.launch = l.num && g.cluster = c && g.gran != 0)).all (fun g => s.scratchFree c g.off g.gran)
      && s.harvest.all (fun k => k.cluster != c || k.yielded || (s.launch k.launch).pri ≤ l.pri || (k.live.isEmpty && k.chunks.isEmpty))
      && s.headerOk l.ctx

/-- Writes an image back into scratchpad, its bad words with their marks; nothing another group did reaches its bytes any more (R292). -/
def State.readImage (s : State) (c : Nat) (i : Image) : State :=
  let s := (s.putBytes 0 (keysFrom (scrKey c i.off) i.bytes.length) i.bytes).markBad (i.bad.map (scrKey c))
  let s := { s with stores := s.stores.filter (fun a => !a.keys.any (fun k => scrKey c i.off ≤ k && k < scrKey c i.off + i.bytes.length)) }
  let k := s.cluster c
  s.setCluster c { k with tags := (i.tags.zipIdx).foldl (fun m p => bind (i.off / 4096 + p.2) p.1 m) k.tags }

/-- RESUME_LAUNCH: allocations, tags, groups and harvest state return, into an empty L1 (R47, R266, R285). -/
def execResumeLaunch (launch cluster : Nat) (s : State) : Out :=
  match s.launch? launch, s.harvestOf? launch cluster with
  | some l, some h =>
    if !s.resumable l cluster || s.launches.any (fun k => k.before l && s.resumable k cluster) then .next s
    else
      let s := s.emptyL1 cluster
      let s := ((s.cluster cluster).images.filter (fun i => i.launch = launch)).foldl (fun s i => s.readImage cluster i) s
      let k := s.cluster cluster
      let s := (s.setCluster cluster { k with images := k.images.filter (fun i => i.launch != launch) }).markGroups launch cluster false
      .next (s.setHarvest { h with yielded := false })
  | _, _ => .next s

/-! ## The decision (R47, R48, R283) -/

/-- The eldest unretired item of a launch: the lowest that has been dispatched, also where lower indices are yet to be (DESIGN CHOICE,
log 49). -/
def State.eldest (s : State) (n : Nat) : Option Nat := ((s.harvest.filter (fun h => h.launch = n)).flatMap (·.live)).min?

/-- The saved strand of a launch that returns to a cluster next: the one of lowest work index (R284). -/
def State.nextSaved (s : State) (l : Launch) (c : Nat) : Option Saved :=
  let rs := s.savedOf l c
  rs.find? (fun r => rs.all (fun q => r.strand.index ≤ q.strand.index))

/-- A strand in a core of a mode serves what the launch waits for in a cluster: its next saved strand, or an item. -/
def State.modeServes (s : State) (l : Launch) (c : Nat) (four : Bool) : Bool :=
  match s.nextSaved l c with
  | some r => four == r.four
  | none => l.desc.sm = 0 || four == (l.desc.sm == 2)

/-- Strands of a cluster that a launch could take as they are. -/
def State.freeStrands (s : State) (l : Launch) (c : Nat) : Nat :=
  ((upTo (64 * c) 64).filter (fun id =>
    s.usable l id && (s.strand id).reserved.isNone && s.modeServes l c (s.core (coreOf id)).four)).length

/-- The launch waits for a strand in the cluster. -/
def State.lacksStrand (s : State) (l : Launch) (h : Harvest) : Bool :=
  let free := s.freeStrands l h.cluster
  if (s.nextSaved l h.cluster).isSome then free = 0
  else
    match s.readyItem l h with
    | none => false
    | some (i, g) => if l.desc.gb then decide (free < s.unreserved g i) else free = 0

/-- The launch's next group finds no room in the cluster's scratchpad. -/
def State.lacksRoom (s : State) (l : Launch) (h : Harvest) : Bool :=
  match h.nextItem l.desc with
  | none => false
  | some i => (s.group? l.num h.cluster (l.desc.groupOf i)).isNone && l.desc.gran != 0
      && (List.range 1024).all (fun o => !s.scratchFree h.cluster (o * 4096) l.desc.gran)

/-- The lowest priority below `pri` among launches that satisfy a test. -/
def State.lowestPri (s : State) (pri : Nat) (p : Launch → Bool) : Option Nat :=
  ((s.launches.filter (fun k => k.live && k.pri < pri && p k)).map (·.pri)).min?

/-- The victim of step 2: of the launches of lowest priority with a strand in the cluster, the strand of highest work index that is not
its launch's eldest item, in a core the higher launch can use. Where those launches have no such strand, none is taken, and the next
priority is not looked at (R47 does not say; DESIGN CHOICE, log 63). -/
def State.victim (s : State) (l : Launch) (c : Nat) : Option Strand :=
  match s.lowestPri l.pri (fun k => !(s.strandsIn k.num c).isEmpty) with
  | none => none
  | some p =>
    let ts := ((s.launches.filter (fun k => k.live && k.pri = p)).flatMap (fun k => s.strandsIn k.num c)).filter (fun t =>
      s.eldest t.launch != some t.index && s.modeServes l c (s.core (coreOf t.id)).four && !s.stopped (coreOf t.id))
    ts.find? (fun t => ts.all (fun u => u.index ≤ t.index))

/-- The launch of step 3: the first of lowest priority, below the higher launch's, with scratchpad in the cluster. -/
def State.scratchOwner (s : State) (l : Launch) (c : Nat) : Option Launch :=
  let owns := fun (k : Launch) => s.groups.any (fun g => g.launch = k.num && g.cluster = c && g.gran != 0 && !g.yielded)
  match s.lowestPri l.pri owns with
  | none => none
  | some p => s.launches.find? (fun k => k.live && k.pri = p && owns k)

/-- Marks a launch to yield in a cluster, where its context has the record slots (R283). -/
def State.markYield (s : State) (n c : Nat) : State :=
  let x := s.ctx (s.launch n).ctx
  match s.harvestOf? n c with
  | some h => if x.nslot < x.saved.length + (s.strandsIn n c).length then s else s.setHarvest { h with yielding := true }
  | none => s

/-- Steps 1 and 2 of R47: a strand is taken for a launch that waits for one. -/
def State.takeStrand (s : State) (l : Launch) (h : Harvest) : State :=
  if !s.lacksStrand l h then s
  else
    match s.victim l h.cluster with
    | none => s
    | some t =>
      if (s.launch t.launch).desc.gb then s.markYield t.launch h.cluster
      else if (s.ctx t.ctx).freeSlot.isNone then s
      else s.setStrand { t with chosen := true }

/-- PREEMPT_DECISION: for a launch that waits in a cluster, a launch of lower priority that holds the scratchpad it needs yields, or a
strand of one is chosen (R39, R47). Nothing is chosen while an earlier choice is being carried out there, or without a free record slot
(R283). -/
def execPreemptDecision (cluster launch : Nat) (s : State) : Out :=
  match s.launch? launch, s.harvestOf? launch cluster with
  | some l, some h =>
    if !l.live || h.yielded || s.harvest.any (fun k => k.cluster = cluster && k.yielding)
        || s.allStrands.any (fun t => t.chosen && clusterOf t.id = cluster) then .next s
    else
      match (if s.lacksRoom l h then s.scratchOwner l cluster else none) with
      | some k => .next (s.markYield k.num cluster)
      | none => .next (s.takeStrand l h)
  | _, _ => .next s

end Sys2Proof.Machine
end

