-- ==== Sys2Proof/Machine/Errors.lean ====
section
/-! DEFINITION. Soft errors and the retirement of units (spec/20 R292 to R294; spec/23 R313, R314). -/

namespace Sys2Proof.Machine

open Sys2Proof

/-- MSI-X vector 0 of PF0 (R314). -/
def State.raiseMsix (s : State) : State := { s with pkg := { s.pkg with msix := s.pkg.msix + 1 } }

/-- A retirement event: the interrupt is raised where none was held (R313, R314). -/
def State.retireEvent (s : State) (kind num : Nat) : State :=
  let first := s.pkg.retireq.isEmpty
  let s := { s with pkg := { s.pkg with retireq := s.pkg.retireq ++ [⟨kind, num⟩] } }
  if first then s.raiseMsix else s

/-- Aborts every launch that satisfies a test. -/
def State.abortAll (s : State) (reason : Nat) (p : Launch → Bool) : State :=
  (s.launches.filter (fun l => l.live && p l)).foldl (fun s l => s.abort l.num reason []) s

/-- A launch has a strand in a cluster. -/
def State.runsIn (s : State) (n c : Nat) : Bool := !(s.strandsIn n c).isEmpty

/-- A cluster retires (R293): it leaves every cluster set; launches with a strand, a chunk or a yield there, and static launches that count
it, are aborted; dynamic launches go on without it. -/
def State.retireCluster (s : State) (c : Nat) : State :=
  let k := s.cluster c
  if k.retired then s
  else
    let s := s.setCluster c { k with retired := true }
    let s := { s with ctxs := s.ctxs.map (fun (p : Nat × Context) => (p.1, { p.2 with clset := p.2.clset &&& ~~~((1 : BitVec 96) <<< c) })) }
    let s := s.abortAll 5 (fun l => s.runsIn l.num c || (!l.desc.dyn && l.parts.contains c)
      || s.harvest.any (fun h => h.launch = l.num && h.cluster = c && (!h.chunks.isEmpty || h.yielded)))
    let s := { s with
      launches := s.launches.map (fun (l : Launch) => { l with parts := l.parts.filter (· != c) })
      harvest := s.harvest.filter (fun h => h.cluster != c) }
    s.retireEvent 3 c

/-- UNIT_RETIRE (R293). -/
def State.retireUnit (s : State) (u : ErrUnit) : State :=
  match u with
  | .frame n =>
    if s.pkg.retiredFr.contains n then s
    else { s with pkg := { s.pkg with retiredFr := n :: s.pkg.retiredFr } }.retireEvent 1 (n * 2 ^ 16)
  | .l2bank n =>
    if s.pkg.retiredL2.contains n then s
    else { s with pkg := { s.pkg with retiredL2 := n :: s.pkg.retiredL2 } }.retireEvent 2 n
  | .cluster n => s.retireCluster n

/-- The threshold of a unit; 0 counts as 1 (R313). -/
def threshold (sethr : Word) : ErrUnit → Nat
  | .frame _ => Nat.max 1 (nbits sethr.toNat 0 16)
  | .l2bank _ => Nat.max 1 (nbits sethr.toNat 16 16)
  | .cluster _ => Nat.max 1 (nbits sethr.toNat 32 16)

/-- The error counts of a unit. -/
def Pkg.errOf (p : Pkg) (u : ErrUnit) : ErrCount := (p.errs.find? (fun e => e.unit = u)).getD ⟨u, [], []⟩

/-- Sets the error counts of a unit. -/
def Pkg.setErr (p : Pkg) (e : ErrCount) : Pkg := { p with errs := e :: p.errs.filter (fun f => f.unit != e.unit) }

/-- The errors of the last second, in milliseconds of the arbiter. -/
def recent (ms : Nat) (l : List Nat) : List Nat := l.filter (fun t => ms < t + 1000)

/-- CORRECTED_ERROR: counts; past the threshold the unit retires (R293). -/
def execCorrectedError (u : ErrUnit) (s : State) : Out :=
  let p := s.pkg
  let e := p.errOf u
  let soft := recent p.ms (p.ms :: e.soft)
  let s := { s with pkg := p.setErr { e with soft := soft } }
  .next (if threshold p.sethr u < soft.length then s.retireUnit u else s)

/-- Marks a word with an uncorrectable error (R292). -/
def State.poisonWord (s : State) (k : Nat) : State :=
  if capBase ≤ k || s.poison.contains (k / 8 * 8) then s else { s with poison := (k / 8 * 8) :: s.poison }

/-- Some read that has begun reaches a word, and has not been made: a strand's pending result, an atomic or an event add in flight, or an
atomic that waits for its ticket or its place. An error does not come between the issue of a bundle that would find it and the read (log 59). -/
def State.readsWord (s : State) (k : Nat) : Bool :=
  s.allStrands.any (fun t => t.pend.any (fun p => p.unread && (p.op.todo.any (fun q => q.1 / 8 = k / 8)))
      || t.fence.any (fun f => f.amo && f.old.isNone))
    || s.stores.any (fun a => a.op.isRmw && a.keys.any (fun q => q / 8 = k / 8))

/-- UNCORRECTABLE_ERROR: data is poisoned, an error in a cluster's state aborts its launches, and a second one within a second retires the
unit (R292, R293). An error in data comes before the issue of the bundle that reads it, so that the machine check is precise, or after the read
(R75; log 59). -/
def execUncorrectableError (p : ErrPlace) (u : ErrUnit) (s : State) : Out :=
  if (match p with | .data pa | .writeback pa => s.readsWord pa | .clusterState _ => false) then .next s
  else
  let s := match p with
    | .data pa | .writeback pa => s.poisonWord pa
    | .clusterState c => s.abortAll 4 (fun l => s.runsIn l.num c)
  let q := s.pkg
  let e := q.errOf u
  let hard := recent q.ms (q.ms :: e.hard)
  let s := { s with pkg := q.setErr { e with hard := hard } }
  .next (if 2 ≤ hard.length then s.retireUnit u else s)

end Sys2Proof.Machine
end

