-- ==== Sys2Proof/Machine/Host.lean ====
section
/-! DEFINITION. The host port, context registers, system space, Forsil peers, attestation and keys, power, and reset (spec/23 R298 to
R315). -/

namespace Sys2Proof.Machine

open Sys2Proof

/-! ## Accesses from outside (R298, R305) -/

/-- The places of consecutive bytes of an access from outside, or none where a page does not allow it. -/
def State.extPlaces (s : State) (v va : Nat) (k : Kind) : Nat → Option (List Place)
  | 0 => some []
  | n + 1 =>
    match s.seqPlace v va k with
    | none => none
    | some p => (s.extPlaces v (va + 1) k n).map (fun ps => p :: ps)

/-- An outside access whose lines decanters own waits (R188). -/
def extFree (s : State) (ps : List Place) : Bool :=
  s.unowned (ps.filterMap (fun p => match p with | .mem k _ => some k | .sys _ => none))

/-- A walk of some page of an outside access reads an entry in a line that a copy command owns: the access waits (R188). -/
def State.extWalkHeld (s : State) (v va n : Nat) : Bool :=
  (List.range (n / 2 ^ 16 + 1)).any (fun i => s.walkHeld v (va + 2 ^ 16 * i)) || s.walkHeld v (va + (n - 1))

/-- Every part of an access that lies in system space has a target that answers (R301, R302, R304). -/
def State.extRouted (s : State) (v : Nat) (ps : List Place) : Bool :=
  ps.all (fun p => match p with
    | .mem .. => true
    | .sys pa => s.sysRoute v pa)

/-- A request that goes on to system space: its answer is a free word for each 8 bytes, and so is whether the target fails (log 56). -/
def State.forward (s : State) (v pa n : Nat) (op : ExtOp) : Option (List Byte) × State :=
  match s.send v pa op with
  | none => (none, s)
  | some s =>
    let f := s.free
    let words := (n + 7) / 8
    (if (Config.freeValue f).getLsbD 0 then none
      else some (((List.range words).flatMap (fun i => leBytes 8 (Config.freeValue (f + 1 + i)).toNat)).take n),
      { s with free := f + words + 1 })

/-- Reads the accesses of a request from outside; none where a target fails. -/
def State.extRead (s : State) (v : Nat) : List (List Place) → Option (List Byte) × State
  | [] => (some [], s)
  | r :: rs =>
    let (here, s) := match r with
      | .sys pa :: _ => s.forward v pa r.length (.read r.length)
      | _ =>
        let ks := (memKeys r).getD []
        (some (s.bytesAs v ks), s.noteOther ks)
    match here, s.extRead v rs with
    | some bs, (some cs, s) => (some (bs ++ cs), s)
    | _, (_, s) => (none, s)

/-- Writes bytes of a request from outside; into system space they go on to their target. -/
def State.extWrite (s : State) (v : Nat) : List (List Place) → List Byte → State
  | [], _ => s
  | r :: rs, bs =>
    let here := bs.take r.length
    let s := match r with
      | .sys pa :: _ => (s.send v pa (.write here)).getD s
      | _ =>
        let ks := (memKeys r).getD []
        (s.putBytes v ks here).noteOther ks
    s.extWrite v rs (bs.drop r.length)

/-- The new value of an atomic from outside; none where its operation or size is not supported. -/
def extNew (op : ExtOp) (old : Nat) : Option Nat :=
  match op with
  | .fetchAdd v => some (amoNew .add 8 old v.toNat 0)
  | .swap v => some v.toNat
  | .cas c n => some (amoNew .cas 8 old n.toNat c.toNat)
  | .amo aop size b c =>
    let o := [AmoOp.add, .and, .or, .xor, .min, .max, .minb, .maxb, .swp, .cas][aop]?
    o.map (fun o => amoNew o size old (b.toNat % 2 ^ (8 * size)) (c.toNat % 2 ^ (8 * size)))
  | .bits _ off len v => some (putBits old off len v)
  | .read _ | .write _ => none

/-- What an outside operation does to a page. -/
def extKind : ExtOp → Kind
  | .read _ => .read
  | .write _ | .bits .. => .write
  | .fetchAdd _ | .swap _ | .cas _ _ | .amo .. => .atomic

/-- Whether an operation is a supported one at an address: an atomic of 4 or 8 bytes, aligned. -/
def extFits (op : ExtOp) (va : Nat) : Bool :=
  match op with
  | .read _ | .write _ | .bits .. => true
  | .fetchAdd _ | .swap _ | .cas _ _ => va % 8 = 0
  | .amo aop size _ _ => aop < 10 && (size = 4 || size = 8) && va % size = 0

/-- The answer to an atomic from outside is the old value; a write of bits has none. -/
def State.reply (s : State) (op : ExtOp) (old : List Byte) : State :=
  match op with
  | .bits .. => s
  | _ => s.answer (.data old)

/-- Performs an outside access whose places are known; a failure has its own answer. -/
def State.externalAt (s : State) (v : Nat) (ps : List Place) (op : ExtOp) (fail : HostOut) : State :=
  let runs := accessRuns ps
  match op, ps with
  | .write bs, _ => s.extWrite v runs bs
  | .read _, _ =>
    match s.extRead v runs with
    | (some bs, s) => s.answer (.data bs)
    | (none, s) => s.answer fail
  | op, .sys pa :: _ =>
    match s.forward v pa (extBytes op) op with
    | (some bs, s) => s.reply op bs
    | (none, s) => s.answer fail
  | op, _ =>
    match s.extRead v runs with
    | (some old, s) =>
      let s := match extNew op (leNat old) with
        | some n => s.extWrite v runs (leBytes old.length n)
        | none => s
      s.reply op old
    | (none, s) => s.answer fail

/-- Performs an outside access at its home under a context's key; a failure has its own answer (R171, R298, R305, R308). A word with an
uncorrectable error is not returned (R292), and a context without a key answers nothing (DESIGN CHOICE, log 57). -/
def State.external (s : State) (v va : Nat) (op : ExtOp) (fail : HostOut) : State :=
  if !extFits op va || !(s.ctx v).hasKey then s.answer fail
  else if s.extWalkHeld v va (extBytes op) then s
  else
    match s.extPlaces v va (extKind op) (extBytes op) with
    | none => s.answer fail
    | some ps =>
      if !extFree s ps then s
      else if !s.extRouted v ps || (extKind op != .write && s.poisoned ((memKeys ps).getD [])) then s.answer fail
      else s.externalAt v ps op fail

/-- A function answers: in recovery only PF0 does (R307). -/
def State.answers (s : State) (v : Nat) : Bool := v < 64 && (!s.pkg.recovery || v = 0)

/-- An access through BAR2 of function v: offset o is virtual address o, below 2^38 (R298). -/
def State.bar2 (s : State) (v off : Nat) (op : ExtOp) : State :=
  if !s.answers v then s
  else if 2 ^ 38 < off + extBytes op then s.answer .unsupported
  else s.external v off op .unsupported

/-- HOST_BAR2_READ. -/
def execHostBar2Read (v off size : Nat) (s : State) : Out := .next (s.bar2 v off (.read size))

/-- HOST_BAR2_WRITE. -/
def execHostBar2Write (v off : Nat) (bytes : List Byte) (s : State) : Out := .next (s.bar2 v off (.write bytes))

/-- The AtomicOps of the host port: 64-bit FetchAdd, Swap and CAS (R298). -/
def hostAtomic : ExtOp → Bool
  | .fetchAdd _ | .swap _ | .cas _ _ => true
  | _ => false

/-- HOST_ATOMICOP. -/
def execHostAtomicop (v off : Nat) (op : ExtOp) (s : State) : Out :=
  .next (if hostAtomic op then s.bar2 v off op else if s.answers v then s.answer .unsupported else s)

/-- An answer to an access from outside. -/
def HostOut.isAnswer : HostOut → Bool
  | .sent .. | .signal .. | .resent .. => false
  | _ => true

/-- What an access from a peer did, its answer going back by the port it came by (R303). -/
def State.answeredBy (s : State) (port : Nat) (t : State) : State :=
  t.buffer port ((t.hostOut.drop s.hostOut.length).filter HostOut.isAnswer)

/-- FORSIL_INCOMING_ACCESS: by a port that is up, context `ctx` accepts a peer that one of its valid entries names, or the access is NAKed
(R303, R305). -/
def execForsilIncomingAccess (src : PeerSource) (rctx ctx va : Nat) (op : ExtOp) (s : State) : Out :=
  let ok := (s.ctx ctx).peers.any (fun p => p.2.getLsbD 63 && nbits p.2.toNat 32 16 = src.pkg && nbits p.2.toNat 20 6 = rctx)
  if 64 ≤ ctx || s.pkg.recovery || !s.pkg.up.getLsbD src.port then .next s
  else .next (s.answeredBy src.port (if !ok || 2 ^ 44 < va + extBytes op then s.answer .nak else s.external ctx va op .nak))

/-! ## Context registers (R299) -/

/-- A context is idle: EN is 0 and it has no accepted, unretired launch. -/
def State.ctxIdle (s : State) (v : Nat) : Bool := !(s.ctx v).en && !s.launches.any (fun l => l.ctx = v && l.live)

/-- A write to an I register: taken while the context is idle, else ignored with IGN. -/
def State.idleWrite (s : State) (v : Nat) (f : Context → Context) : State :=
  s.onCtx v (fun c => if s.ctxIdle v then f c else { c with ign := true })

/-- The cluster-set bits that writes can set: those of clusters that have not retired. -/
def State.liveClusters (s : State) : BitVec 96 :=
  (List.range 96).foldl (fun m c => if (s.cluster c).retired then m else m ||| (1 <<< c)) 0

/-- A register of a context's page that has no row of its own; `p` says that the write came through PF0's copy. -/
def State.ctxWrite (s : State) (v : Nat) (p : Bool) (off : Nat) (x : Word) : State :=
  let prot := fun (f : Context → Context) => if p then s.idleWrite v f else s
  let live := s.liveClusters
  match off with
  | 0x20 => prot (fun c => { c with root := x &&& 0x000FFFFFFFFFFF00 })
  | 0x28 => s.idleWrite v (fun c => { c with tvec := x &&& pcMask })
  | 0x30 => s.idleWrite v (fun c => { c with frbase := x &&& 0x0FFFFFFFFFFF0000 })
  | 0x38 => prot (fun c => { c with cellar := x &&& 0x000FFFFFFFC00000 })
  | 0x40 =>
    let n := nbits x.toNat 0 15
    prot (fun c => if n = 0 || 16384 < n then c else { c with nslot := n })
  | 0x48 => prot (fun c => { c with clset := (c.clset &&& ~~~((0xFFFFFFFFFFFFFFFF : BitVec 96))) ||| (x.setWidth 96 &&& live) })
  | 0x50 => prot (fun c => { c with clset := (c.clset &&& 0xFFFFFFFFFFFFFFFF) ||| (((x.setWidth 32).setWidth 96 <<< 64) &&& live) })
  | 0x68 => s.onCtx v (fun c => if x.getLsbD 1 then { c with tlbErr := false } else c)
  | 0x70 => s.onCtx v (fun c => if x.getLsbD 9 then { c with ign := false } else c)
  | _ =>
    if p && 0x800 ≤ off && off < 0xA00 && off % 8 = 0 then
      s.onCtx v (fun c => { c with peers := bind ((off - 0x800) / 8) (x &&& 0x8000FFFF03F0FFFF) c.peers })
    else s

/-- A management register of PF0's page 0 that has no row of its own (R313). -/
def State.pf0Write (s : State) (off : Nat) (x : Word) : State :=
  match off with
  | 0x118 => { s with pkg := { s.pkg with sethr := x &&& 0x0000FFFFFFFFFFFF } }
  | 0x140 => { s with pkg := { s.pkg with down := s.pkg.down &&& ~~~(x.extractLsb' 16 16) } }
  | _ => s

/-- REGISTER_WRITE: a write of 8 bytes to a register of function v's page, through the function or through PF0's copy (R299, R304,
R313). -/
def execRegisterWrite (v : Nat) (viaPf0 : Bool) (off : Nat) (val : Word) (s : State) : Out :=
  let p := viaPf0 || v = 0
  if !s.answers (if p then 0 else v) then .next s
  else if v = 0 && 0x100 ≤ off && off < 0x800 then .next (s.pf0Write off val)
  else .next (s.ctxWrite v p off val)

/-- CSEED_WRITE: the seed stack holds the value as its only entry; in recovery only PF0 answers (R299, R38, R307). -/
def execCseedWrite (v : Nat) (val : Word) (s : State) : Out :=
  .next (if s.answers v then s.idleWrite v (fun c => { c with cseed := val, seeds := [val] }) else s)

/-- CTXSTAT<3:0> (R299). -/
def State.ctxstat (s : State) (v : Nat) : Nat :=
  match (s.ctx v).cstate with
  | .free => 0
  | .created | .closing _ => if s.ctxIdle v then 1 else 2
  | .destroying => 3
  | .tdiError => 4

/-- The value of a register of a context's page (R32, R299, R300, R304); WO registers and unlisted offsets read 0. -/
def State.ctxRead (s : State) (v off : Nat) : Word :=
  let c := s.ctx v
  let b := fun (x : Bool) (n : Nat) => if x then 2 ^ n else 0
  match off with
  | 0x00 => c.lqbase
  | 0x08 => w64 (b c.act 33 + b c.err 32 + b c.en 31 + c.logn)
  | 0x10 => w64 c.head
  | 0x20 => c.root
  | 0x28 => c.tvec
  | 0x30 => c.frbase
  | 0x38 => c.cellar
  | 0x40 => w64 c.nslot
  | 0x48 => c.clset.setWidth 64
  | 0x50 => zext (c.clset.extractLsb' 64 32)
  | 0x58 => c.cseed
  | 0x68 => w64 (b c.tlbErr 1 + b c.tlbBusy 0)
  | 0x70 => w64 (b c.ign 9 + s.ctxstat v)
  | _ => if 0x800 ≤ off && off < 0xA00 && off % 8 = 0 then (find? ((off - 0x800) / 8) c.peers).getD 0 else 0

/-! ## Management registers (R313, R314) -/

/-- PKGID_WRITE: ignored while any port is up. -/
def execPkgidWrite (val : Word) (s : State) : Out :=
  .next (if s.pkg.up = 0 then { s with pkg := { s.pkg with pkgid := val.setWidth 16 } } else s)

/-- PWRLIM_WRITE: clamped to 600 to 3,000 W. -/
def execPwrlimWrite (val : Word) (s : State) : Out :=
  .next { s with pkg := { s.pkg with pwrlim := Nat.max 600 (Nat.min 3000 (nbits val.toNat 0 12)) } }

/-- The value of RETIRE: the oldest event, or 0. -/
def retireWord : List RetireEv → Word
  | [] => 0
  | e :: _ => w64 (2 ^ 63 + e.kind % 4 * 2 ^ 60 + e.num % 2 ^ 52)

/-- RETIRE_READ: returns and removes the oldest event. -/
def execRetireRead (s : State) : Out :=
  let s' := s.answer (.value (retireWord s.pkg.retireq))
  .next { s' with pkg := { s'.pkg with retireq := s'.pkg.retireq.drop 1 } }

/-- The value of a management register; WO registers read 0, and RETIRE has its own event (R313). -/
def State.pf0Read (s : State) (off : Nat) : Word :=
  let p := s.pkg
  match off with
  | 0x100 => zext p.pkgid
  | 0x108 => w64 p.pwrlim
  | 0x110 => w64 (p.power % 4096 + p.temps.foldl Nat.max 0 % 256 * 2 ^ 16)
  | 0x118 => p.sethr
  | 0x128 => w64 p.fwstat
  | 0x138 => w64 ((if p.cmdBusy then 1 else 0) + p.cmdCode * 256)
  | 0x140 => zext p.trn <<< 32 ||| zext p.down <<< 16 ||| zext p.up
  | _ => 0

/-! ## Contexts and keys (R308 to R310) -/

/-- A command of CMD is carried out, with a code for CMDSTAT; BUSY stays 1 until the security processor is done with it (log 61). -/
def State.cmdRun (s : State) (code : Nat) : State := { s with pkg := { s.pkg with cmdBusy := true, cmdCode := code } }

/-- A DESTROY has still to come to the erasure of the key (R309). -/
def State.closing (s : State) : Bool := s.ctxs.any (fun p => p.2.cstate = .closing false)

/-- BUSY of CMDSTAT falls, once the command in hand is done (R313). -/
def State.cmdFinish (s : State) : State := if s.closing then s else { s with pkg := { s.pkg with cmdBusy := false } }

/-- CREATE: a free context gets a fresh key and a seed stack of one entry, the context seed; Busy during a sweep (R308, R309, R38). A CMD
write while BUSY is 1 is ignored (R313). -/
def execCreate (v : Nat) (s : State) : Out :=
  let c := s.ctx v
  if s.pkg.cmdBusy then .next s
  else if 64 ≤ v then .next (s.cmdRun 2)
  else
    match c.cstate with
    | .destroying => .next (s.cmdRun 1)
    | .free => .next ((s.setCtx v { c with cstate := .created, hasKey := true, seeds := [c.cseed] }).cmdRun 0)
    | .created | .tdiError | .closing _ => .next (s.cmdRun 2)

/-- Steps 1 and 2 of R309: launches are aborted, queued records dropped, saved strands and images discarded, translations removed. `tdi` says what
the context goes on to when its last launch has ended: the state of a TDISP error, or the later steps. -/
def State.teardown (s : State) (v : Nat) (tdi : Bool) : State :=
  let c := s.ctx v
  let s := s.setCtx v { c with en := false, hostSt := .none, devSt := .none, devq := [], head := 0, tail := 0 }
  let s := s.abortAll 6 (fun l => l.ctx = v)
  let c := s.ctx v
  let s := s.setCtx v { c with saved := [], cstate := .closing tdi }
  let own := fun n => (s.launch n).ctx = v
  { s with
    walks := s.walks.filter (fun w => w.ctx != v)
    clusters := s.clusters.map (fun (p : Nat × Cluster) =>
      (p.1, { p.2 with images := p.2.images.filter (fun i => !own i.launch), tlb := p.2.tlb.filter (fun l => l.ctx != v) })) }

/-- DESTROY: teardown; once its launches have ended, with their merges, signals and status words, the context's cached lines, its key and
its import key go, and the sweep begins (R281, R309, R310). A CMD write while BUSY is 1 is ignored (R313). -/
def execDestroy (v : Nat) (s : State) : Out :=
  if s.pkg.cmdBusy then .next s
  else if 64 ≤ v then .next (s.cmdRun 2)
  else
    match (s.ctx v).cstate with
    | .free => .next (s.cmdRun 2)
    | .destroying | .closing false => .next (s.cmdRun 1)
    | .created | .tdiError | .closing true => .next (((s.teardown v false).closeCtx v).cmdRun 0)

/-- KEY_SWEEP_COMPLETE: every line of the KeyID is empty, and the context is free (R309). -/
def execKeySweepComplete (v : Nat) (s : State) : Out :=
  let c := s.ctx v
  if c.cstate != .destroying then .next s
  else
    let lines := (s.lineKey.filter (fun p => p.2 = v)).map (·.1)
    let s := { s with
      mem := s.mem.filter (fun x => !(x.1 < sysBase && lines.contains (lineOf x.1)))
      lineKey := s.lineKey.filter (fun p => p.2 != v) }
    .next (s.setCtx v { c with cstate := .free })

/-- TDISP_ERROR: steps 1 and 2 of R309, and then the state that only DESTROY leaves. -/
def execTdispError (v : Nat) (s : State) : Out :=
  if (s.ctx v).cstate != .created then .next s else .next ((s.teardown v true).closeCtx v)

/-- SET_IMPORT_KEY (R310). -/
def execSetImportKey (v : Nat) (key : BitVec 256) (s : State) : Out :=
  if (s.ctx v).cstate != .created then .next s else .next (s.onCtx v (fun c => { c with impKey := some key }))

/-- What measurement block `i` measures: the firmware in force, the capability space image, the arithmetic capability version and device
revision, and the fused security version number (R306). -/
def State.measured (s : State) (i : Nat) : List Byte :=
  match i with
  | 1 | 2 => (s.pkg.firmware.map (·.image)).getD []
  | 3 => capWords.flatMap (fun w => leBytes 8 w.toNat)
  | 4 => leBytes 4 Config.acv ++ leBytes 4 Config.revision
  | _ => leBytes 8 Config.fusedSvn

/-- GET_MEASUREMENTS: a signed block (R306). -/
def execGetMeasurements (idx : Nat) (s : State) : Out :=
  let m := Config.measurement idx (s.measured idx)
  .next (if 1 ≤ idx && idx ≤ 5 then s.answer (.data (m ++ Config.measurementSig m)) else s.answer .unsupported)

/-! ## Forsil ports (R303, R314) -/

/-- The bit of a port. -/
def portBit (p : Nat) : BitVec 16 := BitVec.ofNat 16 (if p < 16 then 2 ^ p else 0)

/-- FLTRAIN_WRITE: starts the training of ports that are present, down and not training. -/
def execFltrainWrite (val : Word) (s : State) : Out :=
  let p := s.pkg
  let start := val.setWidth 16 &&& BitVec.ofNat 16 Config.portsPresent &&& ~~~p.up &&& ~~~p.trn
  .next { s with pkg := { p with trn := p.trn ||| start } }

/-- FORSIL_TRAINING_COMPLETE: the port comes up with an empty replay buffer, or stays down. -/
def execForsilTrainingComplete (port : Nat) (ok : Bool) (s : State) : Out :=
  let p := s.pkg
  let b := portBit port
  if p.trn &&& b = 0 then .next s
  else
    .next { s with pkg := { p with
      trn := p.trn &&& ~~~b
      up := if ok then p.up ||| b else p.up
      replay := bind port [] p.replay
      fails := bind port (0, 0) p.fails } }

/-- FLIT_RECEIVE: a flit of 240 payload bytes is delivered, once and in order (R303). -/
def execFlitReceive (port : Nat) (payload : List Byte) (s : State) : Out :=
  let p := s.pkg
  if p.up &&& portBit port = 0 || payload.length != 240 then .next s
  else .next { s with pkg := { p with rxFlits := p.rxFlits ++ [(port, payload)] } }

/-- How often in a row flit `seq` of a port has failed: another flit starts anew (R303). -/
def Pkg.failed (p : Pkg) (port seq : Nat) : Nat :=
  match find? port p.fails with
  | some (q, n) => if q = seq then n else 0
  | none => 0

/-- FLIT_REPLAY: a flit of a port failed its CRC; what the replay buffer holds goes onto the link again, and its consecutive failures are
counted (R303). -/
def execFlitReplay (flit : Flit) (s : State) : Out :=
  let p := s.pkg
  if p.up &&& portBit flit.port = 0 then .next s
  else
    let s := s.answer (.resent flit.port ((find? flit.port p.replay).getD []).length)
    .next { s with pkg := { s.pkg with fails := bind flit.port (flit.seq, p.failed flit.port flit.seq + 1) p.fails } }

/-- Accesses in flight on a port, by which they went out, complete with an error (R303). -/
def State.failPort (s : State) (port : Nat) : State :=
  s.mapStrands
    (fun t => t.sys.any (fun r => r.port = some port))
    (fun (t : Strand) => match t.sys with
      | some r => { t with sys := none, sysGot := bind r.tag .error t.sysGot }
      | none => t)

/-- FORSIL_PORT_DOWN: after eight consecutive failed replays (R303, R314). -/
def execForsilPortDown (port : Nat) (s : State) : Out :=
  let p := s.pkg
  let b := portBit port
  if p.up &&& b = 0 || ((find? port p.fails).getD (0, 0)).2 < 8 then .next s
  else
    let s := (s.failPort port)
    let first := p.down &&& b = 0
    let s := { s with pkg := { s.pkg with up := p.up &&& ~~~b, down := p.down ||| b } }
    .next (if first then s.raiseMsix else s)

/-! ## Power (R311, R312) -/

/-- The stretch of a die in sixteenths: 16 to 64; a hot die is stretched further each millisecond. -/
def stretchOf (chosen old temp : Nat) : Nat :=
  let c := Nat.max 16 (Nat.min 64 chosen)
  if 110 ≤ temp then 64 else if 100 ≤ temp then Nat.min 64 (Nat.max c old + 1) else c

/-- The permit count of a die: 1 to 24; 1 for a die held at the deepest stretch. -/
def permitsOf (chosen temp : Nat) : Nat := if 110 ≤ temp then 1 else Nat.max 1 (Nat.min 24 chosen)

/-- The byte budget of a controller: 0.5 GB to 4 GB per millisecond. -/
def budgetOf (chosen : Nat) : Nat := Nat.max 500000000 (Nat.min 4000000000 chosen)

/-- The free permits of a die after its count changes to `n`: what is missing enters the ring at cluster 0, and what is too much leaves it,
as far as it is free (R216; log 44). -/
def State.ringOf (s : State) (die n : Nat) : List Permit :=
  let ps := s.pkg.ring.filter (fun p => p.die = die)
  let out := ps.length + s.permitsHeld die
  ps.drop (out - n) ++ List.replicate (n - out) ⟨die, 0, s.cycle die⟩

/-- POWER_ARBITER_TICK: a millisecond passes; the arbiter's measurements and settings are its operand (R311, R312). -/
def execPowerArbiterTick (p : PowerSet) (s : State) : Out :=
  let q := s.pkg
  let temp := fun d => p.temps.getD d 0
  let permits := (List.range 4).map (fun d => permitsOf (p.permits.getD d 24) (temp d))
  .next { s with pkg := { q with
    ms := q.ms + 1
    power := p.power
    temps := (List.range 4).map temp
    stretch := (List.range 4).map (fun d => stretchOf (p.stretch.getD d 16) (q.stretch.getD d 16) (temp d))
    permits := permits
    ring := (List.range 4).flatMap (fun d => s.ringOf d (permits.getD d 0))
    budgets := (List.range 8).map (fun b => budgetOf (p.budgets.getD b 4000000000)) } }

/-- No power: every context is lost. What the manual says nothing of stays: the staged image, the answers given, and the tape. -/
def State.dark (s : State) : State :=
  { State.reset with
    pkg := { Pkg.fresh with
      powered := false
      staged := s.pkg.staged
      firmware := s.pkg.firmware
      fwstat := s.pkg.fwstat
      recovery := s.pkg.recovery }
    free := s.free
    hostOut := s.hostOut
    tape := s.tape }

/-- THERMAL_TRIP: a die at 120 °C removes module power (R312). -/
def execThermalTrip (s : State) : Out := .next (if s.pkg.temps.any (fun t => 120 ≤ t) then s.dark else s)

/-- PACKAGE_POWER_OFF (R1, R312). -/
def execPackagePowerOff (s : State) : Out := .next s.dark

/-- FIRMWARE_IMAGE_STAGE: a new image waits for the next package reset (R307). -/
def execFirmwareImageStage (fw : Firmware) (s : State) : Out := .next { s with pkg := { s.pkg with staged := some fw } }

/-- FWSTAT of a staged image: 1 bad signature, 2 SVN too low, 0 accepted (R307). -/
def firmwareStatus (fw : Firmware) : Nat :=
  if !Config.sigVerifies fw.image fw.sig then 1 else if fw.svn < Config.fusedSvn then 2 else 0

/-- PACKAGE_RESET: registers take their reset values; a staged image is verified and becomes the firmware in force, or its rejection leaves
the package in recovery (R307, R314). -/
def execPackageReset (s : State) : Out :=
  let st := match s.pkg.staged with
    | some fw => firmwareStatus fw
    | none => s.pkg.fwstat
  .next { State.reset with
    pkg := { Pkg.fresh with
      fwstat := st
      recovery := st != 0
      firmware := if st = 0 then s.pkg.staged.or s.pkg.firmware else s.pkg.firmware }
    free := s.free
    hostOut := s.hostOut
    tape := s.tape }

end Sys2Proof.Machine
end

