-- ==== Sys2Proof/Machine/Dispatch.lean ====
section
/-! DEFINITION. The one dispatch of `exec`: every row of spec/opcode_table.json to its meaning. -/

namespace Sys2Proof.Machine

open Sys2Proof

/-- What an instruction or event does (its meaning), or why it is refused. -/
def exec (i : Instr) (s : State) : Host.Outcome State Fault Refusal :=
  match i with
  | .nop => Sys2Proof.Machine.execNop s
  | .jmp off => Sys2Proof.Machine.execJmp off s
  | .call off => Sys2Proof.Machine.execCall off s
  | .jr a => Sys2Proof.Machine.execJr a s
  | .callr a => Sys2Proof.Machine.execCallr a s
  | .bEq a b off site => Sys2Proof.Machine.execBEq a b off site s
  | .bNe a b off site => Sys2Proof.Machine.execBNe a b off site s
  | .bLt a b off site => Sys2Proof.Machine.execBLt a b off site s
  | .bGe a b off site => Sys2Proof.Machine.execBGe a b off site s
  | .bLtb a b off site => Sys2Proof.Machine.execBLtb a b off site s
  | .bGeb a b off site => Sys2Proof.Machine.execBGeb a b off site s
  | .bz a off site => Sys2Proof.Machine.execBz a off site s
  | .bnz a off site => Sys2Proof.Machine.execBnz a off site s
  | .loop a b off slot => Sys2Proof.Machine.execLoop a b off slot s
  | .vpick d la slot => Sys2Proof.Machine.execVpick d la slot s
  | .vread d la w slot => Sys2Proof.Machine.execVread d la w slot s
  | .ldGShort d a la ty off => Sys2Proof.Machine.execLdGShort d a la ty off s
  | .ldGLong d a la ty off site => Sys2Proof.Machine.execLdGLong d a la ty off site s
  | .ldSShort d a la ty off => Sys2Proof.Machine.execLdSShort d a la ty off s
  | .ldSLong d a la ty off site => Sys2Proof.Machine.execLdSLong d a la ty off site s
  | .stGShort sr a ty off => Sys2Proof.Machine.execStGShort sr a ty off s
  | .stGLong sr a ty off => Sys2Proof.Machine.execStGLong sr a ty off s
  | .stSShort sr a ty off => Sys2Proof.Machine.execStSShort sr a ty off s
  | .stSLong sr a ty off => Sys2Proof.Machine.execStSLong sr a ty off s
  | .ldEShort d a la ty off => Sys2Proof.Machine.execLdEShort d a la ty off s
  | .ldELong d a la ty off site => Sys2Proof.Machine.execLdELong d a la ty off site s
  | .stEShort sr a ty off => Sys2Proof.Machine.execStEShort sr a ty off s
  | .stELong sr a ty off => Sys2Proof.Machine.execStELong sr a ty off s
  | .pf a l2 off => Sys2Proof.Machine.execPf a l2 off s
  | .amoAdd f => Sys2Proof.Machine.execAmoAdd f s
  | .amoAnd f => Sys2Proof.Machine.execAmoAnd f s
  | .amoOr f => Sys2Proof.Machine.execAmoOr f s
  | .amoXor f => Sys2Proof.Machine.execAmoXor f s
  | .amoMin f => Sys2Proof.Machine.execAmoMin f s
  | .amoMax f => Sys2Proof.Machine.execAmoMax f s
  | .amoMinb f => Sys2Proof.Machine.execAmoMinb f s
  | .amoMaxb f => Sys2Proof.Machine.execAmoMaxb f s
  | .amoSwp f => Sys2Proof.Machine.execAmoSwp f s
  | .amoCas f c => Sys2Proof.Machine.execAmoCas f c s
  | .amoFadd f => Sys2Proof.Machine.execAmoFadd f s
  | .fence kind scope ss => Sys2Proof.Machine.execFence kind scope ss s
  | .hset h a sp => Sys2Proof.Machine.execHset h a sp s
  | .hld h a la space off => Sys2Proof.Machine.execHld h a la space off s
  | .hst h a space off => Sys2Proof.Machine.execHst h a space off s
  | .hget h d f => Sys2Proof.Machine.execHget h d f s
  | .hput h a f => Sys2Proof.Machine.execHput h a f s
  | .hstep h a => Sys2Proof.Machine.execHstep h a s
  | .twait h => Sys2Proof.Machine.execTwait h s
  | .leesClr => Sys2Proof.Machine.execLeesClr s
  | .leesSv a => Sys2Proof.Machine.execLeesSv a s
  | .leesLd a => Sys2Proof.Machine.execLeesLd a s
  | .sevt a b scope => Sys2Proof.Machine.execSevt a b scope s
  | .wevt a b scope => Sys2Proof.Machine.execWevt a b scope s
  | .trap code => Sys2Proof.Machine.execTrap code s
  | .eret => Sys2Proof.Machine.execEret s
  | .mfs d sr => Sys2Proof.Machine.execMfs d sr s
  | .mts sr a => Sys2Proof.Machine.execMts sr a s
  | .repart a => Sys2Proof.Machine.execRepart a s
  | .launch a => Sys2Proof.Machine.execLaunch a s
  | .halt => Sys2Proof.Machine.execHalt s
  | .uiret => Sys2Proof.Machine.execUiret s
  | .mbox d la => Sys2Proof.Machine.execMbox d la s
  | .rnd d la => Sys2Proof.Machine.execRnd d la s
  | .pub a => Sys2Proof.Machine.execPub a s
  | .pubLees => Sys2Proof.Machine.execPubLees s
  | .gbar => Sys2Proof.Machine.execGbar s
  | .fin => Sys2Proof.Machine.execFin s
  | .backRefWrap ka kb kc w => Sys2Proof.Machine.execBackRefWrap ka kb kc w s
  | .mma hd ha hb la xa => Sys2Proof.Machine.execMma hd ha hb la xa s
  | .mmz hd ha hb la xa => Sys2Proof.Machine.execMmz hd ha hb la xa s
  | .rep la xa => Sys2Proof.Machine.execRep la xa s
  | .repw la xa xb => Sys2Proof.Machine.execRepw la xa xb s
  | .tadd f rm => Sys2Proof.Machine.execTadd f rm s
  | .tsub f rm => Sys2Proof.Machine.execTsub f rm s
  | .tmul f rm => Sys2Proof.Machine.execTmul f rm s
  | .tfma f rm => Sys2Proof.Machine.execTfma f rm s
  | .tmax f rm => Sys2Proof.Machine.execTmax f rm s
  | .tmin f rm => Sys2Proof.Machine.execTmin f rm s
  | .texp hd ha la xa rm => Sys2Proof.Machine.execTexp hd ha la xa rm s
  | .tlog hd ha la xa rm => Sys2Proof.Machine.execTlog hd ha la xa rm s
  | .trcp hd ha la xa rm => Sys2Proof.Machine.execTrcp hd ha la xa rm s
  | .trsq hd ha la xa rm => Sys2Proof.Machine.execTrsq hd ha la xa rm s
  | .tsig hd ha la xa rm => Sys2Proof.Machine.execTsig hd ha la xa rm s
  | .tcmp f p => Sys2Proof.Machine.execTcmp f p s
  | .tmsk f => Sys2Proof.Machine.execTmsk f s
  | .tfill hd la xa xb => Sys2Proof.Machine.execTfill hd la xa xb s
  | .tcpy hd ha la xa => Sys2Proof.Machine.execTcpy hd ha la xa s
  | .ttrn hd ha la xa => Sys2Proof.Machine.execTtrn hd ha la xa s
  | .tred hd ha la xa rm op => Sys2Proof.Machine.execTred hd ha la xa rm op s
  | .tselk f xb isMin => Sys2Proof.Machine.execTselk f xb isMin s
  | .tcvt hd ha la xa rm => Sys2Proof.Machine.execTcvt hd ha la xa rm s
  | .qst hd ha la xa rm cont => Sys2Proof.Machine.execQst hd ha la xa rm cont s
  | .cpyIn hd ha la xb => Sys2Proof.Machine.execCpyIn hd ha la xb s
  | .cpyOut hd ha la xb => Sys2Proof.Machine.execCpyOut hd ha la xb s
  | .cpyXc hd ha la xa xb => Sys2Proof.Machine.execCpyXc hd ha la xa xb s
  | .gath hd ha hb la xb => Sys2Proof.Machine.execGath hd ha hb la xb s
  | .scat hd ha hb la xb => Sys2Proof.Machine.execScat hd ha hb la xb s
  | .add d a b => Sys2Proof.Machine.execAdd d a b s
  | .sub d a b => Sys2Proof.Machine.execSub d a b s
  | .mul d a b => Sys2Proof.Machine.execMul d a b s
  | .mulh d a b => Sys2Proof.Machine.execMulh d a b s
  | .mulhb d a b => Sys2Proof.Machine.execMulhb d a b s
  | .div d a b => Sys2Proof.Machine.execDiv d a b s
  | .divb d a b => Sys2Proof.Machine.execDivb d a b s
  | .rem d a b => Sys2Proof.Machine.execRem d a b s
  | .remb d a b => Sys2Proof.Machine.execRemb d a b s
  | .and d a b => Sys2Proof.Machine.execAnd d a b s
  | .or d a b => Sys2Proof.Machine.execOr d a b s
  | .xor d a b => Sys2Proof.Machine.execXor d a b s
  | .shl d a b => Sys2Proof.Machine.execShl d a b s
  | .shr d a b => Sys2Proof.Machine.execShr d a b s
  | .sra d a b => Sys2Proof.Machine.execSra d a b s
  | .rol d a b => Sys2Proof.Machine.execRol d a b s
  | .min d a b => Sys2Proof.Machine.execMin d a b s
  | .max d a b => Sys2Proof.Machine.execMax d a b s
  | .minb d a b => Sys2Proof.Machine.execMinb d a b s
  | .maxb d a b => Sys2Proof.Machine.execMaxb d a b s
  | .slt d a b => Sys2Proof.Machine.execSlt d a b s
  | .sltb d a b => Sys2Proof.Machine.execSltb d a b s
  | .seq d a b => Sys2Proof.Machine.execSeq d a b s
  | .sne d a b => Sys2Proof.Machine.execSne d a b s
  | .clz d a => Sys2Proof.Machine.execClz d a s
  | .ctz d a => Sys2Proof.Machine.execCtz d a s
  | .popc d a => Sys2Proof.Machine.execPopc d a s
  | .adda d a b => Sys2Proof.Machine.execAdda d a b s
  | .ptag d a b => Sys2Proof.Machine.execPtag d a b s
  | .pfs d a => Sys2Proof.Machine.execPfs d a s
  | .pclr d a => Sys2Proof.Machine.execPclr d a s
  | .sel d a b c => Sys2Proof.Machine.execSel d a b c s
  | .addi d a imm => Sys2Proof.Machine.execAddi d a imm s
  | .andi d a imm => Sys2Proof.Machine.execAndi d a imm s
  | .ori d a imm => Sys2Proof.Machine.execOri d a imm s
  | .xori d a imm => Sys2Proof.Machine.execXori d a imm s
  | .slti d a imm => Sys2Proof.Machine.execSlti d a imm s
  | .shli d a n => Sys2Proof.Machine.execShli d a n s
  | .shri d a n => Sys2Proof.Machine.execShri d a n s
  | .srai d a n => Sys2Proof.Machine.execSrai d a n s
  | .bext d a wm1 lsb => Sys2Proof.Machine.execBext d a wm1 lsb s
  | .bins d a wm1 lsb => Sys2Proof.Machine.execBins d a wm1 lsb s
  | .fld d a k => Sys2Proof.Machine.execFld d a k s
  | .addai d a imm => Sys2Proof.Machine.execAddai d a imm s
  | .lih d imm => Sys2Proof.Machine.execLih d imm s
  | .pch d imm => Sys2Proof.Machine.execPch d imm s
  | .fadd t d a b => Sys2Proof.Machine.execFadd t d a b s
  | .fsub t d a b => Sys2Proof.Machine.execFsub t d a b s
  | .fmul t d a b => Sys2Proof.Machine.execFmul t d a b s
  | .fmin t d a b => Sys2Proof.Machine.execFmin t d a b s
  | .fmax t d a b => Sys2Proof.Machine.execFmax t d a b s
  | .fabs t d a => Sys2Proof.Machine.execFabs t d a s
  | .fneg t d a => Sys2Proof.Machine.execFneg t d a s
  | .flt t d a b => Sys2Proof.Machine.execFlt t d a b s
  | .fle t d a b => Sys2Proof.Machine.execFle t d a b s
  | .feq t d a b => Sys2Proof.Machine.execFeq t d a b s
  | .fclass t d a => Sys2Proof.Machine.execFclass t d a s
  | .ffma t d a b c => Sys2Proof.Machine.execFfma t d a b c s
  | .fdiv t d a b la => Sys2Proof.Machine.execFdiv t d a b la s
  | .fsqrt t d a la => Sys2Proof.Machine.execFsqrt t d a la s
  | .fcvt dt st d a => Sys2Proof.Machine.execFcvt dt st d a s
  | .loadCodeObject ctx obj pl => Sys2Proof.Machine.execLoadCodeObject ctx obj pl s
  | .unloadCodeObject ctx obj => Sys2Proof.Machine.execUnloadCodeObject ctx obj s
  | .kernelLookup ctx obj name => Sys2Proof.Machine.execKernelLookup ctx obj name s
  | .lqbaseWrite ctx v => Sys2Proof.Machine.execLqbaseWrite ctx v s
  | .lqcfgWrite ctx v => Sys2Proof.Machine.execLqcfgWrite ctx v s
  | .queueEnable ctx => Sys2Proof.Machine.execQueueEnable ctx s
  | .queueStop ctx => Sys2Proof.Machine.execQueueStop ctx s
  | .lqtailDoorbell ctx v => Sys2Proof.Machine.execLqtailDoorbell ctx v s
  | .launchRecordHead ctx dev => Sys2Proof.Machine.execLaunchRecordHead ctx dev s
  | .eventWaitReevaluate ctx dev => Sys2Proof.Machine.execEventWaitReevaluate ctx dev s
  | .eventPollTimer ctx dev => Sys2Proof.Machine.execEventPollTimer ctx dev s
  | .launchAppend => Sys2Proof.Machine.execLaunchAppend s
  | .participationEvaluate launch => Sys2Proof.Machine.execParticipationEvaluate launch s
  | .l1SplitComplete cluster => Sys2Proof.Machine.execL1SplitComplete cluster s
  | .chunkAssign launch => Sys2Proof.Machine.execChunkAssign launch s
  | .chunkRequest launch cluster => Sys2Proof.Machine.execChunkRequest launch cluster s
  | .groupAllocate launch cluster off => Sys2Proof.Machine.execGroupAllocate launch cluster off s
  | .strandReserve launch cluster ids => Sys2Proof.Machine.execStrandReserve launch cluster ids s
  | .itemDispatch launch cluster core slot => Sys2Proof.Machine.execItemDispatch launch cluster core slot s
  | .resultLand k miss => Sys2Proof.Machine.execResultLand k miss s
  | .vintageUpdatePerform k => Sys2Proof.Machine.execVintageUpdatePerform k s
  | .fenceComplete => Sys2Proof.Machine.execFenceComplete s
  | .scTicketGrant => Sys2Proof.Machine.execScTicketGrant s
  | .accessPerformedAtHome k => Sys2Proof.Machine.execAccessPerformedAtHome k s
  | .pageWalkComplete cluster ctx va => Sys2Proof.Machine.execPageWalkComplete cluster ctx va s
  | .tlbinvWrite ctx v => Sys2Proof.Machine.execTlbinvWrite ctx v s
  | .tlbInvalidationComplete ctx => Sys2Proof.Machine.execTlbInvalidationComplete ctx s
  | .matrixCommandStart core => Sys2Proof.Machine.execMatrixCommandStart core s
  | .matrixIterationComplete core => Sys2Proof.Machine.execMatrixIterationComplete core s
  | .tileCommandStart cluster => Sys2Proof.Machine.execTileCommandStart cluster s
  | .tileUnitComplete cluster => Sys2Proof.Machine.execTileUnitComplete cluster s
  | .decanterMessage cid ext => Sys2Proof.Machine.execDecanterMessage cid ext s
  | .ownershipGrant line => Sys2Proof.Machine.execOwnershipGrant line s
  | .copyComplete cid => Sys2Proof.Machine.execCopyComplete cid s
  | .permitAcquire cluster => Sys2Proof.Machine.execPermitAcquire cluster s
  | .permitReturn cluster => Sys2Proof.Machine.execPermitReturn cluster s
  | .publicationArrive k lees => Sys2Proof.Machine.execPublicationArrive k lees s
  | .gbarComplete launch cluster g0 => Sys2Proof.Machine.execGbarComplete launch cluster g0 s
  | .gbarRelease => Sys2Proof.Machine.execGbarRelease s
  | .vineBarrierDeadlock launch cluster g0 => Sys2Proof.Machine.execVineBarrierDeadlock launch cluster g0 s
  | .wevtReread => Sys2Proof.Machine.execWevtReread s
  | .wevtPollTimer => Sys2Proof.Machine.execWevtPollTimer s
  | .repartSwitch => Sys2Proof.Machine.execRepartSwitch s
  | .deferredFaultDelivery => Sys2Proof.Machine.execDeferredFaultDelivery s
  | .completionInterrupt => Sys2Proof.Machine.execCompletionInterrupt s
  | .itemRetire => Sys2Proof.Machine.execItemRetire s
  | .launchRetire launch => Sys2Proof.Machine.execLaunchRetire launch s
  | .vintageMerge launch => Sys2Proof.Machine.execVintageMerge launch s
  | .preemptDecision cluster launch => Sys2Proof.Machine.execPreemptDecision cluster launch s
  | .evictStrand => Sys2Proof.Machine.execEvictStrand s
  | .restoreStrand ctx n core slot => Sys2Proof.Machine.execRestoreStrand ctx n core slot s
  | .yieldLaunch launch cluster => Sys2Proof.Machine.execYieldLaunch launch cluster s
  | .resumeLaunch launch cluster => Sys2Proof.Machine.execResumeLaunch launch cluster s
  | .correctedError u => Sys2Proof.Machine.execCorrectedError u s
  | .uncorrectableError p u => Sys2Proof.Machine.execUncorrectableError p u s
  | .hostBar2Read v off size => Sys2Proof.Machine.execHostBar2Read v off size s
  | .hostBar2Write v off bytes => Sys2Proof.Machine.execHostBar2Write v off bytes s
  | .hostAtomicop v off op => Sys2Proof.Machine.execHostAtomicop v off op s
  | .registerWrite v viaPf0 off val => Sys2Proof.Machine.execRegisterWrite v viaPf0 off val s
  | .cseedWrite v val => Sys2Proof.Machine.execCseedWrite v val s
  | .pkgidWrite val => Sys2Proof.Machine.execPkgidWrite val s
  | .pwrlimWrite val => Sys2Proof.Machine.execPwrlimWrite val s
  | .retireRead => Sys2Proof.Machine.execRetireRead s
  | .create v => Sys2Proof.Machine.execCreate v s
  | .destroy v => Sys2Proof.Machine.execDestroy v s
  | .keySweepComplete v => Sys2Proof.Machine.execKeySweepComplete v s
  | .fltrainWrite val => Sys2Proof.Machine.execFltrainWrite val s
  | .forsilTrainingComplete port ok => Sys2Proof.Machine.execForsilTrainingComplete port ok s
  | .flitReceive port payload => Sys2Proof.Machine.execFlitReceive port payload s
  | .flitReplay flit => Sys2Proof.Machine.execFlitReplay flit s
  | .forsilPortDown port => Sys2Proof.Machine.execForsilPortDown port s
  | .forsilIncomingAccess src rctx ctx va op => Sys2Proof.Machine.execForsilIncomingAccess src rctx ctx va op s
  | .systemAccessComplete resp => Sys2Proof.Machine.execSystemAccessComplete resp s
  | .completionTimeout => Sys2Proof.Machine.execCompletionTimeout s
  | .getMeasurements idx => Sys2Proof.Machine.execGetMeasurements idx s
  | .setImportKey v key => Sys2Proof.Machine.execSetImportKey v key s
  | .tdispError v => Sys2Proof.Machine.execTdispError v s
  | .powerArbiterTick p => Sys2Proof.Machine.execPowerArbiterTick p s
  | .thermalTrip => Sys2Proof.Machine.execThermalTrip s
  | .packageReset => Sys2Proof.Machine.execPackageReset s
  | .illegalBundle slotA sub => Sys2Proof.Machine.execIllegalBundle slotA sub s
  | .bundleFetch => Sys2Proof.Machine.execBundleFetch s
  | .firmwareImageStage fw => Sys2Proof.Machine.execFirmwareImageStage fw s
  | .packagePowerOff => Sys2Proof.Machine.execPackagePowerOff s

end Sys2Proof.Machine
end

