-- ==== Sys2Proof/Machine/Issue.lean ====
section
/-! DEFINITION. One turn of a strand (spec/03 R51 to R54; spec/04 R66 to R68, R73 to R76; spec/20 R270): the deliveries before a bundle,
its fetch and decoding, the lookahead check, the issue of its words, and where the strand goes next. -/

namespace Sys2Proof.Machine

open Sys2Proof

/-! ## Lookahead (R73) -/

/-- The scalar registers a word names, explicitly or implicitly; a back-referenced source is not one of the strand's own (R73). -/
def wordX : Instr → List XReg
  | .call _ => [31]
  | .callr a => [a, 31]
  | .backRefWrap ka kb kc w => aDest w :: ((aRegs w).zip [ka, kb, kc]).filterMap (fun p => if p.2 = 0 then some p.1 else none)
  | i => xFields i

/-- The registers a word names, numbered as in `Pend.reg`; x0 constrains nothing. -/
def wordRegs (i : Instr) : List Nat :=
  ((wordX i).map BitVec.toNat).filter (· != 0) ++ (hFields i).map (fun h => 64 + h.toNat)

/-- The words of a bundle, each with whether it stands in slot A. -/
def wordsIn : Decoded → List (Bool × Instr)
  | .pair c a => [(false, c), (true, a)]
  | .long i => [(false, i)]

/-- The first word of a bundle that names a register inside an open window, with the window's result (R73). -/
def Strand.breach (t : Strand) (b : Decoded) : Option (Bool × Pend) :=
  (wordsIn b).findSome? (fun w =>
    ((wordRegs w.2).findSome? (fun r => t.pend.find? (fun p => p.win != 0 && p.reg = r))).map (fun p => (w.1, p)))

/-- The bundle names a register whose result is still pending, or has landed in the present cycle: it waits (R73). -/
def Strand.interlocked (t : Strand) (now : Nat) (b : Decoded) : Bool :=
  (wordsIn b).any (fun w => (wordRegs w.2).any (fun r => t.pend.any (fun p => !p.landed && p.reg = r) || t.justIn.contains (r, now)))

/-- One bundle issues: every window shortens, and a landed result whose window ends is forgotten (R73). -/
def Strand.tick (t : Strand) : Strand :=
  { t with pend := (t.pend.map (fun p => { p with win := p.win - 1 })).filter (fun p => !(p.landed && p.win = 0)) }

/-- The windows shorten for the bundle in hand. -/
def State.tick (s : State) : State := { s with cur := s.cur.tick }

/-! ## Issue (R52, R54, R270) -/

/-- The meaning of a word, as a state; the meanings of words never stop the machine. -/
def State.run (s : State) (i : Instr) : State :=
  match exec i s with
  | .next s' => s'
  | .fault _ | .refused _ => s

/-- A word has faulted: the strand trapped, waits to trap, or lost its launch. -/
def State.faulted (s : State) : Bool :=
  match s.disp with
  | .trapped | .left => true
  | .done | .wait => s.cur.faulting.isSome

/-- The bundle completed. -/
def State.completed (s : State) : Bool :=
  match s.disp with
  | .done => true
  | .wait | .trapped | .left => false

/-- The A-word of a bundle on a state, its sources read in another (R52). -/
def State.runA (s : State) (before : State) (a : Instr) : State :=
  let s' := { s with inA := true, latch := some ⟨before.cur.x, before.cur.fpc, before.cur.pc⟩ }.run a
  { s' with inA := false, latch := none }

/-- A long instruction: its windows shorten only where it completes (R73). -/
def State.runLong (s : State) (i : Instr) : State :=
  let r := s.tick.run i
  if r.completed then r else s.run i

/-- END waits with its windows as they are, and its A-word takes effect once (R54, R104). -/
def State.runEnd (s : State) (a : Instr) : State :=
  if s.cur.rep.armed || s.cur.actDone = some s.cur.pc then s.run .fin
  else
    let r := s.runA s a
    if r.completed then { r with cur := { r.cur with actDone := some s.cur.pc } }.run .fin else r

/-- C-words that leave the place of the bundle: the A-word takes effect first (R54). -/
def leaves : Instr → Bool
  | .trap _ | .eret | .halt => true
  | _ => false

/-- END. -/
def isEnd : Instr → Bool
  | .fin => true
  | _ => false

/-- A C-word that may still fault after a wait: its element or its scale is yet to be read, or a check follows the wait. -/
def checksLate : Instr → Bool
  | .ldEShort .. | .stEShort .. | .twait _ | .leesSv _ | .leesLd _ | .launch _ => true
  | _ => false

/-- A LAUNCH in hand has read its record and waits for room: it meets no fault any more (R34). -/
def Strand.queues (t : Strand) : Bool :=
  match t.doing with
  | some (.launch _) => true
  | some (.repart ..) | some .acted | none => false

/-- A C-word that translates the address of an access. -/
def translates : Instr → Bool
  | .ldGShort .. | .ldEShort .. | .stGShort .. | .stEShort .. | .hld .. | .hst .. | .pf .. | .launch _ | .sevt .. | .wevt .. => true
  | _ => false

/-- A C-word whose access to system space comes after a wait for room among its pending results (R74). -/
def asksLate : Instr → Bool
  | .ldGShort .. | .ldEShort .. | .hld .. => true
  | _ => false

/-- The strand waits for a walk of its die, or for a place among them (R149). -/
def State.walking (s : State) : Bool :=
  let die := dieOf s.cur.id
  s.walks.any (fun w => w.waiters.any (fun q => q.2 = .strand s.cur.sid)) || 64 ≤ (s.walks.filter (fun w => w.die = die)).length

/-- A waiting C-word may still fault, and nothing of it has left the strand: an arithmetic trap of its A-word comes after that (R270). A load
that waits while eight results are pending may have its access to system space before it. -/
def State.undecided (s : State) (c : Instr) : Bool :=
  match s.cur.sys with
  | some r => !r.acts
  | none => !s.cur.queues && ((translates c && s.walking) || checksLate c || (asksLate c && 8 ≤ s.cur.pending))

/-- A C-word and an A-word: both read before either writes, and the bundle takes effect whole or not at all (R52, R54). A fault of the
C-word comes before one of the A-word (R270). Nothing of a C-word that waits leaves the strand before the A-word can complete. -/
def State.runPair (s : State) (c a : Instr) : State :=
  if isEnd c then s.runEnd a
  else
    let ra := s.runA s a
    if leaves c then
      if ra.completed then (s.tick.runA s a).run c else ra
    else
      let rc := s.tick.run c
      if rc.completed then
        if ra.faulted then ra
        else if !ra.completed then s.lose
        else
          let r := rc.runA s a
          if r.completed then r else s.lose
      else
        let rc := s.run c
        if rc.faulted || ra.completed || rc.undecided c then rc
        else if ra.faulted then ra
        else s.lose

/-- The strand goes on to its next bundle where the one in hand completed; `handler` says that a handler issued it. -/
def State.advance (s : State) (handler : Bool) : State :=
  if s.completed then
    { s with cur := { s.cur with
        pc := s.cur.npc
        sysGot := []
        code := none
        leesGot := []
        leaves := []
        walkFault := none
        last := some (s.cur.pc, s.bundle)
        actDone := if handler then s.cur.actDone else none } }
  else s

/-- A handler runs: of a trap, or of a completion interrupt. -/
def Strand.handling (t : Strand) : Bool := t.estat.getLsbD 0 || t.inUi

/-- Runs a decoded bundle. -/
def State.runBundle (s : State) : Decoded → State
  | .long i => (s.runLong i).advance s.cur.handling
  | .pair c a => (s.runPair c a).advance s.cur.handling

/-- The lookahead-breach fault (R73, R273). -/
def State.breachFault (s : State) (slotA : Bool) (p : Pend) : State := { s with inA := slotA }.fault 2 0 p.prod

/-- The bundle of 64 bits in hand: decoded, checked for breaches, interlocked, run (R65, R73, R270). -/
def State.issue (s : State) (w : Word) : State :=
  let s := { s with bundle := w, inA := false, latch := none, refs := ⟨none, none, none⟩, cur := { s.cur with npc := s.nextPc, word := w } }
  match decodeIn s.decEnv w with
  | .error (slotA, b) => s.run (.illegalBundle slotA b.sub)
  | .ok d =>
    -- END that has done its A-word names nothing any more
    if s.cur.actDone = some s.cur.pc then s.runBundle d
    else
      match s.cur.breach d with
      | some (slotA, p) => s.breachFault slotA p
      | none => if s.cur.interlocked s.now d then s.lose else s.runBundle d

/-! ## The turn (R66, R67, R270) -/

/-- The bundle the strand has fetched, fetching it where it has none (R51). -/
def State.fetchNow (s : State) : State := if s.cur.fetched then s else s.fetch

/-- The turn of a strand with nothing to take first. -/
def State.issueNext (s : State) : State :=
  let s := s.fetchNow
  if !s.completed then s
  else
    match s.cur.ibuf with
    | some (_, w) => s.issue w
    | none => s.lose

/-- A strand cannot issue in this turn: the normaliser serves it, it enters a trap handler, it is being evicted, or its launch yields in
the cluster (R67, R76, R271, R282, R285). -/
def State.idleTurn (s : State) : Bool :=
  let t := s.cur
  let yields := s.harvest.any (fun h => h.launch = t.launch && h.cluster = clusterOf t.id && h.yielding)
  t.stall != 0 || ((t.chosen || yields) && !t.committed)

/-- The release of the strand's barrier, where its cycle has come (R253). -/
def State.released (s : State) : State := s.run .gbarRelease

/-- The strand's GBAR has been released: it completes, and its next bundle issues in the same turn (R253). -/
def State.freed (s : State) : Bool := s.cur.atBar && s.cur.relAt.isNone && s.cur.gbar ≤ s.barrierOf s.cur

/-- The strand issues; after a GBAR that has been released it issues the bundle behind it too (R253). -/
def State.issueOn (s : State) : State :=
  let t := s.issueNext
  if s.freed && t.completed && t.cur.stall = 0 then t.issueNext else t

/-- The LEES.LD that the strand in hand would issue next, where it may, reads some words of its image (R240, R268). -/
def State.leesMove (s : State) (js : List Nat) : State :=
  let t := s.cur
  if t.status != .running || t.faulting.isSome || !t.fetched || s.idleTurn then s
  else
    match t.ibuf with
    | none => s
    | some (_, w) =>
      match decodeIn s.decEnv w with
      | .ok (.pair (.leesLd a) aw) =>
        let d := Decoded.pair (.leesLd a) aw
        if t.interlocked s.now d || (t.breach d).isSome then s else s.leesEarly a js
      | _ => s

/-- What the strand whose turn it is does in it. A bundle that has acted outside the strand completes first (R173). -/
def State.act (s : State) : State :=
  match s.cur.faulting with
  | some f => if s.cur.committed then s.issueNext else s.raise f
  | none =>
    if s.idleTurn then { s with cur := { s.cur with stall := s.cur.stall - 1 } }.lose
    else if s.readyFault.isSome then (if s.cur.settled then s.run .deferredFaultDelivery else s.lose)
    else if s.readyInterrupt.isSome then (if s.cur.settled then s.run .completionInterrupt else s.lose)
    else
      let s := s.released
      if s.cur.atBar && s.cur.relAt.isSome then s.lose else s.issueOn

/-- Cycles until the turn of the strand in hand: the first cycle, from the die's on, that its core has not used and whose number mod 8 is
its slot, or mod 4 in four-slot mode (R66). -/
def State.toTurn (s : State) : Nat :=
  let n := if s.four then 4 else 8
  let a := Nat.max s.now (s.core (coreOf s.cur.id)).used
  a + (slotOf s.cur.id + n - a % n) % n - s.now

/-- The cycle of the strand in hand comes, and its core has used it (R66). -/
def State.takeTurn (s : State) : State :=
  let s := { s with disp := .done }.pass (dieOf s.cur.id) s.toTurn
  let k := coreOf s.cur.id
  s.setCore k { s.core k with used := s.now + 1 }

/-- One turn of the strand whose turn it is: its cycle comes, and a running strand acts (R66, R67). -/
def State.turn (s : State) : State :=
  let s := s.takeTurn
  match s.cur.status with
  | .running => s.act
  | .idle | .ending => s.lose

/-- Gives the turn to strand `id`. -/
def State.focus (s : State) (id : Nat) : State :=
  if s.cur.id = id then s
  else { s with cur := s.strand id, strands := putStrand s.cur (s.strands.filter (fun t => t.id != id)) }

end Sys2Proof.Machine
end

