-- ==== Sys2Proof/Machine/Schedule.lean ====
section
/-! DEFINITION. Which agent moves next (log 1): the entries of the tape, the order the model takes where the tape is empty, and the
placing of a bundle where the next turn fetches it (log 8). -/

namespace Sys2Proof.Machine

open Sys2Proof

/-! ## Moves of the tape -/

/-- The rows of the opcode table that are events of the part rather than words of a bundle (spec/95); an illegal bundle is what a
strand's turn makes of its own words. -/
def isEvent : Instr → Bool
  | .loadCodeObject .. | .unloadCodeObject .. | .kernelLookup .. | .lqbaseWrite .. | .lqcfgWrite .. | .queueEnable .. | .queueStop ..
  | .lqtailDoorbell .. | .launchRecordHead .. | .eventWaitReevaluate .. | .eventPollTimer .. | .launchAppend | .participationEvaluate ..
  | .l1SplitComplete .. | .chunkAssign .. | .chunkRequest .. | .groupAllocate .. | .strandReserve .. | .itemDispatch ..
  | .resultLand .. | .vintageUpdatePerform .. | .fenceComplete | .scTicketGrant | .accessPerformedAtHome .. | .pageWalkComplete ..
  | .tlbinvWrite .. | .tlbInvalidationComplete .. | .matrixCommandStart .. | .matrixIterationComplete .. | .tileCommandStart ..
  | .tileUnitComplete .. | .decanterMessage .. | .ownershipGrant .. | .copyComplete .. | .permitAcquire .. | .permitReturn ..
  | .publicationArrive .. | .gbarComplete .. | .gbarRelease | .vineBarrierDeadlock .. | .wevtReread | .wevtPollTimer | .repartSwitch
  | .deferredFaultDelivery | .completionInterrupt | .itemRetire | .launchRetire .. | .vintageMerge .. | .preemptDecision .. | .evictStrand
  | .restoreStrand .. | .yieldLaunch .. | .resumeLaunch .. | .correctedError .. | .uncorrectableError .. | .hostBar2Read ..
  | .hostBar2Write .. | .hostAtomicop .. | .registerWrite .. | .cseedWrite .. | .pkgidWrite .. | .pwrlimWrite .. | .retireRead | .create ..
  | .destroy .. | .keySweepComplete .. | .fltrainWrite .. | .forsilTrainingComplete .. | .flitReceive .. | .flitReplay ..
  | .forsilPortDown .. | .forsilIncomingAccess .. | .systemAccessComplete .. | .completionTimeout | .getMeasurements ..
  | .setImportKey .. | .tdispError .. | .powerArbiterTick .. | .thermalTrip | .packageReset | .bundleFetch | .firmwareImageStage ..
  | .packagePowerOff => true
  | _ => false

/-- Removes a line from a cluster's L1 (R140). -/
def State.dropLine (s : State) (c line : Nat) : State :=
  let k := s.cluster c
  s.setCluster c { k with l1 := k.l1.filter (fun l => l.line != line) }

/-- Removes the translations of an address from a cluster's TLB (R148). -/
def State.dropLeaf (s : State) (c v va : Nat) : State :=
  let k := s.cluster c
  s.setCluster c { k with tlb := k.tlb.filter (fun l => !l.covers v va) }

/-- What an entry of the tape does in a package that runs. -/
def State.moved (s : State) : Move → State
  | .event i => if isEvent i then s.run i else s
  | .turn id => (s.focus id).turn
  | .focus id => { s.focus id with disp := .done }
  | .elapse die n => s.pass die n
  | .l1Drop c line => s.dropLine c line
  | .tlbDrop c v va => s.dropLeaf c v va
  | .readPart k scale => s.readPart k scale
  | .readEarly cid a => s.readEarly cid a
  | .writeEarly cid k ext => s.writeEarly cid k ext
  | .leesEarly js => s.leesMove js
  | .cmdDone => s.cmdFinish

/-- What goes on in recovery: what PF0 answers, time, power and the reset; no other unit has left reset (R307). -/
def Move.inRecovery : Move → Bool
  | .event i =>
    match i with
    | .hostBar2Read .. | .hostBar2Write .. | .hostAtomicop .. | .registerWrite .. | .cseedWrite .. | .lqbaseWrite .. | .lqcfgWrite ..
    | .queueEnable .. | .queueStop .. | .lqtailDoorbell .. | .tlbinvWrite .. | .pkgidWrite .. | .pwrlimWrite .. | .retireRead | .create ..
    | .destroy .. | .keySweepComplete .. | .fltrainWrite .. | .getMeasurements .. | .firmwareImageStage .. | .powerArbiterTick ..
    | .thermalTrip | .packageReset | .packagePowerOff => true
    | _ => false
  | .elapse .. | .cmdDone => true
  | .turn _ | .focus _ | .l1Drop .. | .tlbDrop .. | .readPart .. | .readEarly .. | .writeEarly .. | .leesEarly _ => false

/-- One entry of the tape. -/
def State.move (s : State) (m : Move) : State := if s.pkg.recovery && !m.inRecovery then s else s.moved m

/-! ## Events that are due -/

/-- The slots of a cluster that a launch could take. -/
def State.openSlots (s : State) (l : Launch) (c : Nat) : List Nat := (upTo (64 * c) 64).filter (s.usable l)

/-- The lowest offset at which a launch's next group fits in a cluster. -/
def State.groupOffset (s : State) (l : Launch) (c : Nat) : Nat :=
  if l.desc.gran = 0 then 0 else (((List.range 1024).map (· * 4096)).find? (fun o => s.scratchFree c o l.desc.gran)).getD 0

/-- The free strands that would complete the next group's reservation in a cluster. -/
def State.reservation (s : State) (l : Launch) (h : Harvest) : List Nat :=
  match s.readyItem l h with
  | some (i, g) => ((s.openSlots l h.cluster).filter (fun id => (s.strand id).reserved.isNone && s.served l id)).take (s.unreserved g i)
  | none => []

/-- What a launch may do in one of its clusters. -/
def State.clusterEvents (s : State) (l : Launch) (h : Harvest) : List Instr :=
  let n := l.num
  let c := h.cluster
  let slots := s.openSlots l c
  [.l1SplitComplete c, .chunkRequest n c, .resumeLaunch n c, .yieldLaunch n c]
    ++ (s.savedOf l c).flatMap (fun r => slots.map (fun id => .restoreStrand l.ctx r.num (coreOf id) (slotOf id)))
    ++ [.groupAllocate n c (s.groupOffset l c), .strandReserve n c (s.reservation l h)]
    ++ slots.map (fun id => .itemDispatch n c (coreOf id) (slotOf id))
    ++ [.preemptDecision c n]

/-- What a launch may do. -/
def State.launchEvents (s : State) (l : Launch) : List Instr :=
  if l.signed then []
  else
    [.launchRetire l.num, .participationEvaluate l.num, .chunkAssign l.num]
      ++ (s.harvest.filter (fun h => h.launch = l.num)).flatMap (s.clusterEvents l)

/-- What the strand whose turn it is may wait for; a target that does not answer times out. -/
def State.strandEvents (s : State) : List Instr :=
  (List.range s.cur.pend.length).map (fun k => .resultLand k false)
    ++ [.scTicketGrant, .fenceComplete, .repartSwitch, .launchAppend, .evictStrand, .itemRetire, .completionTimeout]

/-- What the memory system may do. -/
def State.memoryEvents (s : State) : List Instr :=
  s.stores.map (fun a => .accessPerformedAtHome a.id) ++ s.vupd.map (fun u => .vintageUpdatePerform u.id)
    ++ s.walks.map (fun w => .pageWalkComplete (24 * w.die) w.ctx (w.page * 2 ^ 16))

/-- What the engines may do. -/
def State.engineEvents (s : State) : List Instr :=
  let cores := (s.cmds.map (·.core)).eraseDups
  let cls := (cores.map (· / 8)).eraseDups
  (s.owners.filter (fun o => !o.granted)).map (fun o => .ownershipGrant o.line)
    ++ (s.cmds.filter (fun c => c.engine = .copy)).flatMap (fun c => [.decanterMessage c.cid [], .copyComplete c.cid])
    ++ cls.flatMap (fun c => [.permitAcquire c, .tileCommandStart c, .tileUnitComplete c])
    ++ cores.flatMap (fun k => [.matrixCommandStart k, .matrixIterationComplete k])
    ++ s.clusters.map (fun p => .permitReturn p.1)

/-- What the vine network and the barriers may do. -/
def State.vineEvents (s : State) : List Instr :=
  (List.range s.pubs.length).map (fun k => .publicationArrive k false)
    ++ (List.range s.leesPubs.length).map (fun k => .publicationArrive k true)
    ++ s.groups.flatMap (fun g => [.gbarComplete g.launch g.cluster g.g0, .vineBarrierDeadlock g.launch g.cluster g.g0])

/-- What the contexts' queues may do. -/
def State.queueEvents (s : State) : List Instr :=
  s.ctxs.flatMap (fun p => [.launchRecordHead p.1 false, .launchRecordHead p.1 true, .eventPollTimer p.1 false, .eventPollTimer p.1 true,
    .tlbInvalidationComplete p.1, .keySweepComplete p.1])

/-- Every event that needs no agent outside the package. -/
def State.dueEvents (s : State) : List Instr :=
  s.strandEvents ++ s.memoryEvents ++ s.engineEvents ++ s.vineEvents ++ s.queueEvents ++ s.launches.flatMap s.launchEvents

/-- The effect of the first of some events that has one. -/
def State.firstEvent (s : State) : List Instr → Option State
  | [] => none
  | i :: is => if s.run i = s then s.firstEvent is else some (s.run i)

/-- The polls that come with time: waits at the heads of queues (R36). -/
def State.pollQueues (s : State) : State :=
  s.ctxs.foldl (fun s p => (s.reevaluate p.1 false).reevaluate p.1 true) s

/-- The order of turns on a die: slot by slot, and within a slot core by core, so that the cores of a die run side by side (R66). -/
def turnOrder (id : Nat) : Nat := slotOf id * 768 + coreOf id

/-- The strand after the one whose turn it was, of those that hold an item. -/
def State.following (s : State) : Option Nat :=
  let ks := (s.strands.filter (fun t => t.status != .idle)).map (fun t => turnOrder t.id)
  ((ks.filter (fun k => turnOrder s.cur.id < k)).min?.or ks.min?).map (fun k => 8 * (k % 768) + k / 768)

/-- The turn passes to the next strand, whose WEVT polls (R257). -/
def State.passOn (s : State) : State :=
  let s := match s.following with
    | some i => s.focus i
    | none => s
  { s.reread with disp := .done }

/-- After a bundle the next strand has its turn; after some cycles an event comes first. -/
def State.share (s : State) : State :=
  if s.completed then (if s.now / 8 % 16 = 0 then s.lose else s.passOn) else s

/-- The events that are due, from a place that moves with time, so that each comes first at some time. -/
def State.dueNow (s : State) : List Instr :=
  let es := s.dueEvents
  let k := s.now / 8 % Nat.max 1 es.length
  es.drop k ++ es.take k

/-- A cycle passes on every die. -/
def State.passAll (s : State) : State := (List.range 4).foldl (fun s d => s.pass d 1) s

/-- Time passes where no strand runs whose turns bring it on. -/
def State.passIdle (s : State) : State := if s.allStrands.any (fun t => t.status = .running) then s else s.passAll

/-- What happens where the tape says nothing: the strand in hand has its turn; where it loses it, or holds no item, the security
processor ends a command or an event that is due happens, or else time passes; then the next strand has its turn. -/
def State.autoStep (s : State) : State :=
  if s.pkg.recovery then s.cmdFinish.passAll
  else if s.cur.status = .running && s.disp != .wait then s.turn.share
  else if s.pkg.cmdBusy && !s.closing then s.cmdFinish.passOn
  else
    match s.firstEvent s.dueNow with
    | some t => t.passOn
    | none => s.pollQueues.passIdle.passOn

/-! ## Placing a bundle (log 8) -/

/-- The translation of the strand's next bundle stands in its TLB. -/
def State.warm (s : State) : State :=
  let va := addr60 s.cur.pc
  match s.strandPlace .glob va 8 .fetch, s.walk s.cur.ctx va with
  | .error _, .ok l => s.fillTlb (clusterOf s.cur.id) l
  | _, _ => s

/-- A bundle stored where a running strand fetches; none where it does not fetch from memory. -/
def State.placeHere (s : State) (b : Word) : Option State :=
  let s := s.warm
  match s.cur.status, s.strandPlace .glob (addr60 s.cur.pc) 8 .fetch with
  | .running, .ok (.mem k _) => some (s.putBytes s.cur.ctx (keysFrom k 8) (leBytes 8 b.toNat))
  | _, _ => none

/-- The context of the one-item launch that `stage` sets up. -/
def stagedCtx : Nat := 1

/-- The descriptor of that launch: one item at virtual address 0x10000, one granule, GB, and every vintage slot. -/
def stagedDesc : Desc := { Desc.zero with entry := 0x10000, count := 1, ctl := 0x0000200000001000, vcount := 0x10000 }

/-- That launch, running. -/
def stagedLaunch (n : Nat) : Launch :=
  { Launch.none with
    num := n
    ctx := stagedCtx
    desc := stagedDesc
    fmt := List.replicate 16 0
    state := .running
    parts := [0]
    chunks := [⟨0, 0⟩]
    nchunk := 1
    merged := false
    signed := false }

/-- The words of its page tables, which map virtual page 0x10000 to physical page 0x140000 for fetches. -/
def stagedTables : List (Nat × Nat) :=
  [(0x100000, 0x110001), (0x110000, 0x120001), (0x120000, 0x130001), (0x130008, leafEntry 0x140000 false false true)]

/-- The leaf they give. -/
def stagedLeaf : Leaf := ⟨stagedCtx, 0x10000, false, 0x140000, false, true, false, false⟩

/-- A one-item launch of the bundle, its strand in slot 0 of core 0, four-slot mode, supervisor privilege. -/
def State.stage (s : State) (b : Word) : State :=
  let n := s.pkg.nextNum
  let c := { Context.fresh with
    root := 0x100000
    cstate := .created
    hasKey := true
    clset := 1
    seeds := [0]
    nslot := 1
    objects := [⟨0, 0x10000, 8, 0, 0, 0, 0, 0, []⟩]
    nextObj := 1 }
  let s := (s.setCtx stagedCtx c).setCore 0 ⟨true, 0⟩
  let s := stagedTables.foldl (fun s e => s.putBytes stagedCtx (keysFrom e.1 8) (leBytes 8 e.2)) s
  let s := s.putBytes stagedCtx (keysFrom 0x140000 8) (leBytes 8 b.toNat)
  let s := s.fillTlb 0 stagedLeaf
  let ui := match decodeOne b with
    | some .uiret => true
    | _ => false
  { s with
    launches := s.launches ++ [stagedLaunch n]
    harvest := s.harvest ++ [⟨n, 0, [0], 1, [0], false, false, false, false, 0⟩]
    groups := s.groups ++ [⟨n, 0, 0, 0, 1, 1, 0, 0, false, [], []⟩]
    pkg := { s.pkg with nextNum := n + 1 }
    cur := { Strand.empty 0 with status := .running, super := true, pc := 0x10000, launch := n, ctx := stagedCtx, inUi := ui } }

/-- The bundle stands where the next step fetches: in the memory of a running strand, or in a launch made for it. -/
def State.placeBundle (s : State) (b : Word) : State :=
  let s := (s.placeHere b).getD (s.stage b)
  { s with tape := [], disp := .done, cur := { s.cur with ibuf := none } }

end Sys2Proof.Machine
end

