-- ==== Sys2Proof/Machine/Step.lean ====
section
/-! DEFINITION. One step of the machine: the next entry of the tape, or what is due where the tape is empty. -/

namespace Sys2Proof.Machine

open Sys2Proof

/-- One step. Without power only a package reset at the head of the tape does anything (R312, R314). -/
def step (s : State) : Host.Outcome State Fault Refusal :=
  if s.pkg.powered then
    match s.tape with
    | m :: r => .next (State.move { s with tape := r } m)
    | [] => .next s.autoStep
  else
    match s.tape with
    | .event .packageReset :: r => exec .packageReset { s with tape := r }
    | _ => .fault .noPower

/-- The state with an instruction of the opcode table stored where `step` fetches its next instruction (log 8). -/
def State.withFetchWord (s : State) (nbits w : Nat) : State := s.placeBundle (tableBundle nbits w)

end Sys2Proof.Machine
end

