-- ==== Sys2Proof/Safety.lean ====
section
/-! DEFINITION. What the claims call a run and a safe run: the canonical form of memory, runs of `step`, and the only reason a run
stops, the loss of power (spec/23 R312). -/

namespace Sys2Proof.Machine

open Sys2Proof

/-- Memory stands in its canonical form. -/
def State.canonical (s : State) : Prop := Memory.wf s.mem = true

/-- `t` is reached from `s` by steps that all answer a next state. -/
inductive Reaches : State → State → Prop where
  | refl (s : State) : Reaches s s
  | tail {s t u : State} : Reaches s t → step t = .next u → Reaches s u

/-- The next step of a state answers. -/
def State.answersNext (s : State) : Prop := ∃ t, step s = .next t

/-- A package reset is the next move of a state without power. -/
def State.resetNext (s : State) : Bool :=
  match s.tape with
  | .event .packageReset :: _ => true
  | _ => false

/-- A safe state: memory is canonical, and the package has power or is about to be reset. -/
def Safe (s : State) : Prop := s.canonical ∧ (s.pkg.powered = true ∨ s.resetNext = true)

end Sys2Proof.Machine
end

