-- ==== Sys2Proof/Certificates/Slice0/Obligations.lean ====
section
/-! DEFINITION. Statements for the provers: what the rules of the manual say of the instructions, the events and the step, each as a
proposition about the model. -/

namespace Sys2Proof.Claims

open Sys2Proof Sys2Proof.Machine

/-! ## Words and frames the statements share -/

/-- Every byte of memory reads as it did, under every KeyID (R308). -/
def SameBytes (s t : State) : Prop := ∀ kid k, t.byteAs kid k = s.byteAs kid k ∧ t.raw k = s.raw k

/-- `m` with the memory of `t`: its bytes, the KeyIDs of its lines, its marks, what reads of it meet, and who was at the homes in this cycle. -/
def withMemory (m t : State) : State :=
  { m with mem := t.mem, lineKey := t.lineKey, poison := t.poison, told := t.told, homeUse := t.homeUse }

/-- The mark that a write of register `d` makes on the vine entry naming it (R243). -/
def vineBit (s : State) (d : XReg) : BitVec 8 :=
  match s.vineEntry d with
  | some j => 1 <<< j
  | none => 0

/-- `t` is `s` with `v` in scalar register `d` and nothing else written; x0 discards the write (R69). -/
def WritesX (s t : State) (d : XReg) (v : Word) : Prop :=
  t = { s with cur := { s.cur with x := t.cur.x, vw := s.cur.vw ||| vineBit s d } }
    ∧ t.rd d = (if d = 0 then 0 else v) ∧ (∀ r, r ≠ d → t.rd r = s.rd r) ∧ SameBytes s t

/-- `t` is `s` with `v` in handle register `h` and nothing else written. -/
def WritesH (s t : State) (h : HReg) (v : Handle) : Prop :=
  t = { s with cur := { s.cur with h := t.cur.h } } ∧ t.rdH h = v ∧ (∀ k, k ≠ h → t.rdH k = s.rdH k) ∧ SameBytes s t

/-- `t` is `s` with the bundle in hand going on to address `a`. -/
def GoesTo (s t : State) (a : Word) : Prop := t = { s with cur := { s.cur with npc := a } } ∧ SameBytes s t

/-- The bundle in hand loses its turn, and nothing changes (R67). -/
def LosesTurn (s t : State) : Prop := t = { s with disp := .wait } ∧ SameBytes s t

/-- One pending result is added to the strand, and nothing else changes but the mark of R243. -/
def AddsPending (s t : State) (p : Pend) (mark : BitVec 8) : Prop :=
  t = { s with cur := { s.cur with pend := s.cur.pend ++ [p], vw := s.cur.vw ||| mark } } ∧ SameBytes s t

/-- A walk that a miss of the strand joins or starts (R149): the walk of its page on its die has the strand among its waiters, or 64 walks
are in flight there already; the strand loses its turn, and nothing else changes. -/
def AsksWalk (s t : State) (va : Nat) : Prop :=
  t = { s with walks := t.walks, disp := .wait } ∧
  (let mine := fun (w : Walk) => w.die = dieOf s.cur.id ∧ w.ctx = s.cur.ctx ∧ w.page = va / 2 ^ 16
   ((∃ w ∈ t.walks, mine w ∧ (clusterOf s.cur.id, Waiter.strand s.cur.sid) ∈ w.waiters)
      ∨ (t.walks = s.walks ∧ 64 ≤ (s.walks.filter (fun w => w.die = dieOf s.cur.id)).length)) ∧
   (∀ w ∈ s.walks, ∃ u ∈ t.walks, u.die = w.die ∧ u.ctx = w.ctx ∧ u.page = w.page ∧ w.waiters <+: u.waiters))

/-- What a bundle does whose access at `a` cannot be translated yet, or fails: a TLB miss waits for its walk (cause 32 of the model's own,
R149), any other failure is the precise fault of its cause and subcode (R147, R271). -/
def failed (s : State) (e : Nat × Nat) (a : Word) : State := if e.1 = cWalk then s.missed a else s.raise (s.precise e.1 e.2 a)

/-- The words of the opcode table: the rows a bundle can hold, as against events. -/
def isWord : Instr → Bool
  | .illegalBundle .. => false
  | i => !isEvent i

/-- The width of field k, and the sum of the widths below k (R17). -/
def fieldWidth (shape : Word) (k : Nat) : Nat := shape.toNat / 2 ^ (7 * k) % 2 ^ 7

/-- W of R18 for k = 6, and G for k = g + 1. -/
def widthsBelow (shape : Word) (k : Nat) : Nat := ((List.range k).map (fieldWidth shape)).sum

/-! ## Integer results as the manual defines them (R79, R80, R82 to R86, R89) -/

/-- Division of R80 on exact integers: quotient and remainder. -/
def signedDivision (a b : Int) : Int × Int :=
  if b = 0 then (-1, a)
  else if a = -(2 ^ 63) ∧ b = -1 then (-(2 ^ 63), 0)
  else (a.tdiv b, a - a.tdiv b * b)

/-- The unsigned division of R80. -/
def unsignedDivision (a b : Nat) : Nat × Nat := if b = 0 then (2 ^ 64 - 1, a) else (a / b, a - a / b * b)

/-- A register–register form: destination, sources, and the relation of the sources' values to the value written. -/
structure Form where
  d : XReg
  a : XReg
  b : XReg
  is : Word → Word → Word → Prop

/-- Major 0x01 of the A-word map (R79, R80, R89); a one-source form names its source twice. -/
def registerForm : Instr → Option Form
  | .add d a b => some ⟨d, a, b, fun x y v => v.toNat = (x.toNat + y.toNat) % 2 ^ 64⟩
  | .sub d a b => some ⟨d, a, b, fun x y v => (v.toNat : Int) = ((x.toNat : Int) - y.toNat) % 2 ^ 64⟩
  | .mul d a b => some ⟨d, a, b, fun x y v => v.toNat = x.toNat * y.toNat % 2 ^ 64⟩
  | .mulh d a b => some ⟨d, a, b, fun x y v => v.toInt = x.toInt * y.toInt / 2 ^ 64⟩
  | .mulhb d a b => some ⟨d, a, b, fun x y v => v.toNat = x.toNat * y.toNat / 2 ^ 64⟩
  | .div d a b => some ⟨d, a, b, fun x y v => v.toInt = (signedDivision x.toInt y.toInt).1⟩
  | .divb d a b => some ⟨d, a, b, fun x y v => v.toNat = (unsignedDivision x.toNat y.toNat).1⟩
  | .rem d a b => some ⟨d, a, b, fun x y v => v.toInt = (signedDivision x.toInt y.toInt).2⟩
  | .remb d a b => some ⟨d, a, b, fun x y v => v.toNat = (unsignedDivision x.toNat y.toNat).2⟩
  | .and d a b => some ⟨d, a, b, fun x y v => ∀ i, v.getLsbD i = (x.getLsbD i && y.getLsbD i)⟩
  | .or d a b => some ⟨d, a, b, fun x y v => ∀ i, v.getLsbD i = (x.getLsbD i || y.getLsbD i)⟩
  | .xor d a b => some ⟨d, a, b, fun x y v => ∀ i, v.getLsbD i = (x.getLsbD i ^^ y.getLsbD i)⟩
  | .shl d a b => some ⟨d, a, b, fun x y v => v.toNat = x.toNat * 2 ^ (y.toNat % 64) % 2 ^ 64⟩
  | .shr d a b => some ⟨d, a, b, fun x y v => v.toNat = x.toNat / 2 ^ (y.toNat % 64)⟩
  | .sra d a b => some ⟨d, a, b, fun x y v => v.toInt = x.toInt / 2 ^ (y.toNat % 64)⟩
  | .rol d a b => some ⟨d, a, b, fun x y v =>
      ∀ i, i < 64 → v.getLsbD ((i + y.toNat) % 64) = x.getLsbD i⟩
  | .min d a b => some ⟨d, a, b, fun x y v => v = if x.toInt ≤ y.toInt then x else y⟩
  | .max d a b => some ⟨d, a, b, fun x y v => v = if y.toInt ≤ x.toInt then x else y⟩
  | .minb d a b => some ⟨d, a, b, fun x y v => v = if x.toNat ≤ y.toNat then x else y⟩
  | .maxb d a b => some ⟨d, a, b, fun x y v => v = if y.toNat ≤ x.toNat then x else y⟩
  | .slt d a b => some ⟨d, a, b, fun x y v => v = if x.toInt < y.toInt then 1 else 0⟩
  | .sltb d a b => some ⟨d, a, b, fun x y v => v = if x.toNat < y.toNat then 1 else 0⟩
  | .seq d a b => some ⟨d, a, b, fun x y v => v = if x = y then 1 else 0⟩
  | .sne d a b => some ⟨d, a, b, fun x y v => v = if x = y then 0 else 1⟩
  | .clz d a => some ⟨d, a, a, fun x _ v => (x = 0 → v = 64) ∧ (x ≠ 0 → v.toNat < 64 ∧ x.getLsbD (63 - v.toNat) = true
      ∧ ∀ i, 63 - v.toNat < i → x.getLsbD i = false)⟩
  | .ctz d a => some ⟨d, a, a, fun x _ v => (x = 0 → v = 64) ∧ (x ≠ 0 → v.toNat < 64 ∧ x.getLsbD v.toNat = true
      ∧ ∀ i, i < v.toNat → x.getLsbD i = false)⟩
  | .popc d a => some ⟨d, a, a, fun x _ v => v.toNat = ((List.range 64).map (fun i => (x.getLsbD i).toNat)).sum⟩
  | .adda d a b => some ⟨d, a, b, fun x y v => v.toNat / 2 ^ 60 = x.toNat / 2 ^ 60
      ∧ ((v.toNat % 2 ^ 60 : Nat) : Int) = (((x.toNat % 2 ^ 60 : Nat) : Int) + y.toNat) % 2 ^ 60⟩
  | .ptag d a b => some ⟨d, a, b, fun x y v => v.toNat / 2 ^ 60 = y.toNat % 16 ∧ v.toNat % 2 ^ 60 = x.toNat % 2 ^ 60⟩
  | .pfs d a => some ⟨d, a, a, fun x _ v => v.toNat = x.toNat / 2 ^ 60⟩
  | .pclr d a => some ⟨d, a, a, fun x _ v => v.toNat = x.toNat % 2 ^ 60⟩
  | _ => none

/-- A form with an immediate: destination, source, and the relation of the source's value to the value written. -/
structure ImmForm where
  d : XReg
  a : XReg
  is : Word → Word → Prop

/-- The immediate forms of R82, R83, BEXT of R84 and ADDAI of R89. -/
def immediateForm : Instr → Option ImmForm
  | .addi d a imm => some ⟨d, a, fun x v => (v.toNat : Int) = ((x.toNat : Int) + imm.toInt) % 2 ^ 64⟩
  | .andi d a imm => some ⟨d, a, fun x v => ∀ i, i < 64 → v.getLsbD i = (x.getLsbD i && imm.getLsbD (Nat.min i 11))⟩
  | .ori d a imm => some ⟨d, a, fun x v => ∀ i, i < 64 → v.getLsbD i = (x.getLsbD i || imm.getLsbD (Nat.min i 11))⟩
  | .xori d a imm => some ⟨d, a, fun x v => ∀ i, i < 64 → v.getLsbD i = (x.getLsbD i ^^ imm.getLsbD (Nat.min i 11))⟩
  | .slti d a imm => some ⟨d, a, fun x v => v = if x.toInt < imm.toInt then 1 else 0⟩
  | .shli d a n => some ⟨d, a, fun x v => v.toNat = x.toNat * 2 ^ n.toNat % 2 ^ 64⟩
  | .shri d a n => some ⟨d, a, fun x v => v.toNat = x.toNat / 2 ^ n.toNat⟩
  | .srai d a n => some ⟨d, a, fun x v => v.toInt = x.toInt / 2 ^ n.toNat⟩
  | .bext d a wm1 lsb => some ⟨d, a, fun x v => v.toNat = x.toNat / 2 ^ lsb.toNat % 2 ^ (wm1.toNat + 1)⟩
  | .addai d a imm => some ⟨d, a, fun x v => v.toNat / 2 ^ 60 = x.toNat / 2 ^ 60
      ∧ ((v.toNat % 2 ^ 60 : Nat) : Int) = (((x.toNat % 2 ^ 60 : Nat) : Int) + imm.toInt) % 2 ^ 60⟩
  | _ => none

/-! ## Floating point (R91 to R99) -/

/-- The exact value of a number, none for a NaN or an infinity. -/
def ratOf : Val → Option ℚ
  | .num s n d => if d = 0 then none else some ((if s then -1 else 1) * (n : ℚ) / (d : ℚ))
  | .nan _ | .inf _ => none

/-- A number that is subnormal in a type: nonzero and below its smallest normal (R76). -/
def SubnormalIn (t : FTy) (q : ℚ) : Prop := q ≠ 0 ∧ |q| < (2 : ℚ) ^ (1 - (t.fmt.bias : ℤ))

/-- The enables of R94 that meet raised exceptions. -/
def enabled (s : State) (e : Exc) : Exc := e &&& s.fpcSeen.extractLsb' 8 5

/-- `t` is `s` with a float result in register `d`, its exceptions ORed into %fpc<4:0> (R95), and two turns for the normaliser where
`sub` holds (R76); nothing else is written. -/
def WritesFloat (s t : State) (d : XReg) (v : Word) (e : Exc) (sub : Prop) : Prop :=
  t = { s with cur := { s.cur with
      x := t.cur.x
      vw := s.cur.vw ||| vineBit s d
      fpc := s.cur.fpc ||| e.setWidth 64
      stall := t.cur.stall } }
    ∧ t.rd d = (if d = 0 then 0 else v) ∧ (∀ r, r ≠ d → t.rd r = s.rd r)
    ∧ (sub → t.cur.stall = 2) ∧ (¬ sub → t.cur.stall = s.cur.stall) ∧ SameBytes s t

/-- What a float A-word does with a result and its exceptions: it writes both, or takes the arithmetic trap (R94, R95). -/
def FloatEffect (i : Instr) (s : State) (d : XReg) (v : Word) (e : Exc) (sub : Prop) : Prop :=
  (enabled s e = 0 → ∃ t, exec i s = .next t ∧ WritesFloat s t d v e sub) ∧
  (enabled s e ≠ 0 → exec i s = .next (s.raise { s.precise 0x0C 0 0 with elem := e.setWidth 32 }))

/-- An arithmetic form of R95 and R97: type, destination, operand values, the exact result of finite operands, and the sign of an exact
zero result. -/
structure ArithForm where
  t : FTy
  d : XReg
  ops : List Val
  exact : List ℚ → ℚ
  zero : Bool

/-- FADD, FSUB, FMUL and FFMA with the operands they read in a state. -/
def arithForm (s : State) : Instr → Option ArithForm
  | .fadd t d a b =>
    let x := t.val (s.srcA a)
    let y := t.val (s.srcB b)
    some ⟨t, d, [x, y], fun q => q.getD 0 0 + q.getD 1 0, x.sign && y.sign⟩
  | .fsub t d a b =>
    let x := t.val (s.srcA a)
    let y := t.val (s.srcB b)
    some ⟨t, d, [x, y], fun q => q.getD 0 0 - q.getD 1 0, x.sign && !y.sign⟩
  | .fmul t d a b =>
    let x := t.val (s.srcA a)
    let y := t.val (s.srcB b)
    some ⟨t, d, [x, y], fun q => q.getD 0 0 * q.getD 1 0, x.sign != y.sign⟩
  | .ffma t d a b c =>
    let x := t.val (s.srcA a)
    let y := t.val (s.srcB b)
    let z := t.val (s.srcC c)
    some ⟨t, d, [x, y, z], fun q => q.getD 0 0 * q.getD 1 0 + q.getD 2 0, (x.sign != y.sign) && z.sign⟩
  | _ => none

/-- The operands of R95 and R97 that are invalid though none is a NaN, or whatever the addend (∞ − ∞ and 0 × ∞). -/
def invalidOps (s : State) : Instr → Prop
  | .fadd t _ a b => ∃ n, t.val (s.srcA a) = .inf n ∧ t.val (s.srcB b) = .inf (!n)
  | .fsub t _ a b => ∃ n, t.val (s.srcA a) = .inf n ∧ t.val (s.srcB b) = .inf n
  | .fmul t _ a b => ((t.val (s.srcA a)).isZero ∧ (t.val (s.srcB b)).isInf) ∨ ((t.val (s.srcA a)).isInf ∧ (t.val (s.srcB b)).isZero)
  | .ffma t _ a b c => ((t.val (s.srcA a)).isZero ∧ (t.val (s.srcB b)).isInf) ∨ ((t.val (s.srcA a)).isInf ∧ (t.val (s.srcB b)).isZero)
      ∨ (((t.val (s.srcA a)).isInf ∨ (t.val (s.srcB b)).isInf) ∧ (t.val (s.srcA a)).isNan = false ∧ (t.val (s.srcB b)).isNan = false
        ∧ t.val (s.srcC c) = .inf ((t.val (s.srcA a)).sign == (t.val (s.srcB b)).sign))
  | _ => False

/-- The sign of the infinite result of FADD, FSUB, FMUL and FFMA on a valid infinite operand. -/
def infiniteSign (s : State) : Instr → Bool
  | .fadd t _ a b => if (t.val (s.srcA a)).isInf then (t.val (s.srcA a)).sign else (t.val (s.srcB b)).sign
  | .fsub t _ a b => if (t.val (s.srcA a)).isInf then (t.val (s.srcA a)).sign else !(t.val (s.srcB b)).sign
  | .fmul t _ a b => (t.val (s.srcA a)).sign != (t.val (s.srcB b)).sign
  | .ffma t _ a b c => if (t.val (s.srcA a)).isInf || (t.val (s.srcB b)).isInf then (t.val (s.srcA a)).sign != (t.val (s.srcB b)).sign
      else (t.val (s.srcC c)).sign
  | _ => false

/-- The canonical quiet NaN of a type (R92). -/
def canonicalNan : FTy → Word
  | .d => 0x7FF8000000000000
  | .s => 0x7FC00000
  | .h => 0x7E00
  | .bf => 0x7FC0

/-- Bits of a value of a type. -/
def floatBits : FTy → Nat
  | .d => 64
  | .s => 32
  | .h => 16
  | .bf => 16

/-- The infinity of a type with a sign (R92). -/
def infinityWord (t : FTy) (neg : Bool) : Word :=
  (match t with
    | .d => 0x7FF0000000000000
    | .s => 0x7F800000
    | .h => 0x7C00
    | .bf => 0x7F80) + (if neg then BitVec.ofNat 64 (2 ^ (floatBits t - 1)) else 0)

/-- The bits of a register that a type reads (R91). -/
def lowBits (t : FTy) (x : Word) : Word := BitVec.ofNat 64 (x.toNat % 2 ^ floatBits t)

/-- FLT, FLE and FEQ: type, destination, operands, the order test, and whether a quiet NaN is invalid (R95). -/
def compareForm (s : State) : Instr → Option (FTy × XReg × Val × Val × (Int → Bool) × Bool)
  | .flt t d a b => some (t, d, t.val (s.srcA a), t.val (s.srcB b), fun c => decide (c < 0), true)
  | .fle t d a b => some (t, d, t.val (s.srcA a), t.val (s.srcB b), fun c => decide (c ≤ 0), true)
  | .feq t d a b => some (t, d, t.val (s.srcA a), t.val (s.srcB b), fun c => decide (c = 0), false)
  | _ => none

/-- The class bit of R96 of the bits of a type: sign, exponent and fraction. -/
def classBit (e m : Nat) (c : Nat) : Nat :=
  let neg := c / 2 ^ (e + m) % 2 = 1
  let ex := c / 2 ^ m % 2 ^ e
  let fr := c % 2 ^ m
  if ex = 2 ^ e - 1 then (if fr = 0 then (if neg then 0 else 7) else if fr < 2 ^ (m - 1) then 8 else 9)
  else if ex = 0 then (if fr = 0 then (if neg then 3 else 4) else if neg then 2 else 5)
  else if neg then 1 else 6

/-- Exponent and fraction widths of a type (R92). -/
def widths : FTy → Nat × Nat
  | .d => (11, 52)
  | .s => (8, 23)
  | .h => (5, 10)
  | .bf => (8, 7)

/-- An operand value is subnormal in a type. -/
def SubnormalVal (t : FTy) (v : Val) : Prop := ∃ q, ratOf v = some q ∧ SubnormalIn t q

/-- NV where some operand is a signalling NaN (R92). -/
def signalling (vs : List Val) : Exc := if vs.any Val.isSnan then 16 else 0

/-- What FDIV and FSQRT do with a result (R73, R74, R94, R98): with no trap enabled a pending result whose exceptions accrue as it lands;
with one enabled they trap, or issue with the result landed; a ninth pending result loses the turn. -/
def LongFloatEffect (i : Instr) (s : State) (d : XReg) (la : La) (v : Word) (e : Exc) : Prop :=
  (s.fpcSeen.extractLsb' 8 5 = 0 → s.pendFull d = false → ∃ t, exec i s = .next t ∧
    AddsPending s t ⟨d.toNat, if d = 0 then 0 else la.toNat, s.cur.pc, .float v, none, false, e, false, none, s.now, s.nextId⟩ (vineBit s d)) ∧
  (enabled s e ≠ 0 → exec i s = .next (s.raise { s.precise 0x0C 0 0 with elem := e.setWidth 32 })) ∧
  (s.fpcSeen.extractLsb' 8 5 ≠ 0 → enabled s e = 0 → s.pendFull d = false → ∃ t, exec i s = .next t ∧
    t = { s with cur := { s.cur with
      x := t.cur.x
      vw := s.cur.vw ||| vineBit s d
      fpc := s.cur.fpc ||| e.setWidth 64
      pend := if d = 0 then s.cur.pend else s.cur.pend ++ [⟨d.toNat, la.toNat, s.cur.pc, .value v, none, false, 0, true, none, s.now, s.nextId⟩] } } ∧
    t.rd d = (if d = 0 then 0 else v) ∧ (∀ r, r ≠ d → t.rd r = s.rd r) ∧ SameBytes s t) ∧
  (enabled s e = 0 → s.pendFull d = true → ∃ t, exec i s = .next t ∧ LosesTurn s t)

/-- The integer an integer type reads in a register (R99). -/
def integerIn (ty : Ty) (x : Word) : Int :=
  match ty with
  | .b8 => ((x.setWidth 8).toNat : Int)
  | .b16 => ((x.setWidth 16).toNat : Int)
  | .b32 => ((x.setWidth 32).toNat : Int)
  | .i8 => (x.setWidth 8).toInt
  | .i16 => (x.setWidth 16).toInt
  | .i32 => (x.setWidth 32).toInt
  | .i64 => x.toInt
  | _ => (x.toNat : Int)

/-- The limits of an integer type and whether it is signed (R99). -/
def integerRange : Ty → Int × Int × Bool
  | .b8 => (0, 255, false)
  | .b16 => (0, 65535, false)
  | .b32 => (0, 4294967295, false)
  | .i8 => (-128, 127, true)
  | .i16 => (-32768, 32767, true)
  | .i32 => (-2147483648, 2147483647, true)
  | .i64 => (-9223372036854775808, 9223372036854775807, true)
  | _ => (0, 18446744073709551615, false)

/-- An integer written sign-extended for iN and zero-extended for bN (R99). -/
def integerWord (ty : Ty) (v : Word) (z : Int) : Prop := if (integerRange ty).2.2 then v.toInt = z else (v.toNat : Int) = z

/-- A rational rounded toward zero (R99). -/
def towardZero (q : ℚ) : Int := if 0 ≤ q then ⌊q⌋ else ⌈q⌉

/-! ## Control flow and the vintage section (R51, R100 to R116) -/

/-- A jump target: the PC plus bundles, modulo 2^60 (R57, R100). -/
def jumpTarget (pc : Word) (off : BitVec 20) (a : Word) : Prop := (a.toNat : Int) = ((pc.toNat : Int) + off.toInt * 8) % 2 ^ 60

/-- The address of the next bundle, PC + 8 modulo 2^60. -/
def after (pc : Word) : Word := BitVec.ofNat 64 ((pc.toNat + 8) % 2 ^ 60)

/-- `t` is `s` with `v` in scalar register `d`, going on to `a`; nothing else is written. -/
def WritesAndGoes (s t : State) (d : XReg) (v a : Word) : Prop :=
  t = { s with cur := { s.cur with x := t.cur.x, vw := s.cur.vw ||| vineBit s d, npc := a } }
    ∧ t.rd d = (if d = 0 then 0 else v) ∧ (∀ r, r ≠ d → t.rd r = s.rd r) ∧ SameBytes s t

/-- The update a site queues (R111): the identifier, the strand, its launch's copies, the slot and the increments. -/
def siteEntry (s : State) (slot kind w0 w1 w2 : Nat) : VUpd :=
  ⟨s.nextId, s.cur.sid, s.flat, s.cur.launch, s.cur.ctx, s.curLaunch.desc.vbase.toNat % 2 ^ 60, s.curLaunch.desc.vdelta.toNat % 2 ^ 60, slot, kind,
    w0, w1, w2⟩

/-- A conditional branch: whether it is taken in a state, its offset and its site (R102). -/
def branchForm (s : State) : Instr → Option (Prop × BitVec 20 × Option (BitVec 16))
  | .bEq a b off v => some (s.rd a = s.rd b, off, v)
  | .bNe a b off v => some (s.rd a ≠ s.rd b, off, v)
  | .bLt a b off v => some ((s.rd a).toInt < (s.rd b).toInt, off, v)
  | .bGe a b off v => some ((s.rd b).toInt ≤ (s.rd a).toInt, off, v)
  | .bLtb a b off v => some ((s.rd a).toNat < (s.rd b).toNat, off, v)
  | .bGeb a b off v => some ((s.rd b).toNat ≤ (s.rd a).toNat, off, v)
  | .bz a off v => some (s.rd a = 0, off, v)
  | .bnz a off v => some (s.rd a ≠ 0, off, v)
  | _ => none

/-- The fields of a vintage header (R106): kind, saturation, default class, minimum count and thresholds. -/
structure Header where
  kind : Nat
  sat  : Bool
  dflt : Nat
  mins : Nat
  ts   : List Nat

/-- The header of word 3 of a slot (R106). -/
def headerOf (h : Nat) : Header :=
  ⟨h / 2 ^ 30 % 4, h / 2 ^ 29 % 2 == 1, h / 2 ^ 27 % 4, h / 2 ^ 19 % 256, [h / 2 ^ 13 % 64, h / 2 ^ 7 % 64, h / 2 % 64]⟩

/-- The metric test of a threshold (R107). -/
def metricTest (kind w0 w1 w2 t : Nat) : Bool :=
  match kind with
  | 1 => decide (t * w0 ≤ 64 * w1)
  | 2 => decide (4 * t * w0 ≤ w2)
  | _ => decide (w0 * 2 ^ t ≤ w1)

/-- Class(s) of R116. -/
def classSpec (w0 w1 w2 w3 : Nat) : Nat :=
  let h := headerOf w3
  if h.kind = 0 ∨ w0 = 0 ∨ w0 < h.mins then h.dflt
  else h.ts.countP (metricTest h.kind w0 w1 w2)

/-- VPICK and VREAD: destination, lookahead, slot and the word read, none for the class (R115). -/
def slotReadForm : Instr → Option (XReg × La × BitVec 16 × Option Nat)
  | .vpick d la slot => some (d, la, slot, none)
  | .vread d la w slot => some (d, la, slot, some w.toNat)
  | _ => none

/-- Why a slot cannot be read: the cause and subcode of its translation, or of a place in system space (R115; log 12). -/
def unread : Except (Nat × Nat) Place → Option (Nat × Nat)
  | .error e => some e
  | .ok (.sys _) => some (5, 6)
  | .ok (.mem ..) => none

/-- The address of a vintage slot in a copy (R105). -/
def slotAddr (base : Word) (slot : BitVec 16) : Nat := (base.toNat % 2 ^ 60 + 16 * slot.toNat) % 2 ^ 60

/-! ## Memory (R137, R140, R146, R147, R156 to R173) -/

/-- Base bits 59:0 plus a number of units, modulo 2^60 (R157). -/
def accessAddr (base : Word) (off : Int) (size : Nat) : Nat := ((((base.toNat % 2 ^ 60 : Nat) : Int) + off * size) % 2 ^ 60).toNat

/-- An address with the selector of a base above it (R157). -/
def faultAddr (base : Word) (a : Nat) : Word := BitVec.ofNat 64 (base.toNat / 2 ^ 60 * 2 ^ 60 + a)

/-- A plain access: space, data register, address register, lookahead, type, offset and site (R156). -/
structure PlainForm where
  sp   : Space
  d    : XReg
  a    : XReg
  la   : La
  ty   : Ty
  off  : Int
  site : Option (BitVec 16)

/-- The loads of R156. -/
def loadForm : Instr → Option PlainForm
  | .ldGShort d a la ty off => some ⟨.glob, d, a, la, ty, off.toInt, none⟩
  | .ldGLong d a la ty off v => some ⟨.glob, d, a, la, ty, off.toInt, v⟩
  | .ldSShort d a la ty off => some ⟨.scratch, d, a, la, ty, off.toInt, none⟩
  | .ldSLong d a la ty off v => some ⟨.scratch, d, a, la, ty, off.toInt, v⟩
  | _ => none

/-- The stores of R156. -/
def storeForm : Instr → Option PlainForm
  | .stGShort r a ty off => some ⟨.glob, r, a, 0, ty, off.toInt, none⟩
  | .stGLong r a ty off => some ⟨.glob, r, a, 0, ty, off.toInt, none⟩
  | .stSShort r a ty off => some ⟨.scratch, r, a, 0, ty, off.toInt, none⟩
  | .stSLong r a ty off => some ⟨.scratch, r, a, 0, ty, off.toInt, none⟩
  | _ => none

/-- The address a plain access names. -/
def PlainForm.addr (f : PlainForm) (s : State) : Nat := accessAddr (s.rd f.a) f.off f.ty.size

/-- What is pending for a result not yet known: register, window, the bundle that issued it, operation, site and cycle of issue, and the
accesses issued before it (R73, R74, R111, R159). -/
def pendingResult (s : State) (d : XReg) (la : La) (op : PendOp) (site : Option (BitVec 16)) : Pend :=
  ⟨d.toNat, if d = 0 then 0 else la.toNat, s.cur.pc, op, none, false, 0, false, site.map BitVec.toNat, s.now, s.nextId⟩

/-- A value loaded as a type (R158). -/
def loadedAs (ty : Ty) (n : Nat) (v : Word) : Prop :=
  match ty with
  | .i8 | .i16 | .i32 | .i64 => v.toInt = if n < 2 ^ (8 * ty.size - 1) then (n : Int) else n - 2 ^ (8 * ty.size)
  | _ => v.toNat = n

/-- The little-endian number of bytes (R5). -/
def littleEndian (bs : List Byte) : Nat := bs.foldr (fun b n => b.toNat + 256 * n) 0

/-- An access is still in flight. -/
def Flying (s : State) (id : Nat) : Prop := ∃ a ∈ s.stores, a.id = id

/-- A store or atomic of the strand in hand that goes to its home next (R159, R171), with the releases of the strand that it carries and the
accesses in flight that its acquires have put before it (R262, R263). -/
def ownAccess (s : State) (id : Nat) (ks : List Nat) (op : MemOp) (ticket : Option Nat) : Access :=
  let flies := fun i => s.stores.any (fun a => a.id = i)
  ⟨id, s.cur.sid, s.flat, s.cur.rels.filter (fun r => flies r.id), (s.cur.before.map (·.id)).filter flies, s.cur.launch, s.cur.id / 64,
    s.cur.ctx, ks, op, ticket⟩

/-- `s` with some writes of the strand in hand on their way, in turn; its engine commands follow what its acquires have put before them (R171,
R265). -/
def queued (s : State) : List (List Nat × MemOp) → State
  | [] => s
  | w :: ws => queued { s with
      cur := { s.cur with before := s.cur.before.map (fun b => { b with led := true }) }
      nextId := s.nextId + 1
      stores := s.stores ++ [ownAccess s s.nextId w.1 w.2 none] } ws

/-- A pending result that has landed, or has its value, or has none of some keys to read as an access of the strand (R159, R267). -/
def apartFrom (ks : List Nat) (p : Pend) : Prop := p.landed = true ∨ p.got.isSome = true ∨ ∀ k ∈ p.op.ordered, k ∉ ks

/-- `m` is `s` with the values of those of its first `n` pending loads that an access to some bytes must follow: each that reads one of the
bytes has its value, and no other pending result, register or byte of memory changes; where none does, nothing changes (R159). -/
def EarlierLoadsFixed (s m : State) (n : Nat) (ks : List Nat) : Prop :=
  m = { s with cur := { s.cur with pend := m.cur.pend, heard := m.cur.heard }, clusters := m.clusters } ∧ SameBytes s m ∧
    (∀ i p, i < n → m.cur.pend[i]? = some p → apartFrom ks p) ∧ (∀ i, n ≤ i → m.cur.pend[i]? = s.cur.pend[i]?) ∧
    m.cur.pend.map (fun p => (p.reg, p.win, p.op, p.landed)) = s.cur.pend.map (fun p => (p.reg, p.win, p.op, p.landed)) ∧
    ((∀ i p, i < n → s.cur.pend[i]? = some p → apartFrom ks p) → m = s)

/-- The line of a cluster's L1 that serves a byte of a strand's load, where the page lets the L1 serve it: the line of its own
KeyID, unless it lacks a write that the strand has acquired (R140, R264, R308). -/
def lineServing (s : State) (t : Strand) (q : LoadByte) : Option L1Line :=
  if q.2 then (s.cluster (t.id / 64)).l1.find? (fun l => l.line = q.1 / 64 * 64 && l.kid = t.ctx && !l.stale.contains t.sid) else none

/-- The line that serves a byte of a load of the strand in hand. -/
def servedBy (s : State) (q : LoadByte) : Option L1Line := lineServing s s.cur q

/-- The bytes a load reads, each of its key and whether the L1 may serve it, can be read now by a load that follows the strand's accesses
below `upto`: the strand's own atomics of them are performed, and the accesses that happen before the load, but those that only a line of the
L1 hides, which no acquire has emptied since; and no copy command owns a line that the L1 does not serve (R140, R159, R188, R263, R264). -/
def Readable (s : State) (upto : Nat) (qs : List LoadByte) : Prop :=
  (∀ a ∈ s.stores, ∀ q ∈ qs, q.1 ∈ a.keys → (a.strand = s.cur.sid → a.id < upto → a.op.isRmw = false) ∧
    (∀ b ∈ s.cur.before, b.id = a.id → b.deep = false ∧ (servedBy s q).isSome = true)) ∧
  (∀ q ∈ qs, (servedBy s q).isSome = true ∨ 2 ^ 51 ≤ q.1 ∨ s.owned (q.1 / 64 * 64) = false)

/-- `t` is `s` after the strand in hand has read some bytes: the lines that its L1 lacked are there, and what it has heard of are the releases
of before and those that come before the writes it has read from, as far as they still order something (R140, R262). -/
def HasRead (s t : State) (upto : Nat) (qs : List LoadByte) : Prop :=
  t = { s with cur := { s.cur with heard := t.cur.heard }, clusters := (s.fillKeys s.cur qs).clusters } ∧
    ∀ r, r ∈ t.cur.heard ↔ Flying s r.id ∧ (r ∈ s.cur.heard ∨ ∃ q ∈ qs, r ∈ s.toldTo s.cur upto q)

/-- A byte that a load would take lies in a word with an uncorrectable error, by the marks of the L1 line that serves it or of memory (R292). -/
def ReadsBad (s : State) (qs : List LoadByte) : Prop := ∃ q ∈ qs, q.1 / 8 * 8 ∈ ((servedBy s q).map (·.bad)).getD s.poison

/-- A load would take a byte from beyond the L1: from HBM or the capability space, and from no line that the L1 has (R111). -/
def FromBeyond (s : State) (qs : List LoadByte) : Prop := ∃ q ∈ qs, (q.1 < 2 ^ 52 ∨ 2 ^ 53 ≤ q.1) ∧ servedBy s q = none

/-- The bytes of a place in memory from a key on. -/
def bytesOf (k n : Nat) (l1 : Bool) : List LoadByte := (List.range n).map (fun i => (k + i, l1))

/-- What a pending result has yet to read: of an element the part that was not read before the other (R162). -/
def leftToRead (p : Pend) : List LoadByte :=
  if p.got.isSome then []
  else
    match p.op with
    | .elem e => (if e.gotData.isSome then [] else e.data) ++ (if e.gotScale.isSome then [] else e.scale)
    | op => op.reads

/-- What of it the strand reads as its own access; vintage slots are not read so (R267). -/
def readsAsLoad (p : Pend) : List LoadByte :=
  match p.op with
  | .vintage .. => []
  | _ => leftToRead p

/-- A landing result counts a miss (R111): from system space always; else where some of it came from beyond the L1 and the home's die L2 did
not have it. -/
def CountsMiss (op : PendOp) (miss far : Bool) : Prop :=
  match op with
  | .value _ | .float _ => True
  | _ => miss = true ∧ far = true

/-- `t` is what becomes of `s`, whose earlier overlapping loads give `m`, as result `n`, `p`, lands with a value and exceptions: its register
takes the value, and a bundle of the same cycle is kept from it; the exceptions accrue, the result is forgotten once its window is closed, the
bytes have been read, and its site is sent its update (R73, R93, R111, R140). `m` differs from `s` in the values of earlier loads alone. -/
def Lands (s m t : State) (n : Nat) (p : Pend) (v : Handle) (x : Exc) (miss : Bool) : Prop :=
  (∃ (w : Nat) (far : Bool) (u : State), (far = true ↔ p.missed = true ∨ FromBeyond m (leftToRead p)) ∧ (CountsMiss p.op miss far → w = 1) ∧
    (¬ CountsMiss p.op miss far → w = 0) ∧ (readsAsLoad p = [] → u = m) ∧ (readsAsLoad p ≠ [] → HasRead m u p.seq (readsAsLoad p)) ∧
    t = { s with
      cur := { s.cur with
        x := t.cur.x
        h := t.cur.h
        fpc := s.cur.fpc ||| x.setWidth 64
        heard := u.cur.heard
        justIn := (p.reg, s.now) :: s.cur.justIn.filter (fun j => j.2 = s.now)
        pend := if p.win = 0 then m.cur.pend.eraseIdx n
          else m.cur.pend.set n { p with got := some v, missed := far, flags := x, landed := true } }
      clusters := u.clusters
      nextId := s.nextId + (if p.site.isSome then 1 else 0)
      vupd := s.vupd ++ (p.site.map (fun j => siteEntry s j 2 1 w ((s.now - p.start) / 16))).toList }) ∧
  (∀ r, t.rd r = if r.toNat = p.reg ∧ r ≠ 0 then v.setWidth 64 else s.rd r) ∧
  (∀ r, t.rdH r = if 64 + r.toNat = p.reg then v else s.rdH r) ∧ SameBytes s t

/-- The atomics of R166: operation, form and compare register. -/
def atomicForm : Instr → Option (AmoOp × AmoForm × XReg)
  | .amoAdd f => some (.add, f, 0)
  | .amoAnd f => some (.and, f, 0)
  | .amoOr f => some (.or, f, 0)
  | .amoXor f => some (.xor, f, 0)
  | .amoMin f => some (.min, f, 0)
  | .amoMax f => some (.max, f, 0)
  | .amoMinb f => some (.minb, f, 0)
  | .amoMaxb f => some (.maxb, f, 0)
  | .amoSwp f => some (.swp, f, 0)
  | .amoCas f c => some (.cas, f, c)
  | .amoFadd f => some (.fadd, f, 0)
  | _ => none

/-- Bytes of an atomic. -/
def atomicSize (f : AmoForm) : Nat := if f.wide then 8 else 4

/-- The value an atomic writes, by the table of R167: `n` bits, old value, operand, compare value. -/
def atomicNew (op : AmoOp) (n old b c new : Nat) : Prop :=
  let signed := fun (x : Nat) => if x < 2 ^ (n - 1) then (x : Int) else (x : Int) - 2 ^ n
  match op with
  | .add => new = (old + b) % 2 ^ n
  | .and => ∀ i, new.testBit i = (old.testBit i && b.testBit i)
  | .or => ∀ i, new.testBit i = (old.testBit i || b.testBit i)
  | .xor => ∀ i, new.testBit i = (old.testBit i ^^ b.testBit i)
  | .min => new = if signed old ≤ signed b then old else b
  | .max => new = if signed b ≤ signed old then old else b
  | .minb => new = if old ≤ b then old else b
  | .maxb => new = if b ≤ old then old else b
  | .swp => new = b
  | .cas => new = if old = c then b else old
  | .fadd => ∀ t, (t = FTy.s ∧ n = 32) ∨ (t = FTy.d ∧ n = 64) →
      (∀ p q, ratOf (t.fmt.decode old) = some p → ratOf (t.fmt.decode b) = some q → ∃ v, ratOf v = some (p + q) ∧ new = (t.fmt.roundNE v).1) ∧
      ((t.fmt.decode old).isNan = true ∨ (t.fmt.decode b).isNan = true → new = (canonicalNan t).toNat)

/-- The bytes an access writes, given those it finds (R158, R163, R167, R257). -/
def writtenBytes (op : MemOp) (old new : List Byte) : Prop :=
  new.length = old.length ∧
  match op with
  | .store bs => new = bs
  | .bitsAt off len v => ∀ i, i < 8 * old.length → (littleEndian new).testBit i =
      if off ≤ i ∧ i < off + len then v.testBit (i - off) else (littleEndian old).testBit i
  | .amo op size b c => old.length = size → atomicNew op (8 * size) (littleEndian old) (b.toNat % 2 ^ (8 * size)) (c.toNat % 2 ^ (8 * size))
      (littleEndian new)
  | .event inc => littleEndian new % 2 ^ 63 = (littleEndian old + inc.toNat) % 2 ^ 63 ∧ littleEndian new / 2 ^ 63 = littleEndian old / 2 ^ 63

/-- A page table entry as its fields (R146). -/
structure Entry where
  addr  : Nat
  nl1   : Bool
  x     : Bool
  w     : Bool
  r     : Bool
  leaf  : Bool
  valid : Bool
  rsvd  : Bool

/-- The fields of the 8 bytes of an entry (R146). -/
def entryOf (e : Nat) : Entry :=
  ⟨e / 2 ^ 16 % 2 ^ 36 * 2 ^ 16, e.testBit 6, e.testBit 4, e.testBit 3, e.testBit 2, e.testBit 1, e.testBit 0,
    e / 2 ^ 52 != 0 || e / 2 ^ 7 % 2 ^ 9 != 0 || e.testBit 5⟩

/-- A valid entry of level n that R147 accepts. -/
def goodEntry (n : Nat) (e : Entry) : Prop :=
  e.rsvd = false ∧ (n ≤ 2 → e.leaf = false) ∧ (n = 4 → e.leaf = true) ∧
  (e.leaf = false → e.nl1 = false ∧ e.x = false ∧ e.w = false ∧ e.r = false) ∧
  (e.leaf = true → (n = 3 → e.addr % 2 ^ 29 = 0) ∧ (e.w = true → e.r = true) ∧ (e.x = true → e.w = false) ∧
    (e.addr + (if n = 3 then 2 ^ 29 else 2 ^ 16) ≤ 0xBF80000000 ∨ 2 ^ 51 ≤ e.addr))

/-- The entry of a table (R146). -/
def tableEntry (s : State) (table index : Nat) : Nat :=
  littleEndian ((List.range 8).map (fun i => s.raw (table + 8 * index + i)))

/-- The index of each level of a virtual address (R146). -/
def levelIndex (va : Nat) : Nat → Nat
  | 1 => va / 2 ^ 55 % 2 ^ 5
  | 2 => va / 2 ^ 42 % 2 ^ 13
  | 3 => va / 2 ^ 29 % 2 ^ 13
  | _ => va / 2 ^ 16 % 2 ^ 13

/-- `tables n` is the table of level n of a walk that gets to level `m`: each entry before it is valid, accepted and no leaf (R146, R147). -/
def WalkReaches (s : State) (v va m : Nat) (tables : Nat → Nat) : Prop :=
  tables 1 = (s.ctx v).root.toNat / 2 ^ 8 % 2 ^ 44 * 2 ^ 8 ∧ ∀ n, 1 ≤ n → n < m →
    let e := entryOf (tableEntry s (tables n) (levelIndex va n))
    e.valid = true ∧ goodEntry n e ∧ e.leaf = false ∧ tables (n + 1) = e.addr

/-- What a page permits (R147). -/
def permitted (e : Entry) : Kind → Bool
  | .read => e.r
  | .write => e.w
  | .atomic => e.w && e.r
  | .fetch => e.x

/-- The subcode of the protection fault of a page (R147). -/
def pageSubcode : Kind → Nat
  | .read => 1
  | .write | .atomic => 2
  | .fetch => 3

/-- LD.E: destination, address register, lookahead, type, offset and site (R160). -/
def elementLoadForm : Instr → Option (XReg × XReg × La × Ty × Int × Option (BitVec 16))
  | .ldEShort d a la ty off => some (d, a, la, ty, off.toInt, none)
  | .ldELong d a la ty off v => some (d, a, la, ty, off.toInt, v)
  | _ => none

/-- ST.E: source, address register, type and offset (R160). -/
def elementStoreForm : Instr → Option (XReg × XReg × Ty × Int)
  | .stEShort r a ty off => some (r, a, ty, off.toInt)
  | .stELong r a ty off => some (r, a, ty, off.toInt)
  | _ => none

/-- Where an element lies (R26, R28, R161): its format entry, bits, first byte, number of bytes, bit within the first byte and scale. -/
def elementPlace (s : State) (base op : Word) (off : Int) (e : ElemAt) : Prop :=
  let entry := (s.curLaunch.fmt.getD (base.toNat / 2 ^ 60) 0).toNat
  let pos : Int := ((op.toNat / 2 ^ 32 % 2 ^ 31 : Nat) + off) * efBits (entry % 16) op.msb
  let o : Int := pos / 8
  let a : Int := ((base.toNat % 2 ^ 60 : Nat) : Int)
  let block : Int := 2 ^ (entry / 2 ^ 9 % 8) * efBits (entry % 16) op.msb / 8
  let soff : Int := if entry / 2 ^ 127 % 2 = 0 then (entry / 2 ^ 80 % 2 ^ 48 : Nat) else (entry / 2 ^ 80 % 2 ^ 48 : Nat) - 2 ^ 48
  e.entry = entry ∧ e.scratch = op.msb ∧ e.nb = efBits (entry % 16) op.msb ∧ (e.addr : Int) = (a + o) % 2 ^ 60 ∧
    (e.nb < 8 → (e.bitOff : Int) = pos % 8 ∧ e.bytes = (e.bitOff + e.nb + 7) / 8) ∧ (8 ≤ e.nb → e.bitOff = 0 ∧ e.bytes = e.nb / 8) ∧
    (match entry / 2 ^ 7 % 4 with
      | 1 => ∃ x, e.scale = some x ∧ (x : Int) = (a + soff + o / block) % 2 ^ 60
      | 2 => ∃ x, e.scale = some x ∧ (x : Int) = (a + soff) % 2 ^ 60
      | _ => e.scale = none)

/-- The writes of an element's code at its bytes (R163): a whole store, or the bits of a sub-byte element, by lines. -/
def elementWrites (e : ElemAt) (ks : List Nat) (code : Nat) : List (List Nat × MemOp) :=
  if 8 ≤ e.nb then [(ks, .store (leBytes e.bytes code))]
  else
    match ks with
    | [j, k] => if (e.addr + 1) % 64 ≠ 0 then [(ks, .bitsAt e.bitOff e.nb code)]
      else [([j], .bitsAt e.bitOff (8 - e.bitOff) code), ([k], .bitsAt 0 (e.nb - (8 - e.bitOff)) (code / 2 ^ (8 - e.bitOff)))]
    | _ => [(ks, .bitsAt e.bitOff e.nb code)]

/-- The value of an element of a format with its scale bytes, as a load of a type gives it (R116, R122 to R126, R162): the value of the code,
times 2^(byte − 127) or times the FP32 scale, rounded once into a float type or truncated into an integer one; the codes of EF 0 as
they are. -/
def elementLoaded (e : ElemRead) (data scale : List Byte) (v : Word) (x : Exc) : Prop :=
  let code := littleEndian data / 2 ^ e.bitOff % 2 ^ e.nbits
  let val := if e.scf = 1 then e8m0Value e.ef code (littleEndian scale) else if e.scf = 2 then tensorValue e.ef code (littleEndian scale)
    else valueOf e.ef code
  (e.ef = 0 → x = 0 ∧ (e.ty = .i32 → v.toInt = if code % 256 < 128 then ((code % 256 : Nat) : Int) else (code % 256 : Nat) - 256) ∧
    (e.ty ≠ .i32 → v.toNat = code % 256)) ∧
  (e.ef ≠ 0 → ∀ f, e.ty.flt = some f → v = BitVec.ofNat 64 (f.fmt.roundNE val).1 ∧ x = (f.fmt.roundNE val).2) ∧
  (e.ef ≠ 0 → e.ty.flt = none →
    (∀ q, ratOf val = some q →
      let z := towardZero q
      let lim := integerRange e.ty
      (z < lim.1 → integerWord e.ty v lim.1 ∧ x = 16) ∧ (lim.2.1 < z → integerWord e.ty v lim.2.1 ∧ x = 16) ∧
      (lim.1 ≤ z → z ≤ lim.2.1 → integerWord e.ty v z ∧ (x = 1 ↔ (z : ℚ) ≠ q) ∧ (x = 0 ↔ (z : ℚ) = q))) ∧
    (∀ neg, val = .inf neg → integerWord e.ty v (if neg then (integerRange e.ty).1 else (integerRange e.ty).2.1) ∧ x = 16) ∧
    (val.isNan = true → v = 0 ∧ x = 16))

/-- What ST.E makes of its value under an element's format entry and the scale it has read, with the random bits of its draw (R122 to R124,
R127, R163, R164): the low byte under EF 0; the format faults; else the code of the quotient of value and scale, rounded as the mode says. -/
def elementStored (e : ElemAt) (ty : Ty) (op : Word) (scale bits : Nat) (out : Except Nat (Nat × Exc)) : Prop :=
  let ef := e.entry % 16
  let scf := e.entry / 2 ^ 7 % 4
  let usable := scale / 2 ^ 31 % 2 = 0 ∧ 1 ≤ scale / 2 ^ 23 % 256 ∧ scale / 2 ^ 23 % 256 < 255
  let mode : RMode := match e.entry / 2 ^ 13 % 8 with | 1 => .rtz | 2 => .sr bits | 4 => .sr bits | _ => .rne
  (ef = 0 → ty.flt.isSome = true → out = .error 2) ∧
  (ef = 0 → ty.flt = none → out = .ok (op.toNat % 256, 0)) ∧
  (ef ≠ 0 → scf = 1 → scale % 256 = 255 → out = .error 3) ∧
  (ef ≠ 0 → scf = 2 → ¬ usable → out = .error 4) ∧
  (ef ≠ 0 → (scf = 1 → scale % 256 ≠ 255) → (scf = 2 → usable) → ∃ v w, out = .ok (roundElem ef mode w) ∧
    (∀ f, ty.flt = some f → v = f.fmt.decode (op.toNat % 2 ^ floatBits f)) ∧
    (ty.flt = none → ratOf v = some ((integerIn ty op : Int) : ℚ) ∧ (integerIn ty op = 0 → v.sign = false)) ∧
    w.sign = v.sign ∧ (ratOf v = none → w = v) ∧
    (∀ q, ratOf v = some q → (scf = 1 → ratOf w = some (q / (2 : ℚ) ^ (((scale % 256 : Nat) : Int) - 127))) ∧
      (scf = 2 → ∃ p, ratOf (FTy.s.fmt.decode (scale % 2 ^ 32)) = some p ∧ ratOf w = some (q / p)) ∧ (scf ≠ 1 → scf ≠ 2 → ratOf w = some q)))

/-- The words of a vintage slot as a read sees them (R110): the base slot's in a frozen launch; in a live one the sums, saturated at
2^32 − 1 with SAT set, and for a loop the larger of the two maxima. -/
def slotSeen (frozen : Bool) (b d : Nat → Nat) : Nat → Nat := fun i =>
  if frozen then b i
  else
    let kind := b 3 / 2 ^ 30 % 4
    let n := match kind with | 1 => 2 | 2 => 3 | 3 => 2 | _ => 0
    let full := decide (b 3 / 2 ^ 29 % 2 = 1) || decide (d 3 / 2 ^ 29 % 2 = 1) || (List.range n).any (fun k => decide (2 ^ 32 ≤ b k + d k))
    if i = 3 then (if full then b 3 ||| 2 ^ 29 else b 3)
    else if i < n then min (b i + d i) (2 ^ 32 - 1)
    else if kind = 3 then max (b i) (d i)
    else b i

/-- Word `i` of the slot at a key, as a context reads it (R105). -/
def slotWord (s : State) (kid key i : Nat) : Nat := littleEndian ((List.range 4).map (fun j => s.byteAs kid (key + 4 * i + j)))

/-- What the issue of a load leaves (R73, R75, R292): one pending result; where a word of it is bad at its home and the L1 has it good, the load
reads at once, or loses its turn where something must come first. `value` says what its bytes give in a state. -/
def IssuesLoad (i : Instr) (s : State) (p : Pend) (mark : BitVec 8) (value : State → Handle → Exc → Prop) : Prop :=
  let n := s.cur.pend.length
  let loses := ∃ t, exec i s = .next t ∧ LosesTurn s t
  (s.poisoned p.op.keys = false → ∃ t, exec i s = .next t ∧ AddsPending s t p mark) ∧
  (s.poisoned p.op.keys = true → ∀ u, AddsPending s u p mark →
    (u.fixFirst n p.op.keys = none → loses) ∧
    (∀ m, u.fixFirst n p.op.keys = some m → EarlierLoadsFixed u m n p.op.keys ∧ (¬ Readable m p.seq p.op.reads → loses) ∧
      (Readable m p.seq p.op.reads → ∃ t h v x far, exec i s = .next t ∧ SameBytes s t ∧ value m v x ∧ (far = true ↔ FromBeyond m p.op.reads) ∧
        HasRead m h p.seq p.op.reads ∧
        t = { h with cur := { h.cur with pend := h.cur.pend.set n { p with got := some v, missed := far, flags := x } } })))

/-- An operation of an agent scope in slot `a` takes in a strand in another slot `b` (R261). -/
def TakesIn (sc : Scope) (a b : Nat) : Prop :=
  match sc with
  | .strand => False
  | .core => a / 8 = b / 8
  | .cluster => a / 64 = b / 64
  | .die => a / 64 / 24 = b / 64 / 24
  | .package | .system => True

/-- A release and an acquire of the strand in hand synchronise for an access: the scope of each takes in the other's strand, those wider than the
cluster acting on scratch as the cluster does (R261, R262). -/
def Synchronises (s : State) (r : Rel) (sc : Scope) (a : Access) : Prop :=
  let cut := fun (c : Scope) => if (∃ k ∈ a.keys, 2 ^ 52 ≤ k) ∧ (c = .die ∨ c = .package ∨ c = .system) then Scope.cluster else c
  TakesIn (cut r.scope) r.slot s.cur.id ∧ TakesIn (cut sc) s.cur.id r.slot

/-- An access in flight comes before what the strand in hand does: its own, or one that its acquires have put there (R171, R263). -/
def ComesFirst (s : State) (a : Access) : Prop := a.strand = s.cur.sid ∨ ∃ b ∈ s.cur.before, b.id = a.id

/-- What a read meets at each byte in `t`, after a write of `s` to some bytes that carries some releases: those, and after an atomic those of the
writes before it too, as far as they still order something; at the other bytes what it met before (R262). -/
def Tells (s t : State) (ks : List Nat) (rmw : Bool) (rs : List Rel) : Prop :=
  (∀ k, k ∉ ks → t.toldHome k = s.toldHome k) ∧
  ∀ k ∈ ks, ∀ r, r ∈ t.toldHome k ↔ Flying t r.id ∧ (r ∈ rs ∨ (rmw = true ∧ ∃ m, s.told.find? (fun m => m.key = k) = some m ∧ r ∈ m.all))

/-- `t` is `s` once the strand in hand has the answer to a load or an atomic of system space: it has heard of the releases before the writes
there (R262); after a store nothing. -/
def Hears (s t : State) (pa : Nat) (op : ExtOp) : Prop :=
  t = { s with cur := { s.cur with heard := t.cur.heard } } ∧
    match op with
    | .write _ | .bits .. => t.cur.heard = s.cur.heard
    | op => ∀ r, r ∈ t.cur.heard ↔ r ∈ s.cur.heard ∨ (Flying s r.id ∧ ∃ k ∈ keysFrom pa (extBytes op), r ∈ s.toldHome k)

/-- The bundle in hand has no access to system space outstanding any more. -/
def askOver (s : State) : State := { s with cur := { s.cur with sys := none, sysGot := [], code := none, leaves := [] } }

/-- What a bundle does with an access to system space (R302): it asks the target and loses turns until the answer is there; then it goes on
as `done` says, or takes the protection fault of subcode 0x6 where the target fails or there is none. `m` is `s` after the accesses that
come first; while it waits it keeps the translations of the addresses it names (R150), and `code`. A store or an atomic goes out with the
strand's releases (R262). -/
def AsksTarget (i : Instr) (s m : State) (a : Nat) (names : List Nat) (code : Option (Nat × Exc)) (tag pa : Nat) (op : ExtOp)
    (done : BitVec 512 → State → Prop) : Prop :=
  (∀ v, find? tag s.cur.sysGot = some (.ok v) → ∃ h, Hears m h pa op ∧ done v h) ∧
  (find? tag s.cur.sysGot = some .error → ∃ h, Hears m h pa op ∧ exec i s = .next ((askOver h).raise (s.precise 5 6 (BitVec.ofNat 64 a)))) ∧
  (find? tag s.cur.sysGot = none → s.cur.sys = none → s.target s.cur.ctx pa = none →
    exec i s = .next ((askOver m).raise (s.precise 5 6 (BitVec.ofNat 64 a)))) ∧
  (find? tag s.cur.sysGot = none → s.cur.sys.isSome = true → ∃ t, exec i s = .next t ∧ SameBytes s t ∧
    t = { m with cur := { m.cur with leaves := (s.keep names).cur.leaves, code := code }, disp := .wait }) ∧
  (∀ d, find? tag s.cur.sysGot = none → s.cur.sys = none → s.target s.cur.ctx pa = some d → ∃ t, exec i s = .next t ∧ SameBytes s t ∧
    t = { m with
      cur := { m.cur with sys := some ⟨pa, op, s.portTo s.cur.ctx pa⟩, leaves := (s.keep names).cur.leaves, code := code }
      hostOut := s.hostOut ++ [.sent d op]
      pkg := { s.pkg with replay := t.pkg.replay }
      told := t.told
      disp := .wait } ∧ (∀ f n, d = .host f n → t.pkg = s.pkg ∧ s.portTo s.cur.ctx pa = none) ∧
    (∀ p g r n, d = .peer p g r n → s.portTo s.cur.ctx pa = some p) ∧
    ((∃ n, op = .read n) → t.told = s.told) ∧
    ((∀ n, op ≠ .read n) → Tells s t (keysFrom pa (extBytes op)) (sysRmw op) m.cur.rels))

/-- The atomics a target of system space performs (R168): the host ADD, SWP and CAS of 8 bytes, which are what its link carries (R298; log 30), a
peer all but FADD, none a sequentially consistent one. -/
def targetTakes (op : AmoOp) (f : AmoForm) (pa : Nat) : Prop :=
  f.sc = false ∧ (pa / 2 ^ 50 % 2 = 0 → f.wide = true ∧ (op = .add ∨ op = .swp ∨ op = .cas)) ∧ (pa / 2 ^ 50 % 2 = 1 → op ≠ .fadd)

/-- Exactly `bs` is written from byte `base` on under context `v`'s KeyID, by no strand: the bytes read so and meet no release, every byte outside
reads as it did, lines that hold none of them read as they did under every KeyID, and the words that are covered whole are healed (R262, R292,
R308). -/
def BytesWritten (s t : State) (v base : Nat) (bs : List Byte) : Prop :=
  t.bytesAs v (keysFrom base bs.length) = bs ∧ (∀ q, q < base ∨ base + bs.length ≤ q → t.byteAs v q = s.byteAs v q) ∧
  (∀ kid q, (∀ j, j < bs.length → (base + j) / 64 ≠ q / 64) → t.byteAs kid q = s.byteAs kid q ∧ t.raw q = s.raw q) ∧
  t.poison = s.poison.filter (fun w => !(decide (base ≤ w) && decide (w + 8 ≤ base + bs.length))) ∧
  ∀ q, t.toldHome q = if base ≤ q ∧ q < base + bs.length then [] else s.toldHome q

/-- No entry that a walk of an address of a context reads lies in a line that a copy command owns (R188). -/
def WalkFree (s : State) (v va : Nat) : Prop :=
  va < capVa → ∀ k ∈ s.walkReads va (s.ctx v).rootAddr levels, k < 2 ^ 51 → s.owned (k / 64 * 64) = false

/-- The base of a context's cellar area (R286). -/
def cellarBase (s : State) (v : Nat) : Nat := (s.ctx v).cellar.toNat / 2 ^ 22 % 2 ^ 30 * 2 ^ 22

/-- Where the image of a cluster holds the trellis context in place `slot` (R287). -/
def trellisAddr (s : State) (v c slot : Nat) : Nat := cellarBase s v + 2 ^ 22 * c + 0x381000 + 2 ^ 16 * slot

/-! ## Handles, the lees bank and the vine (R174 to R181, R232, R239, R240, R243 to R251) -/

/-- A field of a handle (R174). -/
def fieldAt (h : Handle) (lo w : Nat) : Nat := h.toNat / 2 ^ lo % 2 ^ w

/-- A signed field of twelve bits. -/
def signedField (h : Handle) (lo : Nat) : Int :=
  if fieldAt h lo 12 < 2048 then (fieldAt h lo 12 : Int) else (fieldAt h lo 12 : Int) - 4096

/-- Lowest bit and width of field f of HGET and HPUT (R174, R177): BASE, ROWM1, COLM1, PITCH, SP, AX, RSTEP, CSTEP, ETAG, FILL and the
selector. -/
def handlePlace : Nat → Nat × Nat
  | 0 => (0, 64)
  | 1 => (64, 12)
  | 2 => (76, 12)
  | 3 => (88, 24)
  | 4 => (112, 1)
  | 5 => (113, 1)
  | 6 => (128, 12)
  | 7 => (140, 12)
  | 8 => (160, 16)
  | 9 => (192, 32)
  | _ => (60, 4)

/-- The move of HSTEP in bits (R179): `n` steps of a handle whose element has `b` bits. -/
def stepBits (h : Handle) (b : Nat) (n : Int) : Int :=
  let p : Int := 8 * fieldAt h 88 24
  n * (if fieldAt h 113 1 = 0 then signedField h 128 * p + signedField h 140 * b else signedField h 128 * b + signedField h 140 * p)

/-- The sequence tag of a granule of the strand's cluster (R180). -/
def granuleTag (s : State) (g : Nat) : BitVec 16 := (find? g (s.cluster (s.cur.id / 64)).tags).getD 0

/-- A granule of the scratchpad that the span of a handle touches (R175, R180). -/
def touches (s : State) (h : Handle) (g : Nat) : Prop :=
  g < 1024 ∧ fieldAt h 0 60 / 4096 ≤ g ∧ g ≤ (fieldAt h 0 60 + (tileOf s.curLaunch.fmt h).spanLen - 1) / 4096

/-- The value a back reference gives (R244): VDEF before the launch's first item, else the publication that has arrived. -/
def backValue (s : State) (r : XReg) (k : Nat) : Option Word :=
  let l := s.curLaunch
  let j := (s.vineEntry r).getD 0
  if s.cur.index < l.desc.first.toNat + k then some (l.desc.vdef.getD j 0)
  else (s.pubs.find? (fun p => p.launch = l.num && p.item + k = s.cur.index && p.entry = j
    && ((p.cluster = s.cur.id / 64 && p.here) || p.away = some (s.cur.id / 64)))).map (·.value)

/-- `t` is `m`, which is `s` with a publication of launch `n` that has reached a cluster, if one is given; where the launch is yielded there,
the trellis context in the cluster's image becomes that of the new state, and no other byte changes (R287, R296). -/
def ImageTakes (s t m : State) (n : Nat) (at_ : Option Nat) : Prop :=
  t = withMemory m t ∧
  ((∀ c h, at_ = some c → s.harvestOf? n c = some h → h.yielded = false) → t = m ∧ SameBytes s t) ∧
  (∀ c h, at_ = some c → s.harvestOf? n c = some h → h.yielded = true →
    let v := (s.launch n).ctx
    let base := trellisAddr s v h.cluster h.slot
    base + (t.trellisBytes h).length ≤ capBase → BytesWritten s t v base (t.trellisBytes h))

/-- A window that a handler's return opens again, as a result that has landed (R75). -/
def reopened (w : Nat × Nat × Word) : Pend := ⟨w.1, w.2.1, w.2.2, .value 0, none, false, 0, true, none, 0, 0⟩

/-- The sources of a wrapped A-word with their back distances (R64). -/
def backSources (ka kb kc : BitVec 4) (w : Instr) : List (XReg × Nat) := (aRegs w).zip [ka.toNat, kb.toNat, kc.toNat]

/-- The operand of source n of a wrap: the value of its back reference, none for a register of the strand. -/
def backOperand (s : State) (src : List (XReg × Nat)) (n : Nat) : Option Word :=
  match src[n]? with
  | some (r, k) => if k = 0 then none else backValue s r k
  | none => none

/-! ## Exceptions and special registers (R71, R72, R271 to R277) -/

/-- An 8-byte field of a fault record (R274). -/
def recordField (rcd : List Byte) (off : Nat) : Nat := littleEndian ((rcd.drop off).take 8)

/-- %fcause of a fault (R272): the element field, DEF, SUB, SLOT and CAUSE. -/
def fcauseIs (f : FaultInfo) (v : Word) : Prop :=
  v.toNat / 2 ^ 32 = f.elem.toNat ∧ v.getLsbD 16 = f.deferd ∧ v.toNat / 2 ^ 8 % 256 = f.sub % 256 ∧ v.getLsbD 5 = f.slotA
    ∧ v.toNat % 32 = f.cause % 32 ∧ v.toNat / 2 ^ 6 % 4 = 0 ∧ v.toNat / 2 ^ 17 % 2 ^ 15 = 0

/-- The address of the strand's fault record (R274): FRBASE and 256 bytes for each slot of eight in each core. -/
def recordAddr (s : State) : Nat :=
  ((s.ctx s.cur.ctx).frbase.toNat / 2 ^ 16 % 2 ^ 44 * 2 ^ 16 + 256 * s.cur.id) % 2 ^ 60

/-- The address field of %tvec and %epc as a bundle address (R275, R276). -/
def bundleAddr (v : Word) : Nat := v.toNat / 8 % 2 ^ 57 * 8

/-- The value of a special register (R2, R72). -/
def specialValue (s : State) : Nat → Option Word
  | 0 => some s.cur.fpc
  | 1 => some s.cur.fcause
  | 2 => some s.cur.faddr
  | 3 => some (BitVec.ofNat 64 (recordAddr s))
  | 4 => some s.cur.uid
  | 5 => some s.cur.lees.tag
  | 6 => some (s.cur.cuvc.setWidth 64)
  | 7 => some (BitVec.ofNat 64 (s.curLaunch.desc.vm + (if s.curLaunch.desc.lv then 4 else 0) + (if s.curLaunch.desc.det then 8 else 0)))
  | 8 => some (if s.four then 0x104 else 0x008)
  | 9 => some (BitVec.ofNat 64 (s.cur.id / 64 / 24 + s.cur.id / 64 % 24 * 2 ^ 8 + s.cur.id / 8 % 8 * 2 ^ 13 + s.cur.id % 8 * 2 ^ 16
      + ((if s.four then 4 else 8) * (s.cur.id / 8) + s.cur.id % 8) * 2 ^ 19))
  | 10 => some (BitVec.ofNat 64 s.now)
  | 0x100 => some s.cur.tvec
  | 0x101 => some s.cur.epc
  | 0x102 => some (s.cur.estat.setWidth 64)
  | _ => none

/-- The strand after a write of a special register: the writable fields take the value (R71, R72, R93, R134, R275, R276). -/
def specialWritten (t : Strand) (v : Word) : Nat → Option Strand
  | 0 => some { t with fpc := v &&& 0x1F1F }
  | 6 => some { t with cuvc := v.extractLsb' 0 32 }
  | 0x100 => some { t with tvec := v &&& 0x0FFFFFFFFFFFFFF8 }
  | 0x101 => some { t with epc := v &&& 0x0FFFFFFFFFFFFFF8 }
  | 0x102 => some { t with estat := (t.estat &&& 0b0111) ||| (v.extractLsb' 0 4 &&& 0b1000) }
  | _ => none

/-- The words that need supervisor privilege (R62, R72, R277). -/
def needsSupervisor : Instr → Bool
  | .eret | .halt | .repart _ => true
  | .mfs _ n | .mts n _ => decide (0x100 ≤ n.toNat)
  | _ => false

/-! ## Engine commands (R174 to R196, R206 to R238) -/

/-- A command of the bundle in hand as it joins its queue (R176, R206, R221): what it copies at issue, nothing begun. -/
def newCommand (s : State) (cid : Nat) (e : Engine) (i : Instr) (hd ha hb : Handle) (reg : XReg) : Cmd where
  cid := cid
  engine := e
  instr := i
  word := s.bundle
  baddr := s.cur.pc
  strand := s.cur.id
  launch := s.cur.launch
  ctx := s.cur.ctx
  item := s.cur.index
  core := s.cur.id / 8
  core0 := s.cur.id / 8
  cycle := s.now
  since := s.now
  hd := hd
  ha := ha
  hb := hb
  xs := 0
  pblk := 0
  idxs := []
  body := []
  iters := 1
  reg := reg.toNat
  started := false
  prog := 0
  c0 := s.cur.cuvc
  flags := 0
  cnt := 0
  bank := []
  mask := 0
  mb := false
  key := none
  target := s.cur.id / 64
  tscale := 0
  early := []
  late := none
  walkFault := none
  saved := false
  dfault := none

/-- An access of the strand in hand, or one that a release it has acquired says comes first, is still on its way to its home: an engine command
waits for it to issue (R172, R176, R263). -/
def StoresOut (s : State) : Prop := ∃ a ∈ s.stores, a.strand = s.cur.sid ∨ ∃ b ∈ s.cur.before, b.id = a.id ∧ b.led = true

/-- The completion register of a command pends from issue, none for x0 (R207, R222). -/
def commandPend (s : State) (cid : Nat) (xa : XReg) (la : La) : List Pend :=
  if xa = 0 then s.cur.pend else s.cur.pend ++ [pendingResult s xa la (.cmd cid) none]

/-- The mark of R243 that a completion register makes. -/
def commandMark (s : State) (xa : XReg) : BitVec 8 := if xa = 0 then s.cur.vw else s.cur.vw ||| vineBit s xa

/-- A deferred fault is recorded on command `cid`, with an element and a progress count of `n`; of what is pending, `kept`, the window of
the completion register alone is open beside it, and nothing of the bundle takes effect otherwise (R73, R206, R221, R274, R279). -/
def RecordsFault (s t : State) (cid : Nat) (f : Nat × Nat) (n : Nat) (kept : List Pend) (xa : XReg) (la : La) : Prop :=
  (∃ k ∈ t.cmds, k.cid = cid ∧ ∃ d, k.dfault = some d ∧ d.cause = f.1 ∧ d.sub = f.2 ∧ d.elem = n ∧ d.prog = n) ∧
    (s.cur.status ≠ .idle → (∀ p ∈ kept, p.op ≠ .cmd cid) → t.cur.pend =
      if xa = 0 ∨ la = 0 then kept else kept ++ [{ pendingResult s xa la (.cmd cid) none with landed := true }]) ∧
    t.cur.x = s.cur.x ∧ t.cur.h = s.cur.h ∧ t.cur.pc = s.cur.pc ∧ t.cur.npc = s.cur.npc ∧ t.cur.lees = s.cur.lees ∧ t.disp = s.disp ∧
    SameBytes s t

/-- A command takes a deferred fault as it runs: the fault is recorded on it, and the later commands of its queue that have neither started nor
faulted go, all others staying as they are (R192, R213, R279, R280). -/
def CommandFaults (s t : State) (c : Cmd) (f : Nat × Nat) (elem prog : Nat) : Prop :=
  let later := fun (k : Cmd) =>
    k.launch = c.launch ∧ k.item = c.item ∧ k.engine = c.engine ∧ c.cid < k.cid ∧ k.started = false ∧ k.dfault = none
  (∃ k ∈ t.cmds, ∃ d, k = { c with dfault := some d, mb := false } ∧ d.cause = f.1 ∧ d.sub = f.2 ∧ d.elem = elem ∧ d.prog = prog) ∧
  (∀ k ∈ t.cmds, k.cid ≠ c.cid → k ∈ s.cmds ∧ ¬ later k) ∧
  (∀ k ∈ s.cmds, k.cid ≠ c.cid → (∀ j ∈ s.cmds, later j → j.cid ≠ k.cid) → k ∈ t.cmds) ∧
  (∀ o ∈ t.owners, o ∈ s.owners ∧ o.cid ≠ c.cid)

/-! ## Bad words (R292) -/

/-- Some byte of a range of offsets of a cluster's scratchpad lies in a word with an uncorrectable error. -/
def MeetsBad (s : State) (cl : Nat) (r : Nat × Nat) : Prop :=
  ∃ p ∈ s.poison, p ≤ 2 ^ 52 + cl * 2 ^ 22 + r.2 ∧ 2 ^ 52 + cl * 2 ^ 22 + r.1 < p + 8

/-! ## Issue-time checks (R327) -/

/-- A check: its condition, and cause and subcode of its fault. -/
abbrev Check := Bool × (Nat × Nat)

/-- The fault of the first check whose condition does not hold, none where all hold (R327). -/
def firstUnmet (cs : List Check) : Option (Nat × Nat) := (cs.find? (fun c => !c.1)).map (·.2)

/-- Rows and columns of a tile (R174). -/
def rowsOf (t : Tile) : Nat := fieldAt t.h 64 12 + 1
/-- Columns. -/
def colsOf (t : Tile) : Nat := fieldAt t.h 76 12 + 1
/-- PITCH. -/
def pitchOf (t : Tile) : Nat := fieldAt t.h 88 24
/-- SP. -/
def inScratch (t : Tile) : Bool := fieldAt t.h 112 1 = 1
/-- AX of the handle. -/
def axisOf (t : Tile) : Nat := fieldAt t.h 113 1
/-- BASE<59:0>. -/
def baseOf (t : Tile) : Nat := fieldAt t.h 0 60
/-- EF of the format entry (R23). -/
def efOf (t : Tile) : Nat := t.entry % 16
/-- SCF. -/
def scfOf (t : Tile) : Nat := t.entry / 2 ^ 7 % 4
/-- BLK. -/
def blkOf (t : Tile) : Nat := t.entry / 2 ^ 9 % 8
/-- AX of the format entry. -/
def blockAxis (t : Tile) : Nat := t.entry / 2 ^ 12 % 2
/-- SOFF, signed. -/
def soffOf (t : Tile) : Int :=
  if t.entry / 2 ^ 127 % 2 = 0 then ((t.entry / 2 ^ 80 % 2 ^ 48 : Nat) : Int) else (t.entry / 2 ^ 80 % 2 ^ 48 : Nat) - 2 ^ 48
/-- Bits per element (R26). -/
def bitsOf (t : Tile) : Nat := efBits (efOf t) (inScratch t)
/-- Bytes per block (R26). -/
def blockBytes (t : Tile) : Nat := 2 ^ blkOf t * bitsOf t / 8
/-- Lines (R175). -/
def linesOf (t : Tile) : Nat := if axisOf t = 0 then rowsOf t else colsOf t
/-- Elements of a line (R175). -/
def lineElems (t : Tile) : Nat := if axisOf t = 0 then colsOf t else rowsOf t
/-- Bytes of a line (R175). -/
def lineBytes (t : Tile) : Nat := (lineElems t * bitsOf t + 7) / 8
/-- Bytes of the span (R175). -/
def spanBytes (t : Tile) : Nat := (linesOf t - 1) * pitchOf t + lineBytes t

/-- The field check of R175. -/
def fieldsRight (t : Tile) : Bool :=
  fieldAt t.h 224 32 = 0 && fieldAt t.h 176 16 = 0 && fieldAt t.h 152 8 = 0 && fieldAt t.h 114 14 = 0
    && decide (1 < linesOf t → lineBytes t ≤ pitchOf t)

/-- Scratch bytes lie in the allocation of the strand's group (R137). -/
def inGroup (s : State) (a n : Nat) : Bool :=
  match s.groupOf? s.cur with
  | some g => a < 2 ^ 22 && g.gran != 0 && g.off ≤ a && a + n ≤ g.off + 4096 * g.gran
  | none => false

/-- The span of a scratch tile lies there. -/
def spanInGroup (s : State) (t : Tile) : Bool := !inScratch t || inGroup s (baseOf t) (spanBytes t)

/-- The address of the scale of position p of line l (R28); that of a tensor scale is the same for all. -/
def scalePlace (t : Tile) (l p : Nat) : Nat :=
  ((((baseOf t : Nat) : Int) + soffOf t
    + (if scfOf t = 1 then (((l * pitchOf t + p * bitsOf t / 8) / blockBytes t : Nat) : Int) else 0)) % 2 ^ 60).toNat

/-- The scale locations of a scratch tile (R28, R137, R327 step 8). -/
def scalesPlaced (s : State) (t : Tile) : List Check :=
  [(decide (scfOf t = 2 → scalePlace t 0 0 % 4 = 0), (0x0B, 5)),
    (decide (scfOf t = 2 → inGroup s (scalePlace t 0 0) 4 = true) &&
      decide (scfOf t = 1 → ∀ l < linesOf t, ∀ p < lineElems t, inGroup s (scalePlace t l p) 1 = true), (0x0B, 2))]

/-- The FP32 tensor scale of a scratch tile of the strand's cluster. -/
def tensorCode (s : State) (t : Tile) : Nat :=
  littleEndian ((List.range 4).map (fun i => s.raw (2 ^ 52 + s.cur.id / 64 * 2 ^ 22 + scalePlace t 0 0 % 2 ^ 22 + i)))

/-- An FP32 code that is positive, finite and normal (R125). -/
def usableScale (c : Nat) : Bool := c / 2 ^ 31 = 0 && 1 ≤ c / 2 ^ 23 && c / 2 ^ 23 < 255

/-- Two spans share a byte. -/
def shareByte (a b : Tile) : Bool := baseOf a < baseOf b + spanBytes b && baseOf b < baseOf a + spanBytes a

/-- Exactly the same tile (R220). -/
def oneTile (a b : Tile) : Bool :=
  fieldAt a.h 0 64 = fieldAt b.h 0 64 && pitchOf a = pitchOf b && axisOf a = axisOf b && rowsOf a = rowsOf b && colsOf a = colsOf b
    && a.entry = b.entry

/-- The same rows and columns. -/
def oneShape (a b : Tile) : Bool := rowsOf a = rowsOf b && colsOf a = colsOf b

/-- A block layout along the lines: the entry's axis is the handle's, and no block crosses a line (R199, R226, R234). -/
def blocksAlong (t : Tile) : Bool := blockAxis t = axisOf t && pitchOf t % blockBytes t = 0

/-- The commands of the tile queue but QST (R218). -/
def isTileCommand : Instr → Bool
  | .tadd .. | .tsub .. | .tmul .. | .tfma .. | .tmax .. | .tmin .. | .texp .. | .tlog .. | .trcp .. | .trsq .. | .tsig .. | .tcmp ..
  | .tmsk .. | .tfill .. | .tcpy .. | .ttrn .. | .tred .. | .tselk .. | .tcvt .. => true
  | _ => false

/-- The tile of a handle register under the launch's format table (R175). -/
def tileIn (s : State) (h : HReg) : Tile := ⟨s.rdH h, (s.curLaunch.fmt.getD (fieldAt (s.rdH h) 60 4) 0).toNat⟩

/-- The tiles whose tags a tile command checks (R181, R221): its sources, and the destination it also reads. -/
def checkedTiles (s : State) (i : Instr) : List Tile :=
  let p := tileArgs i
  let a := (p.ha.map (tileIn s)).toList
  let b := (p.hb.map (tileIn s)).toList
  match i with
  | .tfma .. | .tmsk .. => tileIn s p.hd :: (a ++ b)
  | .tselk .. => a
  | _ => a ++ b

/-- The count operand of TSELK and the fill code of TFILL. -/
def extraOperand (s : State) (i : Instr) : Word :=
  match (tileArgs i).xb with
  | some x => s.rd x
  | none => 0

/-- The checks of a tile command in their order (R175, R137, R219, R220, R225 to R228, R327). -/
def tileChecklist (s : State) (i : Instr) : List Check :=
  let p := tileArgs i
  let d := tileIn s p.hd
  let a := (p.ha.map (tileIn s)).getD d
  let bs := (p.hb.map (tileIn s)).toList
  let k := (extraOperand s i).toNat
  let kind := tileKind i
  let all := d :: ((p.ha.map (tileIn s)).toList ++ bs)
  let wide := fun (t : Tile) => decide (rowsOf t = rowsOf d ∨ rowsOf t = 1) && decide (colsOf t = colsOf d ∨ colsOf t = 1)
  let shape := match kind with
    | .arith | .cmp | .msk => wide a && bs.all wide
    | .fill => true
    | .cpy | .cvt => oneShape d a
    | .trn => decide (rowsOf d = colsOf a ∧ colsOf d = rowsOf a)
    | .red => if axisOf a = 0 then decide (rowsOf d = rowsOf a ∧ colsOf d = 1) else decide (rowsOf d = 1 ∧ colsOf d = colsOf a)
    | .selk => decide (rowsOf a ≤ 1024 ∧ rowsOf d = k ∧ colsOf d = colsOf a) && bs.all (fun b => rowsOf b = k && colsOf b = colsOf a)
  let source := match kind with
    | .arith | .cmp => efOf a != 0 && bs.all (fun b => efOf b != 0)
    | .red | .cvt => efOf a != 0
    | .selk => efOf a != 0 && scfOf a = 0
    | .msk | .fill | .cpy | .trn => true
  let byteOrInt := fun (t : Tile) => decide (efOf t = 0 ∨ efOf t = 11)
  let dest := match kind with
    | .arith | .red => efOf d != 0 && scfOf d != 1
    | .cvt => efOf d != 0
    | .cmp => byteOrInt d && scfOf d = 0
    | .msk => efOf d = efOf a && bs.all byteOrInt
    | .cpy | .trn => efOf d = efOf a
    | .fill => true
    | .selk => efOf d = efOf a && scfOf d = 0 && bs.all (fun b => efOf b = 11)
  let apart := match kind with
    | .arith | .cmp | .msk | .cpy => (a :: bs).all (fun t => !shareByte d t || oneTile d t)
    | .fill => true
    | .trn | .red | .cvt => !shareByte d a
    | .selk => !shareByte d a && bs.all (fun b => !shareByte d b && !shareByte b a)
  let scaled := match kind with
    | .arith | .cmp | .red | .cvt => true
    | .msk | .fill | .cpy | .trn | .selk => false
  [(all.all fieldsRight, (0x0B, 1)), (all.all (spanInGroup s), (0x0B, 2)), (all.all inScratch && shape, (0x0B, 6)), (source, (7, 0x20)),
    (dest, (7, 0x21)),
    (decide (kind = .cvt → scfOf d = 1 → blocksAlong d = true ∧ lineElems d % 2 ^ blkOf d = 0), (7, 0x23))]
  ++ (if scaled then
      scalesPlaced s d ++ [(decide (scfOf d = 2 → usableScale (tensorCode s d) = true), (7, 0x22))]
        ++ ((p.ha.map (tileIn s)).toList ++ bs).flatMap (scalesPlaced s)
    else [])
  ++ [(decide (kind = .selk → 1 ≤ k ∧ k ≤ 64 ∧ k ≤ rowsOf a), (7, 0x24)), (apart, (0x0B, 7))]

/-- The checks of QST in their order (R234, R237, R327). -/
def qstChecklist (s : State) (d a : Tile) (mode : Nat) (cont : Bool) : List Check :=
  let tag := s.cur.lees.tag.toNat
  let n := lineElems d
  let shaped := decide (mode = 3 ∨ mode = 4)
  [([d, a].all fieldsRight, (0x0B, 1)), ([d, a].all (spanInGroup s), (0x0B, 2)),
    (inScratch d && inScratch a && oneShape d a, (0x0B, 6)),
    (decide (efOf a = 10 ∨ efOf a = 9) && scfOf a = 0, (7, 0x30)),
    (decide (1 ≤ efOf d ∧ efOf d ≤ 7) && decide (scfOf d = 1 ∨ scfOf d = 2) && axisOf d = blockAxis d
      && decide (scfOf d = 1 → pitchOf d % blockBytes d = 0), (7, 0x31)),
    (decide (linesOf d ≤ 64), (7, 0x32))]
  ++ scalesPlaced s d ++
  [(decide (scfOf d = 2 → usableScale (tensorCode s d) = true), (7, 0x22)),
    (!cont || shaped, (7, 0x34)),
    (!cont || (tag != 0 && tag / 2 ^ 47 % 16 = efOf d && tag / 2 ^ 44 % 8 = blkOf d && tag / 2 ^ 40 % 16 = fieldAt d.h 60 4
      && tag / 2 ^ 39 % 2 = blockAxis d && tag / 2 ^ 32 % 2 ^ 7 = linesOf d && tag % 2 ^ 32 % 2 ^ blkOf d = 0
      && decide (tag % 2 ^ 32 + n ≤ 2 ^ 32 - 1)), (7, 0x33)),
    (!shareByte d a, (0x0B, 7))]

/-- K elements of a format pair, and whether it accumulates in FP32 (R197). -/
def matrixPair (a b : Tile) : Option (Nat × Bool) :=
  let scaled := decide (scfOf a ≠ 0 ∨ scfOf b ≠ 0)
  if efOf a = 1 ∧ efOf b = 1 then some (128, true)
  else if efOf a = 6 ∧ efOf b = 6 then some (128, scaled)
  else if 2 ≤ efOf a ∧ efOf a ≤ 5 ∧ 2 ≤ efOf b ∧ efOf b ≤ 5 then some (64, true)
  else if efOf a = 7 ∧ efOf b = 7 then some (64, scaled)
  else if efOf a = efOf b ∧ (efOf a = 8 ∨ efOf a = 9) then some (32, true)
  else if efOf a = 10 ∧ efOf b = 10 then some (16, true)
  else none

/-- The checks of iteration j of a matrix command in their order (R197 to R199, R208, R211, R327): a handle whose step is no whole number
of bytes has no place to check. -/
def matrixChecklist (s : State) (hd ha hb : Handle) (j : Nat) : List Check :=
  let fmt := s.curLaunch.fmt
  let t := tileOf fmt
  let d := t hd
  let a := t ha
  let b := t hb
  let placed := fun h => ((stepHandle fmt h j).map t).toList
  let blocked := fun (x : Tile) => decide (scfOf x = 0 ∨ (scfOf x = 1 ∧ blocksAlong x = true))
  [([d, a, b].all fieldsRight, (0x0B, 1)),
    ((placed hd ++ placed ha ++ placed hb).all (spanInGroup s), (0x0B, 2)),
    (inScratch d && inScratch a && inScratch b && axisOf a = 0 && axisOf b = 1 && rowsOf a = 16 && colsOf b = 16 && rowsOf d = 16
      && colsOf d = 16 && (matrixPair a b).all (fun p => colsOf a = p.1 && rowsOf b = p.1), (0x0B, 6)),
    ((matrixPair a b).isSome, (7, 0x10)),
    ((matrixPair a b).all (fun p => efOf d = if p.2 then 10 else 11) && scfOf d = 0, (7, 0x11)),
    (blocked a && blocked b, (7, 0x12))]
  ++ (placed ha ++ placed hb).flatMap (scalesPlaced s) ++
  [([hd, ha, hb].all (fun h => (stepHandle fmt h j).isSome), (7, 0x13)),
    ((placed hd).all (fun x => (placed ha ++ placed hb).all (fun y => !shareByte x y)), (0x0B, 7))]

/-- The outcome of the issue-time checks of a matrix command of n iterations: the fault of the first iteration that fails one, with its
number, or none (R206, R211, R327). -/
def MatrixOutcome (s : State) (hd ha hb : Handle) (n : Nat) : Option ((Nat × Nat) × Nat) → Prop
  | none => ∀ j, j < n → firstUnmet (matrixChecklist s hd ha hb j) = none
  | some (f, j) => j < n ∧ firstUnmet (matrixChecklist s hd ha hb j) = some f ∧ ∀ i, i < j → firstUnmet (matrixChecklist s hd ha hb i) = none

/-- The elements for which a command draws (R135, R229): those it converts under a stochastic mode. -/
def drawnElements (s : State) (i : Instr) : Nat :=
  let p := tileArgs i
  let d := tileIn s p.hd
  let mode := match p.rm with
    | some .rne => 0
    | some .rtz => 1
    | some .sr => 2
    | some .ns => 3
    | some .nss => 4
    | some .entry => d.entry / 2 ^ 13 % 8
    | none => 0
  if mode = 2 ∨ mode = 4 then
    match i with
    | .tred .. => linesOf ((p.ha.map (tileIn s)).getD d)
    | .qst .. => linesOf d * lineElems d
    | _ => rowsOf d * colsOf d
  else 0

/-- A command of the tile queue has room: 8 of its strand, 32 of its cluster, and its strand's pending results (R74, R221). -/
def TileRoom (s : State) (xa : XReg) : Prop := s.outstanding .tile < 8 ∧ s.queued .tile (s.cur.id / 64) < 32 ∧ s.pendFull xa = false

/-- The tensor scale that a command reads at its issue is held by an earlier command that writes it (R182, R219). -/
def ScaleHeld (s : State) (d : Tile) : Prop := inScratch d = true ∧ scfOf d = 2 ∧ s.readHeld (scalePlace d 0 0 % 2 ^ 22) 4 = true

/-- The command divides by its destination's tensor scale (R219, R234). -/
def dividesByScale (i : Instr) : Bool :=
  match i with
  | .tmsk .. | .tfill .. | .tcpy .. | .ttrn .. | .tselk .. => false
  | _ => true

/-- The tensor scale a command copies at issue, 0 where it has none (R219). -/
def copiedScale (s : State) (i : Instr) : Nat :=
  let d := tileIn s (tileArgs i).hd
  if dividesByScale i = true ∧ scfOf d = 2 then tensorCode s d else 0

/-- The tensor scale that a command reads at its issue is bad (R219, R292). -/
def ScaleBad (s : State) (i : Instr) : Prop :=
  let d := tileIn s (tileArgs i).hd
  dividesByScale i = true ∧ inScratch d = true ∧ scfOf d = 2 ∧ MeetsBad s (s.cur.id / 64) (scalePlace d 0 0, scalePlace d 0 0 + 3)

/-- The deferred fault of a command's issue: that of its first unmet check, or else of a bad word it reads there (R292, R327). -/
def IssueFault (chk : Option (Nat × Nat)) (bad : Prop) (f : Nat × Nat) : Prop := chk = some f ∨ (chk = none ∧ bad ∧ f = (0x0D, 1))

/-- A handle register, or no handle. -/
def handleOr (s : State) (h : Option HReg) : Handle :=
  match h with
  | some h => s.rdH h
  | none => 0

/-- MMA and MMZ: handles, lookahead, completion register, and whether the accumulator is left unread (R200, R201). -/
def matrixForm : Instr → Option (HReg × HReg × HReg × La × XReg × Bool)
  | .mma hd ha hb la xa => some (hd, ha, hb, la, xa, false)
  | .mmz hd ha hb la xa => some (hd, ha, hb, la, xa, true)
  | _ => none

/-- What QST does once it can issue (R232 to R237, R250): it joins the tile queue, and a shaped one sets the lees tag, to its destination's
or advanced by a line, and takes part in the lees vine; a failing check is recorded, and then a bad tensor scale. -/
def QstIssues (hd ha : HReg) (la : La) (xa : XReg) (rm : Rm) (cont : Bool) (m : State) (out : Out) : Prop :=
  let i := Instr.qst hd ha la xa rm cont
  let d := tileIn m hd
  let mode := rmCodeOf rm d.entry
  let draws := BitVec.ofNat 32 ((drawnElements m i + 1) / 2)
  let chk := firstUnmet (qstChecklist m d (tileIn m ha) mode cont)
  (StoresOut m → ∃ t, out = .next t ∧ LosesTurn m t) ∧
  (¬ StoresOut m → chk = none → ¬ ScaleBad m i → ∃ t, out = .next t ∧ SameBytes m t ∧ t = { m with
    cur := { m.cur with
      pend := commandPend m m.nextId xa la
      vw := commandMark m xa
      cuvc := m.cur.cuvc + draws
      lees := if mode = 3 ∨ mode = 4 then { m.cur.lees with
        tag := if cont then m.cur.lees.tag + BitVec.ofNat 64 (lineElems d) else tagOf d (lineElems d) } else m.cur.lees
      leesPart := m.cur.leesPart || decide (mode = 3 ∨ mode = 4) }
    nextId := m.nextId + 1
    cmds := m.cmds ++ [{ newCommand m m.nextId .tile i (m.rdH hd) (m.rdH ha) 0 xa with tscale := copiedScale m i }] }) ∧
  (¬ StoresOut m → ∀ f, IssueFault chk (ScaleBad m i) f →
    ∃ t, out = .next t ∧ RecordsFault m t m.nextId f 0 m.cur.pend xa la ∧ t.cur.cuvc = m.cur.cuvc + draws)

/-- The state in which item `m` has received a bank (R238, R250): item i − 1's publication is consumed, the item takes part in the lees vine,
and, but for the launch's first item, earlier data are acquired. -/
def receivedBank (s : State) (l : Lees) : State :=
  let r := { s with
    cur := { s.cur with lees := l, leesRcv := true, leesPart := true }
    leesPubs := s.leesPubs.filter (fun p => !(p.launch = s.cur.launch && p.item + 1 = s.cur.index)) }
  if s.cur.index = s.curLaunch.desc.first.toNat then r else r.acquire .package .all

/-- The copies of R183: destination and source handles, list handle, target cluster and the register of the parameter block. -/
def copyForm (s : State) : Instr → Option (Handle × Handle × Handle × Nat × XReg)
  | .cpyIn hd ha _ xb => some (s.rdH hd, s.rdH ha, 0, s.cur.id / 64, xb)
  | .cpyOut hd ha _ xb => some (s.rdH hd, s.rdH ha, 0, s.cur.id / 64, xb)
  | .cpyXc hd ha _ xa xb => some (s.rdH hd, s.rdH ha, 0, (s.rd xa).toNat % 128, xb)
  | .gath hd ha hb _ xb => some (s.rdH hd, s.rdH ha, s.rdH hb, s.cur.id / 64, xb)
  | .scat hd ha hb _ xb => some (s.rdH hd, s.rdH ha, s.rdH hb, s.cur.id / 64, xb)
  | _ => none

/-- The handles of a copy whose tags are checked (R181). -/
def copyReads (s : State) : Instr → List Tile
  | .cpyOut _ ha _ _ | .cpyXc _ ha _ _ _ => [tileIn s ha]
  | .gath _ _ hb _ _ => [tileIn s hb]
  | .scat _ ha hb _ _ => [tileIn s ha, tileIn s hb]
  | _ => []

/-- The handles a copy names (R183). -/
def copyTiles (s : State) (i : Instr) (hd ha hb : Handle) : List Tile :=
  let t := tileOf s.curLaunch.fmt
  match i with
  | .gath .. | .scat .. => [t hd, t ha, t hb]
  | _ => [t hd, t ha]

/-- A global byte of a copy lies in system space, and in host memory for `host` (R144, R301). -/
def outside (s : State) (host : Bool) (c : Cmd) (a : Nat) : Bool :=
  match s.engNow c a .read with
  | .ok (.sys pa) => !host || pa / 2 ^ 50 % 2 = 0
  | _ => false

/-- The addresses of the first and the last byte of each line of a copy's source inside its box: what it reads (R153, R175, R185). -/
def boxEnds (s : State) (c : Cmd) (a : Tile) : List Nat :=
  let (r0, r1, c0, c1) := c.box s.curLaunch.fmt
  let (l0, l1, p0, p1) := if axisOf a = 0 then (r0, r1, c0, c1) else (c0, c1, r0, r1)
  if p1 ≤ p0 then [] else (List.range (l1 - l0)).flatMap (fun i =>
    let o := baseOf a + (l0 + i) * pitchOf a
    [o + p0 * bitsOf a / 8, o + (p1 * bitsOf a - 1) / 8])

/-- The checks of a copy with its parameter block in their order (R175, R184 to R186, R190, R191, R193, R194, R196, R327). A fault of the
block's read takes the place of the checks of its fields and ends them. -/
def copyChecklist (s : State) (c : Cmd) (blk : Option (Nat × Nat)) : List Check :=
  let t := tileOf s.curLaunch.fmt
  let d := t c.hd
  let a := t c.ha
  let b := t c.hb
  let p := fun (lo w : Nat) => c.pblk.toNat / 2 ^ lo % 2 ^ w
  let block := decide (c.xs.toNat % 2 ^ 60 ≠ 0)
  let lay := if block then p 208 2 else 0
  let dec := c.pblk.getLsbD 210
  let listed := match c.instr with | .gath .. | .scat .. => true | _ => false
  let xc := match c.instr with | .cpyXc .. => true | _ => false
  let listed' := inScratch b && efOf b = 11 && axisOf b = 0 && rowsOf b = 1 && decide (colsOf b ≤ 32)
  let decUse := (match c.instr with | .cpyIn .. => true | _ => false) && efOf a = 0 && !inScratch a && outside s true c (baseOf a)
    && outside s true c (baseOf a + spanBytes a - 1) && axisOf a = 0 && pitchOf a = colsOf a && decide (rowsOf a * colsOf a ≤ 65536)
    && p 64 32 = 0 && p 96 32 = 0 && decide (rowsOf a ≤ p 128 32) && decide (colsOf a ≤ p 160 32) && p 208 2 = 0 && c.key.isSome
  let fields := !block || (p 352 32 = 0 && p 212 44 = 0 && (dec || (p 384 128 = 0 && p 256 96 = 0)) && p 192 16 != 0xFFFF && p 0 64 % 8 = 0
    && (!dec || decUse) && (!listed || p 64 128 = 0))
  let same := if lay = 1 then decide (rowsOf d = colsOf a ∧ colsOf d = rowsOf a) else oneShape d a
  let shape := match c.instr with
    | .gath .. => inScratch d && !inScratch a && listed' && linesOf d = colsOf b && lineElems d = colsOf a
    | .scat .. => !inScratch d && inScratch a && listed' && linesOf a = colsOf b && lineElems a = colsOf d
    | .cpyOut .. => !inScratch d && inScratch a && same
    | .cpyXc .. => inScratch d && inScratch a && same
    | _ => inScratch d && !inScratch a && same
  let format := listed || (efOf d = efOf a && decide (lay = 2 → scfOf d = 1 ∧ blkOf d = 5 ∧ blockAxis d ≠ blockAxis a))
  let layout := lay = 0 || (lay != 3 && !listed && !inScratch a
    && (boxEnds s c a).all (fun x => x % 2 ^ 60 < 0x0FFFFFFFFFFF0000 && !outside s false c x)
    && decide (linesOf a * lineBytes a ≤ 2 ^ 18)
    && decide (lay = 2 → 1 ≤ efOf a ∧ efOf a ≤ 7 ∧ scfOf a = 1 ∧ blkOf a = 5 ∧ rowsOf a % 32 = 0 ∧ colsOf a % 32 = 0))
  let target := decide (c.target < 96) && (s.ctx s.cur.ctx).clset.getLsbD c.target && s.groups.any (fun g => g.launch = s.cur.launch
    && g.cluster = c.target && g.gran != 0 && !g.yielded && decide (g.off ≤ baseOf d ∧ baseOf d + spanBytes d ≤ g.off + 4096 * g.gran))
  [((copyTiles s c.instr c.hd c.ha c.hb).all fieldsRight, (0x0B, 1)),
    ((if xc then [a] else copyTiles s c.instr c.hd c.ha c.hb).all (spanInGroup s), (0x0B, 2))]
  ++ (match blk with
    | some f => [(false, f)]
    | none => [(fields, (0x0A, 4)), (shape, (0x0A, 2)), (format, (0x0A, 2)), (layout, (0x0A, 1))]
      ++ (if lay = 2 then scalesPlaced s d else []) ++ [(!xc || target, (0x0A, 6))])

/-- How the parameter block of a copy at address `a` is read (R184, R292, R302): `m` is `s` once it has been read, with its bits or the fault
of its read. -/
def BlockRead (s m : State) (a : Nat) (r : Except (Nat × Nat) (BitVec 512)) : Prop :=
  let place := s.engPlace (some s.via) s.cur.ctx a .read
  (a = 0 ∧ m = s ∧ r = .ok 0) ∨
  (a % 64 ≠ 0 ∧ m = s ∧ r = .error (0x0B, 5)) ∨
  (a ≠ 0 ∧ a % 64 = 0 ∧
    ((∃ f, place = .error f ∧ f.1 ≠ cWalk ∧ m = s ∧ r = .error f) ∨
    (∃ k l1, place = .ok (.mem k l1) ∧ s.unowned (keysFrom k 64) = true ∧
      ((s.poisoned (keysFrom k 64) = true ∧ m = s ∧ r = .error (0x0D, 1)) ∨
       (s.poisoned (keysFrom k 64) = false ∧ m = { s with homeUse := m.homeUse } ∧
        ∃ b : BitVec 512, r = .ok b ∧ b.toNat = littleEndian (s.bytesAs s.cur.ctx (keysFrom k 64))))) ∨
    (∃ pa, place = .ok (.sys pa) ∧ m = { s with cur := { s.cur with sys := none, sysGot := [], leaves := [], code := none } } ∧
      ((∃ v, find? pa s.cur.sysGot = some (.ok v) ∧ r = .ok v) ∨
       ((find? pa s.cur.sysGot = some .error ∨ (find? pa s.cur.sysGot = none ∧ s.cur.sys = none ∧ s.target s.cur.ctx pa = none)) ∧
        r = .error (0x0B, 8))))))

/-- The read of a parameter block must wait, and what the bundle does then: for a walk, for the owner of its line, or for the answer of a
target, which it asks for 64 bytes (R149, R184, R188, R302). -/
def BlockWaits (s t : State) (a : Nat) : Prop :=
  let place := s.engPlace (some s.via) s.cur.ctx a .read
  a ≠ 0 ∧ a % 64 = 0 ∧
    ((∃ f, place = .error f ∧ f.1 = cWalk ∧ AsksWalk s t a) ∨
    (∃ k l1, place = .ok (.mem k l1) ∧ s.unowned (keysFrom k 64) = false ∧ LosesTurn s t) ∨
    (∃ pa, place = .ok (.sys pa) ∧ find? pa s.cur.sysGot = none ∧ t = { s with
        cur := { s.cur with sys := t.cur.sys, leaves := (s.keep [a]).cur.leaves }
        hostOut := t.hostOut
        pkg := { s.pkg with replay := t.pkg.replay }
        disp := .wait } ∧
      ((s.cur.sys.isSome = true ∧ t.cur.sys = s.cur.sys ∧ t.hostOut = s.hostOut) ∨
       (s.cur.sys = none ∧ ∃ d, s.target s.cur.ctx pa = some d ∧ t.cur.sys = some ⟨pa, .read 64, s.portTo s.cur.ctx pa⟩ ∧
         t.hostOut = s.hostOut ++ [.sent d (.read 64)]))))

/-- Of the commands of a queue the one that goes on next, where one may (R182, R214, R221, R230): the first issued, or where that must wait the
first of those before it in the order of R182, which came back from the cellar behind it. -/
def GoesNext (ok : Cmd → Bool) (cs : List Cmd) : Option Cmd → Prop
  | some c => ∃ h, firstIssued cs = some h ∧
      ((ok h = true ∧ c = h) ∨ (ok h = false ∧ cs.find? (fun k => k.key182.before h.key182 && ok k) = some c))
  | none => ∀ h, firstIssued cs = some h → ok h = false ∧ ∀ k ∈ cs, k.key182.before h.key182 = true → ok k = false

/-- What a unit in progress has left to write lies in scratch (R268). -/
def LeftInScratch (c : Cmd) : Prop := ∀ cells, c.late = some cells → ∀ q ∈ cells, scrBase ≤ q.1 ∧ q.1 < capBase

/-- A range of offsets for each line of a rectangle of a scratch tile, its first and its last byte, and one for the block scales of the line or for
the tensor scale, where they are read (R28, R175). -/
def readRanges (t : Tile) (scaled : Bool) (r0 r1 c0 c1 : Nat) : List (Nat × Nat) :=
  let q := if axisOf t = 0 then (r0, r1, c0, c1) else (c0, c1, r0, r1)
  let o := fun (l : Nat) => baseOf t % 2 ^ 22 + l * pitchOf t
  if inScratch t = false then []
  else
    (List.range (q.2.1 - q.1)).flatMap (fun i =>
      let l := q.1 + i
      (o l + q.2.2.1 * bitsOf t / 8, o l + (q.2.2.2 * bitsOf t - 1) / 8) ::
        (if scaled = true ∧ scfOf t = 1 then [(scalePlace t l q.2.2.1, scalePlace t l (q.2.2.2 - 1))] else []))
    ++ (if scaled = true ∧ scfOf t = 2 then [(scalePlace t 0 0, scalePlace t 0 0 + 3)] else [])

/-- The ranges that the next unit of a tile command reads (R219, R222 to R228, R236). -/
def unitReads (s : State) (c : Cmd) : List (Nat × Nat) :=
  let t := tileOf (s.launch c.launch).fmt
  let d := t c.hd
  let a := t c.ha
  let b := t c.hb
  let k := c.prog
  let q := if axisOf d = 0 then (k, k + 1, 0, colsOf d) else (0, rowsOf d, k, k + 1)
  let wide := fun (t : Tile) (scaled : Bool) =>
    readRanges t scaled (if rowsOf t = 1 then 0 else q.1) (if rowsOf t = 1 then 1 else q.2.1) (if colsOf t = 1 then 0 else q.2.2.1)
      (if colsOf t = 1 then 1 else q.2.2.2)
  let old := readRanges d false q.1 q.2.1 q.2.2.1 q.2.2.2
  match c.instr with
  | .tred .. => if axisOf a = 0 then readRanges a true k (k + 1) 0 (colsOf a) else readRanges a true 0 (rowsOf a) k (k + 1)
  | .tselk .. => readRanges a false 0 (rowsOf a) k (k + 1)
  | .ttrn .. => readRanges a false q.2.2.1 q.2.2.2 q.1 q.2.1
  | .tfill .. => []
  | .tmsk .. => wide a false ++ wide b false ++ old
  | .tcpy .. => wide a false
  | .texp .. | .tlog .. | .trcp .. | .trsq .. | .tsig .. | .tcvt .. | .qst .. => wide a true
  | .tfma .. => wide a true ++ wide b true ++ old
  | _ => wide a true ++ wide b true

/-- The ranges that iteration j of a body command reads (R201). -/
def iterationReads (fmt : List (BitVec 128)) (b : Body) (j : Nat) : List (Nat × Nat) :=
  let whole := fun (h : Handle) =>
    let t := tileOf fmt ((stepHandle fmt h j).getD h)
    readRanges t true 0 (rowsOf t) 0 (colsOf t)
  (if b.mmz then [] else whole b.hd) ++ whole b.ha ++ whole b.hb

/-- `t` is `s` with the bits of some cells written in turn: to each bit of a byte the last one that names it (R258, R268). -/
def CellsWritten (s t : State) (cells : List (Nat × Byte × Byte)) : Prop :=
  ∀ k i, i < 8 → (t.raw k).getLsbD i =
    (((cells.filter (fun q => q.1 = k && q.2.1.getLsbD i)).getLast?.map (fun q => q.2.2.getLsbD i)).getD ((s.raw k).getLsbD i))

/-- Permits held on a die (R216). -/
def heldPermits (s : State) (die : Nat) : Nat := (s.clusters.filter (fun p => p.1 / 24 = die && p.2.permit)).length

/-- A cluster waits for a permit from a cycle on: it holds none, and that is the cycle in which the first of its commands not yet started
joined its queue, at its issue or from the cellar (R216). -/
def WaitsForPermit (s : State) (cl since : Nat) : Prop :=
  (s.cluster cl).permit = false ∧ ∃ k ∈ s.clusterMatrix cl, k.started = false ∧
    (∀ k' ∈ s.clusterMatrix cl, k'.started = false → k.since ≤ k'.since) ∧ since = k.since

/-- The first cycle from `since` on in which a free permit stands at a cluster of its die: it moves on by one of the 24 clusters a cycle
(R216). -/
def ComesAt (p : Permit) (cl since T : Nat) : Prop :=
  let here := fun (t : Nat) => p.cycle ≤ t ∧ since ≤ t ∧ (p.spot + (t - p.cycle)) % 24 = cl % 24
  here T ∧ ∀ U, here U → T ≤ U

/-- The key of the first byte of an element of a scratch tile of a cluster (R175). -/
def elementKey (cl : Nat) (t : Tile) (r c : Nat) : Nat :=
  let l := if axisOf t = 0 then r else c
  let p := if axisOf t = 0 then c else r
  2 ^ 52 + cl * 2 ^ 22 + (baseOf t + l * pitchOf t + p * bitsOf t / 8) % 2 ^ 22

/-- The code of an element of a scratch tile of a cluster, two to a byte where it has four bits (R26, R122, R175). -/
def codeIn (s : State) (cl : Nat) (t : Tile) (r c : Nat) : Nat :=
  let k := elementKey cl t r c
  let n := littleEndian ((List.range ((bitsOf t + 7) / 8)).map (fun i => s.raw (k + i)))
  let p := if axisOf t = 0 then c else r
  (if bitsOf t = 4 ∧ p % 2 = 1 then n / 16 else n) % 2 ^ efCode (efOf t)

/-- The scale code of an element of a scratch tile of a cluster (R28). -/
def scaleIn (s : State) (cl : Nat) (t : Tile) (r c : Nat) : Nat :=
  let l := if axisOf t = 0 then r else c
  let p := if axisOf t = 0 then c else r
  let n := if scfOf t = 1 then 1 else 4
  littleEndian ((List.range n).map (fun i => s.raw (2 ^ 52 + cl * 2 ^ 22 + scalePlace t l p % 2 ^ 22 + i)))

/-- A code under its scale code (R124, R125). -/
def scaledAs (t : Tile) (code scale : Nat) : Val :=
  if scfOf t = 1 then e8m0Value (efOf t) code scale else if scfOf t = 2 then tensorValue (efOf t) code scale else valueOf (efOf t) code

/-- The exact value of an element of a scratch tile of a cluster (R124, R125). -/
def valueIn (s : State) (cl : Nat) (t : Tile) (r c : Nat) : Val := scaledAs t (codeIn s cl t r c) (scaleIn s cl t r c)

/-- The shape of a matrix command's tiles (R198). -/
def matrixShaped (d a b : Tile) (K : Nat) : Prop :=
  inScratch d = true ∧ inScratch a = true ∧ inScratch b = true ∧ axisOf a = 0 ∧ axisOf b = 1 ∧ rowsOf a = 16 ∧ colsOf a = K ∧
    rowsOf b = K ∧ colsOf b = 16 ∧ rowsOf d = 16 ∧ colsOf d = 16

/-- W of R197 for the format of a pair. -/
def windowWidth (ef : Nat) : Nat := if ef ≤ 7 then 25 else if ef ≤ 9 then 34 else 50

/-- The units of work of a tile command, and the elements each writes: lines of HD, lines of HA and one element for TRED, columns of HA for
TSELK (R222, R227, R228, R230). -/
def tileWork (c : Cmd) (d a : Tile) : Nat × Nat :=
  match c.instr with
  | .tred .. => (linesOf a, 1)
  | .tselk .. => (colsOf a, rowsOf d)
  | _ => (linesOf d, lineElems d)

/-- Row of position p of line l of a tile (R175). -/
def rowAt (t : Tile) (l p : Nat) : Nat := if axisOf t = 0 then l else p
/-- Column of position p of line l. -/
def colAt (t : Tile) (l p : Nat) : Nat := if axisOf t = 0 then p else l

/-- A coordinate in a source of an extent: broadcast along an extent of 1 (R219). -/
def spread (n r : Nat) : Nat := if n = 1 then 0 else r

/-- A handle under the format table of a command's launch. -/
def commandTile (s : State) (c : Cmd) (h : Handle) : Tile := tileOf (s.launch c.launch).fmt h

/-- A copy command that is neither saved nor faulted has units left (R187). -/
def RunsCopy (s : State) (c : Cmd) : Prop :=
  c.engine = .copy ∧ c.saved = false ∧ c.dfault = none ∧ c.prog < c.units (s.launch c.launch).fmt

/-- The copy decrypts (R193). -/
def Decrypts (c : Cmd) : Prop := c.xs.toNat % 2 ^ 60 ≠ 0 ∧ c.pblk.getLsbD 210 = true

/-- Copy `cid` is about to carry out a unit, none of which is written (R182, R187, R188). -/
def UnitStarts (s : State) (cid : Nat) (c : Cmd) : Prop :=
  s.cmd? cid = some c ∧ RunsCopy s c ∧ s.copyClear c = true ∧ s.pagesHeld c true false = false ∧ s.unitGranted c c.prog = true ∧ c.late = none

/-- An access sent to a target writes a bit (R258). -/
def SendsBit (op : ExtOp) (n : Nat) (v : Bool) : Prop :=
  match op with
  | .write bs => (littleEndian bs).testBit n = v
  | .bits _ off len x => off ≤ n ∧ n < off + len ∧ x.testBit (n - off) = v
  | _ => False

/-- A unit of a copy meets a fault (R189, R190, R196): the fault is recorded with the unit's number, which is its list position in GATH and SCAT.
Any bytes of the destination not yet written may have been; no other space changes. -/
def UnitFaults (s t : State) (c : Cmd) (f : Nat × Nat) (n : Nat) : Prop :=
  CommandFaults s t c f (match c.instr with | .gath .. | .scat .. => n | _ => 0) n ∧ t.cur.x = s.cur.x ∧ t.cur.h = s.cur.h ∧
    t.disp = s.disp ∧
    (hScr c.hd = true → t.lineKey = s.lineKey ∧ ∀ k, k < 2 ^ 52 + c.target * 2 ^ 22 ∨ 2 ^ 52 + (c.target + 1) * 2 ^ 22 ≤ k → t.raw k = s.raw k) ∧
    (hScr c.hd = false → ∀ k, 2 ^ 52 ≤ k → t.raw k = s.raw k)

/-- A command of the tile queue of cluster `cl` is about to perform a unit, none of which is written and whose reads are good (R182, R222,
R292). -/
def RunsUnit (s : State) (cl : Nat) (c : Cmd) : Prop :=
  s.canonical ∧ cl < 96 ∧ GoesNext s.unitClear ((s.tileQueue cl).filter (fun c => c.started)) (some c) ∧ c.late = none ∧
    ∀ r ∈ unitReads s c, ¬ MeetsBad s cl r

/-- A tile lies whole in scratch, its lines apart (R175). -/
def Placed (t : Tile) : Prop := inScratch t = true ∧ fieldsRight t = true ∧ baseOf t + spanBytes t ≤ 2 ^ 22

/-- A scratch byte holds a scale of an element of a tile (R28). -/
def scaleByte (t : Tile) (o : Nat) : Prop :=
  ∃ l p i, l < linesOf t ∧ p < lineElems t ∧ ((scfOf t = 1 ∧ i = 0) ∨ (scfOf t = 2 ∧ i < 4)) ∧ o = scalePlace t l p % 2 ^ 22 + i

/-- A tile has blocks of 16 elements or more, whose scales lie in scratch apart from its elements (R25, R28). -/
def ScalesPlaced (t : Tile) : Prop :=
  4 ≤ blkOf t ∧ ∀ l p, l < linesOf t → p < lineElems t → scalePlace t l p < 2 ^ 22 ∧
    (scalePlace t l p < baseOf t ∨ baseOf t + spanBytes t ≤ scalePlace t l p)

/-- The elements of a destination `d` share no byte with those of a source, unless the two are one tile, nor with its scales (R220). -/
def ReadApart (d t : Tile) : Prop :=
  (shareByte d t = false ∨ oneTile d t = true) ∧ ∀ o, scaleByte t o → o < baseOf d ∨ baseOf d + spanBytes d ≤ o

/-- The scales that a command writes of a destination `d` share no byte with the elements or the scales of a source. -/
def ScalesApart (d t : Tile) : Prop := ∀ o, scaleByte d o → ¬ scaleByte t o ∧ (o < baseOf t ∨ baseOf t + spanBytes t ≤ o)

/-- The sources a tile command reads. -/
def sourcesOf (s : State) (c : Cmd) : List Tile :=
  ((tileArgs c.instr).ha.map (fun _ => commandTile s c c.ha)).toList ++ ((tileArgs c.instr).hb.map (fun _ => commandTile s c c.hb)).toList

/-- A unit of a command is done: it reports flags and the elements written, and leaves a bank (R222, R236). -/
def UnitLeaves (s t : State) (cl : Nat) (c : Cmd) (flags : BitVec 6) (bank : List (BitVec 32)) : Prop :=
  let units := tileWork c (commandTile s c c.hd) (commandTile s c c.ha)
  exec (.tileUnitComplete cl) s = .next t ∧
    (c.prog + 1 < units.1 → t.cmds = s.cmds.map (fun (k : Cmd) => if k.cid = c.cid then
      { c with prog := c.prog + 1, cnt := c.cnt + units.2, flags := c.flags ||| flags, bank := bank, late := none } else k)) ∧
    (units.1 ≤ c.prog + 1 → s.cur.status ≠ .idle → s.cur.launch = c.launch → s.cur.index = c.item → ∀ p i,
      s.cur.pend.findIdx? (fun q => q.op = .cmd c.cid && !q.landed) = some i → s.cur.pend[i]? = some p → 0 < p.reg → p.reg < 64 →
      ∀ r : XReg, r.toNat = p.reg → (t.rd r).toNat = (c.cnt + units.2) % 2 ^ 32 * 2 ^ 32 + (c.flags ||| flags).toNat)

/-- A unit of a command other than QST is done. -/
def ReportsUnit (s t : State) (cl : Nat) (c : Cmd) (flags : BitVec 6) : Prop := UnitLeaves s t cl c flags c.bank

/-- The rounding of element number e of a command: the mode that RM and the entry of HD resolve to, ns as rne and nss as sr, and the element's
random bits (R127, R130, R135). -/
def modeFor (s : State) (c : Cmd) (rm : Rm) (d : Tile) (e : Nat) : RMode :=
  match rmCodeOf rm d.entry with
  | 1 => .rtz
  | 2 | 4 => .sr (drawBits (s.launch c.launch).seed (BitVec.ofNat 64 c.item) c.c0 e)
  | _ => .rne

/-- The command works element by element on HD (R223 to R226). -/
def elementwise (i : Instr) (d : Tile) : Bool :=
  match i with
  | .tred .. | .tselk .. | .qst .. => false
  | .tcvt .. => scfOf d != 1
  | i => isTileCommand i

/-- The code and the flags that an element-wise command writes at (r, q): TCMP compares, TMSK, TFILL, TCPY and TTRN move codes, all others
round their operation's result once; none where that value is free (R223 to R226). -/
def elementResult (s : State) (cl : Nat) (c : Cmd) (r q : Nat) : Option (Nat × BitVec 5) :=
  let d := commandTile s c c.hd
  let a := commandTile s c c.ha
  let b := commandTile s c c.hb
  let code := fun (t : Tile) => codeIn s cl t (spread (rowsOf t) r) (spread (colsOf t) q)
  let value := fun (t : Tile) => valueIn s cl t (spread (rowsOf t) r) (spread (colsOf t) q)
  let move := fun (n : Nat) => some (n % 2 ^ efCode (efOf d), (0 : BitVec 5))
  match c.instr with
  | .tcmp _ test => move (if cmpTest test (value a) (value b) then 1 else 0)
  | .tmsk _ => move (if code b ≠ 0 then code a else codeIn s cl d r q)
  | .tfill .. => move c.xs.toNat
  | .tcpy .. => move (code a)
  | .ttrn .. => move (codeIn s cl a q r)
  | i =>
    let t := c.destScale d
    let old := scaledAs d (codeIn s cl d r q) (if scfOf d = 2 then c.tscale else scaleIn s cl d r q)
    let y := if (tileArgs i).hb.isSome then value b else value a
    (tileOp i (value a) y old t.1 t.2).map (fun v =>
      let out := roundElem (efOf d) (modeFor s c ((tileArgs i).rm.getD .rne) d (r * colsOf d + q)) v.1
      (out.1 % 2 ^ efCode (efOf d), v.2 ||| out.2))

/-- One value is below another, −0 below +0, neither being a NaN (R228). -/
def isBelow (x y : Val) : Prop :=
  (x = .inf true ∧ y ≠ .inf true) ∨ (y = .inf false ∧ x ≠ .inf false) ∨
    ∃ p q, ratOf x = some p ∧ ratOf y = some q ∧ (p < q ∨ (p = q ∧ x.sign = true ∧ y.sign = false))

/-- Row i with value x ranks before row j with value y: numbers before NaNs, the better value first, then the lower row (R228). -/
def RanksBefore (least : Bool) (x : Val) (i : Nat) (y : Val) (j : Nat) : Prop :=
  let better := fun (u v : Val) => if least then isBelow u v else isBelow v u
  (x.isNan = false ∧ y.isNan = true) ∨ (x.isNan = true ∧ y.isNan = true ∧ i < j) ∨
    (x.isNan = false ∧ y.isNan = false ∧ (better x y ∨ (¬ better y x ∧ i < j)))

/-- The float element formats of R119: M, bias, largest finite value, and whether it overflows to an infinity (R128). -/
def elementFloat : Nat → Option (Nat × Nat × ℚ × Bool)
  | 1 => some (1, 1, 6, false)
  | 2 => some (3, 1, 15 / 2, false)
  | 3 => some (2, 3, 28, false)
  | 4 => some (3, 7, 448, false)
  | 5 => some (2, 15, 57344, false)
  | 8 => some (10, 15, 65504, true)
  | 9 => some (7, 127, (2 - (2 : ℚ) ^ (-7 : Int)) * 2 ^ 127, true)
  | 10 => some (23, 127, (2 - (2 : ℚ) ^ (-23 : Int)) * 2 ^ 127, true)
  | _ => none

/-- The integer element formats of R121: their bits. -/
def elementInt : Nat → Option Nat
  | 6 => some 4
  | 7 => some 8
  | 11 => some 32
  | _ => none

/-- emax of R119. -/
def largestExponent : Nat → Int
  | 1 | 2 | 6 => 2
  | 3 => 4
  | 4 => 8
  | 5 | 8 => 15
  | 7 => 6
  | _ => 127

/-- A magnitude in units of the last place, rounded to an integer: to nearest even, toward zero, or by 24 random bits (R128, R130). -/
def roundedMag (m : RMode) (x : ℚ) : Nat :=
  let a := ⌊x⌋₊
  let f := x - a
  match m with
  | .rne => if f > 1 / 2 ∨ (f = 1 / 2 ∧ a % 2 = 1) then a + 1 else a
  | .rtz => a
  | .sr b => if 2 ^ 24 ≤ ⌊f * 2 ^ 24⌋₊ + b % 2 ^ 24 then a + 1 else a

/-- Only scratch bytes change. -/
def SameBelowScratch (s t : State) : Prop := t.lineKey = s.lineKey ∧ ∀ q, q < scrBase → t.raw q = s.raw q

/-- A value whose fraction has a positive denominator. -/
def properVal : Val → Prop
  | .num _ _ d => 0 < d
  | _ => True

/-- The exact result of a tile operation on finite operands (R223): HA, HB and the old HD; none where it is not an exact rational here. -/
def tileExact : Instr → Option (ℚ → ℚ → ℚ → ℚ)
  | .tadd .. => some fun a b _ => a + b
  | .tsub .. => some fun a b _ => a - b
  | .tmul .. => some fun a b _ => a * b
  | .tfma .. => some fun a b d => a * b + d
  | .tmax .. => some fun a b _ => max a b
  | .tmin .. => some fun a b _ => min a b
  | _ => none

/-- The window of R202: each product truncated toward zero to a multiple of 2^(e − w + 1), where 2^e ≤ the largest magnitude < 2^(e + 1). -/
def windowed (w : Nat) (e : Int) (ps : List ℚ) : ℚ :=
  (ps.map (fun p => ((if 0 ≤ p then ⌊p / (2 : ℚ) ^ (e - w + 1)⌋ else ⌈p / (2 : ℚ) ^ (e - w + 1)⌉ : Int) : ℚ) * (2 : ℚ) ^ (e - w + 1))).sum

/-! ## Contexts, launch records and descriptors (R16 to R38) -/

/-- `t` is `s` with context `v` become `c`, and nothing else changed. -/
def SetsContext (s t : State) (v : Nat) (c : Context) : Prop :=
  t = { s with ctxs := t.ctxs } ∧ (∀ w, t.ctx w = if w = v then c else s.ctx w) ∧ SameBytes s t

/-- The registers that answer to writes of a queue: 64 contexts, of which only PF0's in recovery (R299, R307). -/
def queueAnswers (s : State) (v : Nat) : Prop := v < 64 ∧ (s.pkg.recovery = false ∨ v = 0)

/-- `n` words at a byte key, as a context reads them (R5). -/
def wordsAt (s : State) (v k n : Nat) : List Word := (List.range n).map (fun i => BitVec.ofNat 64 (s.natAs v (k + 8 * i) 8))

/-- What stopping a queue leaves of the record at its head: a wait is given up, the copying of step 6 goes on (R32). -/
def stoppedHead : HeadState → HeadState
  | .copying ws got => .copying ws got
  | _ => .none

/-- Step 1 of R35 for a record that was read: reserved fields, DESC and STAT (R29, R30). -/
def recordOk (ws : List Word) : Prop :=
  let w := fun i => (ws.getD i 0).toNat
  w 1 / 2 ^ 9 = 0 ∧ w 1 / 2 ^ 6 % 4 = 0 ∧ w 1 / 2 ^ 3 % 2 = 0 ∧ w 3 < 2 ^ 63 ∧ w 5 < 2 ^ 63 ∧ w 0 < 2 ^ 60 ∧ w 0 % 256 = 0 ∧ w 7 % 8 = 0

/-- Step 2 of R35 for one event address. -/
def eventUsable (s : State) (v : Nat) (a : Word) : Prop :=
  a = 0 ∨ (a.toNat % 8 = 0 ∧ ∃ p, s.seqPlace v (a.toNat % 2 ^ 60) .atomic = some p)

/-- The record leaves the head of its queue (R35). -/
def popped (c : Context) (dev : Bool) : Context :=
  if dev then { c with devq := c.devq.drop 1, devSt := .none } else { c with head := (c.head + 1) % 2 ^ c.logn, hostSt := .none }

/-- The write of STATE, or with `signal` that of the signal event, falls into a line that a copy command owns: the sequencer waits (R188). -/
def reportWaits (s : State) (v : Nat) (ws : List Word) (signal : Bool) : Prop :=
  (ws.getD 7 0 ≠ 0 ∧ s.seqHeld v ((ws.getD 7 0).toNat % 2 ^ 60) .write = true) ∨
  (signal = true ∧ ws.getD 4 0 ≠ 0 ∧ s.seqHeld v ((ws.getD 4 0).toNat % 2 ^ 60) .atomic = true)

/-- A record is rejected: STATE 0x4 with its code, poison of its signal event but for code 0x15, and the queue advances (R35). -/
def Rejects (s t : State) (v : Nat) (dev : Bool) (ws : List Word) (code : Nat) : Prop :=
  (reportWaits s v ws (code != 0x15) → t = s) ∧
  (¬ reportWaits s v ws (code != 0x15) →
    let m := s.writeStatus v (ws.getD 7 0) 0 4 code
    let n := if code = 0x15 then m else (m.signalEvent v (ws.getD 4 0) (ws.getD 5 0) true).1
    t = { n with ctxs := t.ctxs } ∧ ∀ w, t.ctx w = if w = v then popped (s.ctx v) dev else s.ctx w)

/-- The seed stack, top first, after a seed operation that fits, and the job seed (R38). -/
def seedAfter (sop : Nat) (seed : Word) (st : List Word) : Option (List Word × Word) :=
  let top := st.headD 0
  if sop = 0 then some (st, top)
  else if sop = 1 then (if st.length < 16 then some (seed :: st, seed) else none)
  else if sop = 2 then (if 1 < st.length then some (st.tail, st.tail.headD 0) else none)
  else if st.length < 16 then
    let p := mix64 (top ^^^ (seed * 0x5E17C3A90B4DF261))
    some (p :: st, p)
  else none

/-- The sequencer reads `n` words at `a` in one access: `m` is `s` after it, with the words or none (R34 to R36, R301). From system space the
words are free values, and so is whether the target fails. -/
def SeqReads (s m : State) (v a n : Nat) (r : Option (List Word)) : Prop :=
  (s.seqPlace v a .read = none ∧ m = s ∧ r = none) ∨
  (∃ k l1, s.seqPlace v a .read = some (.mem k l1) ∧ m = s ∧ r = some (wordsAt s v k n)) ∨
  (∃ pa, s.seqPlace v a .read = some (.sys pa) ∧
    ((s.send v pa (.read (8 * n)) = none ∧ m = s ∧ r = none) ∨
     (∃ q, s.send v pa (.read (8 * n)) = some q ∧ m = { q with free := s.free + n + 1 } ∧
       r = if (Config.freeValue s.free).getLsbD 0 then none else some ((List.range n).map (fun i => Config.freeValue (s.free + 1 + i))))))

/-- The read of `n` words at `a` has been at the home of each of its bytes in memory in this cycle (R168). -/
def readAtHome (s : State) (v a n : Nat) : State := { s with homeUse := (s.seqNote v a n).homeUse }

/-- What the sequencer does with the record at the head of a queue from here on. -/
def withHead (c : Context) (dev : Bool) (h : HeadState) : Context := if dev then { c with devSt := h } else { c with hostSt := h }

/-- A record is accepted: its seed operation is applied, it takes the next launch number, and STATE 0x1 is written (R35 step 7). -/
def Accepts (s t : State) (v : Nat) (dev : Bool) (ws : List Word) (d : Desc) (fmt : List (BitVec 128)) (st : List Word) (seed : Word) : Prop :=
  ∃ m, SetsContext { s with
      launches := s.launches ++ [{
        num := s.pkg.nextNum
        ctx := v
        pri := (ws.getD 1 0).toNat % 8
        descAt := (ws.getD 0 0).toNat % 2 ^ 60
        desc := d
        fmt := fmt
        seed := seed
        stat := ws.getD 7 0
        seva := ws.getD 4 0
        sinc := ws.getD 5 0
        ssys := (ws.getD 1 0).getLsbD 8
        state := .accepted
        parts := []
        chunks := []
        nchunk := 0
        nretired := 0
        merged := false
        signed := false
        owed := [] }]
      pkg := { s.pkg with nextNum := s.pkg.nextNum + 1 } } m v { popped (s.ctx v) dev with seeds := st } ∧
    t = m.writeStatus v (ws.getD 7 0) s.pkg.nextNum 1 0

/-- Step 5 of R35; the copying of step 6 begins. -/
def Enters (s t : State) (v : Nat) (dev : Bool) (ws : List Word) : Prop :=
  let sop := (ws.getD 1 0).toNat / 2 ^ 4 % 4
  let after := seedAfter sop (ws.getD 6 0) (s.ctx v).seeds
  (after = none → Rejects s t v dev ws (if sop = 2 then 0x12 else 0x13)) ∧
  (after ≠ none → SetsContext s t v (withHead (s.ctx v) dev (.copying ws [])))

/-- The descriptor `dw` and the table have been copied: R23 checks them, and the record is rejected or accepted (R35 steps 6 and 7). A seed
operation that the other queue has made not fit meanwhile rejects it. -/
def Checks (s t : State) (v : Nat) (dev : Bool) (ws dw : List Word) (fmt : Option (List (BitVec 128))) : Prop :=
  let sop := (ws.getD 1 0).toNat / 2 ^ 4 % 4
  let after := seedAfter sop (ws.getD 6 0) (s.ctx v).seeds
  (∀ n, descFault (s.ctx v) dw fmt = some n → Rejects s t v dev ws n) ∧
  (descFault (s.ctx v) dw fmt = none → after = none → Rejects s t v dev ws (if sop = 2 then 0x12 else 0x13)) ∧
  (∀ st seed, descFault (s.ctx v) dw fmt = none → after = some (st, seed) →
    (reportWaits s v ws false → t = s) ∧
    (¬ reportWaits s v ws false → Accepts s t v dev ws (descOf dw) (fmt.getD []) st seed))

/-- Step 6 of R35 with `got` copied so far: the next 64-byte piece of the descriptor at DESC, then of the table at FMTP, is read in one access;
a copy that is whole is checked (R22). -/
def Copies (s t : State) (v : Nat) (dev : Bool) (ws got : List Word) : Prop :=
  let n := got.length
  let fmtp := (got.getD 5 0).toNat
  let noTable := n = 32 ∧ (fmtp / 2 ^ 60 ≠ 0 ∨ fmtp % 256 ≠ 0)
  let a := if n < 32 then (ws.getD 0 0).toNat % 2 ^ 60 + 8 * n else fmtp % 2 ^ 60 + 8 * (n - 32)
  (n = 64 → Checks s t v dev ws (got.take 32)
    (some ((List.range 16).map (fun i => got.getD (32 + 2 * i + 1) 0 ++ got.getD (32 + 2 * i) 0)))) ∧
  (noTable → Checks s t v dev ws got none) ∧
  (n ≠ 64 → ¬ noTable → s.seqHeld v a .read = true → t = s) ∧
  (∀ m r, n ≠ 64 → ¬ noTable → s.seqHeld v a .read = false → SeqReads s m v a 8 r →
    (∀ p, r = some p → SetsContext (readAtHome m v a 8) t v (withHead (m.ctx v) dev (.copying ws (got ++ p)))) ∧
    (r = none → n < 32 → Rejects m t v dev ws 1) ∧ (r = none → ¬ n < 32 → Checks m t v dev ws (got.take 32) none))

/-- Steps 3 to 5 of R35: the wait event is read; the record is rejected, goes on, or stays at the head (R36). -/
def Awaits (s t : State) (v : Nat) (dev : Bool) (ws : List Word) : Prop :=
  let weva := ws.getD 2 0
  let a := weva.toNat % 2 ^ 60
  let waits := fun (m : State) => SetsContext m t v (withHead (m.ctx v) dev (.waiting ws))
  (weva = 0 → Enters s t v dev ws) ∧
  (weva ≠ 0 → s.seqHeld v a .read = true → waits s) ∧
  (∀ m r, weva ≠ 0 → s.seqHeld v a .read = false → SeqReads s m v a 1 r →
    (r = none → Rejects m t v dev ws 0x11) ∧
    (∀ es, r = some es →
      let e := (es.getD 0 0).toNat
      (2 ^ 63 ≤ e → Rejects (readAtHome m v a 1) t v dev ws 0x14) ∧
      (e < 2 ^ 63 → (ws.getD 3 0).toNat % 2 ^ 63 ≤ e → Enters (readAtHome m v a 1) t v dev ws) ∧
      (e < (ws.getD 3 0).toNat % 2 ^ 63 → waits m)))

/-- A walk that step 2 of R35 takes for an event address of a record reads an entry in a line that a copy command owns (R188). -/
def eventWalkHeld (s : State) (v : Nat) (ws : List Word) : Prop :=
  ∃ i ∈ [2, 4], ws.getD i 0 ≠ 0 ∧ ¬ WalkFree s v ((ws.getD i 0).toNat % 2 ^ 60)

/-- A record at the head of a queue from step 1 on (R35); a walk of its events that R188 holds leaves it there. -/
def Handles (s t : State) (v : Nat) (dev : Bool) (ws : List Word) : Prop :=
  (¬ recordOk ws → SetsContext s t v (popped (s.ctx v) dev)) ∧
  (recordOk ws → eventWalkHeld s v ws → t = s) ∧
  (recordOk ws → ¬ eventWalkHeld s v ws →
    (¬ eventUsable s v (ws.getD 2 0) → Rejects s t v dev ws 0x11) ∧
    (eventUsable s v (ws.getD 2 0) → ¬ eventUsable s v (ws.getD 4 0) → Rejects s t v dev ws 0x15) ∧
    (eventUsable s v (ws.getD 2 0) → eventUsable s v (ws.getD 4 0) → Awaits s t v dev ws))

/-- The status word of a launch (R31): `t` holds it at the 8 bytes of key `k`, and every other byte of the context as before. -/
def HoldsStatus (s t : State) (v k seq st code : Nat) : Prop :=
  t = withMemory s t ∧ t.natAs v k 8 = seq % 2 ^ 32 * 2 ^ 32 + st * 2 ^ 8 + code ∧ ∀ q, q < k ∨ k + 8 ≤ q → t.byteAs v q = s.byteAs v q

/-! ## Code objects (R10 to R15) -/

/-- The header of R10. -/
def headerAccepted (o : CodeObject) : Prop :=
  o.eiClass = 2 ∧ o.eiData = 1 ∧ o.machine = 0x5A32 ∧ (o.etype = 1 ∨ o.etype = 3) ∧ o.flags % 256 ≤ Config.acv ∧ o.flags / 256 = 0

/-- A section of R11. -/
def sectionAccepted (c : Section) : Prop :=
  (c.name = ".text" → c.progbits = true ∧ c.alloc = true ∧ c.exec = true ∧ c.write = false ∧ c.align = 8 ∧ c.data.length % 8 = 0) ∧
  (c.name = ".const" → c.progbits = true ∧ c.alloc = true ∧ c.exec = false ∧ c.write = false ∧ 256 ≤ c.align) ∧
  (c.name = ".vintage" → c.progbits = true ∧ c.alloc = true ∧ c.exec = false ∧ c.write = true ∧ c.align = 16 ∧ c.data.length % 16 = 0
    ∧ c.data.length ≤ 2 ^ 20) ∧
  (c.name ≠ ".text" → c.name ≠ ".const" → c.name ≠ ".vintage" → c.alloc = false)

/-- Slot j of the vintage section of an object, as a number. -/
def slotOf (o : CodeObject) (j : Nat) : Nat := littleEndian (((sectionOf o ".vintage").drop (16 * j)).take 16)

/-- The 64 KiB pages of an object: of .text, of .const and of the base and delta copies of .vintage (R11, R14). -/
def objectPages (o : Loaded) : List Nat :=
  [(o.text, o.textLen), (o.const, o.constLen), (o.vbase, 16 * o.vcount), (o.vdelta, 16 * o.vcount)].flatMap (fun r =>
    (List.range (if r.2 = 0 then 0 else (r.1 + r.2 - 1) / 2 ^ 16 + 1 - r.1 / 2 ^ 16)).map (r.1 / 2 ^ 16 + ·))

/-- The physical address of the leaf entry of a virtual address, along the levels of a table, given as the levels' bits of the address (R146,
R147); none where the tables end before it. -/
def leafPlace (s : State) (va table : Nat) : List (Nat × Nat × Nat) → Option Nat
  | [] => none
  | [(_, lo, len)] => some (table + 8 * (va / 2 ^ lo % 2 ^ len))
  | (_, lo, len) :: ls =>
    let e := s.pte table (va / 2 ^ lo % 2 ^ len)
    if e % 2 = 0 ∨ e / 2 % 2 = 1 then none else leafPlace s va (pteAddr e) ls

/-- The leaf entries of pages of a context become 0, page by page, and every other byte stays (R15, R147). -/
def LeavesCleared (s t : State) (v : Nat) : List Nat → Prop
  | [] => t = s
  | p :: ps => ∃ m, m = { s with mem := m.mem, lineKey := m.lineKey, poison := m.poison, told := m.told } ∧
      (match leafPlace s (p * 2 ^ 16) (s.ctx v).rootAddr levels with
        | none => m = s
        | some a => BytesWritten s m v a (List.replicate 8 0)) ∧ LeavesCleared m t v ps

/-- The checks of R108: an unused slot is zero, bit 96 is 0, and word 2 of a branch slot is 0; a Z2_VSLOT16 relocation patches a bundle of
.text that is a long form of a site, with V = 1 and the kind of the slot it names. -/
def vintageAccepted (o : CodeObject) (p : Placement) : Prop :=
  (∀ j, j < (sectionOf o ".vintage").length / 16 →
    let n := slotOf o j
    (n / 2 ^ 126 % 4 = 0 → n = 0) ∧ n / 2 ^ 96 % 2 = 0 ∧ (n / 2 ^ 126 % 4 = 1 → n / 2 ^ 64 % 2 ^ 32 = 0)) ∧
  (∀ r ∈ o.relocs, r.type = 9 → ∃ c, o.sections[r.sec]? = some c ∧ c.name = ".text" ∧ r.off % 8 = 0 ∧ r.off + 8 ≤ c.data.length ∧
    let w := littleEndian ((c.data.drop r.off).take 8)
    let op := w / 2 ^ 25 % 64
    w / 2 ^ 31 % 2 = 1 ∧ (op = 4 ∨ op = 5 ∨ op = 8 ∨ op = 9 ∨ op = 0xC) ∧ (if op ≤ 5 then w / 2 ^ 35 % 2 = 1 else w / 2 ^ 47 % 2 = 1) ∧
    ∀ q, patchOf o p r = some q → slotOf o q.val.toNat / 2 ^ 126 % 4 = if op = 4 then 1 else if op = 5 then 3 else 2)

/-! ## Placement (R17, R18, R39 to R45) -/

/-- The L1 size, in units of 512 KiB, at which a cluster can serve a launch (R41, R138). -/
def splitServes (s : State) (c : Nat) (d : Desc) (n : Nat) : Prop :=
  let now := ((s.cluster c).split.getD (s.cluster c).l1size)
  let idle := (s.cluster c).split = none ∧ s.idleCluster c = true
  let fits := fun (m : Nat) => (d.spb + 4095) / 4096 * 4096 ≤ 2 ^ 22 - m * 2 ^ 19
  (d.l1s ≠ 0 → n = d.l1s ∧ (now = n ∨ idle)) ∧
  (d.l1s = 0 → (fits now ∧ n = now) ∨ (¬ fits now ∧ idle ∧ 1 ≤ n ∧ n ≤ 4 ∧ fits n ∧ ∀ m, n < m → m ≤ 4 → ¬ fits m))

/-- A cluster participates in a launch (R41). -/
def participates (s : State) (l : Launch) (c : Nat) : Prop :=
  c < 96 ∧ (s.ctx l.ctx).clset.getLsbD c = true ∧ (s.cluster c).retired = false ∧
    (l.desc.sm = 0 ∨ ∀ k, k < 8 → (s.core (8 * c + k)).four = decide (l.desc.sm = 2)) ∧ ∃ n, splitServes s c l.desc n

/-- The launches of a state with launch `n` replaced. -/
def launchBecomes (s : State) (n : Nat) (l : Launch) : List Launch := s.launches.map (fun k => if k.num = n then l else k)

/-- The harvest states of a state with that of launch `n` in cluster `c` replaced. -/
def harvestBecomes (s : State) (n c : Nat) (h : Harvest) : List Harvest :=
  s.harvest.map (fun k => if k.launch = n ∧ k.cluster = c then h else k)

/-- A saved strand of a launch must return to a cluster before a new item starts there: a free strand in its mode, which no launch before it in
the order of R39 wants, is at hand (R284). -/
def mustRestore (s : State) (l : Launch) (c : Nat) : Prop :=
  ∃ r ∈ s.savedOf l c, ∃ id, id / 64 = c ∧ s.usable l id = true ∧ (s.strand id).reserved = none ∧ (s.core (id / 8)).four = r.four ∧
    s.served l id = true

/-- The registers of R45 at the start of item `i` of a group, by number. -/
def startRegister (l : Launch) (i : Nat) (g : Group) (old : Word) (r : XReg) : Word :=
  match r.toNat with
  | 0 => 0
  | 1 => BitVec.ofNat 64 i
  | 2 => BitVec.ofNat 64 (i - g.g0)
  | 3 => l.desc.first
  | 4 => l.desc.count
  | 5 => if l.desc.spb = 0 then 0 else BitVec.ofNat 64 g.off
  | 6 => l.seed
  | 7 => BitVec.ofNat 64 g.size
  | _ => if l.desc.det then 0 else old

/-- A strand at the start of item `i` of launch `l` (R45, R93, R133, R232, R243, R275). -/
def StartsItem (t u : Strand) (l : Launch) (i : Nat) (g : Group) (tvec : Word) : Prop :=
  (∀ r, u.rd r = startRegister l i g (t.rd r) r) ∧ (∀ k : Fin 16, u.h[k] = if l.desc.det then 0 else t.h[k]) ∧
    u.pc = BitVec.ofNat 64 (l.desc.entry.toNat % 2 ^ 60) ∧ u.tvec = tvec &&& 0x0FFFFFFFFFFFFFF8 ∧ u.status = .running ∧ u.super = false ∧
    u.estat = 0 ∧ u.inUi = false ∧ u.fpc = 0 ∧ u.fcause = 0 ∧ u.cuvc = 0 ∧ u.lees = ⟨0, []⟩ ∧ u.pend = [] ∧ u.mbox = [] ∧ u.heldInts = [] ∧
    u.rep.armed = false ∧ u.vw = 0 ∧ u.vp = 0 ∧ u.leesPub = false ∧ u.leesRcv = false ∧ u.waitRef = [] ∧ u.leesGot = [] ∧ u.leesPart = false ∧
    u.code = none ∧ u.sys = none ∧ u.sysGot = [] ∧ u.rels = [] ∧ u.heard = [] ∧ u.before = [] ∧ u.justIn = [] ∧ u.gbar = 0 ∧ u.atBar = false ∧ u.reserved = none ∧
    u.index = i ∧ u.launch = l.num ∧ u.ctx = l.ctx ∧ u.g0 = g.g0 ∧ u.id = t.id ∧ u.sid = t.sid ∧ u.epc = t.epc ∧ u.faddr = t.faddr ∧ u.uid = t.uid

/-! ## Vintage slots and the end of launches (R49, R111 to R114) -/

/-- The words an update of a kind adds to (R106, R111): branch 2, load 3, loop 2. -/
def sumsOf (kind : Nat) : Nat := if kind = 2 then 3 else if kind = 0 then 0 else 2

/-- The words of a delta slot after an update (R112), given the base's words, its own, and the update's. -/
def slotUpdated (b d u w : Nat → Nat) (kind : Nat) : Prop :=
  let top := 2 ^ 32 - 1
  let saturated := (b 3).testBit 29 = true ∨ (d 3).testBit 29 = true
  let clips := (∃ i, i < sumsOf kind ∧ top < b i + d i + u i) ∨ (kind = 3 ∧ top < u 2)
  (saturated → ∀ i, i < 4 → w i = d i) ∧
  (¬ saturated → clips → w 0 = d 0 ∧ w 1 = d 1 ∧ w 2 = d 2 ∧ w 3 = d 3 + 2 ^ 29) ∧
  (¬ saturated → ¬ clips → (∀ i, i < sumsOf kind → w i = d i + u i) ∧ (kind = 1 → w 2 = d 2) ∧ (kind = 3 → w 2 = Nat.max (d 2) (u 2)) ∧ w 3 = d 3)

/-- The words of a base slot after a merge (R114). -/
def slotMerged (b d w : Nat → Nat) : Prop :=
  let kind := b 3 / 2 ^ 30 % 4
  let top := 2 ^ 32 - 1
  let saturated := (b 3).testBit 29 = true ∨ (d 3).testBit 29 = true ∨ ∃ i, i < sumsOf kind ∧ top < b i + d i
  (∀ i, i < sumsOf kind → w i = Nat.min (b i + d i) top) ∧ (kind = 3 → w 2 = Nat.max (b 2) (d 2)) ∧
  (∀ i, sumsOf kind ≤ i → i < 3 → ¬ (kind = 3 ∧ i = 2) → w i = b i) ∧
  ∀ i, (w 3).testBit i = ((b 3).testBit i || (decide (i = 29) && decide saturated))

/-- The four words at a byte key, as a context reads them. -/
def slotWords (s : State) (v k : Nat) : Nat → Nat := fun i => s.natAs v (k + 4 * i) 4

/-- `t` is `s` but for the 16 bytes at `k`, as context `v` reads them. -/
def OnlySlot (s t : State) (v : Nat) (ks : List Nat) : Prop :=
  t = withMemory s t ∧ ∀ q, (∀ k ∈ ks, q < k ∨ k + 16 ≤ q) → t.byteAs v q = s.byteAs v q

/-! ## Retirement and pre-emption (R47, R246, R250, R284, R295) -/

/-- The value that END publishes for entry j: the register where the item wrote it, else what the item before published, or VDEF at the
launch's first item; none while that has not arrived (R246). -/
def dueValue (s : State) (l : Launch) (j : Nat) : Option Word :=
  if s.cur.vw.getLsbD j then some (s.rd (BitVec.ofNat 6 (l.desc.vreg j)))
  else if s.cur.index < l.desc.first.toNat + 1 then some (l.desc.vdefOf j)
  else (s.pubs.find? (fun p => p.launch = l.num && p.item + 1 = s.cur.index && p.entry = j
    && ((p.cluster = s.cur.id / 64 && p.here) || p.away = some (s.cur.id / 64)))).map (·.value)

/-- The lees publication that END makes: the bank where the item took part in the lees vine, else what it would receive; none while that has
not arrived (R250). -/
def dueBank (s : State) : Option (Option Lees) :=
  if s.cur.leesPart then some (some s.cur.lees)
  else match s.leesIn with
    | .waiting => none
    | .start => some none
    | .bank b => some (some b)

/-- No item of a launch with an index may still read: the index lies beyond the last, or its item has retired (R248). -/
def pastItem (s : State) (l : Launch) (i : Nat) : Prop :=
  l.desc.fin ≤ i ∨ ∃ k h, l.chunks.find? (fun k => k.n = l.desc.chunkOf i) = some k ∧ s.harvestOf? l.num k.cluster = some h ∧
    i < h.next ∧ i ∉ h.live

/-- `t` is `m` once the item in hand has retired: the publication it has not received goes, its strand is free, and the item counts in its group,
its chunk and its launch; loads into x0 that are still out send what their sites count, and the publications that no item may still read are
released (R73, R111, R248, R250, R295). What the item's acquires put before it comes before the end of the launch (R37, R263). -/
def Retires (m t : State) (l : Launch) : Prop :=
  let cl := m.cur.id / 64
  t = { m with
    cur := m.cur.drop
    disp := .left
    nextId := t.nextId
    free := t.free
    vupd := t.vupd
    pubs := t.pubs
    leesPubs := m.leesPubs.filter (fun p => !(decide (p.launch = m.cur.launch) && decide (p.item + 1 = m.cur.index)))
    groups := (m.groups.map (fun (g : Group) => if g.launch = m.cur.launch ∧ g.cluster = cl ∧ g.g0 = m.cur.g0 then
      { g with retired := g.retired + 1 } else g)).filter (fun g => decide (g.retired < g.size))
    harvest := t.harvest
    launches := t.launches } ∧
  (∃ owed, t.launches = launchBecomes m l.num { l with nretired := l.nretired + 1, owed := owed } ∧
    ∀ i, i ∈ owed ↔ Flying m i ∧ (i ∈ l.owed ∨ ∃ b ∈ m.cur.before, b.id = i)) ∧
  t.pubs.Sublist m.pubs ∧
  (∀ p ∈ m.pubs, p ∉ t.pubs ↔ p.launch = l.num ∧ ∀ k, k < 8 → pastItem t l (p.item + 1 + k)) ∧
  m.vupd <+: t.vupd ∧
  t.vupd.length = m.vupd.length + (m.cur.pend.filter (fun p => decide (p.reg = 0) && !p.landed && p.site.isSome)).length ∧
  (∀ h, m.harvestOf? m.cur.launch cl = some h → ∃ h', t.harvest = harvestBecomes m m.cur.launch cl h' ∧
    h' = { h with live := h.live.filter (fun i => i != m.cur.index), chunks := h'.chunks } ∧
    (∀ n, n ∈ h'.chunks ↔ n ∈ h.chunks ∧ (Nat.max h.next (l.desc.chunkLo n) < l.desc.chunkHi n ∨
      ∃ i ∈ h.live, i ≠ m.cur.index ∧ l.desc.chunkLo n ≤ i ∧ i < l.desc.chunkHi n)))

/-- A launch owns scratchpad in a cluster (R47). -/
def ownsScratch (s : State) (c : Nat) (k : Launch) : Prop := ∃ g ∈ s.groups, g.launch = k.num ∧ g.cluster = c ∧ g.gran ≠ 0 ∧ g.yielded = false

/-- A launch waits for scratchpad of a cluster that a launch of lower priority owns (R47 step 3). -/
def waitsForRoom (s : State) (l : Launch) (h : Harvest) (c : Nat) : Prop :=
  s.lacksRoom l h = true ∧ ∃ k ∈ s.launches, k.live = true ∧ k.pri < l.pri ∧ ownsScratch s c k

/-- A strand of a core in a mode serves what a launch waits for in a cluster: the saved strand that returns next, in its own mode, or an item,
in the mode that SM asks for (R47, R284). -/
def modeFits (s : State) (l : Launch) (c : Nat) (four : Bool) : Prop :=
  (∀ r, s.nextSaved l c = some r → four = r.four) ∧ (s.nextSaved l c = none → l.desc.sm = 0 ∨ four = decide (l.desc.sm = 2))

/-- The strand in a slot may leave its core (R75, R173, R282): its scalar results have landed, nothing it has begun outside must still end, and no
unit of its engines is being written. -/
def mayGo (s : State) (u : Strand) : Prop :=
  u.status ≠ .idle ∧ u.settled = true ∧ u.committed = false ∧ ∀ c ∈ s.cmds, c.strand = u.id → c.saved = false → c.late = none

/-- A strand as its record keeps it: its waits are given up, and the bundle in hand is issued again; a yield keeps where the strand stands at
its barrier (R256, R282, R285). -/
def parked (u : Strand) (yields : Bool) : Strand :=
  { u with
    fence := none
    sys := none
    sysGot := []
    code := none
    leesGot := []
    leaves := []
    walkFault := none
    seen := none
    doing := none
    atBar := yields && u.atBar
    gbar := if u.atBar && !yields then u.gbar - 1 else u.gbar
    status := .running
    reserved := none
    chosen := false
    stall := 0
    justIn := []
    ibuf := none }

/-- The address of strand record n of a context (R287). -/
def savedAddr (s : State) (v n : Nat) : Nat := cellarBase s v + 0x18010000 + 0x8000 * n

/-- Strand `u` is saved whole, with its commands, in the lowest free record slot n of its context, and its slot is free (R282, R283, R286). -/
def SavesStrand (s t : State) (u : Strand) (n : Nat) (yields : Bool) : Prop :=
  let c := s.ctx u.ctx
  let four := (s.core (u.id / 8)).four
  let v := parked u yields
  let mine := fun (k : Cmd) => decide (k.strand = u.id) && !k.saved
  let bytes := strandBytes four v ++ cmdsBytes v (s.cmds.filter mine)
  n < c.nslot ∧ (∀ r ∈ c.saved, r.num ≠ n) ∧ (∀ j, j < n → ∃ r ∈ c.saved, r.num = j) ∧
  t = { s with
    cur := t.cur
    strands := t.strands
    nextSid := s.nextSid + 1
    clusters := t.clusters
    ctxs := t.ctxs
    mem := t.mem
    lineKey := t.lineKey
    poison := t.poison
    told := t.told
    cmds := s.cmds.map (fun (k : Cmd) => if mine k then { k with saved := true, early := [], walkFault := none } else k)
    owners := s.owners.filter (fun o => !(s.cmds.filter mine).any (fun k => k.cid = o.cid)) } ∧
  (∀ id, t.strand id = if id = u.id then { u.drop with sid := s.nextSid } else s.strand id) ∧
  (∀ w, t.ctx w = if w = u.ctx then { c with saved := c.saved ++ [⟨n, four, yields, v⟩] } else s.ctx w) ∧
  (∀ k, t.cluster k = { s.cluster k with idle := (t.cluster k).idle }) ∧
  (s.canonical → savedAddr s u.ctx n + bytes.length ≤ capBase → BytesWritten s t u.ctx (savedAddr s u.ctx n) bytes)

/-- Several strands are saved one after the other. -/
def SavedInTurn (s t : State) : List Strand → Prop
  | [] => t = s
  | u :: us => ∃ n m, SavesStrand s m u n true ∧ SavedInTurn m t us

/-- Runs of bytes are written one after the other under a context's KeyID, each with the marks of its bad words, and memory is otherwise as it
was (R292). -/
def WrittenInTurn (s t : State) (v : Nat) : List (Nat × List Byte × List Nat) → Prop
  | [] => t.mem = s.mem ∧ t.lineKey = s.lineKey ∧ t.poison = s.poison ∧ t.told = s.told
  | w :: ws => ∃ m, m = { s with mem := m.mem, lineKey := m.lineKey, poison := m.poison, told := m.told } ∧ BytesWritten s m v w.1 w.2.1 ∧
      WrittenInTurn { m with poison := w.2.2 ++ m.poison.filter (fun p => decide (p ∉ w.2.2)) } t v ws

/-- The bytes, the sequence tags and the bad words of a group's allocation (R285, R292). -/
def allocationImage (s : State) (g : Group) : Image where
  launch := g.launch
  off := g.off
  bytes := (List.range (g.gran * 4096)).map (fun i => s.raw (scrKey g.cluster (g.off + i)))
  tags := (List.range g.gran).map (fun j => (find? (g.off / 4096 + j) (s.cluster g.cluster).tags).getD 0)
  bad := (s.poison.filter (fun p => decide (scrKey g.cluster g.off ≤ p ∧ p < scrKey g.cluster g.off + g.gran * 4096))).map
    (· - scrKey g.cluster 0)

/-- Where the image of an allocation of cluster c stands in the cellar area (R287): its bytes at its scratch offset in the cluster's 4 MiB, its
tags at 0x380000, two bytes a granule; its bad words are bad there (R292). -/
def imageRuns (s : State) (v c : Nat) (i : Image) : List (Nat × List Byte × List Nat) :=
  [(cellarBase s v + 2 ^ 22 * c + i.off, i.bytes, []),
    (cellarBase s v + 2 ^ 22 * c + 0x380000 + 2 * (i.off / 4096), i.tags.flatMap (fun (g : BitVec 16) => [g.setWidth 8, (g >>> 8).setWidth 8]),
      i.bad.map (cellarBase s v + 2 ^ 22 * c + ·))]

/-- Every reserved byte of the header of a context's cellar area is zero (R8, R287); a byte that memory does not list is. -/
def headerClear (s : State) (v : Nat) : Prop :=
  ∀ m ∈ s.mem, cellarBase s v + 0x18000140 ≤ m.1 → m.1 < cellarBase s v + 0x18010000 → s.byteAs v m.1 = 0

/-- Every reserved bit of the header of a cellar area, of strand record n of the context and of the m command records in it is zero (R8, R287,
R288, R289): of the state word, the registers of R72, R93, R194, R275 and R276, the vine word, the eight pending entries, the saved cause and lees tag (R232,
R272, R274), and bytes 48 to 63 and 160 to 191 of a command record. -/
def reservedClear (s : State) (v n m : Nat) : Prop :=
  headerClear s v ∧
  let zero := fun (o lo len : Nat) => s.natAs v (savedAddr s v n + o) ((lo + len + 7) / 8) / 2 ^ lo % 2 ^ len = 0
  zero 0x18 7 57 ∧ zero 0x20 0 3 ∧ zero 0x20 60 4 ∧ zero 0x28 0 3 ∧ zero 0x28 60 4 ∧ zero 0x30 5 3 ∧ zero 0x30 13 51 ∧ zero 0x38 32 32 ∧
  zero 0x40 16 48 ∧ zero 0x48 26 38 ∧ zero 0x108 6 2 ∧ zero 0x108 17 15 ∧ zero 0x700 51 13 ∧
  (∀ i, i < 8 → zero (0x50 + 2 * i) 7 1 ∧ zero (0x50 + 2 * i) 12 3) ∧
  ∀ j, j < m → zero (0x1000 + 512 * j + 0x30) 0 128 ∧ zero (0x1000 + 512 * j + 0xA0) 0 256

/-- `t` is `q` with the fault record that came with strand `u` written to its new slot's record under the page rule of R274, where it can be
(R284, R301). -/
def RecordFollows (q t : State) (u : Strand) : Prop :=
  (u.record = [] ∨ q.recordPlace u = none → t = q) ∧
  (∀ pa, u.record ≠ [] → q.recordPlace u = some (.sys pa) → t = (q.send u.ctx pa (.write u.record)).getD q) ∧
  (∀ k l1, u.record ≠ [] → q.recordPlace u = some (.mem k l1) →
    t = withMemory q t ∧ (q.canonical → k + u.record.length ≤ capBase → BytesWritten q t u.ctx k u.record))

/-! ## Errors (R292, R293) -/

/-- A read of the 8-byte word at a place has begun and has not been made: a pending result, an atomic in flight, or one that waits for its place;
an error does not come between the issue of a bundle and its read (R75, R292). -/
def isBeingRead (s : State) (pa : Nat) : Prop :=
  (∃ u ∈ s.allStrands, (∃ p ∈ u.pend, p.unread = true ∧ ∃ q ∈ p.op.todo, q.1 / 8 = pa / 8) ∨ ∃ f, u.fence = some f ∧ f.amo = true ∧ f.old = none) ∨
    ∃ a ∈ s.stores, a.op.isRmw = true ∧ ∃ q ∈ a.keys, q / 8 = pa / 8

/-- The threshold of a unit (R313). -/
def limitOf (sethr : Word) : ErrUnit → Nat
  | .frame _ => Nat.max 1 (sethr.toNat % 2 ^ 16)
  | .l2bank _ => Nat.max 1 (sethr.toNat / 2 ^ 16 % 2 ^ 16)
  | .cluster _ => Nat.max 1 (sethr.toNat / 2 ^ 32 % 2 ^ 16)

/-- The errors of the last second, the one of now among them. -/
def lastSecond (now : Nat) (l : List Nat) : List Nat := (now :: l).filter (fun t => decide (now < t + 1000))

/-- A retirement event joins RETIRE, and raises the interrupt where none was held (R313, R314). -/
def Announces (p q : Pkg) (kind num : Nat) : Prop :=
  q.retireq = p.retireq ++ [⟨kind, num⟩] ∧ q.msix = p.msix + (if p.retireq = [] then 1 else 0)

/-! ## Accesses from outside (R298, R305) -/

/-- The value that an outside atomic writes, by the little-endian value it finds (R167, R298); reads and plain writes are none. -/
def outsideWrites (op : ExtOp) (old new : Nat) : Prop :=
  match op with
  | .fetchAdd v => new = (old + v.toNat) % 2 ^ 64
  | .swap v => new = v.toNat
  | .cas c n => new = if old = c.toNat then n.toNat else old
  | .amo aop size b c => ∃ o, [AmoOp.add, .and, .or, .xor, .min, .max, .minb, .maxb, .swp, .cas][aop]? = some o ∧
      atomicNew o (8 * size) old (b.toNat % 2 ^ (8 * size)) (c.toNat % 2 ^ (8 * size)) new
  | .bits _ off len v => ∀ i, new.testBit i = if off ≤ i ∧ i < off + len then v.testBit (i - off) else old.testBit i
  | .read _ | .write _ => False

/-- An outside operation that is supported at an address: an atomic is of 4 or 8 bytes and aligned. -/
def outsideFits (op : ExtOp) (va : Nat) : Prop :=
  match op with
  | .read _ | .write _ | .bits .. => True
  | .fetchAdd _ | .swap _ | .cas _ _ => va % 8 = 0
  | .amo aop size _ _ => aop < 10 ∧ (size = 4 ∨ size = 8) ∧ va % size = 0

/-- A read or a plain write, as against a read-modify-write. -/
def plainAccess : ExtOp → Bool
  | .read _ | .write _ => true
  | .fetchAdd _ | .swap _ | .cas _ _ | .amo .. | .bits .. => false

/-- Bytes of an outside access. -/
def outsideBytes : ExtOp → Nat
  | .read n => n
  | .write bs => bs.length
  | .amo _ size _ _ | .bits size _ _ _ => size
  | .fetchAdd _ | .swap _ | .cas _ _ => 8

/-- The page permission an outside access needs. -/
def outsideKind : ExtOp → Kind
  | .read _ => .read
  | .write _ | .bits .. => .write
  | .fetchAdd _ | .swap _ | .cas _ _ | .amo .. => .atomic

/-- What an outside operation answers: the old value for an atomic, nothing for a write of bits. -/
def outsideAnswer (op : ExtOp) (old : List Byte) : List HostOut :=
  match op with
  | .bits .. => []
  | _ => [.data old]

/-- An outside access is performed at its home under the key of its context, or has the answer of a failure (R171, R298, R301, R305, R308); one
to a target in system space goes on to it. It waits while a copy command owns a line that it, or a walk of its page, reaches (R188). -/
def Outside (s t : State) (v va : Nat) (op : ExtOp) (fail : HostOut) : Prop :=
  let n := outsideBytes op
  let place := fun i => s.seqPlace v (va + i) (outsideKind op)
  let opens := outsideFits op va ∧ (s.ctx v).hasKey = true
  let held := (∃ i, i ≤ n / 2 ^ 16 ∧ ¬ WalkFree s v (va + 2 ^ 16 * i)) ∨ ¬ WalkFree s v (va + (n - 1))
  let works := opens ∧ ¬ held
  (¬ opens → t = s.answer fail) ∧
  (opens → held → t = s) ∧
  (works → (∃ i, i < n ∧ place i = none) → t = s.answer fail) ∧
  (∀ i pa, works → (∀ j, j < n → ∃ pb, place j = some (.sys pb)) → i < n → place i = some (.sys pa) → s.target v pa = none → t = s.answer fail) ∧
  (∀ pa, works → 0 < n → pa % 64 + n ≤ 64 → (∀ i, i < n → place i = some (.sys (pa + i)) ∧ s.sysRoute v (pa + i) = true) →
    ∃ q, s.send v pa op = some q ∧
      ((∃ bs, op = .write bs ∧ t = q) ∨
       ((∀ bs, op ≠ .write bs) ∧ ∃ a, t = { q with free := s.free + (n + 7) / 8 + 1, hostOut := q.hostOut ++ a } ∧
        (a = [fail] ∨ ∃ bs : List Byte, bs.length = n ∧ a = outsideAnswer op bs)))) ∧
  (∀ keys : Nat → Nat, works → (∀ i, i < n → ∃ l1, place i = some (.mem (keys i) l1)) →
    let ks := (List.range n).map keys
    let reads := outsideKind op ≠ .write
    (s.unowned ks = false → t = s) ∧
    (s.unowned ks = true → s.poisoned ks = true → reads → t = s.answer fail) ∧
    (s.unowned ks = true → (s.poisoned ks = true → ¬ reads) →
      (∀ m, op = .read m → t = { s.answer (.data (s.bytesAs v ks)) with homeUse := t.homeUse }) ∧
      (s.canonical → ks.Nodup → (∀ k ∈ ks, k < capBase) →
        (∀ bs, op = .write bs → t = withMemory s t ∧ t.bytesAs v ks = bs ∧ ∀ q, q ∉ ks → t.byteAs v q = s.byteAs v q) ∧
        (plainAccess op = false →
          t = { withMemory s t with hostOut := s.hostOut ++ outsideAnswer op (s.bytesAs v ks) } ∧
          (∀ m off len x, op = .bits m off len x → off + len ≤ 8 * m →
            outsideWrites op (littleEndian (s.bytesAs v ks)) (littleEndian (t.bytesAs v ks))) ∧
          ((∀ m off len x, op ≠ .bits m off len x) → outsideWrites op (littleEndian (s.bytesAs v ks)) (littleEndian (t.bytesAs v ks))) ∧
          ∀ q, q ∉ ks → t.byteAs v q = s.byteAs v q))))

/-- `t` is `q`, what an access from a peer made of `s`, with the answers of the access in the replay buffer of the port it came by, which holds the
last 64 things sent (R303). -/
def AnsweredBy (s q t : State) (port : Nat) : Prop :=
  let answers := (q.hostOut.drop s.hostOut.length).filter (fun o => match o with
    | .sent .. | .signal .. | .resent .. => false
    | _ => true)
  let held := (find? port q.pkg.replay).getD [] ++ answers
  t = { q with pkg := { q.pkg with replay := t.pkg.replay } } ∧ find? port t.pkg.replay = some (held.drop (held.length - 64)) ∧
    ∀ i, i ≠ port → find? i t.pkg.replay = find? i q.pkg.replay

/-- The context after a write of a register of its page, with its clusters that have not retired (R299, R304); `p` says that the write came
through PF0's copy. IGN is set where an I register is written while the context is not idle. -/
def pageWritten (s : State) (c : Context) (idle p : Bool) (off : Nat) (x : Word) (d : Context) : Prop :=
  let field := fun (lo len : Nat) (w : Word) => w.toNat = x.toNat / 2 ^ lo % 2 ^ len * 2 ^ lo
  let taken := fun (prot : Bool) (f : Context → Prop) =>
    if prot = true ∧ p = false then d = c else if idle then f d else d = { c with ign := true }
  let live := fun (n : Nat) => decide (n < 96) && !(s.cluster n).retired
  match off with
  | 0x20 => taken true (fun d => d = { c with root := d.root } ∧ field 8 44 d.root)
  | 0x28 => taken false (fun d => d = { c with tvec := d.tvec } ∧ field 3 57 d.tvec)
  | 0x30 => taken false (fun d => d = { c with frbase := d.frbase } ∧ field 16 44 d.frbase)
  | 0x38 => taken true (fun d => d = { c with cellar := d.cellar } ∧ field 22 30 d.cellar)
  | 0x40 => taken true (fun d => d = { c with nslot := if 1 ≤ x.toNat % 2 ^ 15 ∧ x.toNat % 2 ^ 15 ≤ 16384 then x.toNat % 2 ^ 15 else c.nslot })
  | 0x48 => taken true (fun d => d = { c with clset := d.clset } ∧ ∀ n, n < 96 →
      d.clset.getLsbD n = if n < 64 then x.getLsbD n && live n else c.clset.getLsbD n)
  | 0x50 => taken true (fun d => d = { c with clset := d.clset } ∧ ∀ n, n < 96 →
      d.clset.getLsbD n = if n < 64 then c.clset.getLsbD n else x.getLsbD (n - 64) && live n)
  | 0x68 => d = { c with tlbErr := c.tlbErr && !x.getLsbD 1 }
  | 0x70 => d = { c with ign := c.ign && !x.getLsbD 9 }
  | _ =>
    if p = true ∧ 0x800 ≤ off ∧ off < 0xA00 ∧ off % 8 = 0 then
      d = { c with peers := d.peers } ∧ (∀ n, n ≠ (off - 0x800) / 8 → find? n d.peers = find? n c.peers) ∧
        ∃ e, find? ((off - 0x800) / 8) d.peers = some e ∧ ∀ i, e.getLsbD i =
          (x.getLsbD i && (decide (i < 16) || (decide (20 ≤ i) && decide (i < 26)) || (decide (32 ≤ i) && decide (i < 48)) || decide (i = 63)))
    else d = c

/-- Every launch of a context has ended: its merge, its signal and its status are done (R281, R309). -/
def ended (s : State) (v : Nat) : Prop := ∀ l ∈ s.launches, l.ctx = v → l.signed = true

/-- A context whose keys, objects and seeds are erased; its memory is still to be swept (R309). -/
def keyErased (c : Context) : Context :=
  { c with cstate := .destroying, hasKey := false, impKey := none, objects := [], seeds := [] }

/-- The port mask of a port number. -/
def portMask (p : Nat) : BitVec 16 := if p < 16 then 1 <<< p else 0

/-- `t` is `s` with the package registers become `p`. -/
def SetsPkg (s t : State) (p : Pkg) : Prop := t = { s with pkg := p } ∧ SameBytes s t

/-! ## Bundles, turns and steps (R50 to R54, R65 to R67, R73) -/

/-- The strand goes on to its next bundle (R51), and keeps nothing of the one in hand but its address and its bits; `handler` says that a
handler issued it. -/
def goesOn (r : State) (handler : Bool) : State :=
  { r with cur := { r.cur with
      pc := r.cur.npc
      sysGot := []
      code := none
      leesGot := []
      leaves := []
      walkFault := none
      last := some (r.cur.pc, r.bundle)
      actDone := if handler then r.cur.actDone else none } }

/-- The state in which the fetched bundle `w` is in hand. -/
def inHand (f : State) (w : Word) : State :=
  { f with bundle := w, inA := false, latch := none, refs := ⟨none, none, none⟩, cur := { f.cur with npc := after f.cur.pc, word := w } }

/-- The state in which the A-word of the bundle in hand runs on `m`: it reads the registers as they stood in `b` (R52). -/
def readsBefore (b m : State) : State := { m with inA := true, latch := some ⟨b.cur.x, b.cur.fpc, b.cur.pc⟩ }

/-- The state after an A-word. -/
def aDone (r : State) : State := { r with inA := false, latch := none }

/-- The turn of the strand of `u` comes (R66): its cycle, which its core has used, and nothing done yet. -/
def turnBegins (u : State) : State :=
  let m := { u with disp := .done }.pass (u.cur.id / 64 / 24) u.toTurn
  m.setCore (u.cur.id / 8) { u.core (u.cur.id / 8) with used := m.now + 1 }

/-- The strand has nothing to take before its bundle, and neither leaves its slot nor waits at a barrier (R253, R270, R282, R285). -/
def readyToIssue (m : State) : Prop :=
  m.cur.status = .running ∧ m.cur.faulting = none ∧ m.cur.stall = 0 ∧ m.cur.chosen = false ∧ m.readyFault = none ∧ m.readyInterrupt = none ∧
    m.cur.relAt = none ∧ m.cur.atBar = false ∧ m.cur.actDone ≠ some m.cur.pc ∧
    ∀ h ∈ m.harvest, h.launch = m.cur.launch → h.cluster = m.cur.id / 64 → h.yielding = false

/-- A word has stopped its bundle: the strand trapped, or left its item, or waits to trap. -/
def stopped (r : State) : Prop := r.disp = .trapped ∨ r.disp = .left ∨ (r.disp = .wait ∧ r.cur.faulting ≠ none)

/-- The C-words whose bundle has its A-word performed first (R54). -/
def leavesPlace : Instr → Bool
  | .trap _ | .eret | .halt => true
  | _ => false

/-! ## The checks of a descriptor and its format table (R16 to R27) -/

/-- VREG j (R20). -/
def vineRegister (vine : Word) (j : Nat) : Nat := vine.toNat / 2 ^ (5 * j) % 2 ^ 5

/-- An entry of a format table is valid (R25, R27). -/
def entryValid (i : Nat) (e : BitVec 128) : Prop :=
  let ef := e.toNat % 2 ^ 4
  let scf := e.toNat / 2 ^ 7 % 4
  let blk := e.toNat / 2 ^ 9 % 8
  let rnd := e.toNat / 2 ^ 13 % 8
  let narrow := 1 ≤ ef ∧ ef ≤ 7
  ef < 0xC ∧ scf ≠ 3 ∧ (ef = 0 → e = 0) ∧ (i = 0 → e = 0) ∧ (scf = 1 → narrow ∧ 4 ≤ blk ∧ blk ≤ 6) ∧ (scf ≠ 1 → blk = 0) ∧ (scf = 2 → narrow) ∧
    (scf = 0 → e.toNat / 2 ^ 80 = 0) ∧ rnd ≤ 4 ∧ (rnd = 3 ∨ rnd = 4 → narrow) ∧ e.toNat / 2 ^ 16 % 2 ^ 64 = 0 ∧ e.toNat / 2 ^ 4 % 8 = 0

/-- The check of R23 with a code from 0x02 on, of a descriptor's words and the table, where that could be read, in a context. -/
def descriptorCheck (c : Context) (ws : List Word) (fmt : Option (List (BitVec 128))) (code : Nat) : Prop :=
  let word := fun (i : Nat) => ws.getD i 0
  let w := fun (i : Nat) => (word i).toNat
  let vcnt := w 6 / 2 ^ 40 % 2 ^ 4
  let l1s := w 4 / 2 ^ 39 % 2 ^ 3
  let sm := w 4 / 2 ^ 42 % 2 ^ 2
  let glv := w 3 / 2 ^ 45 % 2 ^ 3
  let last := w 1 + w 2 - 1
  match code with
  | 0x02 => w 18 / 2 ^ 16 % 2 ^ 16 = 0x4B44 ∧ w 18 / 2 ^ 8 % 2 ^ 8 = 1
  | 0x03 => w 18 % 2 ^ 8 ≤ Config.acv
  | 0x04 => w 3 / 2 ^ 48 = 0 ∧ w 3 / 2 ^ 42 % 2 ^ 3 = 0 ∧ w 4 / 2 ^ 56 = 0 ∧ w 4 / 2 ^ 22 % 2 ^ 17 = 0 ∧ w 6 / 2 ^ 44 = 0 ∧ w 18 / 2 ^ 32 = 0 ∧
      (∀ j, j < 8 → vcnt ≤ j → vineRegister (word 6) j = 0 ∧ w (10 + j) = 0) ∧ ∀ i, 19 ≤ i → i < ws.length → w i = 0
  | 0x05 => w 0 < 2 ^ 60 ∧ w 0 % 8 = 0 ∧ c.inText (w 0) = true
  | 0x06 => (∀ k, k < 6 → fieldWidth (word 3) k ≤ 64) ∧ widthsBelow (word 3) 6 ≤ 64
  | 0x07 => w 2 = 0 ∨ (last ≤ 2 ^ 64 - 1 ∧ (widthsBelow (word 3) 6 < 64 → last < 2 ^ widthsBelow (word 3) 6))
  | 0x08 => glv ≠ 6
  | 0x09 => (word 4).getLsbD 45 = false ∨ sm = 3 ∨
      2 ^ (if glv ≤ 5 then widthsBelow (word 3) (glv + 1) else 0) ≤ (if sm = 1 then 64 else 32)
  | 0x0A => vcnt ≤ 8 ∧ (∀ j, j < vcnt → 8 ≤ vineRegister (word 6) j ∧ vineRegister (word 6) j ≤ 31) ∧
      ∀ i j, i < j → j < vcnt → vineRegister (word 6) i ≠ vineRegister (word 6) j
  | 0x0B => (word 4).getLsbD 49 = false ∧ ((word 4).getLsbD 47 = true → (word 4).getLsbD 48 = true)
  | 0x0C => sm ≠ 3 ∧ l1s ≤ 4
  | 0x0D => (w 4 % 2 ^ 22 + 4095) / 4096 * 4096 + (if l1s = 0 then 1 else l1s) * 2 ^ 19 ≤ 2 ^ 22
  | 0x0E => ∃ t, fmt = some t ∧ ∀ i e, t[i]? = some e → entryValid i e
  | 0x0F => w 9 ≤ 65536 ∧ (w 9 = 0 → w 7 = 0 ∧ w 8 = 0) ∧ (w 9 ≠ 0 → w 7 % 64 = 0 ∧ w 8 % 64 = 0)
  | _ => True

end Sys2Proof.Claims

open Sys2Proof Sys2Proof.Machine Sys2Proof.Claims

/-- R79, R80, R89: every register–register A-word completes, writes the value of its table and nothing else. -/
def Obligations.RegisterFormsWriteTheirValue : Prop :=
  ∀ (i : Instr) (f : Form) (s : State), registerForm i = some f →
    ∃ t v, exec i s = .next t ∧ f.is (s.srcA f.a) (s.srcB f.b) v ∧ WritesX s t f.d v

/-- R82, R83, R84, R89: every immediate A-word of one source completes, writes the value of its table and nothing else. -/
def Sys2Proof.Claims.ImmediateFormsWriteTheirValue : Prop :=
  ∀ (i : Instr) (f : ImmForm) (s : State), immediateForm i = some f →
    ∃ t v, exec i s = .next t ∧ f.is (s.srcA f.a) v ∧ WritesX s t f.d v

/-- R81, R84, R85, R86: SEL, BINS, FLD, LIH and PCH complete, write the value their rule gives and nothing else; BINS keeps the bits
of D outside its field, which it reads without a back reference. -/
def Sys2Proof.Claims.SelectFieldAndConstantForms : Prop :=
  (∀ d a b c s, ∃ t, exec (.sel d a b c) s = .next t ∧ WritesX s t d (if s.srcA a = 0 then s.srcC c else s.srcB b)) ∧
  (∀ d a wm1 lsb s, ∃ t v, exec (.bins d a wm1 lsb) s = .next t ∧ WritesX s t d v ∧
    ∀ i, i < 64 → v.getLsbD i = if lsb.toNat ≤ i ∧ i ≤ lsb.toNat + wm1.toNat then (s.srcA a).getLsbD (i - lsb.toNat)
      else (s.src d).getLsbD i) ∧
  (∀ d a (k : BitVec 12) s, ∃ t v, exec (.fld d a k) s = .next t ∧ WritesX s t d v ∧
    v.toNat = (s.srcA a).toNat / 2 ^ widthsBelow s.curLaunch.desc.shape k.toNat % 2 ^ fieldWidth s.curLaunch.desc.shape k.toNat) ∧
  (∀ d imm s, ∃ t v, exec (.lih d imm) s = .next t ∧ WritesX s t d v ∧ v.toInt = imm.toInt * 4096) ∧
  (∀ d imm s, ∃ t v, exec (.pch d imm) s = .next t ∧ WritesX s t d v ∧
    (v.toNat : Int) = ((s.pcSeen.toNat : Int) + imm.toInt * 4096) % 2 ^ 60)

/-- R82 to R88: the immediate, select, field and constant forms of the A-word map. -/
def Obligations.ImmediateSelectAndFieldForms : Prop :=
  Sys2Proof.Claims.ImmediateFormsWriteTheirValue ∧ Sys2Proof.Claims.SelectFieldAndConstantForms

/-- R92, R94, R95, R97: on finite operands FADD, FSUB, FMUL and FFMA round the exact rational result once, to nearest even, an exact zero
having the sign of the rule; they write it with its exceptions, or trap. -/
def Sys2Proof.Claims.FloatArithmeticRoundsTheExactResult : Prop :=
  ∀ (i : Instr) (s : State) (f : ArithForm) (qs : List ℚ), arithForm s i = some f → f.ops.map ratOf = qs.map some →
    ∃ v, ratOf v = some (f.exact qs) ∧ (f.exact qs = 0 → v.sign = f.zero) ∧
      FloatEffect i s f.d (BitVec.ofNat 64 (f.t.fmt.roundNE v).1) (f.t.fmt.roundNE v).2
        ((∃ q ∈ qs, SubnormalIn f.t q) ∨ SubnormalIn f.t (f.exact qs))

/-- R92: what rounding to nearest even gives, for each type: a zero keeps its sign; from halfway beyond the largest finite value on, the
infinity with OF and NX; else a value that no other is nearer to, and at a tie the even code, with NX where it is inexact and UF where it
is inexact and, rounded without bound on the exponent, below the smallest normal. -/
def Sys2Proof.Claims.RoundingIsToNearestEven : Prop :=
  ∀ (t : FTy) (v : Val) (q : ℚ), ratOf v = some q →
    let c := (t.fmt.roundNE v).1
    let e := (t.fmt.roundNE v).2
    let m : ℤ := (widths t).2
    let bias : ℤ := 2 ^ ((widths t).1 - 1) - 1
    let small : ℚ := (2 : ℚ) ^ (1 - bias)
    let big : ℚ := (2 - (2 : ℚ) ^ (-(m + 1))) * (2 : ℚ) ^ bias
    (q = 0 → c = (if v.sign then 2 ^ (floatBits t - 1) else 0) ∧ e = 0) ∧
    (big ≤ |q| → BitVec.ofNat 64 c = infinityWord t v.sign ∧ e = 5) ∧
    (|q| < big → ∃ r, c < 2 ^ floatBits t ∧ ratOf (t.fmt.decode c) = some r ∧ (t.fmt.decode c).sign = v.sign ∧
      (∀ c' r', c' < 2 ^ floatBits t → ratOf (t.fmt.decode c') = some r' →
        |r - q| ≤ |r' - q| ∧ (|r - q| = |r' - q| → r' ≠ r → c % 2 = 0)) ∧
      e = (if r = q then 0 else if |q| < small * (1 - (2 : ℚ) ^ (-(m + 2))) then 3 else 1))

/-- R92, R94, R95, R97: FADD, FSUB, FMUL and FFMA give the canonical NaN for a NaN operand, raising NV for a signalling one, and for an
invalid operation, raising NV (FFMA for 0 × ∞ whatever its addend); any other infinite operand gives an infinity and raises nothing. -/
def Sys2Proof.Claims.FloatNanAndInfiniteOperands : Prop :=
  (∀ (i : Instr) (s : State) (f : ArithForm), arithForm s i = some f → f.ops.any Val.isNan = true → ¬ invalidOps s i →
    FloatEffect i s f.d (canonicalNan f.t) (signalling f.ops) (∃ v ∈ f.ops, SubnormalVal f.t v)) ∧
  (∀ (i : Instr) (s : State) (f : ArithForm), arithForm s i = some f → invalidOps s i →
    FloatEffect i s f.d (canonicalNan f.t) 16 (∃ v ∈ f.ops, SubnormalVal f.t v)) ∧
  (∀ (i : Instr) (s : State) (f : ArithForm), arithForm s i = some f → f.ops.any Val.isNan = false → f.ops.any Val.isInf = true →
    ¬ invalidOps s i → FloatEffect i s f.d (infinityWord f.t (infiniteSign s i)) 0 (∃ v ∈ f.ops, SubnormalVal f.t v))

/-- R92, R95, R97: the one rounding of the scalar instructions, and FADD, FSUB, FMUL and FFMA on finite operands, infinities and NaNs. -/
def Obligations.FloatArithmetic : Prop :=
  Sys2Proof.Claims.RoundingIsToNearestEven ∧
  Sys2Proof.Claims.FloatArithmeticRoundsTheExactResult ∧
  Sys2Proof.Claims.FloatNanAndInfiniteOperands

/-- R95: FMIN and FMAX give the smaller or larger operand with −0 below +0, the number beside a NaN, and the canonical NaN for two NaNs;
NV for a signalling NaN. -/
def Sys2Proof.Claims.FloatMinimumAndMaximum : Prop :=
  ∀ (t : FTy) (d a b : XReg) (s : State),
    let x := t.val (s.srcA a)
    let y := t.val (s.srcB b)
    let pick := fun (first : Bool) => if x.isNan && y.isNan then canonicalNan t
      else if x.isNan then lowBits t (s.srcB b) else if y.isNan then lowBits t (s.srcA a)
      else if first then lowBits t (s.srcA a) else lowBits t (s.srcB b)
    let sub := SubnormalVal t x ∨ SubnormalVal t y
    FloatEffect (.fmin t d a b) s d (pick (Val.below x y)) (signalling [x, y]) sub ∧
    FloatEffect (.fmax t d a b) s d (pick (!Val.below x y)) (signalling [x, y]) sub ∧
    (∀ p q, ratOf x = some p → ratOf y = some q → (Val.below x y = true ↔ p < q ∨ (p = q ∧ x.sign = true ∧ y.sign = false)))

/-- R95: FABS clears and FNEG inverts the sign bit, whatever the operand, and raise nothing. -/
def Sys2Proof.Claims.FloatSignOperations : Prop :=
  ∀ (t : FTy) (d a : XReg) (s : State),
    (∃ v, FloatEffect (.fabs t d a) s d v 0 (SubnormalVal t (t.val (s.srcA a))) ∧
      ∀ i, i < 64 → v.getLsbD i = (decide (i + 1 < floatBits t) && (s.srcA a).getLsbD i)) ∧
    (∃ v, FloatEffect (.fneg t d a) s d v 0 (SubnormalVal t (t.val (s.srcA a))) ∧
      ∀ i, i < 64 → v.getLsbD i = (decide (i < floatBits t) && ((s.srcA a).getLsbD i ^^ decide (i + 1 = floatBits t))))

/-- R95: FLT, FLE and FEQ write 1 where the order holds of two numbers and 0 otherwise, a NaN giving 0; the ordered tests raise NV for any
NaN, FEQ for a signalling one. -/
def Sys2Proof.Claims.FloatComparisons : Prop :=
  (∀ (i : Instr) (s : State) t d x y test ordered, compareForm s i = some (t, d, x, y, test, ordered) →
    FloatEffect i s d (if !(x.isNan || y.isNan) && test (Val.cmp x y) then 1 else 0)
      (if ordered then (if x.isNan || y.isNan then 16 else 0) else signalling [x, y]) (SubnormalVal t x ∨ SubnormalVal t y)) ∧
  (∀ (s : State) (t : FTy) (a b : XReg) p q, ratOf (t.val (s.srcA a)) = some p → ratOf (t.val (s.srcB b)) = some q →
    (Val.cmp (t.val (s.srcA a)) (t.val (s.srcB b)) < 0 ↔ p < q) ∧ (Val.cmp (t.val (s.srcA a)) (t.val (s.srcB b)) = 0 ↔ p = q))

/-- R96: FCLASS writes exactly the bit of its operand's class and raises nothing. -/
def Sys2Proof.Claims.FloatClassBit : Prop :=
  ∀ (t : FTy) (d a : XReg) (s : State),
    FloatEffect (.fclass t d a) s d (BitVec.ofNat 64 (2 ^ classBit (widths t).1 (widths t).2 (s.srcA a).toNat)) 0
      (SubnormalVal t (t.val (s.srcA a)))

/-- R92, R95, R96: minimum and maximum, sign operations, comparisons and the class of a value. -/
def Obligations.FloatSelectionSignAndComparison : Prop :=
  Sys2Proof.Claims.FloatMinimumAndMaximum ∧
  Sys2Proof.Claims.FloatSignOperations ∧
  Sys2Proof.Claims.FloatComparisons ∧
  Sys2Proof.Claims.FloatClassBit

/-- R73, R74, R94, R98: FDIV rounds the exact quotient, divides a nonzero number by zero to an infinity with DZ, and gives the canonical
NaN with NV for 0/0 and ∞/∞. -/
def Sys2Proof.Claims.FloatDivision : Prop :=
  ∀ (t : FTy) (d a b : XReg) (la : La) (s : State),
    let x := t.val (s.srcA a)
    let y := t.val (s.srcB b)
    let out := LongFloatEffect (.fdiv t d a b la) s d la
    (∀ p q, ratOf x = some p → ratOf y = some q → q ≠ 0 → ∃ v, ratOf v = some (p / q) ∧ (p = 0 → v.sign = (x.sign != y.sign)) ∧
      out (BitVec.ofNat 64 (t.fmt.roundNE v).1) (t.fmt.roundNE v).2) ∧
    (∀ p, ratOf x = some p → p ≠ 0 → ratOf y = some 0 → out (infinityWord t (x.sign != y.sign)) 8) ∧
    (ratOf x = some 0 → ratOf y = some 0 → out (canonicalNan t) 16) ∧
    (x.isInf = true → y.isInf = true → out (canonicalNan t) 16) ∧
    (∀ q, x.isInf = true → ratOf y = some q → out (infinityWord t (x.sign != y.sign)) 0) ∧
    (∀ p, ratOf x = some p → y.isInf = true → out (if x.sign != y.sign then BitVec.ofNat 64 (2 ^ (floatBits t - 1)) else 0) 0) ∧
    (x.isNan = true ∨ y.isNan = true → out (canonicalNan t) (signalling [x, y]))

/-- R73, R74, R94, R98: FSQRT rounds the exact root of a positive number: a value that stands, beside every number of 64 significant bits,
where the root stands, so that it rounds as the root does and is the root where that is such a number; −0 for −0, +∞ for +∞, and the
canonical NaN with NV for a negative number. -/
def Sys2Proof.Claims.FloatSquareRoot : Prop :=
  ∀ (t : FTy) (d a : XReg) (la : La) (s : State),
    let x := t.val (s.srcA a)
    let out := LongFloatEffect (.fsqrt t d a la) s d la
    (∀ q, ratOf x = some q → 0 < q → ∃ v r, ratOf v = some r ∧ 0 < r ∧
      (∀ (m : ℕ) (i : ℤ), m < 2 ^ 64 → let g : ℚ := m * (2 : ℚ) ^ i
        ((g < r ↔ g * g < q) ∧ (r < g ↔ q < g * g))) ∧
      out (BitVec.ofNat 64 (t.fmt.roundNE v).1) (t.fmt.roundNE v).2) ∧
    (ratOf x = some 0 → out (if x.sign then BitVec.ofNat 64 (2 ^ (floatBits t - 1)) else 0) 0) ∧
    (∀ q, ratOf x = some q → q < 0 → out (canonicalNan t) 16) ∧
    (x = .inf true → out (canonicalNan t) 16) ∧
    (x = .inf false → out (infinityWord t false) 0) ∧
    (x.isNan = true → out (canonicalNan t) (signalling [x]))

/-- R73, R98: FDIV and FSQRT. Choices of the model in it: log 63. -/
def Obligations.FloatQuotientsAndRoots : Prop :=
  Sys2Proof.Claims.FloatDivision ∧ Sys2Proof.Claims.FloatSquareRoot

/-- R91, R92, R94, R99: FCVT rounds a float or an integer into a float type, a NaN giving the canonical NaN and an infinity itself, and truncates
a float into an integer type, saturating beyond its limits. -/
def Obligations.FloatConversions : Prop :=
  ∀ (dt st : Ty) (d a : XReg) (s : State),
    let x := s.srcA a
    let out := FloatEffect (.fcvt dt st d a) s d
    (∀ df sf, dt.flt = some df → st.flt = some sf →
      out (BitVec.ofNat 64 (df.fmt.roundNE (sf.val x)).1) ((df.fmt.roundNE (sf.val x)).2 ||| signalling [sf.val x])
        (SubnormalVal sf (sf.val x) ∨ SubnormalVal df (sf.val x))) ∧
    (∀ df sf, dt.flt = some df → st.flt = some sf → (sf.val x).isNan = true → out (canonicalNan df) (signalling [sf.val x]) False) ∧
    (∀ df sf n, dt.flt = some df → st.flt = some sf → sf.val x = .inf n → out (infinityWord df n) 0 False) ∧
    (∀ df, dt.flt = some df → st.flt = none → ∃ v, ratOf v = some ((integerIn st x : Int) : ℚ) ∧ (integerIn st x = 0 → v.sign = false) ∧
      out (BitVec.ofNat 64 (df.fmt.roundNE v).1) (df.fmt.roundNE v).2 False) ∧
    (∀ sf, dt.flt = none → st.flt = some sf →
      (sf.val x).isNan = true → out 0 16 False) ∧
    (∀ sf n, dt.flt = none → st.flt = some sf → sf.val x = .inf n →
      ∃ v, integerWord dt v (if n then (integerRange dt).1 else (integerRange dt).2.1) ∧ out v 16 False) ∧
    (∀ sf q, dt.flt = none → st.flt = some sf → ratOf (sf.val x) = some q →
      let z := towardZero q
      let w := max (integerRange dt).1 (min z (integerRange dt).2.1)
      ∃ v, integerWord dt v w ∧ out v (if z ≠ w then 16 else if (z : ℚ) = q then 0 else 1) (SubnormalVal sf (sf.val x)))

/-- R55, R100, R101: a no-operation changes nothing; JMP and CALL go to PC + off20 × 8, JR and CALLR to the address bits of a register,
CALL and CALLR writing PC + 8 to x31 after A is read; a misaligned register target takes the alignment fault at the jumping bundle. -/
def Obligations.JumpsAndCallsGoToTheirTargets : Prop :=
  (∀ s, ∃ t, exec .nop s = .next t ∧ t = s) ∧
  (∀ off s, ∃ t a, exec (.jmp off) s = .next t ∧ jumpTarget s.cur.pc off a ∧ GoesTo s t a) ∧
  (∀ off s, ∃ t a, exec (.call off) s = .next t ∧ jumpTarget s.cur.pc off a ∧ WritesAndGoes s t 31 (after s.cur.pc) a) ∧
  (∀ a s, (s.rd a).toNat % 8 = 0 → ∃ t, exec (.jr a) s = .next t ∧ GoesTo s t (BitVec.ofNat 64 ((s.rd a).toNat % 2 ^ 60))) ∧
  (∀ a s, (s.rd a).toNat % 8 = 0 → ∃ t, exec (.callr a) s = .next t ∧
    WritesAndGoes s t 31 (after s.cur.pc) (BitVec.ofNat 64 ((s.rd a).toNat % 2 ^ 60))) ∧
  (∀ a s, (s.rd a).toNat % 8 ≠ 0 →
    exec (.jr a) s = .next (s.raise (s.precise 6 0 (BitVec.ofNat 64 ((s.rd a).toNat % 2 ^ 60)))) ∧
    exec (.callr a) s = .next (s.raise (s.precise 6 0 (BitVec.ofNat 64 ((s.rd a).toNat % 2 ^ 60)))))

/-- R102, R111: a conditional branch that its launch permits completes: taken it goes to PC + off20 × 8, else to PC + 8; with a site it
queues one update of one execution, and nothing else changes. -/
def Sys2Proof.Claims.BranchesGoWhereTheirConditionSays : Prop :=
  ∀ (i : Instr) (s : State) (taken : Prop) (off : BitVec 20) (site : Option (BitVec 16)), branchForm s i = some (taken, off, site) →
    checkIn s.decEnv i = .ok i →
    ∃ t a, exec i s = .next t ∧ (taken → jumpTarget s.cur.pc off a) ∧ (¬ taken → a = after s.cur.pc) ∧ SameBytes s t ∧
      (site = none → t = { s with cur := { s.cur with npc := a } }) ∧
      (∀ j, site = some j → ∃ n, (taken → n = 1) ∧ (¬ taken → n = 0) ∧
        t = { s with
          cur := { s.cur with npc := a }
          nextId := s.nextId + 1
          vupd := s.vupd ++ [siteEntry s j.toNat 1 1 n 0] })

/-- R103, R111: LOOP that its launch permits adds 1 to its counter; below the bound it goes to its target, and else it goes on and queues
one entry of that many iterations. -/
def Sys2Proof.Claims.LoopCountsAndRecordsItsExit : Prop :=
  ∀ (a b : XReg) (off : BitVec 20) (slot : BitVec 16) (s : State), a ≠ 0 → checkIn s.decEnv (.loop a b off slot) = .ok (.loop a b off slot) →
    (((s.rd a).toNat + 1) % 2 ^ 64 < (s.rd b).toNat → ∃ t g, exec (.loop a b off slot) s = .next t ∧ jumpTarget s.cur.pc off g ∧
      WritesAndGoes s t a (s.rd a + 1) g) ∧
    ((s.rd b).toNat ≤ ((s.rd a).toNat + 1) % 2 ^ 64 → ∃ t m, exec (.loop a b off slot) s = .next t ∧
      WritesAndGoes s m a (s.rd a + 1) (after s.cur.pc) ∧
      t = { m with nextId := s.nextId + 1, vupd := s.vupd ++ [siteEntry s slot.toNat 3 1 (s.rd a + 1).toNat (s.rd a + 1).toNat] })

/-- R102, R103, R111: conditional branches, and LOOP. -/
def Obligations.BranchesAndLoops : Prop :=
  Sys2Proof.Claims.BranchesGoWhereTheirConditionSays ∧ Sys2Proof.Claims.LoopCountsAndRecordsItsExit

/-- R73, R74, R105, R113, R115, R292: VPICK and VREAD that the launch permits, of slots that can be read, leave one pending result that
reads base and delta slot after the strand's own earlier updates; a ninth pending result loses the turn. A slot of either copy that
cannot be read faults with the slot's address, one in system space with subcode 0x6, one with an uncorrectable error as a machine check; where
both do, the lower address comes first (R270). -/
def Sys2Proof.Claims.VintageReadsLeaveAPendingResult : Prop :=
  ∀ (i : Instr) (d : XReg) (la : La) (slot : BitVec 16) (w : Option Nat) (s : State), slotReadForm i = some (d, la, slot, w) →
    checkIn s.decEnv i = .ok i →
    let vb := slotAddr s.curLaunch.desc.vbase slot
    let vd := slotAddr s.curLaunch.desc.vdelta slot
    let base := s.strandPlace .glob vb 16 .read
    let delta := s.strandPlace .glob vd 16 .read
    (∀ e, unread base = some e → unread delta = none ∨ vb ≤ vd → exec i s = .next (failed s e (BitVec.ofNat 64 vb))) ∧
    (∀ e, unread delta = some e → unread base = none ∨ vd < vb → exec i s = .next (failed s e (BitVec.ofNat 64 vd))) ∧
    (∀ kb kd l1 l2, base = .ok (.mem kb l1) → delta = .ok (.mem kd l2) →
      let badB := s.poisoned (keysFrom kb 16) = true
      let badD := s.poisoned (keysFrom kd 16) = true
      (badB → ¬ badD ∨ vb ≤ vd → exec i s = .next (s.raise (s.precise 0x0D 1 (BitVec.ofNat 64 vb)))) ∧
      (badD → ¬ badB ∨ vd < vb → exec i s = .next (s.raise (s.precise 0x0D 1 (BitVec.ofNat 64 vd)))) ∧
      (¬ badB → ¬ badD →
        (s.pendFull d = true → ∃ t, exec i s = .next t ∧ LosesTurn s t) ∧
        (s.pendFull d = false → ∃ t, exec i s = .next t ∧
          AddsPending s t ⟨d.toNat, if d = 0 then 0 else la.toNat, s.cur.pc,
            .vintage kb kd slot.toNat w s.nextId, none, false, 0, false, none, s.now, s.nextId⟩ (vineBit s d))))

/-- R106, R107, R116: the class that VPICK gives for the four words of a slot. -/
def Sys2Proof.Claims.ClassOfASlot : Prop :=
  ∀ w0 w1 w2 w3 : Nat, w3 < 2 ^ 32 → slotClass [w0, w1, w2, w3] = classSpec w0 w1 w2 w3

/-- R105 to R107, R115, R116: VPICK and VREAD, and the class of a slot. Choices of the model in it: logs 12, 13, 54. -/
def Obligations.VintageReadsGiveClassesAndWords : Prop :=
  Sys2Proof.Claims.VintageReadsLeaveAPendingResult ∧ Sys2Proof.Claims.ClassOfASlot

/-- R73, R74, R75, R149, R156, R157, R158, R292: a load names the address of its base and offset; a misaligned one takes the alignment fault, one
whose place faults takes that fault, one of a word with an uncorrectable error the machine check, and otherwise it leaves one pending
result that reads the place, a ninth losing the turn. Where the word is bad at its home and good in the L1 that serves the load, the load reads
it at once, or loses its turn. Choices of the model in it: logs 13, 16, 19, 54, 59. -/
def Obligations.LoadsLeaveAPendingResult : Prop :=
  ∀ (i : Instr) (f : PlainForm) (s : State), loadForm i = some f → checkIn s.decEnv i = .ok i →
    (f.addr s % f.ty.size ≠ 0 → exec i s = .next (s.raise (s.precise 6 0 (faultAddr (s.rd f.a) (f.addr s))))) ∧
    (∀ e, f.addr s % f.ty.size = 0 → s.strandPlace f.sp (f.addr s) f.ty.size .read = .error e →
      exec i s = .next (failed s e (BitVec.ofNat 64 (f.addr s)))) ∧
    (∀ k l1, f.addr s % f.ty.size = 0 → s.strandPlace f.sp (f.addr s) f.ty.size .read = .ok (.mem k l1) →
      (ReadsBad s (bytesOf k f.ty.size l1) → exec i s = .next (s.raise (s.precise 13 1 (BitVec.ofNat 64 (f.addr s))))) ∧
      (¬ ReadsBad s (bytesOf k f.ty.size l1) → s.pendFull f.d = true → ∃ t, exec i s = .next t ∧ LosesTurn s t) ∧
      (¬ ReadsBad s (bytesOf k f.ty.size l1) → s.pendFull f.d = false →
        IssuesLoad i s (pendingResult s f.d f.la (.load k f.ty l1) f.site) (vineBit s f.d) (fun m v x => x = 0 ∧
          ∃ w, loadedAs f.ty (littleEndian (m.loadBytes m.cur s.nextId (bytesOf k f.ty.size l1))) w ∧ v = w.setWidth 256)))

/-- R159, R162, R163, R166, R168, R262, R298, R301, R302: a load, a store or an atomic of system space asks its target and goes on with the
answer, a load or an atomic with it as its pending value, an element's as its entry says; the atomics a target does not perform take the
protection fault of subcode 0x5. -/
def Sys2Proof.Claims.SystemSpaceAccesses : Prop :=
  (∀ (i : Instr) (f : PlainForm) (s : State) (pa : Nat), loadForm i = some f → checkIn s.decEnv i = .ok i → f.addr s % f.ty.size = 0 →
    s.strandPlace f.sp (f.addr s) f.ty.size .read = .ok (.sys pa) →
    (s.pendFull f.d = true → ∃ t, exec i s = .next t ∧ LosesTurn s t) ∧
    (s.pendFull f.d = false → AsksTarget i s s (f.addr s) [f.addr s] s.cur.code pa pa (.read f.ty.size) (fun v h =>
      ∃ w t, loadedAs f.ty (v.toNat % 2 ^ (8 * f.ty.size)) w ∧ exec i s = .next t ∧
        AddsPending (askOver h) t (pendingResult s f.d f.la (.value w) f.site) (vineBit s f.d)))) ∧
  (∀ (i : Instr) (f : PlainForm) (s : State) (pa : Nat), storeForm i = some f → f.addr s % f.ty.size = 0 →
    s.strandPlace f.sp (f.addr s) f.ty.size .write = .ok (.sys pa) →
    ∃ bs, bs.length = f.ty.size ∧ littleEndian bs = (s.rd f.d).toNat % 2 ^ (8 * f.ty.size) ∧
      AsksTarget i s s (f.addr s) [f.addr s] s.cur.code (pa + 2 ^ 60) pa (.write bs) (fun _ h => exec i s = .next (askOver h))) ∧
  (∀ (i : Instr) (op : AmoOp) (f : AmoForm) (c : XReg) (s : State) (pa : Nat), atomicForm i = some (op, f, c) → checkIn s.decEnv i = .ok i →
    let a := (s.rd f.a).toNat % 2 ^ 60
    let n := atomicSize f
    let loses := fun (m : State) => ∃ t, exec i s = .next t ∧ LosesTurn m t
    a % n = 0 → s.strandPlace f.space a n .atomic = .ok (.sys pa) →
    (¬ targetTakes op f pa → exec i s = .next (s.raise (s.precise 5 5 (BitVec.ofNat 64 a)))) ∧
    (targetTakes op f pa → s.pendFull f.d = true → loses s) ∧
    (targetTakes op f pa → s.pendFull f.d = false → f.scope ≠ .strand → s.acquireRelease false f.scope .globalSp true = none → loses s) ∧
    (∀ m, targetTakes op f pa → s.pendFull f.d = false → (f.scope = .strand → m = s) →
      (f.scope ≠ .strand → s.acquireRelease false f.scope .globalSp true = some m) →
      AsksTarget i s m a [a] m.cur.code (pa + 2 ^ 60) pa (.amo op.code n (s.rd f.b) (s.rd c)) (fun v h =>
        (f.scope ≠ .strand → (h.keep [a]).acquireRelease false f.scope .globalSp true = none → loses (h.keep [a])) ∧
        (∀ u, (f.scope = .strand → u = h) → (f.scope ≠ .strand → (h.keep [a]).acquireRelease false f.scope .globalSp true = some u) →
          ∃ t, exec i s = .next t ∧ AddsPending (askOver u) t
            (pendingResult s f.d f.la (.value (BitVec.ofNat 64 (v.toNat % 2 ^ (8 * n)))) none) (vineBit s f.d))))) ∧
  (∀ (i : Instr) (d a : XReg) (la : La) (ty : Ty) (off : Int) (site : Option (BitVec 16)) (s m : State) (e : ElemAt) (pa : Nat) (sp : List Place)
      (sk : List LoadByte), elementLoadForm i = some (d, a, la, ty, off, site) → checkIn s.decEnv i = .ok i → elementPlace s (s.rd a) (s.rd d) off e →
    elemAlign e = none → s.elemPlaces e .read = .ok ((List.range e.bytes).map (fun j => .sys (pa + j)), sp) → pa % 64 + e.bytes ≤ 64 →
    memBytes sp = some sk → ¬ (e.entry % 16 = 0 ∧ ty.flt.isSome = true) → s.pendFull d = false → s.fixBefore (sk.map (·.1)) = some m →
    let er : ElemRead := ⟨[], e.bitOff, e.nb, e.entry % 16, e.entry / 2 ^ 7 % 4, [], ty, none, none⟩
    EarlierLoadsFixed s m s.cur.pend.length (sk.map (·.1)) ∧
    AsksTarget i s m e.addr (upTo e.addr e.bytes ++ e.scale.toList) m.cur.code pa pa (.read e.bytes) (fun v h =>
      let kept := h.keep (upTo e.addr e.bytes ++ e.scale.toList)
      (ReadsBad h sk → Readable h s.nextId sk → exec i s = .next ((askOver h).raise (s.precise 13 1 (BitVec.ofNat 64 e.addr)))) ∧
      (¬ ReadsBad h sk → ¬ Readable h s.nextId sk → ∃ t, exec i s = .next t ∧ LosesTurn kept t) ∧
      (¬ ReadsBad h sk → Readable h s.nextId sk → ∃ u w x, HasRead h u s.nextId sk ∧
        elementLoaded er (leBytes e.bytes v.toNat) (h.loadBytes h.cur s.nextId sk) w x ∧
        (enabled s x ≠ 0 → exec i s = .next ((askOver u).raise { s.precise 12 0 0 with elem := x.setWidth 32 })) ∧
        (s.fpcSeen.extractLsb' 8 5 = 0 → ∃ t, exec i s = .next t ∧
          AddsPending (askOver u) t { pendingResult s d la (.float w) site with flags := x } (vineBit s d)) ∧
        (enabled s x = 0 → s.fpcSeen.extractLsb' 8 5 ≠ 0 → ∃ t, exec i s = .next t ∧ t.rd d = (if d = 0 then 0 else w) ∧
          (∀ r, r ≠ d → t.rd r = s.rd r) ∧ SameBytes s t ∧
          t = { askOver u with
            cur := { (askOver u).cur with
              x := t.cur.x
              vw := s.cur.vw ||| vineBit s d
              fpc := s.cur.fpc ||| x.setWidth 64
              pend := if d = 0 then u.cur.pend
                else u.cur.pend ++ [{ pendingResult s d la (.float w) site with flags := x, landed := true }] }
            nextId := s.nextId + (if site.isSome then 1 else 0)
            vupd := s.vupd ++ (site.map (fun j => siteEntry s j.toNat 2 1 1 0)).toList })))) ∧
  (∀ (i : Instr) (r a : XReg) (ty : Ty) (off : Int) (s : State) (e : ElemAt) (pa : Nat) (sp : List Place) (sk : List LoadByte),
    elementStoreForm i = some (r, a, ty, off) → elementPlace s (s.rd a) (s.rd r) off e → elemAlign e = none →
    s.elemPlaces e .write = .ok ((List.range e.bytes).map (fun j => .sys (pa + j)), sp) → pa % 64 + e.bytes ≤ 64 →
    (8 ≤ e.nb ∨ e.bytes = 1 ∨ (e.addr + 1) % 64 ≠ 0) → memBytes sp = some sk → s.disp = .done →
    s.cur.fence = none → s.cur.doing = none →
    let names := upTo e.addr e.bytes ++ e.scale.toList
    let write := fun (c : Nat) => if e.nb = 8 * e.bytes then ExtOp.write (leBytes e.bytes c) else .bits e.bytes e.bitOff e.nb c
    let draws := e.entry % 16 ≠ 0 ∧ (e.entry / 2 ^ 13 % 8 = 2 ∨ e.entry / 2 ^ 13 % 8 = 4)
    let writes := fun (m : State) (c : Nat) (x : Exc) =>
      AsksTarget i s m e.addr names (some (c, x)) (pa + 2 ^ 60) pa (write c) (fun _ h => exec i s = .next { askOver h with cur := { (askOver h).cur with
        fpc := s.cur.fpc ||| x.setWidth 64
        cuvc := if draws then s.cur.cuvc + 1 else s.cur.cuvc } })
    (∀ c x, s.cur.code = some (c, x) → writes s c x) ∧
    (∀ m, s.cur.code = none → s.cur.sys = none → s.cur.sysGot = [] → s.cur.leaves = [] → s.fixBefore (sk.map (·.1)) = some m →
      EarlierLoadsFixed s m s.cur.pend.length (sk.map (·.1)) ∧
      (¬ ReadsBad m sk → ¬ Readable m s.nextId sk → ∃ t, exec i s = .next t ∧ SameBytes s t ∧
        t = { m with cur := { m.cur with leaves := (s.keep names).cur.leaves }, disp := .wait }) ∧
      (ReadsBad m sk → Readable m s.nextId sk → exec i s = .next (m.raise (s.precise 13 1 (BitVec.ofNat 64 e.addr)))) ∧
      (¬ ReadsBad m sk → Readable m s.nextId sk → ∀ c x, elemCode e ty (s.rd r) (littleEndian (m.loadBytes m.cur s.nextId sk))
          (if draws then drawBits s.curLaunch.seed (BitVec.ofNat 64 s.cur.index) s.cur.cuvc 0 else 0) = .ok (c, x) →
        (enabled s x ≠ 0 → exec i s = .next (m.raise { s.precise 12 0 0 with elem := x.setWidth 32 })) ∧
        (enabled s x = 0 → ∃ u, HasRead m u s.nextId sk ∧ writes u c x))))

/-- R73, R93, R110, R111, R113, R115, R140, R158, R159, R162, R178: a pending result lands once what it waits for is there: a value known at
issue, an atomic's old value, the bytes of a load, of an element and its scale, or of a handle as the strand sees them after its earlier
loads of the same bytes, or the class or word of a vintage slot; its register, the accrued exceptions, the L1 and its site change, and no
byte of memory. One that must wait changes nothing. -/
def Sys2Proof.Claims.ResultsLand : Prop :=
  ∀ (s : State) (n : Nat) (miss : Bool) (p : Pend), s.cur.pend[n]? = some p → p.reg < 80 →
    let out := fun m v x => ∃ t, exec (.resultLand n miss) s = .next t ∧ Lands s m t n p v x miss
    let stays := exec (.resultLand n miss) s = .next s
    let behind := ∃ b d j w u i q b' d' w' u', p.op = .vintage b d j w u ∧ i < n ∧ s.cur.pend[i]? = some q ∧ q.landed = false ∧
      q.op = .vintage b' d' j w' u'
    (p.landed = true ∨ behind → stays) ∧
    (∀ v, p.landed = false → ¬ behind → p.got = some v → out s v p.flags) ∧
    (∀ v, p.landed = false → p.got = none → p.op = .value v ∨ p.op = .float v → out s (v.setWidth 256) p.flags) ∧
    (∀ q, p.landed = false → p.got = none → p.op = .amo q ∨ p.op = .cmd q → stays) ∧
    (p.landed = false → p.got = none → p.op.reads ≠ [] → s.fixFirst n p.op.ordered = none → stays) ∧
    (∀ m, p.landed = false → ¬ behind → p.got = none → p.op.reads ≠ [] → s.fixFirst n p.op.ordered = some m →
      EarlierLoadsFixed s m n p.op.ordered ∧ (¬ Readable m p.seq (readsAsLoad p) → stays) ∧
      (Readable m p.seq (readsAsLoad p) →
        (∀ k ty l1, p.op = .load k ty l1 → ∃ v, loadedAs ty (littleEndian (m.loadBytes m.cur p.seq (bytesOf k ty.size l1))) v ∧
          out m (v.setWidth 256) 0) ∧
        (∀ k, p.op = .handle k → out m (BitVec.ofNat 256 (littleEndian (m.loadBytes m.cur p.seq (bytesOf k 32 false)))) 0) ∧
        (∀ e, p.op = .elem e →
          ∃ v x, elementLoaded e (e.gotData.getD (m.loadBytes m.cur p.seq e.data)) (e.gotScale.getD (m.loadBytes m.cur p.seq e.scale)) v x ∧
            out m (v.setWidth 256) x) ∧
        (∀ b d j w u, p.op = .vintage b d j w u →
          let ks := keysFrom b 16 ++ keysFrom d 16
          let waits := (∃ k ∈ ks, k < 2 ^ 51 ∧ s.owned (k / 64 * 64) = true) ∨
            ∃ y ∈ s.vupd, y.strand = s.cur.sid ∧ y.id < u ∧ ∃ k key ws, s.slotAt y.ctx (y.vdelta + 16 * y.slot) .write = some (key, ws) ∧
              key ≤ k ∧ k < key + 16 ∧ k ∈ ks
          let word := slotSeen (decide (s.curLaunch.desc.ctl.toNat / 2 ^ 48 % 4 = 1)) (slotWord s s.cur.ctx b) (slotWord s s.cur.ctx d)
          (waits → stays) ∧
          (¬ waits → w = none → out m (BitVec.ofNat 256 (classSpec (word 0) (word 1) (word 2) (word 3))) 0) ∧
          (∀ i, ¬ waits → w = some i → i < 4 → out m (BitVec.ofNat 256 (word i)) 0))))

/-- R138, R140, R159, R262, R264, R292, R308: a load sees, in each byte, the latest earlier store of its own strand that covers the byte, over
what its cluster's L1 or the home holds; a line that the L1 lacks is filled from the home, its uncorrectable errors with it. What it hears of
is what the write it reads was told of. -/
def Sys2Proof.Claims.LoadsSeeTheirOwnStores : Prop :=
  (∀ (s : State) (t : Strand) (l1 : Bool) (k i upto : Nat) (pre post : List Access) (a : Access) (bs : List Byte),
    s.stores = pre ++ a :: post → a.strand = t.sid → a.id < upto → (2 ^ 52 ≤ k ∨ a.kid = t.ctx) → a.op = .store bs → a.keys.Nodup →
    a.keys.length = bs.length → a.keys[i]? = some k → (∀ b ∈ post, b.strand = t.sid → b.id < upto → k ∉ b.keys) →
    s.loadBytes t upto [(k, l1)] = [bs.getD i 0]) ∧
  (∀ (s : State) (t : Strand) (upto : Nat) (q : LoadByte), (∀ a ∈ s.stores, a.strand = t.sid → a.id < upto → q.1 ∉ a.keys) →
    (∀ l, lineServing s t q = some l → s.loadBytes t upto [q] = [l.bytes.getD (q.1 % 64) 0] ∧ s.toldTo t upto q = (find? q.1 l.told).getD []) ∧
    (lineServing s t q = none → s.loadBytes t upto [q] = [s.byteAs t.ctx q.1] ∧
      s.toldTo t upto q = if q.1 < 2 ^ 51 ∧ s.keyId q.1 ≠ t.ctx then [] else s.toldHome q.1)) ∧
  (∀ (s : State) (t : Strand) (upto : Nat) (q : LoadByte), (∃ a ∈ s.stores, a.strand = t.sid ∧ a.id < upto ∧ q.1 ∈ a.keys) → s.toldTo t upto q = []) ∧
  (∀ (s : State) (t : Strand) (k : Nat), ∃ u, s.fillL1 t k = u ∧ u = { s with clusters := u.clusters } ∧
    (∀ d, d ≠ t.id / 64 → u.cluster d = s.cluster d) ∧ u.cluster (t.id / 64) = { s.cluster (t.id / 64) with l1 := (u.cluster (t.id / 64)).l1 } ∧
    ((lineServing s t (k, true)).isSome = true → u = s) ∧
    (lineServing s t (k, true) = none → 0 < (s.cluster (t.id / 64)).l1size → ∃ l, lineServing u t (k, true) = some l ∧ l.line = k / 64 * 64 ∧
      l.kid = t.ctx ∧ l.bytes = (List.range 64).map (fun i => s.byteAs t.ctx (k / 64 * 64 + i)) ∧ (∀ w, w ∈ l.bad ↔ w ∈ s.poison ∧ w / 64 = k / 64) ∧
      l.stale = [] ∧ ∀ q, (find? q l.told).getD [] = if q / 64 = k / 64 then s.toldHome q else []))

/-- R73, R110, R158, R159, R162: the landing of a pending result of each kind, and the stores a load sees.
Choices of the model in it: logs 5, 13, 54, 59, 64. -/
def Obligations.LoadsLandWhatTheyMaySee : Prop :=
  Sys2Proof.Claims.ResultsLand ∧ Sys2Proof.Claims.LoadsSeeTheirOwnStores

/-- R149, R156, R157, R158, R159, R262, R263, R265: a store names the address of its base and offset; it faults as a load does, waits for an engine's hold, and
otherwise completes: it queues the low bytes of its register for that place, with the releases that it carries and what its acquires have put
before it; no byte of memory changes. Choices of the model in it: logs 13, 16, 54. -/
def Obligations.StoresQueueTheirBytes : Prop :=
  ∀ (i : Instr) (f : PlainForm) (s : State), storeForm i = some f →
    (f.addr s % f.ty.size ≠ 0 → exec i s = .next (s.raise (s.precise 6 0 (faultAddr (s.rd f.a) (f.addr s))))) ∧
    (∀ e, f.addr s % f.ty.size = 0 → s.strandPlace f.sp (f.addr s) f.ty.size .write = .error e →
      exec i s = .next (failed s e (BitVec.ofNat 64 (f.addr s)))) ∧
    (∀ k l1, f.addr s % f.ty.size = 0 → s.strandPlace f.sp (f.addr s) f.ty.size .write = .ok (.mem k l1) →
      (s.heldAt (.mem k l1) f.ty.size = false → ∃ t bs, exec i s = .next t ∧ bs.length = f.ty.size ∧
        littleEndian bs = (s.rd f.d).toNat % 2 ^ (8 * f.ty.size) ∧ SameBytes s t ∧ t = queued s [(keysFrom k f.ty.size, .store bs)]) ∧
      (s.heldAt (.mem k l1) f.ty.size = true → ∃ t, exec i s = .next t ∧ LosesTurn s t))

/-- R26, R28, R74, R94, R149, R160, R161, R162, R164, R292: LD.E locates its element by the format table; a byte format under a float type is
a format fault, and bytes with an uncorrectable error a machine check. It completes with one pending result that reads its bytes and its
scale. With a trap enabled its value is decided at issue, after the strand's earlier loads of the same bytes: it traps, or completes with
the value in its register and its exceptions accrued. Where the bytes are bad at their home and good in the L1 that serves the load, it reads
them at once, or loses its turn. Choices of the model in it: logs 5, 13, 16, 19, 46, 52, 54, 59. -/
def Obligations.ElementLoadsLeaveAPendingResult : Prop :=
  ∀ (i : Instr) (d a : XReg) (la : La) (ty : Ty) (off : Int) (site : Option (BitVec 16)) (s : State),
    elementLoadForm i = some (d, a, la, ty, off, site) → checkIn s.decEnv i = .ok i →
    ∃ e, elementPlace s (s.rd a) (s.rd d) off e ∧
      (∀ x, elemAlign e = some x → exec i s = .next (s.raise (s.precise 6 0 x))) ∧
      (∀ x, elemAlign e = none → s.elemPlaces e .read = .error x → exec i s = .next (failed s (x.1, x.2.1) x.2.2)) ∧
      (∀ dp sp, elemAlign e = none → s.elemPlaces e .read = .ok (dp, sp) →
        (e.entry % 16 = 0 ∧ ty.flt.isSome = true → exec i s = .next (s.raise (s.precise 7 2 0))) ∧
        (∀ dk sk, ¬ (e.entry % 16 = 0 ∧ ty.flt.isSome = true) → memBytes dp = some dk → memBytes sp = some sk →
          let er : ElemRead := ⟨dk, e.bitOff, e.nb, e.entry % 16, e.entry / 2 ^ 7 % 4, sk, ty, none, none⟩
          let ks := (dk ++ sk).map (·.1)
          (ReadsBad s (dk ++ sk) → exec i s = .next (s.raise (s.precise 13 1 (BitVec.ofNat 64 e.addr)))) ∧
          (¬ ReadsBad s (dk ++ sk) → s.pendFull d = true → ∃ t, exec i s = .next t ∧ LosesTurn s t) ∧
          (¬ ReadsBad s (dk ++ sk) → s.pendFull d = false → s.fpcSeen.extractLsb' 8 5 = 0 →
            IssuesLoad i s (pendingResult s d la (.elem er) site) (vineBit s d) (fun m v x =>
              ∃ w, elementLoaded er (m.loadBytes m.cur s.nextId dk) (m.loadBytes m.cur s.nextId sk) w x ∧ v = w.setWidth 256)) ∧
          (¬ ReadsBad s (dk ++ sk) → s.pendFull d = false → s.fpcSeen.extractLsb' 8 5 ≠ 0 → s.fixBefore ks = none →
            ∃ t, exec i s = .next t ∧ LosesTurn s t) ∧
          (∀ m, ¬ ReadsBad s (dk ++ sk) → s.pendFull d = false → s.fpcSeen.extractLsb' 8 5 ≠ 0 → s.fixBefore ks = some m →
            EarlierLoadsFixed s m s.cur.pend.length ks ∧
            (¬ Readable m s.nextId (dk ++ sk) → ∃ t, exec i s = .next t ∧ LosesTurn s t) ∧
            (Readable m s.nextId (dk ++ sk) → ∃ v x h u, elementLoaded er (m.loadBytes m.cur s.nextId dk) (m.loadBytes m.cur s.nextId sk) v x ∧
              HasRead m h s.nextId (dk ++ sk) ∧ u = { h with free := s.free + 1 } ∧ SameBytes s u ∧
              (enabled s x ≠ 0 → exec i s = .next (u.raise { s.precise 12 0 0 with elem := x.setWidth 32 })) ∧
              (enabled s x = 0 → ∃ t w, exec i s = .next t ∧
                t = { u with
                  cur := { u.cur with
                    x := t.cur.x
                    vw := s.cur.vw ||| vineBit s d
                    fpc := s.cur.fpc ||| x.setWidth 64
                    pend := if d = 0 then m.cur.pend
                      else m.cur.pend ++ [{ pendingResult s d la (.float v) site with flags := x, landed := true }] }
                  nextId := s.nextId + (if site.isSome then 1 else 0)
                  vupd := s.vupd ++ (site.map (fun j => siteEntry s j.toNat 2 1 w 0)).toList } ∧ w ≤ 1 ∧ (w = 1 → FromBeyond m (dk ++ sk)) ∧
                t.rd d = (if d = 0 then 0 else v) ∧ (∀ r, r ≠ d → t.rd r = s.rd r) ∧ SameBytes s t)))))

/-- R26, R28, R94, R122 to R124, R149, R160, R161, R163, R164, R292: ST.E locates its element and reads its scale after the strand's earlier loads
of it; the code is that of the quotient of its value and the scale, rounded once as the entry says. It completes by queueing the write of the
code, a sub-byte element's as the bits alone, line by line; it raises its exceptions, takes its draw, and changes no byte of memory yet. With
an enabled exception it takes the arithmetic trap, a float type with a byte format or a scale that is no number a format fault, and neither
stores; a hold makes it wait. Choices of the model in it: logs 13, 16, 19, 46, 52, 54, 59. -/
def Obligations.ElementStoresQueueTheirCode : Prop :=
  ∀ (i : Instr) (r a : XReg) (ty : Ty) (off : Int) (s : State), elementStoreForm i = some (r, a, ty, off) → s.disp = .done → s.cur.sys = none →
    s.cur.sysGot = [] → s.cur.code = none → s.cur.leaves = [] →
    ∃ e, elementPlace s (s.rd a) (s.rd r) off e ∧
      (∀ x, elemAlign e = some x → exec i s = .next (s.raise (s.precise 6 0 x))) ∧
      (∀ x, elemAlign e = none → s.elemPlaces e .write = .error x → exec i s = .next (failed s (x.1, x.2.1) x.2.2)) ∧
      (∀ dp sp ks sk, elemAlign e = none → s.elemPlaces e .write = .ok (dp, sp) → memKeys dp = some ks → memBytes sp = some sk →
        (s.fixBefore (sk.map (·.1)) = none → ∃ t, exec i s = .next t ∧ LosesTurn s t) ∧
        (∀ m, s.fixBefore (sk.map (·.1)) = some m → EarlierLoadsFixed s m s.cur.pend.length (sk.map (·.1)) ∧
          (¬ ReadsBad m sk → ¬ Readable m s.nextId sk → ∃ t, exec i s = .next t ∧ SameBytes s t ∧
            t = { m with cur := { m.cur with leaves := t.cur.leaves }, disp := .wait }) ∧
          (ReadsBad m sk → Readable m s.nextId sk → exec i s = .next (m.raise (s.precise 13 1 (BitVec.ofNat 64 e.addr)))) ∧
          (¬ ReadsBad m sk → Readable m s.nextId sk →
            let mode := e.entry / 2 ^ 13 % 8
            let draws := e.entry % 16 ≠ 0 ∧ (mode = 2 ∨ mode = 4)
            let bits := if draws then drawBits s.curLaunch.seed (BitVec.ofNat 64 s.cur.index) s.cur.cuvc 0 else 0
            let code := elemCode e ty (s.rd r) (littleEndian (m.loadBytes m.cur s.nextId sk)) bits
            elementStored e ty (s.rd r) (littleEndian (m.loadBytes m.cur s.nextId sk)) bits code ∧
            (∀ sub, code = .error sub → exec i s = .next (m.raise (s.precise 7 sub 0))) ∧
            (∀ c x, code = .ok (c, x) → enabled s x ≠ 0 → exec i s = .next (m.raise { s.precise 12 0 0 with elem := x.setWidth 32 })) ∧
            (∀ c x, code = .ok (c, x) → enabled s x = 0 → s.heldAt (dp.headD (.sys 0)) e.bytes = true →
              ∃ t, exec i s = .next t ∧ SameBytes s t ∧ t = { m with cur := { m.cur with leaves := t.cur.leaves }, disp := .wait }) ∧
            (∀ c x, code = .ok (c, x) → enabled s x = 0 → s.heldAt (dp.headD (.sys 0)) e.bytes = false →
              ∃ t h, exec i s = .next t ∧ SameBytes s t ∧ HasRead m h s.nextId sk ∧
                let q := queued h (elementWrites e ks c)
                t = { q with cur := { q.cur with
                  fpc := s.cur.fpc ||| x.setWidth 64
                  cuvc := if draws then s.cur.cuvc + 1 else s.cur.cuvc } }))))

/-- R149, R159, R166 to R169, R172, R173, R262, R292: an atomic at strand scope completes by queueing its read-modify-write, its old value pending;
one of wider scope has a fence before it and one after it, and completes with its old value once it has been performed; a sequentially
consistent one is queued under its ticket. The alignment, page and machine-check faults come first, and what must come first makes it
lose its turn; one that has been sent meets no further fault of its word. Choices of the model in it: logs 3, 13, 54, 59. -/
def Obligations.AtomicsQueueAndReturnTheOldValue : Prop :=
  ∀ (i : Instr) (op : AmoOp) (f : AmoForm) (c : XReg) (s : State), atomicForm i = some (op, f, c) → checkIn s.decEnv i = .ok i →
    let a := (s.rd f.a).toNat % 2 ^ 60
    let n := atomicSize f
    let acc := MemOp.amo op n (s.rd f.b) (s.rd c)
    let ss : Storage := if f.sc then .all else ssOf f.space
    let loses := ∃ t, exec i s = .next t ∧ LosesTurn s t
    (a % n ≠ 0 → exec i s = .next (s.raise (s.precise 6 0 (BitVec.ofNat 64 a)))) ∧
    (∀ e, a % n = 0 → s.strandPlace f.space a n .atomic = .error e → exec i s = .next (failed s e (BitVec.ofNat 64 a))) ∧
    (∀ k l1, a % n = 0 → s.strandPlace f.space a n .atomic = .ok (.mem k l1) →
      let ks := keysFrom k n
      (s.cur.fence = none → s.poisoned ks = true → exec i s = .next (s.raise (s.precise 13 1 (BitVec.ofNat 64 a)))) ∧
      (s.cur.fence = none → s.poisoned ks = false → s.heldAt (.mem k l1) n = true ∨ s.pendFull f.d = true → loses) ∧
      (s.cur.fence = none → s.poisoned ks = false → s.heldAt (.mem k l1) n = false → s.pendFull f.d = false →
        (f.sc = false → f.scope = .strand → ∃ t, exec i s = .next t ∧
          AddsPending (queued s [(ks, acc)]) t { pendingResult s f.d f.la (.amo s.nextId) none with seq := s.nextId + 1 } (vineBit s f.d)) ∧
        (f.sc = true ∨ f.scope ≠ .strand → s.acquireRelease f.sc f.scope ss true = none → loses) ∧
        (∀ m, f.sc = false → f.scope ≠ .strand → s.acquireRelease false f.scope ss true = some m → ∃ t, exec i s = .next t ∧ SameBytes s t ∧
          let q := queued m [(ks, acc)]
          t = { q with
            cur := { q.cur with
              fence := some ⟨true, .acqrel, f.scope, ss, none, some s.nextId, none, false⟩
              leaves := (s.keep [a]).cur.leaves }
            disp := .wait }) ∧
        (∀ m, f.sc = true → s.acquireRelease true f.scope .all true = some m → exec i s = .next { m with
          cur := { m.cur with fence := some ⟨true, .sc, f.scope, .all, none, none, none, false⟩, leaves := (s.keep [a]).cur.leaves }
          disp := .wait })) ∧
      (∀ r m, s.cur.fence = some r → r.ticket = some m → r.acc = none →
        (s.heldAt (.mem k l1) n = true → loses) ∧
        (s.heldAt (.mem k l1) n = false → ∃ t, exec i s = .next t ∧ SameBytes s t ∧
          let q := queued s [(ks, acc)]
          t = { q with
            cur := { q.cur with fence := some { r with acc := some s.nextId } }
            stores := s.stores ++ [ownAccess s s.nextId ks acc (some m)]
            disp := .wait })) ∧
      (∀ r, s.cur.fence = some r → (r.ticket = none ∧ r.acc = none) ∨ (r.acc ≠ none ∧ r.old = none) → loses) ∧
      (∀ r v j, s.cur.fence = some r → r.acc = some j → r.old = some v →
        (s.acquireRelease f.sc f.scope ss true = none → loses) ∧
        ∀ m, s.acquireRelease f.sc f.scope ss true = some m → ∃ t, exec i s = .next t ∧ SameBytes s t ∧
          t = { m with cur := { m.cur with
            fence := none
            leaves := []
            pend := s.cur.pend ++ [pendingResult s f.d f.la (.value v) none]
            vw := s.cur.vw ||| vineBit s f.d } }))

/-- R140, R142, R159, R167, R168, R171, R173, R188, R262 to R264, R292, R297, R308: an access that something comes before stays. Else it is
performed: its bytes alone change, by its own operation; an atomic's old value goes to every strand that waits for it, wherever it is; the
lines of the issuing cluster's L1 follow, and elsewhere those that lack it serve no strand that has acquired it. A read of the bytes meets the
releases that it carries. Choices of the model in it: logs 54, 59. -/
def Obligations.AccessesArePerformedAtTheirHome : Prop :=
  ∀ (s : State) (k : Nat) (a : Access), s.canonical → s.stores.find? (fun b => b.id = k) = some a →
    let first := (∃ b ∈ s.stores, (∃ q ∈ b.keys, q ∈ a.keys) ∧ ((b.id < a.id ∧ b.strand = a.strand) ∨ b.id ∈ a.after)) ∨
      (∃ u ∈ s.withSaved, u.sid = a.strand ∧ ∃ p ∈ u.pend, p.landed = false ∧ p.got = none ∧ p.reg ≠ 0 ∧ p.seq ≤ a.id ∧ ∃ q ∈ p.op.ordered, q ∈ a.keys) ∨
      s.unowned a.keys = false ∨ (∃ n, a.ticket = some n ∧ s.ticketTurn n = false) ∨ (a.op.isRmw = true ∧ s.homeBehind a.keys a.flat = true)
    (first → exec (.accessPerformedAtHome k) s = .next s) ∧
    (¬ first → a.keys.Nodup → (∀ q ∈ a.keys, q < capBase) →
      (match a.op with
        | .store bs => bs.length = a.keys.length
        | .amo _ size .. => size = a.keys.length
        | .event _ => a.keys.length = 8
        | .bitsAt off len _ => off + len ≤ 8 * a.keys.length) →
      ∃ t, exec (.accessPerformedAtHome k) s = .next t ∧
        writtenBytes a.op (s.bytesAs a.kid a.keys) (t.bytesAs a.kid a.keys) ∧ (∀ q, q ∉ a.keys → t.byteAs a.kid q = s.byteAs a.kid q) ∧
        (∀ kid q, kid ≠ a.kid → (∀ j ∈ a.keys, j / 64 ≠ q / 64) → t.byteAs kid q = s.byteAs kid q) ∧
        t = { s with
          cur := { s.cur with pend := t.cur.pend, fence := t.cur.fence, heard := t.cur.heard }
          strands := t.strands
          clusters := t.clusters
          mem := t.mem
          lineKey := t.lineKey
          poison := s.poison.filter (fun w => !(List.range 8).all (fun j => decide (w + j ∈ a.keys)))
          told := t.told
          homeUse := t.homeUse
          stores := s.stores.filter (fun b => b.id ≠ k) } ∧
        (a.op.isRmw = false → t.homeUse = s.homeUse) ∧ Tells s t a.keys a.op.isRmw a.carries ∧
        (∀ c, t.cluster c = { s.cluster c with l1 := (t.cluster c).l1 }) ∧
        (∀ c, c ≠ a.cluster → (t.cluster c).l1.map (fun l => { l with stale := [] }) = (s.cluster c).l1.map (fun l => { l with stale := [] }) ∧
          ((∀ u ∈ s.withSaved, u.id / 64 = c → ¬ ∃ b ∈ u.before, b.id = k ∧ b.deep = true) → t.cluster c = s.cluster c) ∧
          (∀ u ∈ s.withSaved, u.id / 64 = c → (∃ b ∈ u.before, b.id = k ∧ b.deep = true) → ∀ q ∈ a.keys, lineServing t u (q, true) = none)) ∧
        (∀ q ∈ a.keys, ∀ l ∈ (t.cluster a.cluster).l1, l.line = q / 64 * 64 → a.op.isRmw = false ∧
          (l.kid = a.kid → l.bytes.length = 64 → l.bytes.getD (q % 64) 0 = t.byteAs a.kid q ∧ (find? q l.told).getD [] = a.carries)) ∧
        ((∀ o n b c, a.op ≠ .amo o n b c) → t.cur = s.cur ∧ t.strands = s.strands) ∧
        (∀ o n b c, a.op = .amo o n b c → ∀ id,
          let old := littleEndian (s.bytesAs a.kid a.keys)
          let u := s.strand id
          (u.sid ≠ a.strand → t.strand id = u) ∧
          (u.sid = a.strand → t.strand id = { u with
              pend := u.pend.map (fun p => if p.op = .amo k then { p with got := some (BitVec.ofNat 256 old) } else p)
              fence := u.fence.map (fun f => if f.acc = some k then { f with old := some (BitVec.ofNat 64 old) } else f)
              heard := (t.strand id).heard } ∧
            ∀ r, r ∈ (t.strand id).heard ↔ r ∈ u.heard ∨ (Flying t r.id ∧ ∃ q ∈ a.keys, r ∈ s.toldHome q))))

/-- R141, R155, R165, R171, R172, R173, R261 to R264: a fence completes where the earlier accesses it waits for are performed, or, within a die, are
put before what acquires it; an acquiring one follows what the releases it synchronises with put before it, and empties the cluster's L1. One that
finds them not so waits, an sc one for its ticket too. PF writes no register, changes no byte, and never faults.
Choices of the model in it: logs 3, 54. -/
def Obligations.FencesTicketsAndPrefetches : Prop :=
  (∀ (s : State) (ss : Storage), s.loadsDone ss = false ↔ ∃ p ∈ s.cur.pend, p.landed = false ∧ p.got = none ∧
    ((∃ q ∈ p.op.reads, (∀ b d j w u, p.op ≠ .vintage b d j w u) ∧
        (match ss with | .all => True | .scratch => 2 ^ 52 ≤ q.1 ∧ q.1 < 2 ^ 53 | .globalSp => q.1 < 2 ^ 52 ∨ 2 ^ 53 ≤ q.1)) ∨
      ∃ a ∈ s.stores, p.op = .amo a.id ∧ a.inScope ss = true)) ∧
  (∀ (s : State) (sc : Scope) (ss : Storage),
    (s.fenceNow .acq sc ss = if s.loadsDone ss then some (s.acquireRead sc ss false) else none) ∧ s.fenceNow .rel sc ss = s.release sc ss ∧
    s.fenceNow .acqrel sc ss = s.acquireRelease false sc ss false ∧ s.fenceNow .sc sc ss = s.acquireRelease true sc ss false ∧
    (∀ led, s.acquireRelease false sc ss led = (s.acquireRead sc ss led).release sc ss ∧
      s.acquireRelease true sc ss led = (s.acquireRead sc ss led).release .package .all) ∧
    (s.loadsDone ss = false → s.release sc ss = none) ∧ (s.loadsDone ss = true → s.release .strand ss = some s) ∧
    (sc = .package ∨ sc = .system → (∃ a ∈ s.stores, ComesFirst s a ∧ a.inScope ss = true) → s.release sc ss = none) ∧
    (sc ≠ .strand → s.loadsDone ss = true → (sc = .package ∨ sc = .system → ∀ a ∈ s.stores, ComesFirst s a → a.inScope ss = false) →
      ∃ m, s.release sc ss = some m ∧ m = { s with cur := { s.cur with rels := m.cur.rels } } ∧ ∀ r, r ∈ m.cur.rels ↔
        (r ∈ s.cur.rels ∧ Flying s r.id) ∨
        (r.slot = s.cur.id ∧ r.scope = sc ∧ ∃ a ∈ s.stores, a.id = r.id ∧ ComesFirst s a ∧ a.inScope ss = true))) ∧
  (∀ (s : State) (sc : Scope) (ss : Storage) (led : Bool), ∃ t, s.acquireRead sc ss led = t ∧
    t = { s with cur := { s.cur with before := t.cur.before }, clusters := t.clusters } ∧
    (∀ id, (∃ b ∈ t.cur.before, b.id = id) ↔ Flying s id ∧ ((∃ b ∈ s.cur.before, b.id = id) ∨
      ∃ a ∈ s.stores, a.id = id ∧ a.inScope ss = true ∧ (∃ a ∈ s.stores, a.id = id ∧ a.strand ≠ s.cur.sid) ∧
        ∃ r ∈ s.cur.heard, r.id = id ∧ Synchronises s r sc a)) ∧
    (∀ b ∈ s.cur.before, Flying s b.id → ∃ c ∈ t.cur.before, c.id = b.id ∧ c.led = b.led ∧ (b.deep = true → c.deep = true)) ∧
    (sc = .strand ∨ sc = .core ∨ ss = .scratch → t.clusters = s.clusters) ∧
    (sc ≠ .strand → sc ≠ .core → ss ≠ .scratch → t.clusters = (s.emptyL1 (s.cur.id / 64)).clusters ∧
      (t.cluster (s.cur.id / 64)).l1 = [] ∧ ∀ b ∈ t.cur.before, b.deep = true)) ∧
  (∀ (k : FenceKind) (sc : Scope) (ss : Storage) (s m : State), s.cur.fence = none → k ≠ .sc → s.fenceNow k sc ss = some m →
    exec (.fence k sc ss) s = .next m ∧ SameBytes s m) ∧
  (∀ (k : FenceKind) (sc : Scope) (ss : Storage) (s : State), s.cur.fence = none → (k = .sc ∨ s.fenceNow k sc ss = none) →
    exec (.fence k sc ss) s = .next { s with cur := { s.cur with fence := some ⟨false, k, sc, ss, none, none, none, false⟩ }, disp := .wait }) ∧
  (∀ (k : FenceKind) (sc : Scope) (ss : Storage) (s : State) (r : FenceReq), s.cur.fence = some r → r.done = true →
    exec (.fence k sc ss) s = .next { s with cur := { s.cur with fence := none } }) ∧
  (∀ (k : FenceKind) (sc : Scope) (ss : Storage) (s : State) (r : FenceReq), s.cur.fence = some r → r.done = false →
    ∃ t, exec (.fence k sc ss) s = .next t ∧ LosesTurn s t) ∧
  (∀ (s m : State) (r : FenceReq), s.cur.fence = some r → r.amo = false → r.done = false → s.fenceNow r.kind r.scope r.ss = some m →
    (r.kind = .sc → ∃ n, r.ticket = some n ∧ s.ticketTurn n = true) →
    exec .fenceComplete s = .next { m with cur := { m.cur with fence := some { r with done := true } } }) ∧
  (∀ (s : State) (r : FenceReq), s.cur.fence = some r → r.amo = true ∨ s.fenceNow r.kind r.scope r.ss = none ∨
      (r.kind = .sc ∧ ∀ n, r.ticket = some n → s.ticketTurn n = false) → exec .fenceComplete s = .next s) ∧
  (∀ (s : State) (r : FenceReq), s.cur.fence = some r → r.kind = .sc → r.ticket = none → r.done = false →
    exec .scTicketGrant s = .next { s with
      cur := { s.cur with fence := some { r with ticket := some s.pkg.tickets } }
      pkg := { s.pkg with tickets := (s.pkg.tickets + 1) % 2 ^ 64 } }) ∧
  (∀ a l2 off s, ∃ t, exec (.pf a l2 off) s = .next t ∧ SameBytes s t ∧
    let va := accessAddr (s.rd a) off.toInt 64 / 64 * 64
    let place := s.strandPlace .glob va 64 .read
    (va < capVa ∧ (∃ n, place = .error (cWalk, n)) → t = s.missed (BitVec.ofNat 64 va)) ∧
    (¬ (va < capVa ∧ ∃ n, place = .error (cWalk, n)) → t = { s with clusters := t.clusters } ∧
      (∀ c, c ≠ s.cur.id / 64 → t.cluster c = s.cluster c) ∧
      t.cluster (s.cur.id / 64) = { s.cluster (s.cur.id / 64) with l1 := (t.cluster (s.cur.id / 64)).l1 } ∧ (l2 = true → t = s) ∧
      (∀ k, l2 = false → va < capVa → place = .ok (.mem k true) → s.owned (k / 64 * 64) = false → 0 < (s.cluster (s.cur.id / 64)).l1size →
        t = s.fillL1 s.cur k ∧ (servedBy t (k, true)).isSome = true)))

/-- R137, R146, R147, R151: where a walk leads, an access goes to the page's address and the offset in it, or takes the fault of the table
of R147; the capability space is read without translation; a scratch address must lie in its group's allocation. -/
def Sys2Proof.Claims.AddressesAreTranslated : Prop :=
  (∀ (s : State) (v va n : Nat) (tables : Nat → Nat) (k : Kind), va < capVa → 1 ≤ n → n ≤ 4 → WalkReaches s v va n tables →
    let e := entryOf (tableEntry s (tables n) (levelIndex va n))
    let page := if n = 3 then 2 ^ 29 else 2 ^ 16
    (e.valid = false → s.globalPlace none v va k = .error (4, n)) ∧
    (e.valid = true → ¬ goodEntry n e → s.globalPlace none v va k = .error (4, 4 + n)) ∧
    (e.valid = true → goodEntry n e → e.leaf = true → permitted e k = false → s.globalPlace none v va k = .error (5, pageSubcode k)) ∧
    (e.valid = true → goodEntry n e → e.leaf = true → permitted e k = true →
      s.globalPlace none v va k = .ok (if 2 ^ 51 ≤ e.addr + va % page then .sys (e.addr + va % page) else .mem (e.addr + va % page) (!e.nl1)))) ∧
  (∀ (s : State) (w : Via) (v va : Nat) (k : Kind) (l : Leaf), va < capVa →
    (w.leaves ++ (s.cluster w.cluster).tlb).find? (fun l => l.covers v va) = some l →
    let ok := match k with | .read => l.r | .write => l.w | .atomic => l.w && l.r | .fetch => l.x
    let pa := l.pa + (va - l.va)
    s.globalPlace (some w) v va k = if ok then .ok (if 2 ^ 51 ≤ pa then .sys pa else .mem pa (!l.nl1)) else .error (5, pageSubcode k)) ∧
  (∀ (s : State) (w : Via) (v va : Nat) (k : Kind), va < capVa → (∀ l ∈ w.leaves ++ (s.cluster w.cluster).tlb, l.covers v va = false) →
    s.globalPlace (some w) v va k = match w.fault with
      | some (page, n) => .error (if page = va / 2 ^ 16 then (4, n) else (cWalk, 0))
      | none => .error (cWalk, 0)) ∧
  (∀ (s : State) (c : Option Via) (v va : Nat), capVa ≤ va →
    s.globalPlace c v va .read = .ok (.mem (capBase + (va - capVa)) false) ∧ s.globalPlace c v va .write = .error (5, 2) ∧
    s.globalPlace c v va .atomic = .error (5, 2) ∧ s.globalPlace c v va .fetch = .error (5, 3)) ∧
  (∀ (s : State) (a n : Nat) (k : Kind) (g : Group), s.groupOf? s.cur = some g → g.off + g.gran * 4096 ≤ 2 ^ 22 → 0 < n → 0 < g.gran →
    s.strandPlace .scratch a n k = if g.off ≤ a ∧ a + n ≤ g.off + g.gran * 4096 then .ok (.mem (scrKey (s.cur.id / 64) a) false)
      else .error (5, 4))

/-- R147, R148, R149, R150, R188, R300, R307: a walk in flight ends once no decanter owns an entry it reads: its leaf is in the TLB of every
cluster that waits for it, and a leaf of 512 MiB ends the wait of every miss inside it; a failed walk gives its subcode to each that waits.
An invalidation starts where none is in progress; it completes once nothing goes on with a translation of the context, by dropping what
it covers. -/
def Sys2Proof.Claims.WalksAndInvalidations : Prop :=
  (∀ (s : State) (a : Word), AsksWalk s (s.missed a) (a.toNat % 2 ^ 60)) ∧
  (∀ (s : State) (c v va : Nat), (∀ w ∈ s.walks, ¬ (w.die = c / 24 ∧ w.ctx = v ∧ w.page = va / 2 ^ 16)) →
    exec (.pageWalkComplete c v va) s = .next s) ∧
  (∀ (s : State) (c v va : Nat) (w : Walk), s.walks.find? (fun k => k.die = c / 24 && k.ctx = v && k.page = va / 2 ^ 16) = some w →
    let reads := s.walkReads (w.page * 2 ^ 16) (s.ctx v).rootAddr levels
    ((∃ k ∈ reads, k < 2 ^ 51 ∧ s.owned (k / 64 * 64) = true) → exec (.pageWalkComplete c v va) s = .next s) ∧
    (∀ l, (∀ k ∈ reads, k < 2 ^ 51 → s.owned (k / 64 * 64) = false) → s.walk v (w.page * 2 ^ 16) = .ok l →
      ∃ t, exec (.pageWalkComplete c v va) s = .next t ∧ t = { s with clusters := t.clusters, walks := t.walks } ∧ SameBytes s t ∧
        l.covers v (w.page * 2 ^ 16) = true ∧ (∀ x ∈ w.waiters, l ∈ (t.cluster x.1).tlb) ∧
        (∀ d, (t.cluster d).tlb = (s.cluster d).tlb ∨ (t.cluster d).tlb = (l :: (s.cluster d).tlb).take 512) ∧
        (∀ d, t.cluster d = { s.cluster d with tlb := (t.cluster d).tlb }) ∧
        (∀ k ∈ s.walks, k ≠ w → (k.die = w.die ∧ k.ctx = w.ctx ∧ l.covers v (k.page * 2 ^ 16) = true) →
          ∃ u ∈ t.walks, u = { k with waiters := [] }) ∧
        (∀ k ∈ s.walks, ¬ (k.die = w.die ∧ k.ctx = w.ctx ∧ (k.page = w.page ∨ l.covers v (k.page * 2 ^ 16) = true)) → k ∈ t.walks) ∧
        w ∉ t.walks.filter (fun k => k.waiters ≠ [])) ∧
    (∀ n, (∀ k ∈ reads, k < 2 ^ 51 → s.owned (k / 64 * 64) = false) → s.walk v (w.page * 2 ^ 16) = .error n →
      ∃ t, exec (.pageWalkComplete c v va) s = .next t ∧ SameBytes s t ∧
        t = { s with cur := t.cur, strands := t.strands, cmds := t.cmds, walks := s.walks.filter (fun k => k ≠ w) } ∧
        (∀ id, (t.strand id = s.strand id ∧ ∀ x ∈ w.waiters, x.2 ≠ .strand (s.strand id).sid) ∨
          (t.strand id = { s.strand id with walkFault := some (w.page, n) } ∧ ∃ x ∈ w.waiters, x.2 = .strand (s.strand id).sid) ∨
          (t.strand id = s.strand id ∧ s.cur.id ≠ id ∧ ∀ y ∈ s.strands, y.id ≠ id)) ∧
        t.cmds = s.cmds.map (fun k => if w.waiters.any (fun x => x.2 == .cmd k.cid) then { k with walkFault := some (w.page, n) } else k))) ∧
  (∀ (s : State) (v : Nat) (w : Word), v < 64 → (s.pkg.recovery = false ∨ v = 0) →
    ∃ t, exec (.tlbinvWrite v w) s = .next t ∧ t = { s with ctxs := t.ctxs } ∧ SameBytes s t ∧ (∀ u, u ≠ v → t.ctx u = s.ctx u) ∧
      t.ctx v = if (s.ctx v).tlbBusy then { s.ctx v with tlbErr := true } else { s.ctx v with tlbBusy := true, tlbInv := w }) ∧
  (∀ (s : State) (v : Nat), (s.ctx v).tlbBusy = false ∨ s.translating v = true → exec (.tlbInvalidationComplete v) s = .next s) ∧
  (∀ (s : State) (v : Nat), (∃ a ∈ s.stores, a.kid = v ∧ ∃ k ∈ a.keys, k < 2 ^ 52) ∨
    (∃ t ∈ s.allStrands, t.ctx = v ∧ (t.leaves ≠ [] ∨ ∃ p ∈ t.pend, p.landed = false ∧ p.got = none ∧ ∃ k ∈ p.op.keys, k < 2 ^ 52)) ∨
    (∃ c ∈ s.cmds, c.ctx = v ∧ c.engine = .copy ∧ c.saved = false ∧ c.dfault = none ∧ (c.started = true ∨ ∃ o ∈ s.owners, o.cid = c.cid)) ↔
    s.translating v = true) ∧
  (∀ (s : State) (v : Nat), (s.ctx v).tlbBusy = true → s.translating v = false →
    ∃ t, exec (.tlbInvalidationComplete v) s = .next t ∧ t = { s with ctxs := t.ctxs, clusters := t.clusters } ∧ SameBytes s t ∧
      t.ctx v = { s.ctx v with tlbBusy := false } ∧ (∀ u, u ≠ v → t.ctx u = s.ctx u) ∧
      (∀ c, t.cluster c = { s.cluster c with tlb := (s.cluster c).tlb.filter (fun l => !invCovers (s.ctx v).tlbInv v l) }))

/-- R146 to R151: the walk of a virtual address, and the walks, copies and invalidations of translations.
Choices of the model in it: logs 11, 13, 60. -/
def Obligations.TranslationAndItsCaches : Prop :=
  Sys2Proof.Claims.AddressesAreTranslated ∧ Sys2Proof.Claims.WalksAndInvalidations

/-- R174, R177, R179: HSET clears a handle but for BASE and SP; HGET reads and HPUT replaces one field; HSTEP moves the origin by whole
bytes, or takes the format fault. Nothing else changes. -/
def Sys2Proof.Claims.HandleRegisterInstructions : Prop :=
  (∀ h a sp s, ∃ t v, exec (.hset h a sp) s = .next t ∧ v.toNat = (s.rd a).toNat + (if sp then 2 ^ 112 else 0) ∧ WritesH s t h v) ∧
  (∀ h d (f : BitVec 8) s, f.toNat ≤ 10 → ∃ t v, exec (.hget h d f) s = .next t ∧ WritesX s t d v ∧
    if f.toNat = 6 ∨ f.toNat = 7 then v.toInt = signedField (s.rdH h) (handlePlace f.toNat).1
    else v.toNat = fieldAt (s.rdH h) (handlePlace f.toNat).1 (handlePlace f.toNat).2) ∧
  (∀ h a (f : BitVec 8) s, f.toNat ≤ 10 → ∃ t v, exec (.hput h a f) s = .next t ∧ WritesH s t h v ∧
    ∀ i, i < 256 → v.getLsbD i = if (handlePlace f.toNat).1 ≤ i ∧ i < (handlePlace f.toNat).1 + (handlePlace f.toNat).2 then
      (s.rd a).getLsbD (i - (handlePlace f.toNat).1) else (s.rdH h).getLsbD i) ∧
  (∀ h a s,
    let v := s.rdH h
    let b := efBits ((s.curLaunch.fmt.getD (fieldAt v 60 4) 0).toNat % 16) (v.getLsbD 112)
    let d := stepBits v b (s.rd a).toInt
    let n := if v.getLsbD 112 then 22 else 60
    (d % 8 ≠ 0 → exec (.hstep h a) s = .next (s.raise (s.precise 7 1 0))) ∧
    (d % 8 = 0 → ∃ t w, exec (.hstep h a) s = .next t ∧ WritesH s t h w ∧ w.toNat / 2 ^ n = v.toNat / 2 ^ n ∧
      ((fieldAt w 0 n : Nat) : Int) = (fieldAt v 0 n + d / 8) % 2 ^ n))

/-- R73, R74, R149, R159, R178, R292, R302: HLD completes with one pending handle that reads 32 bytes, HST by queueing the 32 bytes of its
handle; both take the alignment fault and the faults of their place first, and a target in
system space answers or takes the 32 bytes as one access. -/
def Sys2Proof.Claims.HandlesMoveToAndFromMemory : Prop :=
  (∀ (h : HReg) (a : XReg) (la : La) (sp : Space) (off : BitVec 7) (s : State),
    let ad := accessAddr (s.rd a) off.toInt 32
    let i := Instr.hld h a la sp off
    (ad % 32 ≠ 0 → exec i s = .next (s.raise (s.precise 6 0 (BitVec.ofNat 64 ad)))) ∧
    (∀ e, ad % 32 = 0 → s.strandPlace sp ad 32 .read = .error e → exec i s = .next (failed s e (BitVec.ofNat 64 ad))) ∧
    (∀ k l1, ad % 32 = 0 → s.strandPlace sp ad 32 .read = .ok (.mem k l1) →
      (s.poisoned (keysFrom k 32) = true → exec i s = .next (s.raise (s.precise 13 1 (BitVec.ofNat 64 ad)))) ∧
      (s.poisoned (keysFrom k 32) = false → 8 ≤ s.cur.pending → ∃ t, exec i s = .next t ∧ LosesTurn s t) ∧
      (s.poisoned (keysFrom k 32) = false → s.cur.pending < 8 → ∃ t, exec i s = .next t ∧
        AddsPending s t ⟨64 + h.toNat, la.toNat, s.cur.pc, .handle k, none, false, 0, false, none, s.now, s.nextId⟩ 0)) ∧
    (∀ pa, ad % 32 = 0 → s.strandPlace sp ad 32 .read = .ok (.sys pa) → 8 ≤ s.cur.pending → ∃ t, exec i s = .next t ∧ LosesTurn s t) ∧
    (∀ pa, ad % 32 = 0 → s.strandPlace sp ad 32 .read = .ok (.sys pa) → s.cur.pending < 8 →
      AsksTarget i s s ad [ad] s.cur.code pa pa (.read 32) (fun v u => ∃ t, exec i s = .next t ∧ AddsPending (askOver u) t
        ⟨64 + h.toNat, la.toNat, s.cur.pc, .value 0, some (v.setWidth 256), false, 0, false, none, s.now, s.nextId⟩ 0))) ∧
  (∀ (h : HReg) (a : XReg) (sp : Space) (off : BitVec 7) (s : State),
    let ad := accessAddr (s.rd a) off.toInt 32
    let i := Instr.hst h a sp off
    (ad % 32 ≠ 0 → exec i s = .next (s.raise (s.precise 6 0 (BitVec.ofNat 64 ad)))) ∧
    (∀ e, ad % 32 = 0 → s.strandPlace sp ad 32 .write = .error e → exec i s = .next (failed s e (BitVec.ofNat 64 ad))) ∧
    ∃ bs, bs.length = 32 ∧ littleEndian bs = (s.rdH h).toNat ∧
      (∀ k l1, ad % 32 = 0 → s.strandPlace sp ad 32 .write = .ok (.mem k l1) →
        (s.heldAt (.mem k l1) 32 = true → ∃ t, exec i s = .next t ∧ LosesTurn s t) ∧
        (s.heldAt (.mem k l1) 32 = false → ∃ t, exec i s = .next t ∧ SameBytes s t ∧ t = queued s [(keysFrom k 32, .store bs)])) ∧
      (∀ pa, ad % 32 = 0 → s.strandPlace sp ad 32 .write = .ok (.sys pa) →
        AsksTarget i s s ad [ad] s.cur.code (pa + 2 ^ 60) pa (.write bs) (fun _ u => exec i s = .next (askOver u))))

/-- R181: TWAIT completes at once on a global handle, faults on a span outside the allocation or on poison, and else completes exactly when
every granule its span touches carries its ETAG. -/
def Sys2Proof.Claims.TagWaitCompletesOnItsTag : Prop :=
  ∀ (h : HReg) (s : State),
    let v := s.rdH h
    let etag := v.extractLsb' 160 16
    (v.getLsbD 112 = false → exec (.twait h) s = .next s) ∧
    (v.getLsbD 112 = true → s.spanIn (tileOf s.curLaunch.fmt v) = false →
      exec (.twait h) s = .next (s.raise (s.precise 5 4 (BitVec.ofNat 64 (fieldAt v 0 60))))) ∧
    (v.getLsbD 112 = true → s.spanIn (tileOf s.curLaunch.fmt v) = true →
      (etag = 0xFFFF ∨ (∃ g, touches s v g ∧ granuleTag s g = 0xFFFF) → exec (.twait h) s = .next (s.raise (s.precise 3 2 0))) ∧
      (etag ≠ 0xFFFF → (∀ g, touches s v g → granuleTag s g = etag) → exec (.twait h) s = .next s) ∧
      (etag ≠ 0xFFFF → (∀ g, touches s v g → granuleTag s g ≠ 0xFFFF) → (∃ g, touches s v g ∧ granuleTag s g ≠ etag) →
        ∃ t, exec (.twait h) s = .next t ∧ LosesTurn s t))

/-- R174, R177 to R179, R181: the instructions on handle registers, and TWAIT. Choices of the model in it: logs 13, 59, 64. -/
def Obligations.HandleInstructions : Prop :=
  Sys2Proof.Claims.HandleRegisterInstructions ∧ Sys2Proof.Claims.HandlesMoveToAndFromMemory ∧ Sys2Proof.Claims.TagWaitCompletesOnItsTag

/-- R159, R232, R239, R240, R292: LEES.CLR, LEES.SV and LEES.LD lose turns until every earlier QST of the strand has completed. Then LEES.CLR
completes by emptying the bank; the others take the alignment and protection faults of their image. LEES.SV completes by queueing the 264
bytes of the image for scratch, zeros for an empty bank; LEES.LD completes by loading a valid image, of which some words may have been read
earlier, and takes the format fault 0x36 for another. The address of an alignment fault keeps its selector.
Choices of the model in it: logs 13, 54, 59. -/
def Obligations.LeesBankInstructions : Prop :=
  (∀ s, s.qstPending = false → exec .leesClr s = .next { s with cur := { s.cur with lees := ⟨0, []⟩ } }) ∧
  (∀ (a : XReg) (s : State), s.qstPending = true →
    (∃ t, exec .leesClr s = .next t ∧ LosesTurn s t) ∧ (∃ t, exec (.leesSv a) s = .next t ∧ LosesTurn s t) ∧
    (∃ t, exec (.leesLd a) s = .next t ∧ LosesTurn s t)) ∧
  (∀ (a : XReg) (s : State), s.qstPending = false →
    let ad := (s.rd a).toNat % 2 ^ 60
    let k := scrKey (s.cur.id / 64) ad
    let got := s.cur.leesGot
    let left := ((List.range 33).filter (fun j => (find? j got).isNone)).flatMap (fun j => bytesOf (k + 8 * j) 8 false)
    (ad % 8 ≠ 0 → exec (.leesSv a) s = .next (s.raise (s.precise 6 0 (s.rd a))) ∧
      exec (.leesLd a) s = .next (s.raise (s.precise 6 0 (s.rd a)))) ∧
    (ad % 8 = 0 → s.rangeIn ad 264 = false → exec (.leesSv a) s = .next (s.raise (s.precise 5 4 (BitVec.ofNat 64 ad))) ∧
      exec (.leesLd a) s = .next (s.raise (s.precise 5 4 (BitVec.ofNat 64 ad)))) ∧
    (ad % 8 = 0 → s.rangeIn ad 264 = true →
      (s.heldAt (.mem k false) 264 = true → ∃ t, exec (.leesSv a) s = .next t ∧ LosesTurn s t) ∧
      (s.heldAt (.mem k false) 264 = false → ∃ t, exec (.leesSv a) s = .next t ∧ SameBytes s t ∧
        t = queued s ((List.range 33).map (fun j => (keysFrom (k + 8 * j) 8, .store ((s.cur.lees.image.drop (8 * j)).take 8))))) ∧
      (ReadsBad s left → exec (.leesLd a) s = .next (s.raise (s.precise 13 1 (BitVec.ofNat 64 ad)))) ∧
      (¬ ReadsBad s left → s.fixBefore (left.map (·.1)) = none → ∃ t, exec (.leesLd a) s = .next t ∧ LosesTurn s t) ∧
      (∀ m, ¬ ReadsBad s left → s.fixBefore (left.map (·.1)) = some m → EarlierLoadsFixed s m s.cur.pend.length (left.map (·.1)) ∧
        (¬ Readable m s.nextId left → ∃ t, exec (.leesLd a) s = .next t ∧ LosesTurn s t) ∧
        (Readable m s.nextId left → ∃ u, HasRead m u s.nextId left ∧
          let l := leesOf ((List.range 33).flatMap (fun j => (find? j got).getD (m.loadBytes m.cur s.nextId (bytesOf (k + 8 * j) 8 false))))
          let done := { u with cur := { u.cur with leesGot := [] } }
          (l.valid = false → exec (.leesLd a) s = .next (done.raise (s.precise 7 0x36 0))) ∧
          (l.valid = true → exec (.leesLd a) s = .next
            { done with cur := { done.cur with lees := if l.tag = 0 then ⟨0, []⟩ else l, leesPart := true } }))))) ∧
  (∀ l : Lees, l.image.length = 264 ∧ (l.tag = 0 → l.image = List.replicate 264 0) ∧
    (l.tag ≠ 0 → (leesOf l.image).tag = l.tag ∧ ∀ j, j < 64 → (leesOf l.image).residue j = l.residue j))

/-- R244, R245, R247, R249, R250, R251, R296: PUB of a register outside the vine set faults; a second PUB does nothing; the first, once the
strand's accesses are performed, publishes the register. PUB LEES publishes the bank and empties it, or hands on what it would receive,
which stays for it to receive. A publication reaches its own cluster, then the next chunk's; where the launch is yielded there the bytes of
its trellis context in the cluster's image become those with the publication, and no other byte changes. -/
def Sys2Proof.Claims.PublicationsAreMadeOnce : Prop :=
  (∀ (a : XReg) (s : State), s.vineEntry a = none →
    exec (.pub a) s = .next (s.raise (s.precise 8 2 (BitVec.ofNat 64 s.cur.index)))) ∧
  (∀ (a : XReg) (j : Nat) (s : State), s.vineEntry a = some j →
    (s.cur.vp.getLsbD j = true → exec (.pub a) s = .next s) ∧
    (s.cur.vp.getLsbD j = false → s.quiet .all = false → ∃ t, exec (.pub a) s = .next t ∧ LosesTurn s t) ∧
    (s.cur.vp.getLsbD j = false → s.quiet .all = true → exec (.pub a) s = .next { s with
      pubs := s.pubs ++ [⟨s.cur.launch, s.cur.index, j, s.rd a, s.cur.id / 64, false, none⟩]
      cur := { s.cur with vp := s.cur.vp ||| (1 <<< j) } })) ∧
  (∀ s : State, s.curLaunch.desc.lv = false → exec .pubLees s = .next (s.raise (s.precise 8 3 (BitVec.ofNat 64 s.cur.index)))) ∧
  (∀ s : State, s.curLaunch.desc.lv = true → s.cur.leesPub = true → exec .pubLees s = .next s) ∧
  (∀ s : State, s.curLaunch.desc.lv = true → s.cur.leesPub = false → s.qstPending = true ∨ s.quiet .all = false ∨ s.leesRoom = false →
    ∃ t, exec .pubLees s = .next t ∧ LosesTurn s t) ∧
  (∀ s : State, s.curLaunch.desc.lv = true → s.cur.leesPub = false → s.qstPending = false → s.quiet .all = true → s.leesRoom = true →
    let published := fun (m : State) (b : Option Lees) => { m with
      leesPubs := m.leesPubs ++ [⟨s.cur.launch, s.cur.index, b, s.cur.id / 64, false, none⟩]
      cur := { s.cur with lees := ⟨0, []⟩, leesPub := true } }
    (s.cur.leesPart = true → exec .pubLees s = .next (published s (some s.cur.lees))) ∧
    (s.cur.leesPart = false → s.leesIn = .start → exec .pubLees s = .next (published s none)) ∧
    (∀ l, s.cur.leesPart = false → s.leesIn = .bank l → exec .pubLees s = .next (published s (some l))) ∧
    (s.cur.leesPart = false → s.leesIn = .waiting → ∃ t, exec .pubLees s = .next t ∧ LosesTurn s t)) ∧
  (∀ (s : State) (k : Nat) (p : Pub), s.canonical → s.pubs[k]? = some p →
    let next := if p.away.isNone then (s.launch p.launch).nextCluster p.item 8 else none
    ∃ t, exec (.publicationArrive k false) s = .next t ∧
      ImageTakes s t { s with pubs := s.pubs.set k (if p.here then { p with away := p.away.or next } else { p with here := true }) }
        p.launch (if p.here then next else some p.cluster)) ∧
  (∀ (s : State) (k : Nat) (p : LeesPubl), s.canonical → s.leesPubs[k]? = some p →
    let next := if p.away.isNone then (s.launch p.launch).nextCluster p.item 1 else none
    ∃ t, exec (.publicationArrive k true) s = .next t ∧
      ImageTakes s t { s with leesPubs := s.leesPubs.set k (if p.here then { p with away := p.away.or next } else { p with here := true }) }
        p.launch (if p.here then next else some p.cluster)) ∧
  (∀ (s : State) (k : Nat), (s.pubs[k]? = none → exec (.publicationArrive k false) s = .next s) ∧
    (s.leesPubs[k]? = none → exec (.publicationArrive k true) s = .next s))

/-- R64, R244, R247, R251: a wrap whose back references name vine registers and have their values runs its A-word on them, and acquires
where a publication gave one; one outside the vine set faults, and one not yet published loses the turn and records every such wait. -/
def Sys2Proof.Claims.BackReferencesReadPublications : Prop :=
  ∀ (ka kb kc : BitVec 4) (w : Instr) (s : State), isAWord w = true →
    let src := backSources ka kb kc w
    let wraps := exec (.backRefWrap ka kb kc w) s
    (∀ p, src.find? (fun q => q.2 != 0 && (s.vineEntry q.1).isNone) = some p →
      wraps = .next (s.raise (s.precise 8 1 (BitVec.ofNat 64 s.cur.index - BitVec.ofNat 64 p.2)))) ∧
    ((∀ q ∈ src, q.2 ≠ 0 → (s.vineEntry q.1).isSome = true) → (∃ q ∈ src, q.2 ≠ 0 ∧ backValue s q.1 q.2 = none) →
      ∃ t, wraps = .next t ∧ SameBytes s t ∧ t = { s with cur := { s.cur with waitRef := t.cur.waitRef }, disp := .wait } ∧
        ∀ r, r ∈ t.cur.waitRef ↔
          ∃ q, src[r.src]? = some q ∧ q.2 = r.dist ∧ q.2 ≠ 0 ∧ s.vineEntry q.1 = some r.entry ∧ backValue s q.1 q.2 = none) ∧
    ((∀ q ∈ src, q.2 ≠ 0 → (s.vineEntry q.1).isSome = true) → (∀ q ∈ src, q.2 ≠ 0 → (backValue s q.1 q.2).isSome = true) →
      ∃ t m, exec w { s with refs := ⟨backOperand s src 0, backOperand s src 1, backOperand s src 2⟩, disp := .done } = .next m ∧
        wraps = .next t ∧
        (m.disp ≠ .done → t = { m with refs := ⟨none, none, none⟩ }) ∧
        (m.disp = .done → let done := { m with refs := ⟨none, none, none⟩, cur := { m.cur with waitRef := [] } }
          ((∃ q ∈ src, q.2 ≠ 0 ∧ s.curLaunch.desc.first.toNat + q.2 ≤ s.cur.index) → t = done.acquire .package .all ∧
            (t.cluster (m.cur.id / 64)).l1 = []) ∧
          ((∀ q ∈ src, q.2 ≠ 0 → s.cur.index < s.curLaunch.desc.first.toNat + q.2) → t = done)))

/-- R64, R244 to R251: publications, and the back references that read them. Choices of the model in it: logs 3, 33, 64. -/
def Obligations.PublicationsAndBackReferences : Prop :=
  Sys2Proof.Claims.PublicationsAreMadeOnce ∧ Sys2Proof.Claims.BackReferencesReadPublications

/-- R149, R159, R172, R257, R258, R292: SEVT, once its release is made, queues its add, bit 63 of the increment taken as 0; WEVT, which reads the
event after the strand's earlier loads of it, completes with an acquire, as a fence does, where the event it read has bit 63 or the count and
the strand's earlier loads are done, and else keeps what it read and loses its turn until the event is reread.
Choices of the model in it: logs 3, 13, 54, 59. -/
def Obligations.EventInstructions : Prop :=
  (∀ (a b : XReg) (sc : Scope) (s : State),
    let ad := (s.rd a).toNat % 2 ^ 60
    let sevt := exec (.sevt a b sc) s
    let wevt := exec (.wevt a b sc) s
    (ad % 8 ≠ 0 → sevt = .next (s.raise (s.precise 6 0 (BitVec.ofNat 64 ad))) ∧ wevt = .next (s.raise (s.precise 6 0 (BitVec.ofNat 64 ad)))) ∧
    (∀ e, ad % 8 = 0 → s.strandPlace .glob ad 8 .atomic = .error e → sevt = .next (failed s e (BitVec.ofNat 64 ad))) ∧
    (∀ e, ad % 8 = 0 → s.strandPlace .glob ad 8 .read = .error e → wevt = .next (failed s e (BitVec.ofNat 64 ad))) ∧
    (∃ v : Word, v.toNat = (s.rd b).toNat % 2 ^ 63 ∧
      (∀ k l1, ad % 8 = 0 → s.strandPlace .glob ad 8 .atomic = .ok (.mem k l1) →
        (s.poisoned (keysFrom k 8) = true → sevt = .next (s.raise (s.precise 13 1 (BitVec.ofNat 64 ad)))) ∧
        (s.poisoned (keysFrom k 8) = false → s.release sc .globalSp = none → ∃ t, sevt = .next t ∧ LosesTurn s t) ∧
        (∀ u, s.poisoned (keysFrom k 8) = false → s.release sc .globalSp = some u → ∃ t, sevt = .next t ∧ SameBytes s t ∧
          t = queued u [(keysFrom k 8, .event v)])) ∧
      (∀ pa, ad % 8 = 0 → s.strandPlace .glob ad 8 .atomic = .ok (.sys pa) →
        (s.release sc .globalSp = none → ∃ t, sevt = .next t ∧ LosesTurn s t) ∧
        (∀ u, s.release sc .globalSp = some u →
          AsksTarget (.sevt a b sc) s u ad [ad] u.cur.code (pa + 2 ^ 60) pa (.fetchAdd v) (fun _ h => sevt = .next (askOver h))))) ∧
    (let ends := fun (m t : State) (v : Word) =>
      let done := (v.getLsbD 63 = true ∨ (s.rd b).toNat % 2 ^ 63 ≤ v.toNat % 2 ^ 63) ∧ m.loadsDone .globalSp = true
      SameBytes s t ∧ (¬ done → t = { m with cur := { m.cur with seen := some v }, disp := .wait }) ∧
      (done → t = { m with cur := { m.cur with seen := none } }.acquireRead sc .globalSp false)
     (∀ p v, ad % 8 = 0 → s.strandPlace .glob ad 8 .read = .ok p → s.cur.seen = some v → ∃ t, wevt = .next t ∧ ends s t v) ∧
     (∀ k l1, ad % 8 = 0 → s.strandPlace .glob ad 8 .read = .ok (.mem k l1) → s.cur.seen = none →
      (s.poisoned (keysFrom k 8) = true → wevt = .next (s.raise (s.precise 13 1 (BitVec.ofNat 64 ad)))) ∧
      (s.poisoned (keysFrom k 8) = false → s.fixBefore (keysFrom k 8) = none → ∃ t, wevt = .next t ∧ LosesTurn s t) ∧
      (∀ m, s.poisoned (keysFrom k 8) = false → s.fixBefore (keysFrom k 8) = some m →
        EarlierLoadsFixed s m s.cur.pend.length (keysFrom k 8) ∧
        (¬ Readable m s.nextId (bytesOf k 8 false) → wevt = .next { m with disp := .wait }) ∧
        (Readable m s.nextId (bytesOf k 8 false) → ∃ t h v, HasRead m h s.nextId (bytesOf k 8 false) ∧
          v.toNat = littleEndian (m.loadBytes m.cur s.nextId (bytesOf k 8 false)) ∧ wevt = .next t ∧ ends h t v))) ∧
     (∀ pa, ad % 8 = 0 → s.strandPlace .glob ad 8 .read = .ok (.sys pa) → s.cur.seen = none →
      AsksTarget (.wevt a b sc) s s ad [ad] s.cur.code pa pa (.read 8) (fun v h =>
        ∃ t, wevt = .next t ∧ ends (askOver h) t (v.setWidth 64))))) ∧
  (∀ s : State, exec .wevtReread s = .next { s with cur := { s.cur with seen := none } } ∧
    exec .wevtPollTimer s = .next { s with cur := { s.cur with seen := none } })

/-- R54, R75, R271 to R274, R276: a fault of a strand with no scalar result pending whose record can be written, outside a handler and with a
handler set, is taken: the record, %fcause, %faddr, %epc, %estat, supervisor privilege and the handler's address; registers are kept. -/
def Sys2Proof.Claims.TrapEntrySavesAndVectors : Prop :=
  ∀ (s : State) (f : FaultInfo) (k : Nat) (l1 : Bool), s.canonical → s.cur.settled = true → recordAddr s < capVa →
    (let seen := s.globalPlace (some ⟨s.cur.id / 64, [], none⟩) s.cur.ctx (recordAddr s) .read
     seen = .ok (.mem k l1) ∨ ((∃ n, seen = .error (cWalk, n)) ∧ s.globalPlace none s.cur.ctx (recordAddr s) .read = .ok (.mem k l1) ∧
       WalkFree s s.cur.ctx (recordAddr s))) →
    s.owned (k / 64 * 64) = false → k + 256 ≤ sysBase → s.cur.estat.getLsbD 0 = false → bundleAddr s.cur.tvec ≠ 0 →
    let t := s.raise f
    fcauseIs f t.cur.fcause ∧
    t = { s with
      cur := { s.cur with
        pend := (s.cur.pend.filter (fun p => !p.landed)).map (fun p => { p with win := 0 })
        trapWins := (s.cur.pend.filter (fun p => p.win ≠ 0 ∧ p.reg ≠ 0)).map (fun p => (p.reg, p.win, p.prod))
        fence := none
        sys := none
        sysGot := []
        code := none
        leesGot := []
        waitRef := []
        leaves := []
        walkFault := none
        last := some (f.baddr, f.bundle)
        seen := none
        doing := none
        atBar := false
        gbar := if s.cur.atBar then s.cur.gbar - 1 else s.cur.gbar
        faulting := none
        fcause := t.cur.fcause
        faddr := f.addr
        record := t.cur.record
        epc := f.resume
        estat := 0b1001 ||| (if f.deferd then 0b0010 else 0) ||| (if s.cur.inUi then 0b0100 else 0)
        super := true
        stall := if s.four then 16 else 8
        pc := BitVec.ofNat 64 (bundleAddr s.cur.tvec) }
      mem := t.mem
      lineKey := t.lineKey
      poison := t.poison
      told := t.told
      homeUse := t.homeUse
      disp := .trapped } ∧
    (∀ r, r = t.cur.record → r.length = 256 ∧ t.bytesAs s.cur.ctx (keysFrom k 256) = r ∧ recordField r 0 = f.baddr.toNat ∧ recordField r 8 = t.cur.fcause.toNat ∧
      recordField r 16 = f.addr.toNat ∧ recordField r 24 = f.bundle.toNat ∧ recordField r 32 = s.cur.index % 2 ^ 64 ∧
      recordField r 40 = f.prog % 2 ^ 64) ∧
    (∀ q, q < k ∨ k + 256 ≤ q → t.byteAs s.cur.ctx q = s.byteAs s.cur.ctx q)

/-- R75, R271, R277, R278: TRAP enters the handler with its code, the strand to resume after it; a fault waits while scalar results are
pending, or a copy command owns the line of its record; one inside a handler, or without a handler, aborts the launch. -/
def Sys2Proof.Claims.TrapsWaitAndDoubleFaultsAbort : Prop :=
  (∀ (code : BitVec 14) (s : State), exec (.trap code) s = .next (s.raise
    { s.precise 0x0E 0 0 with elem := BitVec.ofNat 32 code.toNat, resume := after s.cur.pc })) ∧
  (∀ (s : State) (f : FaultInfo), s.cur.settled = false ∨ s.recordFree s.cur = false →
    s.raise f = { s with cur := { s.cur with faulting := some f }, disp := .wait }) ∧
  (∀ (s : State) (f : FaultInfo) (l : Launch), s.cur.settled = true → s.recordFree s.cur = true → s.launch? s.cur.launch = some l → l.live = true → s.cur.status = .running →
    (s.cur.estat.getLsbD 0 = true ∨ bundleAddr s.cur.tvec = 0) →
    ((s.raise f).launch? s.cur.launch).map (·.state) = some .aborted ∧ (s.raise f).disp = .left ∧ (s.raise f).cur.status = .idle)

/-- R271 to R278: entry to a trap handler, and the faults that wait or abort. Choices of the model in it: logs 21, 37, 60. -/
def Obligations.TrapEntry : Prop :=
  Sys2Proof.Claims.TrapEntrySavesAndVectors ∧ Sys2Proof.Claims.TrapsWaitAndDoubleFaultsAbort

/-- R75, R194, R277: ERET returns to the bundle %epc names at user privilege with %estat.IN clear, and with WKEEP reopens the windows saved
at entry; UIRET returns to the interrupted bundle and reopens its windows. -/
def Obligations.ReturnsFromHandlers : Prop :=
  (∀ s : State, checkIn s.decEnv .eret = .ok .eret → ∃ t, exec .eret s = .next t ∧ SameBytes s t ∧
    t = { s with cur := { s.cur with
      trapWins := []
      super := false
      estat := s.cur.estat &&& 0b1110
      npc := BitVec.ofNat 64 (bundleAddr s.cur.epc)
      pend := t.cur.pend } } ∧
    (s.cur.estat.getLsbD 3 = false → t.cur.pend = s.cur.pend) ∧
    (s.cur.estat.getLsbD 3 = true → t.cur.pend = s.cur.pend ++ s.cur.trapWins.map reopened)) ∧
  (∀ s : State, checkIn s.decEnv .uiret = .ok .uiret → ∃ t, exec .uiret s = .next t ∧ SameBytes s t ∧
    t = { s with cur := { s.cur with uiWins := [], inUi := false, npc := s.cur.uiPc, pend := s.cur.pend ++ s.cur.uiWins.map reopened } }) ∧
  (∀ t : Strand, (t.closeWindows.openWindows t.windows).windows = t.windows)

/-- R62, R71, R72, R93: MFS reads every special register zero-extended; MTS writes the fields of the writable ones. Of %fpc both wait for
quotients, roots and element loads that have not landed. -/
def Sys2Proof.Claims.SpecialRegistersReadAndWrite : Prop :=
  (∀ (d : XReg) (n : BitVec 10) (v : Word) (s : State), checkIn s.decEnv (.mfs d n) = .ok (.mfs d n) → specialValue s n.toNat = some v →
    (n ≠ 0 ∨ s.cur.floatPending = false → ∃ t, exec (.mfs d n) s = .next t ∧ WritesX s t d v) ∧
    (n = 0 → s.cur.floatPending = true → ∃ t, exec (.mfs d n) s = .next t ∧ LosesTurn s t)) ∧
  (∀ (a : XReg) (n : BitVec 10) (c : Strand) (s : State), checkIn s.decEnv (.mts n a) = .ok (.mts n a) →
    specialWritten s.cur (s.rd a) n.toNat = some c →
    (n ≠ 0 ∨ s.cur.floatPending = false → exec (.mts n a) s = .next { s with cur := c }) ∧
    (n = 0 → s.cur.floatPending = true → ∃ t, exec (.mts n a) s = .next t ∧ LosesTurn s t))

/-- R62, R65, R277: a word that needs supervisor privilege takes the illegal-bundle fault with subcode 5 at user privilege, and its registers
being within the slot mode it then changes nothing else. -/
def Sys2Proof.Claims.PrivilegedWordsTrapAtUserPrivilege : Prop :=
  ∀ (i : Instr) (s : State), needsSupervisor i = true → s.cur.super = false → (∀ r ∈ xFields i, s.four = true ∨ r.toNat < 32) →
    checkIn s.decEnv i = .error .privilege ∧ exec i s = .next (s.raise (s.precise 1 5 0))

/-- R51, R54, R65, R66, R270: an illegal bundle takes its fault with the subcode of the check and its slot, at the bundle; so does a bundle the
decoder rejects, and nothing of it takes effect. -/
def Sys2Proof.Claims.IllegalBundlesFault : Prop :=
  (∀ (slotA : Bool) (sub : BitVec 8) (s : State), exec (.illegalBundle slotA sub) s =
    .next ({ s with inA := slotA }.raise { s.precise 1 sub.toNat 0 with slotA := slotA })) ∧
  (∀ (s : State) (w : Word) (slotA : Bool) (b : Bad), decodeIn s.decEnv w = .error (slotA, b) →
    s.issue w =
      let m := { s with bundle := w, inA := slotA, latch := none, refs := ⟨none, none, none⟩, cur := { s.cur with npc := after s.cur.pc, word := w } }
      m.raise { m.precise 1 b.sub.toNat 0 with slotA := slotA })

/-- R51, R147, R149, R188, R270, R292: with nothing to deliver first, the fetch of a running strand reads eight bytes at its PC from a page with
X, inside a loaded .text; elsewhere, and on an uncorrectable error, it takes the fetch fault with the PC as address and the bundle that led
there; a line that a copy command owns makes it wait. -/
def Sys2Proof.Claims.BundlesAreFetchedFromText : Prop :=
  ∀ s : State, s.cur.status = .running → s.cur.faulting = none → s.cur.fetched = false → s.readyFault = none → s.readyInterrupt = none →
    let a := s.cur.pc.toNat % 2 ^ 60
    let place := s.strandPlace .glob a 8 .fetch
    let faults := fun c n => exec .bundleFetch s = .next (s.raise { s.precise c n s.cur.pc with
      slotA := false
      baddr := match s.cur.last with | some p => p.1 | none => s.cur.pc
      bundle := match s.cur.last with | some p => p.2 | none => 0 })
    (∀ k l1, place = .ok (.mem k l1) → (s.ctx s.cur.ctx).inText a = true →
      (s.poisoned (keysFrom k 8) = true → faults 13 1) ∧
      (s.poisoned (keysFrom k 8) = false → s.unowned (keysFrom k 8) = false → ∃ t, exec .bundleFetch s = .next t ∧ LosesTurn s t) ∧
      (s.poisoned (keysFrom k 8) = false → s.unowned (keysFrom k 8) = true →
        ∃ t v, exec .bundleFetch s = .next t ∧ v.toNat = littleEndian (s.bytesAs s.cur.ctx (keysFrom k 8)) ∧
          t = { s with cur := { s.cur with ibuf := some (s.cur.pc, v) } } ∧ SameBytes s t)) ∧
    (∀ pa v, place = .ok (.sys pa) → (s.ctx s.cur.ctx).inText a = true → find? pa s.cur.sysGot = some (.ok v) →
      exec .bundleFetch s = .next { s with
        cur := { s.cur with sys := none, sysGot := [], code := none, leaves := [], ibuf := some (s.cur.pc, v.setWidth 64) } }) ∧
    (∀ n, place = .error (cWalk, n) → exec .bundleFetch s = .next (s.missed s.cur.pc)) ∧
    (∀ c n, c ≠ cWalk → place = .error (c, n) → faults c n) ∧
    (∀ p, place = .ok p → (s.ctx s.cur.ctx).inText a = false → faults 5 8)

/-- R51, R54, R62, R65, R270: the fetch of a bundle, and the bundles that fault. Choices of the model in it: log 42. -/
def Obligations.FetchAndIllegalBundles : Prop :=
  Sys2Proof.Claims.PrivilegedWordsTrapAtUserPrivilege ∧ Sys2Proof.Claims.IllegalBundlesFault ∧ Sys2Proof.Claims.BundlesAreFetchedFromText

/-- R73, R74, R133, R192: MBOX takes the oldest posted entry, all ones where there is none, and RND draws at the strand's counter, which it
advances; each leaves its value pending, or only takes it where the destination is x0. -/
def Sys2Proof.Claims.MailboxAndRandomDraws : Prop :=
  (∀ (d : XReg) (la : La) (s : State), s.pendFull d = false → ∃ t, exec (.mbox d la) s = .next t ∧ SameBytes s t ∧
    t = { s with cur := { s.cur with
      mbox := s.cur.mbox.drop 1
      pend := if d = 0 then s.cur.pend else s.cur.pend ++ [⟨d.toNat, la.toNat, s.cur.pc,
        .value (s.cur.mbox.headD (BitVec.allOnes 64)), none, false, 0, false, none, s.now, s.nextId⟩]
      vw := if d = 0 then s.cur.vw else s.cur.vw ||| vineBit s d } }) ∧
  (∀ (d : XReg) (la : La) (s : State), s.pendFull d = false → ∃ t, exec (.rnd d la) s = .next t ∧ SameBytes s t ∧
    t = { s with cur := { s.cur with
      cuvc := s.cur.cuvc + 1
      pend := if d = 0 then s.cur.pend else s.cur.pend ++ [⟨d.toNat, la.toNat, s.cur.pc,
        .value (cuvee s.curLaunch.seed (BitVec.ofNat 64 s.cur.index) s.cur.cuvc), none, false, 0, false, none, s.now, s.nextId⟩]
      vw := if d = 0 then s.cur.vw else s.cur.vw ||| vineBit s d } })

/-- R62, R71, R72, R93, R133, R192: MFS, MTS, MBOX and RND. -/
def Obligations.SpecialRegistersMailboxAndDraws : Prop :=
  Sys2Proof.Claims.SpecialRegistersReadAndWrite ∧ Sys2Proof.Claims.MailboxAndRandomDraws

/-- R33, R34, R70: REPART checks its operand, then waits until its drained target has switched and its registers are zero; LAUNCH appends the
64-byte record to its context's device queue, waiting for room; both then complete once. Choices of the model in it: logs 3, 54, 59. -/
def Obligations.RepartitionAndDeviceLaunch : Prop :=
  (∀ (a : XReg) (s : State), checkIn s.decEnv (.repart a) = .ok (.repart a) → s.cur.doing = none →
    let q := (s.rd a).toNat
    let core := q % 2 ^ 10
    let good := q / 2 ^ 17 = 0 ∧ q / 2 ^ 10 % 2 ^ 6 = 0 ∧ core < 768 ∧ core ≠ s.cur.id / 8 ∧ (s.ctx s.cur.ctx).clset.getLsbD (core / 8) = true
    (good → exec (.repart a) s = .next { s with cur := { s.cur with doing := some (.repart core ((s.rd a).getLsbD 16)) }, disp := .wait }) ∧
    (¬ good → exec (.repart a) s = .next (s.raise (s.precise 5 7 (s.rd a))))) ∧
  (∀ (s : State) (c : Nat) (four : Bool), s.cur.doing = some (.repart c four) → s.occupied c = false → s.blocking (c / 8) four = false →
    s.cur.id / 8 ≠ c → ∃ t, exec .repartSwitch s = .next t ∧ SameBytes s t ∧
      t = { s with cores := t.cores, strands := t.strands, cur := { s.cur with doing := some .acted } } ∧
      t.core c = { s.core c with four := four } ∧ (∀ k, k ≠ c → t.core k = s.core k) ∧
      t.strands = s.strands.map (fun u => if u.id / 8 = c then { u with x := Vector.replicate 64 0, h := Vector.replicate 16 0 } else u)) ∧
  (∀ (a : XReg) (s : State), s.cur.doing = some .acted → (checkIn s.decEnv (.repart a) = .ok (.repart a) →
      exec (.repart a) s = .next { s with cur := { s.cur with doing := none } }) ∧
    exec (.launch a) s = .next { s with cur := { s.cur with doing := none } }) ∧
  (∀ (a : XReg) (s : State), s.cur.doing = none →
    let ad := (s.rd a).toNat % 2 ^ 60
    (ad % 64 ≠ 0 → exec (.launch a) s = .next (s.raise (s.precise 6 0 (BitVec.ofNat 64 ad)))) ∧
    (∀ e, ad % 64 = 0 → s.strandPlace .glob ad 64 .read = .error e → exec (.launch a) s = .next (failed s e (BitVec.ofNat 64 ad))) ∧
    (∀ p, ad % 64 = 0 → s.strandPlace .glob ad 64 .read = .ok p → s.quiet .globalSp = false →
      ∃ t, exec (.launch a) s = .next t ∧ LosesTurn s t) ∧
    (let ends := fun (m t : State) (ws : List Word) => SameBytes s t ∧
      ((s.ctx s.cur.ctx).devq.length < 256 → t = { m with ctxs := t.ctxs } ∧
        t.ctx s.cur.ctx = { s.ctx s.cur.ctx with devq := (s.ctx s.cur.ctx).devq ++ [ws] } ∧ (∀ v, v ≠ s.cur.ctx → t.ctx v = s.ctx v)) ∧
      (256 ≤ (s.ctx s.cur.ctx).devq.length → t = { m with cur := { m.cur with doing := some (.launch ws) }, disp := .wait })
     (∀ k l1, ad % 64 = 0 → s.strandPlace .glob ad 64 .read = .ok (.mem k l1) → s.quiet .globalSp = true →
      (s.poisoned (keysFrom k 64) = true → exec (.launch a) s = .next (s.raise (s.precise 13 1 (BitVec.ofNat 64 ad)))) ∧
      (s.poisoned (keysFrom k 64) = false → ¬ Readable s s.nextId (bytesOf k 64 false) → ∃ t, exec (.launch a) s = .next t ∧ LosesTurn s t) ∧
      (∀ ws : List Word, s.poisoned (keysFrom k 64) = false → Readable s s.nextId (bytesOf k 64 false) → ws.length = 8 →
        (∀ i, i < 8 → (ws.getD i 0).toNat = littleEndian (s.bytesAs s.cur.ctx (keysFrom (k + 8 * i) 8))) →
        ∃ t, exec (.launch a) s = .next t ∧ ends s t ws)) ∧
     (∀ pa, ad % 64 = 0 → s.strandPlace .glob ad 64 .read = .ok (.sys pa) → s.quiet .globalSp = true →
      AsksTarget (.launch a) s s ad [ad] s.cur.code pa pa (.read 64) (fun v h => ∃ t, exec (.launch a) s = .next t ∧
        ends (askOver h) t ((List.range 8).map (fun i => BitVec.ofNat 64 (v.toNat / 2 ^ (64 * i)))))))) ∧
  (∀ (s : State) (ws : List Word), s.cur.doing = some (.launch ws) → (s.ctx s.cur.ctx).devq.length < 256 →
    ∃ t, exec .launchAppend s = .next t ∧ SameBytes s t ∧
      t = { s with ctxs := t.ctxs, cur := { s.cur with doing := some .acted } } ∧
      t.ctx s.cur.ctx = { s.ctx s.cur.ctx with devq := (s.ctx s.cur.ctx).devq ++ [ws] } ∧ (∀ v, v ≠ s.cur.ctx → t.ctx v = s.ctx v))

/-- R277, R281: HALT aborts the strand's launch; an abort ends the launch as aborted, empties its slots, and removes its commands, groups,
chunks, publications, saved strands and accesses in flight. Choices of the model in it: log 39. -/
def Obligations.AbortsStopTheWholeLaunch : Prop :=
  (∀ s : State, checkIn s.decEnv .halt = .ok .halt → exec .halt s = .next (s.abort s.cur.launch 3 s.cur.record)) ∧
  (∀ (s : State) (n reason : Nat) (rcd : List Byte) (l : Launch), s.launch? n = some l → l.live = true →
    let t := s.abort n reason rcd
    (t.launch? n).map (·.state) = some .aborted ∧ (∀ u ∈ t.allStrands, (u.launch = n → u.status = .idle) ∧ ∀ g, u.reserved ≠ some (n, g)) ∧
    (∀ c ∈ t.cmds, c.launch ≠ n) ∧ (∀ g ∈ t.groups, g.launch ≠ n) ∧ (∀ h ∈ t.harvest, h.launch ≠ n) ∧ (∀ p ∈ t.pubs, p.launch ≠ n) ∧
    (∀ p ∈ t.leesPubs, p.launch ≠ n) ∧ (∀ a ∈ t.stores, a.launch ≠ n) ∧ (∀ r ∈ (t.ctx l.ctx).saved, r.strand.launch ≠ n) ∧
    (∀ k, k ≠ n → (t.launch? k).map (·.state) = (s.launch? k).map (·.state)))

/-- R141, R252 to R255, R262 to R264: GBAR arrives as a release at cluster scope and loses turns until its barrier completes and its release
comes; the barrier completes when every item of the group has arrived or retired, and what each of them puts first comes before what follows
it; a group that can only wait for itself faults, an item waiting for each of its sources that is late.
Choices of the model in it: logs 3, 21, 54. -/
def Obligations.GroupBarriers : Prop :=
  (∀ s : State, checkIn s.decEnv .gbar = .ok .gbar →
    (s.cur.atBar = false → s.loadsDone .all = false → ∃ t, exec .gbar s = .next t ∧ LosesTurn s t) ∧
    (s.cur.atBar = false → s.loadsDone .all = true → ∃ told : Group → List Nat,
      (∀ g i, i ∈ told g ↔ (∃ a ∈ s.stores, a.id = i ∧ ComesFirst s a) ∨ (i ∈ g.told ∧ Flying s i)) ∧
      exec .gbar s = .next { s with
        cur := { s.cur with atBar := true, gbar := s.cur.gbar + 1 }
        groups := s.groups.map (fun g => if g.launch = s.cur.launch ∧ g.cluster = s.cur.id / 64 ∧ g.g0 = s.cur.g0 then { g with told := told g } else g)
        disp := .wait }) ∧
    (s.cur.atBar = true → s.cur.gbar ≤ s.barrierOf s.cur → s.cur.relAt = none →
      exec .gbar s = .next { s with cur := { s.cur with atBar := false } }) ∧
    (s.cur.atBar = true → s.barrierOf s.cur < s.cur.gbar ∨ s.cur.relAt ≠ none → ∃ t, exec .gbar s = .next t ∧ LosesTurn s t)) ∧
  (∀ (s : State) (n c g0 : Nat) (g : Group), s.groups.find? (fun g => g.launch = n && g.cluster = c && g.g0 = g0) = some g →
    g.yielded = false →
    let ts := s.groupStrands n c g0
    let member := fun (u : Strand) => u.status ≠ .idle ∧ u.launch = n ∧ u.id / 64 = c ∧ u.g0 = g0
    let arrived := fun (u : Strand) => u.atBar = true ∧ u.gbar = g.barrier + 1
    ((∃ u ∈ ts, arrived u) → g.size ≤ (ts.filter (fun u => g.barrier + 1 ≤ u.gbar)).length + g.retired →
      ∃ t : State, exec (.gbarComplete n c g0) s = .next t ∧ SameBytes s t ∧
        t = { s with cur := t.cur, strands := t.strands, groups := t.groups } ∧
        t.groups = s.groups.map (fun k => if k.launch = n ∧ k.cluster = c ∧ k.g0 = g0 then { k with barrier := g.barrier + 1, told := [], ready := k.told }
          else k) ∧
        (∀ (i : Nat) (u : Strand), s.allStrands[i]? = some u → ∃ v, t.allStrands[i]? = some v ∧
          (member u ∧ arrived u → v = { u with relAt := some (s.cycle (c / 24) + 1 + (s.launch n).desc.drz * (u.id / 8 % 8)) }) ∧
          (¬ (member u ∧ arrived u) → v = u))) ∧
    (g.size ≤ ts.length + g.retired → (∃ u ∈ ts, u.gbar < g.barrier + 1) →
      (∀ u ∈ ts, u.gbar < g.barrier + 1 → ∃ i, u.blockedBy (s.launch n).desc (g.barrier + 1) ts = some i) →
      ∃ t : State, exec (.vineBarrierDeadlock n c g0) s = .next t ∧ SameBytes s t ∧ t = { s with cur := t.cur, strands := t.strands } ∧
        (∀ (i : Nat) (u : Strand), s.allStrands[i]? = some u → ∃ v, t.allStrands[i]? = some v ∧
          (member u → v = { u with
            status := .running
            faulting := some (deadlockInfo u ((u.blockedBy (s.launch n).desc (g.barrier + 1) ts).getD u.index)) }) ∧
          (¬ member u → v = u)))) ∧
  (∀ (s : State) (c : Nat), s.cur.relAt = some c → s.now < c ∨ s.cur.atBar = false → exec .gbarRelease s = .next s) ∧
  (∀ (s : State) (c : Nat), s.cur.relAt = some c → c ≤ s.now → s.cur.atBar = true → ∃ t, exec .gbarRelease s = .next t ∧ SameBytes s t ∧
    t = { s with cur := { s.cur with relAt := none, before := t.cur.before }, clusters := (s.emptyL1 (s.cur.id / 64)).clusters } ∧
    (t.cluster (s.cur.id / 64)).l1 = [] ∧ (∀ b ∈ t.cur.before, b.deep = true) ∧
    ∀ id, (∃ b ∈ t.cur.before, b.id = id) ↔ Flying s id ∧ ((∃ b ∈ s.cur.before, b.id = id) ∨
      ((∃ a ∈ s.stores, a.id = id ∧ a.strand ≠ s.cur.sid) ∧ ∃ g, s.groupOf? s.cur = some g ∧ id ∈ g.ready))) ∧
  (∀ (t : Strand) (d : Desc) (n : Nat) (ts : List Strand),
    let holds := fun (w : WaitRef) => w.dist ≤ t.index ∧ ∃ u ∈ ts, u.index = t.index - w.dist ∧ u.atBar = true ∧ u.gbar = n ∧
      u.vp.getLsbD w.entry = false
    (t.waitRef ≠ [] → ((t.blockedBy d n ts).isSome = true ↔ ∃ w ∈ t.waitRef, holds w)) ∧
    (∀ i, t.waitRef ≠ [] → t.blockedBy d n ts = some i → ∃ w ∈ t.waitRef, holds w ∧ i = t.index - w.dist) ∧
    (∀ i, t.waitRef = [] → t.blockedBy d n ts = some i → t.status = .ending ∧ i + 1 = t.index ∧
      ∃ u ∈ ts, u.index = i ∧ u.atBar = true ∧ u.gbar = n)) ∧
  (∀ (t : Strand) (i : Nat), (deadlockInfo t i).cause = 9 ∧ (deadlockInfo t i).addr = BitVec.ofNat 64 i ∧ (deadlockInfo t i).resume = t.pc ∧
    (deadlockInfo t i).baddr = t.pc ∧ (deadlockInfo t i).bundle = t.word)

/-- R194, R270, R278, R279: at a turn outside a handler a deferred fault of the strand's commands is taken first, its command leaving its
queue; then a completion interrupt, which saves the PC and the windows, sets %uid and goes to the handler.
Choices of the model in it: log 23. -/
def Obligations.DeferredFaultsThenInterrupts : Prop :=
  (∀ (s : State) (c : Cmd) (f : DFault), s.cur.status = .running → s.cur.estat.getLsbD 0 = false → s.cur.committed = false →
    s.cur.settled = true → s.cur.faulting = none → s.dueFault = some c → c.dfault = some f →
    ∃ (m : State) (r : FaultInfo), exec .deferredFaultDelivery s = .next (m.raise r) ∧
      m = { s with cmds := m.cmds, owners := m.owners, clusters := m.clusters } ∧ SameBytes s m ∧
      (∀ k, m.cluster k = { s.cluster k with idle := (m.cluster k).idle }) ∧ (∀ k ∈ m.cmds, k.cid ≠ c.cid) ∧ (∀ k ∈ s.cmds, k.cid ≠ c.cid → k ∈ m.cmds) ∧
      r.cause = f.cause ∧ r.sub = f.sub ∧ r.deferd = true ∧ r.resume = s.cur.pc ∧ r.baddr = c.baddr ∧ r.bundle = c.word ∧ r.prog = f.prog ∧
      r.hnd = f.hnd) ∧
  (∀ (s : State) (xid : BitVec 16) (hnd : Word) (rest : List (BitVec 16 × Word)), s.cur.status = .running → s.cur.estat.getLsbD 0 = false →
    s.cur.committed = false → s.cur.inUi = false → s.cur.settled = true → s.cur.faulting = none → s.dueFault = none →
    s.cur.heldInts = (xid, hnd) :: rest → ∃ t, exec .completionInterrupt s = .next t ∧ SameBytes s t ∧
      t.cur.uiPc = s.cur.pc ∧ t.cur.uid = xid.setWidth 64 ∧ t.cur.inUi = true ∧ t.cur.heldInts = rest ∧
      t.cur.uiWins = (s.cur.pend.filter (fun p => p.win ≠ 0 ∧ p.reg ≠ 0)).map (fun p => (p.reg, p.win, p.prod)) ∧
      t.cur.pc = BitVec.ofNat 64 (hnd.toNat % 2 ^ 60) ∧ t.disp = .trapped ∧ t.cur.x = s.cur.x ∧ t.cur.h = s.cur.h ∧
      t.cur.super = s.cur.super ∧ t.cur.estat = s.cur.estat ∧ t.cur.epc = s.cur.epc ∧ t = { s with cur := t.cur, disp := .trapped })

/-- R176, R181, R218 to R222, R225 to R229, R327: a tile command waits for its strand's stores, faults on its tags, waits for room and for an
earlier write of the tensor scale it reads; then it joins the queue with its captured operands, its register pending and its draws
reserved, or the first of its checks that fails is recorded on it, and after those a bad tensor scale. -/
def Sys2Proof.Claims.TileCommandsJoinTheirQueue : Prop :=
  ∀ (i : Instr) (s : State), isTileCommand i = true →
    let p := tileArgs i
    let d := tileIn s p.hd
    let held := dividesByScale i = true ∧ ScaleHeld s d
    let draws := BitVec.ofNat 32 ((drawnElements s i + 1) / 2)
    (StoresOut s → ∃ t, exec i s = .next t ∧ LosesTurn s t) ∧
    (¬ StoresOut s → ∀ n, s.tagFaults (checkedTiles s i) = some n → exec i s = .next (s.raise (s.precise 3 n 0))) ∧
    (¬ StoresOut s → s.tagFaults (checkedTiles s i) = none → ¬ TileRoom s p.xa ∨ held → ∃ t, exec i s = .next t ∧ LosesTurn s t) ∧
    (¬ StoresOut s → s.tagFaults (checkedTiles s i) = none → TileRoom s p.xa → ¬ held →
      (firstUnmet (tileChecklist s i) = none → ¬ ScaleBad s i → ∃ t, exec i s = .next t ∧ SameBytes s t ∧ t = { s with
        cur := { s.cur with
          pend := commandPend s s.nextId p.xa p.la
          vw := commandMark s p.xa
          cuvc := s.cur.cuvc + draws }
        nextId := s.nextId + 1
        cmds := s.cmds ++ [{ newCommand s s.nextId .tile i (s.rdH p.hd) (handleOr s p.ha) (handleOr s p.hb) p.xa with
          xs := extraOperand s i
          tscale := copiedScale s i }] }) ∧
      (∀ f, IssueFault (firstUnmet (tileChecklist s i)) (ScaleBad s i) f →
        ∃ t, exec i s = .next t ∧ RecordsFault s t s.nextId f 0 s.cur.pend p.xa p.la ∧ t.cur.cuvc = s.cur.cuvc + draws))

/-- R232 to R238, R250, R327: QST waits, faults on its tags and joins the tile queue as a tile command does. A continue that finds its bank
empty in a launch with the lees vine first receives, once, what item i − 1 published, for which it waits. -/
def Sys2Proof.Claims.QuantisingStoresJoinTheTileQueue : Prop :=
  ∀ (hd ha : HReg) (la : La) (xa : XReg) (rm : Rm) (cont : Bool) (s : State),
    let out := exec (.qst hd ha la xa rm cont) s
    let receives := cont = true ∧ s.cur.lees.tag = 0 ∧ s.curLaunch.desc.lv = true ∧ s.cur.leesRcv = false
    (StoresOut s → ∃ t, out = .next t ∧ LosesTurn s t) ∧
    (¬ StoresOut s → ∀ n, s.tagFaults [tileIn s ha] = some n → out = .next (s.raise (s.precise 3 n 0))) ∧
    (¬ StoresOut s → s.tagFaults [tileIn s ha] = none → ¬ TileRoom s xa ∨ ScaleHeld s (tileIn s hd) →
      ∃ t, out = .next t ∧ LosesTurn s t) ∧
    (¬ StoresOut s → s.tagFaults [tileIn s ha] = none → TileRoom s xa → ¬ ScaleHeld s (tileIn s hd) →
      (¬ receives → QstIssues hd ha la xa rm cont s out) ∧
      (receives → s.leesIn = .waiting → ∃ t, out = .next t ∧ LosesTurn s t) ∧
      (receives → s.leesIn = .start → QstIssues hd ha la xa rm cont (receivedBank s ⟨tagOf (tileIn s hd) 0, []⟩) out) ∧
      (∀ l, receives → s.leesIn = .bank l → QstIssues hd ha la xa rm cont (receivedBank s l) out))

/-- R218, R221, R233, R327: commands of the tile queue, QST among them, join it. Choices of the model in it: logs 3, 14, 53, 59. -/
def Obligations.TileQueueCommands : Prop :=
  Sys2Proof.Claims.TileCommandsJoinTheirQueue ∧ Sys2Proof.Claims.QuantisingStoresJoinTheTileQueue

/-- R176, R181, R197 to R199, R206, R207, R209, R211, R212, R327: MMA and MMZ wait for their strand's stores, fault on the tags of any of their
iterations, and join the core's queue as one command, or are captured by an armed repeat buffer, whose last body command sends the whole
body; the completion register pends. The first failing iteration and its first failing check are recorded. Without iterations nothing
joins, and the register lands at once with 0. -/
def Sys2Proof.Claims.MatrixCommandsJoinOrAreCaptured : Prop :=
  ∀ (i : Instr) (hd ha hb : HReg) (la : La) (xa : XReg) (mmz : Bool) (s : State), matrixForm i = some (hd, ha, hb, la, xa, mmz) →
    let fmt := s.curLaunch.fmt
    let r := s.cur.rep
    let cap := r.armed = true ∧ s.cur.inUi = false ∧ s.cur.estat.getLsbD 0 = false
    let n := if cap then r.n else 1
    let its := iterations fmt (s.rdH hd) (s.rdH ha) (s.rdH hb) n
    let b : Body := ⟨mmz, s.rdH hd, s.rdH ha, s.rdH hb, xa.toNat, s.nextId, s.cur.pc, s.bundle, s.now, s.cur.id / 8⟩
    let last := ¬ cap ∨ r.got.length + 1 = r.k
    let room := s.pendFull xa = false ∧ (last → s.matrixQueued (s.cur.id / 8) < 16)
    (n ≠ 0 → StoresOut s → ∃ t, exec i s = .next t ∧ LosesTurn s t) ∧
    (n ≠ 0 → ¬ StoresOut s → ∀ k, s.iterationTags fmt mmz its = some k → exec i s = .next (s.raise (s.precise 3 k 0))) ∧
    (n ≠ 0 → ¬ StoresOut s → s.iterationTags fmt mmz its = none → ¬ room → ∃ t, exec i s = .next t ∧ LosesTurn s t) ∧
    (n ≠ 0 → ¬ StoresOut s → s.iterationTags fmt mmz its = none → room →
      (MatrixOutcome s (s.rdH hd) (s.rdH ha) (s.rdH hb) n none →
        (¬ cap → ∃ t, exec i s = .next t ∧ SameBytes s t ∧ t = { s with
          cur := { s.cur with pend := commandPend s s.nextId xa la, vw := commandMark s xa }
          nextId := s.nextId + 2
          cmds := s.cmds ++ [{ newCommand s (s.nextId + 1) .matrix i b.hd b.ha b.hb 0 with body := [b] }] }) ∧
        (cap → r.got.length + 1 < r.k → ∃ t, exec i s = .next t ∧ SameBytes s t ∧ t = { s with
          cur := { s.cur with
            pend := commandPend s s.nextId xa la
            vw := commandMark s xa
            rep := { r with got := r.got ++ [b] } }
          nextId := s.nextId + 1 }) ∧
        (cap → r.got.length + 1 = r.k → ∃ t, exec i s = .next t ∧ SameBytes s t ∧ ∃ o, (r.got ++ [b])[0]? = some o ∧ t = { s with
          cur := { s.cur with
            pend := commandPend s s.nextId xa la
            vw := commandMark s xa
            rep := ⟨false, 0, 0, []⟩ }
          nextId := s.nextId + 2
          cmds := s.cmds ++ [{ newCommand s (s.nextId + 1) .matrix i o.hd o.ha o.hb 0 with
            word := o.word
            baddr := o.baddr
            body := r.got ++ [b]
            iters := r.n }] })) ∧
      (∀ f j, MatrixOutcome s (s.rdH hd) (s.rdH ha) (s.rdH hb) n (some (f, j)) → ∃ t, exec i s = .next t ∧
        RecordsFault s t s.nextId f j (if cap then dropPending (r.got.map (·.cid)) s.cur.pend else s.cur.pend) xa la ∧
        (cap → t.cur.rep = ⟨false, 0, 0, []⟩) ∧ (¬ cap → t.cur.rep = r))) ∧
    (n = 0 → s.pendFull xa = true → ∃ t, exec i s = .next t ∧ LosesTurn s t) ∧
    (n = 0 → s.pendFull xa = false → ∃ t, exec i s = .next t ∧ SameBytes s t ∧ t = { s with
      cur := { s.cur with
        x := t.cur.x
        pend := if xa = 0 then s.cur.pend else s.cur.pend ++ [{ pendingResult s xa la (.value 0) none with landed := true }]
        vw := commandMark s xa
        rep := if r.got.length + 1 < r.k then { r with got := r.got ++ [b] } else ⟨false, 0, 0, []⟩ }
      nextId := s.nextId + 1 } ∧ t.rd xa = 0 ∧ ∀ k, k ≠ xa → t.rd k = s.rd k)

/-- R211: REP arms the repeat buffer for one body command and REPW for one to eight; a count over 4,096 or a body outside 1 to 8 is the format
fault 0x14, and arming an armed buffer 0x15. -/
def Sys2Proof.Claims.RepeatBufferArms : Prop :=
  (∀ (la : La) (xa : XReg) (s : State), (s.rd xa).toNat ≤ 4096 →
    (s.cur.rep.armed = false → exec (.rep la xa) s = .next { s with cur := { s.cur with rep := ⟨true, (s.rd xa).toNat, 1, []⟩ } }) ∧
    (s.cur.rep.armed = true → exec (.rep la xa) s = .next (s.raise (s.precise 7 0x15 0)))) ∧
  (∀ (la : La) (xa : XReg) (s : State), 4096 < (s.rd xa).toNat → exec (.rep la xa) s = .next (s.raise (s.precise 7 0x14 0))) ∧
  (∀ (la : La) (xa xb : XReg) (s : State),
    let ok := (s.rd xa).toNat ≤ 4096 ∧ 1 ≤ (s.rd xb).toNat ∧ (s.rd xb).toNat ≤ 8
    (ok → s.cur.rep.armed = false → exec (.repw la xa xb) s = .next
      { s with cur := { s.cur with rep := ⟨true, (s.rd xa).toNat, (s.rd xb).toNat, []⟩ } }) ∧
    (ok → s.cur.rep.armed = true → exec (.repw la xa xb) s = .next (s.raise (s.precise 7 0x15 0))) ∧
    (¬ ok → exec (.repw la xa xb) s = .next (s.raise (s.precise 7 0x14 0))))

/-- R200, R201, R206, R211: matrix commands join their queue or are captured, and the repeat buffer.
Choices of the model in it: logs 3, 53. -/
def Obligations.MatrixQueueCommands : Prop :=
  Sys2Proof.Claims.MatrixCommandsJoinOrAreCaptured ∧ Sys2Proof.Claims.RepeatBufferArms

/-- R175, R176, R181, R183 to R188, R190 to R194, R196, R292, R327: a copy waits for its strand's stores, faults on its tags, waits for room
and for an earlier write of the list it reads, reads its parameter block, and takes a mailbox entry, for which it waits or faults. It waits
for pages whose walks an owned line holds; then it joins the copy queue with its captured operands and requests its destination lines, or
the first of its checks that fails is recorded, and after those a bad list. Choices of the model in it: logs 3, 26, 53, 59, 60, 63, 64. -/
def Obligations.CopiesJoinTheirQueue : Prop :=
  ∀ (i : Instr) (hd ha hb : Handle) (target : Nat) (xb : XReg) (s : State), copyForm s i = some (hd, ha, hb, target, xb) →
    let fmt := s.curLaunch.fmt
    let a := (s.rd xb).toNat % 2 ^ 60
    let list := tileOf fmt hb
    let reads := s.tagFaults (copyReads s i)
    let captured := (copyTiles s i hd ha hb).length = 3 ∧ (inScratch list && efOf list = 11 && axisOf list = 0 && rowsOf list = 1
      && decide (colsOf list ≤ 32) && inGroup s (baseOf list) (spanBytes list)) = true
    let room := s.outstanding .copy < 16 ∧ s.queued .copy (s.cur.id / 64) < 32 ∧
      ¬ (captured ∧ s.readHeld (baseOf list) (spanBytes list) = true)
    (StoresOut s → ∃ t, exec i s = .next t ∧ LosesTurn s t) ∧
    (¬ StoresOut s → ∀ n, reads = some n → exec i s = .next (s.raise (s.precise 3 n 0))) ∧
    (¬ StoresOut s → reads = none → ¬ room → ∃ t, exec i s = .next t ∧ LosesTurn s t) ∧
    (¬ StoresOut s → reads = none → room → (∀ m r, ¬ BlockRead s m a r) → ∃ t, exec i s = .next t ∧ BlockWaits s t a) ∧
    (∀ m r, ¬ StoresOut s → reads = none → room → BlockRead s m a r →
      let blk : BitVec 512 := match r with | .ok b => b | .error _ => 0
      let mb := blk.getLsbD 211
      (mb = true → 16 ≤ s.cur.mailUse → exec i s = .next (m.raise { s.precise 0x0A 5 0 with pblk := blk })) ∧
      ((mb = true → s.cur.mailUse < 16) →
        ∃ is : List (BitVec 32), (captured → is.length = colsOf list ∧ ∀ p, p < colsOf list → (is.getD p 0).toNat = littleEndian
            ((List.range 4).map (fun j => s.raw (2 ^ 52 + s.cur.id / 64 * 2 ^ 22 + baseOf list + 4 * p + j)))) ∧ (¬ captured → is = []) ∧
        let tensor := tileOf fmt (match i with | .gath .. => ha | _ => hd)
        let c := { newCommand s s.nextId .copy i hd ha hb 0 with
          xs := s.rd xb
          target := target
          pblk := blk
          mb := mb
          idxs := is
          mask := statusMask tensor is
          key := if blk.getLsbD 210 then (s.ctx s.cur.ctx).impKey else none }
        let chk := firstUnmet (copyChecklist m c (match r with | .ok _ => none | .error f => some f))
        let bad := captured ∧ MeetsBad s (s.cur.id / 64) (baseOf list, baseOf list + spanBytes list - 1)
        let waits := (mb = true ∧ 16 ≤ s.mailTaken) ∨ ∃ p : Bool, (p = true ↔ chk = none ∧ ¬ bad) ∧ m.pagesHeld c p true = true
        (waits → ∃ t, exec i s = .next t ∧ LosesTurn m t) ∧
        (¬ waits → chk = none → ¬ bad → (∀ o ∈ s.owners, o.cid ≠ s.nextId) → ∃ t, exec i s = .next t ∧ SameBytes s t ∧ t = { m with
          cur := { m.cur with mboxRes := s.cur.mboxRes + (if mb then 1 else 0) }
          nextId := s.nextId + 1
          cmds := s.cmds ++ [c]
          owners := t.owners } ∧
          ∀ l, l ∈ t.owners ↔ l ∈ s.owners ∨ (l.cid = c.cid ∧ l.granted = false ∧ l.line ∈ t.linesFrom c 0)) ∧
        (¬ waits → ∀ f, IssueFault chk bad f → ∃ t, exec i s = .next t ∧ RecordsFault s t s.nextId f 0 s.cur.pend 0 0)))

/-- R182, R206, R209, R214, R216, R230: the unstarted command of a core's matrix queue that goes on next starts, with its cluster's permit. Of
the free permits of a die, which move on by one cluster a cycle, the one that comes first to a waiting cluster is taken there, in or after
the cycle in which it comes, and put back 64 cycles after the cluster's last command left. -/
def Sys2Proof.Claims.MatrixCommandsStartUnderPermits : Prop :=
  (∀ (s : State) (core : Nat) (c : Cmd), GoesNext s.unitClear ((s.matrixQueue core).filter (fun c => !c.started)) (some c) →
    (s.cluster (core / 8)).permit = true → ∃ t, exec (.matrixCommandStart core) s = .next t ∧ SameBytes s t ∧
      t = { s with cmds := s.cmds.map (fun (k : Cmd) => if k.cid = c.cid then { c with started := true } else k) }) ∧
  (∀ (s : State) (core : Nat), (s.cluster (core / 8)).permit = false ∨
    GoesNext s.unitClear ((s.matrixQueue core).filter (fun c => !c.started)) none → exec (.matrixCommandStart core) s = .next s) ∧
  (∀ (s : State) (cl since T : Nat) (p : Permit), WaitsForPermit s cl since → p ∈ s.pkg.ring → p.die = cl / 24 → ComesAt p cl since T →
    T ≤ s.cycle (cl / 24) → heldPermits s (cl / 24) < s.pkg.permits.getD (cl / 24) 0 →
    (∀ d u U, ∀ q ∈ s.pkg.ring, d / 24 = cl / 24 → q.die = cl / 24 → WaitsForPermit s d u → ComesAt q d u U →
      T < U ∨ (T = U ∧ d = cl)) →
    ∃ p' ∈ s.pkg.ring, p'.die = cl / 24 ∧ ComesAt p' cl since T ∧ ∃ t, exec (.permitAcquire cl) s = .next t ∧ SameBytes s t ∧
      t = { s with clusters := t.clusters, pkg := { s.pkg with ring := s.pkg.ring.erase p' } } ∧
      t.cluster cl = { s.cluster cl with permit := true } ∧ ∀ d, d ≠ cl → t.cluster d = s.cluster d) ∧
  (∀ (s : State) (cl : Nat),
    (∀ since, ¬ WaitsForPermit s cl since) ∨ s.pkg.permits.getD (cl / 24) 0 ≤ heldPermits s (cl / 24) ∨
      (∀ since T, ∀ p ∈ s.pkg.ring, p.die = cl / 24 → WaitsForPermit s cl since → ComesAt p cl since T → s.cycle (cl / 24) < T ∨
        ∃ d u U, ∃ q ∈ s.pkg.ring, d / 24 = cl / 24 ∧ q.die = cl / 24 ∧ WaitsForPermit s d u ∧ ComesAt q d u U ∧ U < T) →
    exec (.permitAcquire cl) s = .next s) ∧
  (∀ (s : State) (cl : Nat), (s.cluster cl).permit = true → s.clusterMatrix cl = [] →
    (s.cluster cl).idle + 64 ≤ s.cycle (cl / 24) →
    let out := (s.pkg.ring.filter (fun p => p.die = cl / 24)).length + heldPermits s (cl / 24)
    ∃ t, exec (.permitReturn cl) s = .next t ∧ SameBytes s t ∧ t = { s with
        clusters := t.clusters
        pkg := { s.pkg with ring := if out ≤ s.pkg.permits.getD (cl / 24) 0 then s.pkg.ring ++ [⟨cl / 24, cl % 24, s.cycle (cl / 24)⟩]
          else s.pkg.ring } } ∧
      t.cluster cl = { s.cluster cl with permit := false } ∧ ∀ d, d ≠ cl → t.cluster d = s.cluster d)

/-- R182, R201, R207, R210, R211, R258, R268, R292: each iteration of a started matrix command waits for the holds of earlier commands and
changes scratch bytes alone, or writes what is left of one in progress, bit by bit; one that reads a bad word takes a deferred machine check.
The last iteration of a body command lands its register with the number of iterations, no other lands any, and after the last of all the
command leaves its queue and its cluster is idle from then on. -/
def Sys2Proof.Claims.MatrixIterationsComplete : Prop :=
  (∀ (s : State) (core : Nat), GoesNext s.unitClear ((s.matrixQueue core).filter (fun c => c.started)) none →
    exec (.matrixIterationComplete core) s = .next s) ∧
  (∀ (s : State) (core : Nat) (c : Cmd) (b : Body), GoesNext s.unitClear ((s.matrixQueue core).filter (fun c => c.started)) (some c) →
    c.body[c.prog % c.body.length]? = some b → LeftInScratch c →
    let j := c.prog / c.body.length
    let bad := c.late = none ∧ ∃ r ∈ iterationReads (s.launch c.launch).fmt b j, MeetsBad s (core / 8) r
    let m := match c.late with
      | none => s.matrixIteration (core / 8) (s.launch c.launch).fmt b j
      | some cells => s.putCells cells
    m = { s with mem := m.mem, poison := m.poison, told := m.told } ∧ SameBelowScratch s m ∧
    (∀ cells, s.canonical → c.late = some cells → CellsWritten s m cells) ∧
    (bad → ∃ t, exec (.matrixIterationComplete core) s = .next t ∧ SameBytes s t ∧ CommandFaults s t c (0x0D, 1) j j) ∧
    (¬ bad → j + 1 ≠ c.iters → c.prog + 1 ≠ c.iters * c.body.length → ∃ t, exec (.matrixIterationComplete core) s = .next t ∧
      t = { m with
        poison := t.poison
        cmds := s.cmds.map (fun (k : Cmd) => if k.cid = c.cid then { c with prog := c.prog + 1, late := none } else k) }) ∧
    (¬ bad → j + 1 = c.iters → ∃ t, exec (.matrixIterationComplete core) s = .next t ∧ t.mem = m.mem ∧
      (s.cur.status ≠ .idle → s.cur.launch = c.launch → s.cur.index = c.item → ∀ n p,
        s.cur.pend.findIdx? (fun q => q.op = .cmd b.cid && !q.landed) = some n → s.cur.pend[n]? = some p →
        ∀ r : XReg, r ≠ 0 → r.toNat = p.reg → t.rd r = BitVec.ofNat 64 c.iters)) ∧
    (¬ bad → c.prog + 1 = c.iters * c.body.length → (s.cluster (core / 8)).permit = true →
      ∃ t, exec (.matrixIterationComplete core) s = .next t ∧ t.mem = m.mem ∧ t.lineKey = s.lineKey ∧
      t.cmds = s.cmds.filter (fun (k : Cmd) => k.cid ≠ c.cid) ∧
      ((∀ k ∈ s.clusterMatrix (core / 8), k.cid = c.cid) → (t.cluster (core / 8)).idle = s.cycle (core / 8 / 24)) ∧
      ((∃ k ∈ s.clusterMatrix (core / 8), k.cid ≠ c.cid) → (t.cluster (core / 8)).idle = (s.cluster (core / 8)).idle) ∧
      t = { s with
        cur := t.cur
        strands := t.strands
        ctxs := t.ctxs
        clusters := t.clusters
        mem := m.mem
        poison := t.poison
        told := m.told
        cmds := t.cmds
        owners := t.owners }))

/-- R199, R201, R205: an iteration leaves in each element of the accumulator the float path or the integer path of the row of HA and the column
of HB and of the old element, which MMZ does not read, and changes no other byte. -/
def Sys2Proof.Claims.MatrixIterationsAccumulateRows : Prop :=
  ∀ (s : State) (cl : Nat) (fmt : List (BitVec 128)) (b : Body) (j : Nat) (hd ha hb : Handle) (K : Nat) (fl : Bool), s.canonical → cl < 96 →
    stepHandle fmt b.hd j = some hd → stepHandle fmt b.ha j = some ha → stepHandle fmt b.hb j = some hb →
    let d := tileOf fmt hd
    let a := tileOf fmt ha
    let v := tileOf fmt hb
    matrixPair a v = some (K, fl) → matrixShaped d a v K → efOf d = (if fl then 10 else 11) → scfOf d = 0 → fieldsRight d = true →
    baseOf d % 2 ^ 22 + spanBytes d ≤ 2 ^ 22 →
    let m := s.matrixIteration cl fmt b j
    (∀ r c, r < 16 → c < 16 →
      let as := (List.range K).map (fun k => valueIn s cl a r k)
      let bs := (List.range K).map (fun k => valueIn s cl v k c)
      let old := codeIn s cl d r c
      codeIn m cl d r c = if fl then
          floatRow (decide (efOf a = 6 ∨ efOf a = 7)) (windowWidth (efOf a)) as bs (if b.mmz then none else some (fp32.decode old))
        else intRow as bs (if b.mmz then none else some old)) ∧
    (∀ q, (∀ r c i, r < 16 → c < 16 → i < 4 → q ≠ elementKey cl d r c + i) → m.raw q = s.raw q)

/-- R202 to R205: on finite operands an element of the float path is the sum of its products windowed at the largest one, then added to the
accumulator exactly and rounded once; where every product is zero it is the accumulator, and of a zero the sum's sign. A NaN, a product of
infinity and zero or infinities of both signs give the NaN, other infinities theirs. The integer path adds exactly and clamps. -/
def Sys2Proof.Claims.MatrixElementsAccumulate : Prop :=
  (∀ (int : Bool) (w : Nat) (as bs : List Val) (qa qb : List ℚ) (e : Int) (acc : Option Val) (q : ℚ), 0 < w → as.length = bs.length →
    (∀ v ∈ as, properVal v) → (∀ v ∈ bs, properVal v) → as.map ratOf = qa.map some → bs.map ratOf = qb.map some →
    (∀ v, acc = some v → properVal v ∧ ratOf v = some q) → (acc = none → q = 0) →
    (∃ p ∈ qa.zipWith (· * ·) qb, (2 : ℚ) ^ e ≤ |p|) → (∀ p ∈ qa.zipWith (· * ·) qb, |p| < (2 : ℚ) ^ (e + 1)) →
    let z := windowed w e (qa.zipWith (· * ·) qb) + q
    ∃ v, ratOf v = some z ∧ (z = 0 → v.sign = false) ∧ floatRow int w as bs acc = (fp32.roundNE v).1) ∧
  (∀ (int : Bool) (w : Nat) (as bs : List Val) (acc : Option Val), as.length = bs.length → (∀ v ∈ as ++ bs ++ acc.toList, properVal v) →
    as ≠ [] → (∀ v ∈ as ++ bs, v.isNan = false ∧ v.isInf = false) → (∀ p ∈ as.zip bs, ratOf p.1 = some 0 ∨ ratOf p.2 = some 0) →
    let minus := int = false ∧ ∀ p ∈ as.zip bs, p.1.sign ≠ p.2.sign
    (acc = none → (minus → floatRow int w as bs acc = 0x80000000) ∧ (¬ minus → floatRow int w as bs acc = 0)) ∧
    (∀ v q, acc = some v → ratOf v = some q → (q ≠ 0 → floatRow int w as bs acc = (fp32.roundNE v).1) ∧
      (q = 0 → minus → v.sign = true → floatRow int w as bs acc = 0x80000000) ∧
      (q = 0 → ¬ (minus ∧ v.sign = true) → floatRow int w as bs acc = 0))) ∧
  (∀ (int : Bool) (w : Nat) (as bs : List Val) (acc : Option Val), as.length = bs.length →
    let bad := (∃ v ∈ as ++ bs ++ acc.toList, v.isNan = true) ∨
      ∃ p ∈ as.zip bs, (p.1.isInf = true ∧ p.2.isZero = true) ∨ (p.1.isZero = true ∧ p.2.isInf = true)
    let has := fun (n : Bool) => (∃ p ∈ as.zip bs, (p.1.isInf = true ∨ p.2.isInf = true) ∧ (p.1.sign != p.2.sign) = n) ∨
      acc = some (.inf n)
    (bad ∨ (has true ∧ has false) → floatRow int w as bs acc = 0x7FC00000) ∧
    (¬ bad → has true → ¬ has false → floatRow int w as bs acc = 0xFF800000) ∧
    (¬ bad → has false → ¬ has true → floatRow int w as bs acc = 0x7F800000)) ∧
  (∀ (as bs : List Val) (za zb : List Int) (acc : Option Nat), as.length = bs.length → as = za.map ofInt → bs = zb.map ofInt →
    (∀ v, acc = some v → v < 2 ^ 32) →
    let z : Int := (za.zipWith (· * ·) zb).sum + (match acc with | some v => if v < 2 ^ 31 then (v : Int) else (v : Int) - 2 ^ 32 | none => 0)
    (intRow as bs acc < 2 ^ 32 ∧
      (if intRow as bs acc < 2 ^ 31 then (intRow as bs acc : Int) else (intRow as bs acc : Int) - 2 ^ 32)
        = max (-(2 ^ 31)) (min (2 ^ 31 - 1) z)))

/-- R202, R206, R207, R216: matrix commands start under permits, and their iterations accumulate and complete.
Choices of the model in it: logs 14, 35, 44, 59, 63, 64. -/
def Obligations.MatrixUnitRunsItsCommands : Prop :=
  Sys2Proof.Claims.MatrixCommandsStartUnderPermits ∧
  Sys2Proof.Claims.MatrixIterationsComplete ∧
  Sys2Proof.Claims.MatrixIterationsAccumulateRows ∧
  Sys2Proof.Claims.MatrixElementsAccumulate

/-- R182, R214, R221, R222, R230, R237, R258, R268, R292: of the unstarted tile commands of a cluster the one that goes on next starts, the first by issue
cycle and then by flat core number where its accesses may proceed; each unit waits for them too and changes scratch bytes alone, or writes
what is left of one in progress; after the last one the status word, count above flags, goes to the strand and the command is gone. A bad
word gives a deferred machine check. -/
def Sys2Proof.Claims.TileCommandsStartAndComplete : Prop :=
  (∀ (cs : List Cmd) (c : Cmd), cs.Pairwise (fun a b => a.cycle ≤ b.cycle) → firstIssued cs = some c →
    c ∈ cs ∧ ∀ d ∈ cs, c.cycle < d.cycle ∨ (c.cycle = d.cycle ∧ c.core0 ≤ d.core0)) ∧
  (∀ (s : State) (cl : Nat) (c : Cmd), GoesNext s.tileClear ((s.tileQueue cl).filter (fun c => !c.started)) (some c) →
    ∃ t, exec (.tileCommandStart cl) s = .next t ∧ SameBytes s t ∧
      t = { s with cmds := s.cmds.map (fun (k : Cmd) => if k.cid = c.cid then { c with started := true } else k) }) ∧
  (∀ (s : State) (cl : Nat), GoesNext s.tileClear ((s.tileQueue cl).filter (fun c => !c.started)) none →
    exec (.tileCommandStart cl) s = .next s) ∧
  (∀ (s : State) (cl : Nat), GoesNext s.unitClear ((s.tileQueue cl).filter (fun c => c.started)) none →
    exec (.tileUnitComplete cl) s = .next s) ∧
  (∀ (s : State) (cl : Nat) (c : Cmd), GoesNext s.unitClear ((s.tileQueue cl).filter (fun c => c.started)) (some c) → LeftInScratch c →
    let fmt := (s.launch c.launch).fmt
    let units := tileWork c (tileOf fmt c.hd) (tileOf fmt c.ha)
    let bad := c.late = none ∧ ∃ r ∈ unitReads s c, MeetsBad s cl r
    (bad → ∃ t, exec (.tileUnitComplete cl) s = .next t ∧ SameBytes s t ∧ CommandFaults s t c (0x0D, 1) c.prog c.prog) ∧
    (¬ bad → ∃ (t : State) (d : Cmd), exec (.tileUnitComplete cl) s = .next t ∧ SameBelowScratch s t ∧ d.prog = c.prog + 1 ∧
      d = { c with prog := d.prog, cnt := d.cnt, flags := d.flags, bank := d.bank, late := none } ∧
      (c.late = none → d.cnt = c.cnt + units.2 ∧ d.flags &&& c.flags = c.flags) ∧
      (∀ cells, c.late = some cells → d.cnt = c.cnt ∧ d.flags = c.flags ∧ d.bank = c.bank ∧
        t.mem = (s.putCells cells).mem ∧ (s.canonical → CellsWritten s t cells)) ∧
      (c.prog + 1 < units.1 → t = { s with
        mem := t.mem
        poison := t.poison
        told := t.told
        free := t.free
        cmds := s.cmds.map (fun (k : Cmd) => if k.cid = c.cid then d else k) }) ∧
      (units.1 ≤ c.prog + 1 → t.cmds = s.cmds.filter (fun (k : Cmd) => k.cid ≠ c.cid) ∧
        (∀ p i, s.cur.status ≠ .idle → s.cur.launch = c.launch → s.cur.index = c.item →
          s.cur.pend.findIdx? (fun q => q.op = .cmd c.cid && !q.landed) = some i → s.cur.pend[i]? = some p → 0 < p.reg → p.reg < 64 →
          ∀ r : XReg, r.toNat = p.reg → (t.rd r).toNat = d.cnt % 2 ^ 32 * 2 ^ 32 + d.flags.toNat))))

/-- R222 to R226: a unit of a command that works element by element, a TCVT without blocks among them, leaves in each element of its line of
HD the code of its result, reports the flags, and writes no other byte. -/
def Sys2Proof.Claims.TileLinesHoldTheirResults : Prop :=
  ∀ (s : State) (cl : Nat) (c : Cmd), RunsUnit s cl c →
    let d := commandTile s c c.hd
    elementwise c.instr d = true → c.prog < linesOf d → Placed d → (scfOf d = 1 → ScalesPlaced d) →
    (∀ t ∈ sourcesOf s c, Placed t ∧ ReadApart d t) → (∀ hd ha la xa, c.instr = .ttrn hd ha la xa → shareByte d (commandTile s c c.ha) = false) →
    ∃ (t : State) (flags : BitVec 6), ReportsUnit s t cl c flags ∧
      (∀ p, p < lineElems d → ∀ v, elementResult s cl c (rowAt d c.prog p) (colAt d c.prog p) = some v →
        codeIn t cl d (rowAt d c.prog p) (colAt d c.prog p) = v.1) ∧
      ((∀ p, p < lineElems d → (elementResult s cl c (rowAt d c.prog p) (colAt d c.prog p)).isSome = true) →
        ∀ i, i < 6 → flags.getLsbD i = (List.range (lineElems d)).any (fun p =>
          (elementResult s cl c (rowAt d c.prog p) (colAt d c.prog p)).any (fun v => v.2.getLsbD i))) ∧
      (∀ k, (∀ p i, p < lineElems d → i < (bitsOf d + 7) / 8 → k ≠ elementKey cl d (rowAt d c.prog p) (colAt d c.prog p) + i) →
        t.raw k = s.raw k)

/-- R227: a unit of TRED leaves in its element of HD the rounded value of the tree over its line of HA, whose leaves are rounded into FP32
and which splits n values at the largest power of two below n; a sum is rounded in FP32 at each step, a NaN gives a NaN, and −0 is below
+0. -/
def Sys2Proof.Claims.ReductionsFollowTheTree : Prop :=
  (∀ (s : State) (cl : Nat) (c : Cmd) (hd ha la xa rm op), RunsUnit s cl c → c.instr = .tred hd ha la xa rm op →
    let d := commandTile s c c.hd
    let a := commandTile s c c.ha
    let k := c.prog
    inScratch d = true → inScratch a = true →
    let vs := (List.range (lineElems a)).map (fun p => valueIn s cl a (rowAt a k p) (colAt a k p))
    let tree := redTree op 13 vs
    let out := roundElem (efOf d) (modeFor s c rm d k) (tree.1.over (c.destScale d).1 (c.destScale d).2)
    ∃ t, ReportsUnit s t cl c ((tree.2 ||| out.2).setWidth 6) ∧
      codeIn t cl d (if axisOf a = 0 then k else 0) (if axisOf a = 0 then 0 else k) = out.1 % 2 ^ efCode (efOf d)) ∧
  (∀ op v, redTree op 13 [v] = (fp32.decode (fp32.roundNE v).1, (fp32.roundNE v).2)) ∧
  (∀ op (vs : List Val) (i : Nat), vs.length ≤ 4096 → 2 ^ i < vs.length → vs.length ≤ 2 ^ (i + 1) →
    let a := redTree op 13 (vs.take (2 ^ i))
    let b := redTree op 13 (vs.drop (2 ^ i))
    let r := redStep op a.1 b.1
    redTree op 13 vs = (r.1, a.2 ||| b.2 ||| r.2)) ∧
  (∀ a b : Val,
    (∀ x y, ratOf a = some x → ratOf b = some y → ∃ v, ratOf v = some (x + y) ∧ (x + y = 0 → v.sign = (a.sign && b.sign)) ∧
      redStep .sum a b = (fp32.decode (fp32.roundNE v).1, (fp32.roundNE v).2)) ∧
    (a.isNan = true ∨ b.isNan = true → ∀ op, (redStep op a b).1.isNan = true ∧ (redStep op a b).2 = 0) ∧
    (∀ n, a = .inf n → b = .inf (!n) → (redStep .sum a b).1.isNan = true ∧ (redStep .sum a b).2 = 16) ∧
    (∀ n, a = .inf n ∨ b = .inf n → a.isNan = false → b.isNan = false → a ≠ .inf (!n) → b ≠ .inf (!n) → redStep .sum a b = (.inf n, 0)) ∧
    (a.isNan = false → b.isNan = false →
      redStep .max a b = (if Val.below a b then b else a, 0) ∧ redStep .min a b = (if Val.below a b then a else b, 0)))

/-- R228: a unit of TSELK leaves in its column of HD the codes of the first k rows of HA in rank order, and in HB their row numbers; NANSEL
says that one of them is a NaN. -/
def Sys2Proof.Claims.SelectionsAreRanked : Prop :=
  ∀ (s : State) (cl : Nat) (c : Cmd) (f : TileForm) (xb : XReg) (least : Bool), RunsUnit s cl c → c.instr = .tselk f xb least →
    let d := commandTile s c c.hd
    let a := commandTile s c c.ha
    let b := commandTile s c c.hb
    let q := c.prog
    let k := rowsOf d
    Placed d → Placed a → Placed b → shareByte d a = false → shareByte b a = false → shareByte d b = false → rowsOf b = k →
    colsOf d = colsOf a → colsOf b = colsOf a → q < colsOf a → k ≤ rowsOf a → scfOf a = 0 →
    let v := fun r => valueIn s cl a r q
    ∃ (t : State) (row : Nat → Nat),
      (∀ i, i < k → row i < rowsOf a ∧ codeIn t cl d i q = codeIn s cl a (row i) q % 2 ^ efCode (efOf d) ∧
        codeIn t cl b i q = row i % 2 ^ efCode (efOf b)) ∧
      (∀ i j, i < j → j < k → RanksBefore least (v (row i)) (row i) (v (row j)) (row j)) ∧
      (∀ r, r < rowsOf a → (∀ i, i < k → row i ≠ r) → ∀ i, i < k → RanksBefore least (v (row i)) (row i) (v r) r) ∧
      ReportsUnit s t cl c (if ∃ i, i < k ∧ (v (row i)).isNan = true then 32 else 0)

/-- R126, R226, R326: a unit of a TCVT into blocks writes for each block of its line the scale of the block's values, and codes of the values
divided by it, or where the scale is 0xFF the format's NaN. -/
def Sys2Proof.Claims.BlocksAreConvertedUnderTheirScale : Prop :=
  ∀ (s : State) (cl : Nat) (c : Cmd) (hd ha la xa rm), RunsUnit s cl c → c.instr = .tcvt hd ha la xa rm →
    let d := commandTile s c c.hd
    let a := commandTile s c c.ha
    let l := c.prog
    let n := 2 ^ blkOf d
    let v := fun p => valueIn s cl a (spread (rowsOf a) (rowAt d l p)) (spread (colsOf a) (colAt d l p))
    scfOf d = 1 → blocksAlong d = true → lineElems d % n = 0 → l < linesOf d → Placed d → Placed a → ScalesPlaced d → ReadApart d a →
    ScalesApart d a → shareByte d a = false →
    let X := fun p => scaleFor ((List.range n).map (fun i => v (p / n * n + i))) (efOf d)
    let out := fun p => if X p = 255 then ((nanElem (efOf d)).1, if (nanElem (efOf d)).2 then 16 else 0)
      else roundElem (efOf d) (modeFor s c rm d (rowAt d l p * colsOf d + colAt d l p)) ((v p).scale (127 - (X p : Int)))
    ∃ (t : State) (flags : BitVec 6), ReportsUnit s t cl c flags ∧
      (∀ i, i < 6 → flags.getLsbD i = (List.range (lineElems d)).any (fun p => (out p).2.getLsbD i)) ∧
      ∀ p, p < lineElems d → scaleIn t cl d (rowAt d l p) (colAt d l p) = X p ∧
        codeIn t cl d (rowAt d l p) (colAt d l p) = (out p).1 % 2 ^ efCode (efOf d)

/-- R236, R237, R326: a unit of QST converts a line of HA position by position: under its block's scale or the tensor scale, a shaped one with
the residue of the position before added first; the last residue goes to the bank. -/
def Sys2Proof.Claims.QuantisedLinesCarryTheirResidue : Prop :=
  ∀ (s : State) (cl : Nat) (c : Cmd) (hd ha la xa rm cont), RunsUnit s cl c → c.instr = .qst hd ha la xa rm cont →
    let d := commandTile s c c.hd
    let a := commandTile s c c.ha
    let l := c.prog
    let n := lineElems d
    let blocks := scfOf d = 1
    let len := if blocks then 2 ^ blkOf d else n
    let shaped := rmCodeOf rm d.entry = 3 ∨ rmCodeOf rm d.entry = 4
    let v := fun p => valueIn s cl a (spread (rowsOf a) (rowAt d l p)) (spread (colsOf a) (colAt d l p))
    let X := fun p => scaleFor ((List.range (min len (n - p / len * len))).map (fun i => v (p / len * len + i))) (efOf d)
    let sc : Nat → Nat × Nat := fun p => if blocks then (if 127 ≤ X p then (2 ^ (X p - 127), 1) else (1, 2 ^ (127 - X p))) else c.destScale d
    let old := fp32.decode ((s.issuer c).lees.residue l).toNat
    (blocks → blocksAlong d = true ∧ ScalesPlaced d ∧ ScalesApart d a) → l < linesOf d → Placed d → Placed a → ReadApart d a →
    shareByte d a = false → (cont = true → old.isNan = false) →
    ∃ (t : State) (flags : BitVec 6) (res : Nat → Val),
      let bank := c.bank ++ [BitVec.ofNat 32 (fp32.roundNE (res n)).1]
      UnitLeaves s t cl c flags bank ∧
      (shaped → linesOf d ≤ l + 1 → s.cur.status ≠ .idle → s.cur.launch = c.launch → s.cur.index = c.item → t.cur.lees.c = bank) ∧
      res 0 = (if cont then old else .num false 0 1) ∧
      let w := fun p => fp32.decode (fp32.roundNE ((v p).add (res p)).1).1
      let mode := fun p => modeFor s c rm d (l * n + p)
      (∀ i, i < 6 → flags.getLsbD i = (List.range n).any (fun p =>
        (if blocks ∧ X p = 255 then (if (nanElem (efOf d)).2 then 16 else 0)
          else if shaped then (roundElem (efOf d) (mode p) ((w p).over (sc p).1 (sc p).2)).2 ||| (if (w p).isInf then 4 else 0)
          else (roundElem (efOf d) (mode p) ((v p).over (sc p).1 (sc p).2)).2 : BitVec 5).getLsbD i)) ∧
      ∀ p, p < n →
        let code := codeIn t cl d (rowAt d l p) (colAt d l p)
        (blocks → scaleIn t cl d (rowAt d l p) (colAt d l p) = X p) ∧
        (blocks → X p = 255 → code = (nanElem (efOf d)).1 % 2 ^ efCode (efOf d) ∧ res (p + 1) = .num false 0 1) ∧
        (¬ (blocks ∧ X p = 255) →
          (¬ shaped → code = (roundElem (efOf d) (mode p) ((v p).over (sc p).1 (sc p).2)).1 % 2 ^ efCode (efOf d) ∧ res (p + 1) = res p) ∧
          (shaped →
            let q := roundElem (efOf d) (mode p) ((w p).over (sc p).1 (sc p).2)
            code = q.1 % 2 ^ efCode (efOf d) ∧
            ((v p).isNan = true ∨ (v p).isInf = true ∨ (w p).isInf = true ∨ q.2.getLsbD 2 = true → res (p + 1) = .num false 0 1) ∧
            ((v p).isNan = false → (v p).isInf = false → (w p).isInf = false → q.2.getLsbD 2 = false →
              ∃ z x y, ratOf (w p) = some x ∧ ratOf (valueOf (efOf d) q.1) = some y ∧ ratOf z = some (x - y * ((sc p).1 : ℚ) / (sc p).2) ∧
                (fp32.roundNE (res (p + 1))).1 = (fp32.roundNE z).1)))

/-- R119 to R121, R127 to R130: rounding a number into an element format: the magnitude in units of the last place, its fraction rounded as the
mode says, ends of the range beyond it, the sign of the number on a zero; NaN and infinity; and the flags. -/
def Sys2Proof.Claims.NumbersAreRoundedIntoElementFormats : Prop :=
  (∀ (ef M bias : Nat) (top : ℚ) (wide : Bool) (m : RMode) (v : Val) (q : ℚ), elementFloat ef = some (M, bias, top, wide) → ratOf v = some q →
    let out := roundElem ef m v
    (q = 0 → ratOf (valueOf ef out.1) = some 0 ∧ (valueOf ef out.1).sign = v.sign ∧ out.2 = 0) ∧
    (∀ e : Int, (2 : ℚ) ^ e ≤ |q| → |q| < (2 : ℚ) ^ (e + 1) →
      let least : ℚ := (2 : ℚ) ^ (1 - (bias : Int))
      let u := (2 : ℚ) ^ (max e (1 - (bias : Int)) - M)
      let mag := roundedMag m (|q| / u) * u
      let free := roundedMag m (|q| / (2 : ℚ) ^ (e - M)) * (2 : ℚ) ^ (e - M)
      (mag ≤ top → ratOf (valueOf ef out.1) = some (if v.sign then -mag else mag) ∧ (valueOf ef out.1).sign = v.sign ∧
        out.2 = (if mag = |q| then 0 else if free ≠ 0 ∧ free < least then 3 else 1)) ∧
      (top < mag → out.2 = 5 ∧ (valueOf ef out.1).sign = v.sign ∧
        (if wide = true ∧ m ≠ .rtz then valueOf ef out.1 = .inf v.sign
         else ratOf (valueOf ef out.1) = some (if v.sign then -top else top))))) ∧
  (∀ (ef bits : Nat) (m : RMode) (v : Val) (q : ℚ), elementInt ef = some bits → ratOf v = some q →
    let out := roundElem ef m v
    let z : Int := (if v.sign then -1 else 1) * (roundedMag m |q| : Int)
    let w := max (-(2 ^ (bits - 1))) (min (2 ^ (bits - 1) - 1) z)
    valueOf ef out.1 = ofInt w ∧ out.2 = (if z ≠ w then 5 else if (z : ℚ) = q then 0 else 1)) ∧
  (∀ (ef : Nat) (m : RMode) (n : Bool), 1 ≤ ef → ef ≤ 11 →
    roundElem ef m (.nan n) = (match ef with | 4 => 0x7F | 5 => 0x7E | 8 => 0x7E00 | 9 => 0x7FC0 | 10 => 0x7FC00000 | _ => 0,
      if ef = 4 ∨ ef = 5 ∨ ef = 8 ∨ ef = 9 ∨ ef = 10 then 0 else 16) ∧
    (∀ M bias top, elementFloat ef = some (M, bias, top, true) → roundElem ef m (.inf n) = ((roundElem ef m (.inf n)).1, 0) ∧
      valueOf ef (roundElem ef m (.inf n)).1 = .inf n) ∧
    (∀ M bias top, elementFloat ef = some (M, bias, top, false) → (roundElem ef m (.inf n)).2 = 16 ∧
      ratOf (valueOf ef (roundElem ef m (.inf n)).1) = some (if n then -top else top)) ∧
    (∀ bits, elementInt ef = some bits → (roundElem ef m (.inf n)).2 = 16 ∧
      valueOf ef (roundElem ef m (.inf n)).1 = ofInt (if n then -(2 ^ (bits - 1)) else 2 ^ (bits - 1) - 1))) ∧
  (∀ (ef : Nat) (xs : List Val) (e : Int),
    (xs.any Val.isNan = true → scaleFor xs ef = 255) ∧
    (xs.any Val.isNan = false → (∀ v ∈ xs, ∀ q, ratOf v = some q → q = 0) → (∀ v ∈ xs, properVal v) →
      scaleFor xs ef = if xs.any Val.isInf then 254 else 0) ∧
    (xs.any Val.isNan = false → (∀ v ∈ xs, properVal v) → (∃ v ∈ xs, ∃ q, ratOf v = some q ∧ (2 : ℚ) ^ e ≤ |q|) →
      (∀ v ∈ xs, ∀ q, ratOf v = some q → |q| < (2 : ℚ) ^ (e + 1)) →
      (scaleFor xs ef : Int) = max (-127) (min 127 (e - largestExponent ef)) + 127))

/-- R223, R224: on finite operands the tile operations compute their exact result, divided by the destination's tensor scale, before the one
rounding of the mode, TRSQ a value that rounds as the exact one; their special values; and the comparisons of TCMP. -/
def Sys2Proof.Claims.TileOperationsAreExact : Prop :=
  (∀ (i : Instr) (f : ℚ → ℚ → ℚ → ℚ) (a b d : Val) (x y z : ℚ) (tn td : Nat), tileExact i = some f → 0 < tn → 0 < td → properVal a →
    properVal b → properVal d → ratOf a = some x → ratOf b = some y → ratOf d = some z →
    ∃ v, tileOp i a b d tn td = some (v, 0) ∧ ratOf v = some (f x y z * td / tn)) ∧
  (∀ hd ha la xa rm (a b d : Val) (x : ℚ) (tn td : Nat), 0 < tn → 0 < td → properVal a → ratOf a = some x →
    (x ≠ 0 → ∃ v, tileOp (.trcp hd ha la xa rm) a b d tn td = some (v, 0) ∧ ratOf v = some (1 / x * td / tn)) ∧
    (0 < x → ∃ v r, tileOp (.trsq hd ha la xa rm) a b d tn td = some (v, 0) ∧ ratOf v = some r ∧ 0 < r ∧
      ∀ (m : ℕ) (i : ℤ), m < 2 ^ 64 → let g : ℚ := m * (2 : ℚ) ^ i * tn / td
        ((m * (2 : ℚ) ^ i < r ↔ g * g * x < 1) ∧ (r < m * (2 : ℚ) ^ i ↔ 1 < g * g * x)))) ∧
  (∀ f rm (a b d : Val) (tn td : Nat),
    (∀ n, a = .inf n → b = .inf (!n) → tileOp (.tadd f rm) a b d tn td = some (.nan false, 16)) ∧
    (∀ n, a = .inf n → b = .inf n → tileOp (.tsub f rm) a b d tn td = some (.nan false, 16) ∧
      tileOp (.tadd f rm) a b d tn td = some (.inf n, 0)) ∧
    (a.isInf = true → b.isZero = true → tileOp (.tmul f rm) a b d tn td = some (.nan false, 16) ∧
      tileOp (.tfma f rm) a b d tn td = some (.nan false, 16)) ∧
    (∀ n, a = .inf n → b.isInf = true → d = .inf (n == b.sign) → tileOp (.tfma f rm) a b d tn td = some (.nan false, 16)) ∧
    (a.isNan = true → b.isNan = false → b.isInf = true → tileOp (.tmax f rm) a b d tn td = some (b, 0) ∧
      tileOp (.tmin f rm) a b d tn td = some (b, 0)) ∧
    (a.isNan = true ∨ b.isNan = true → tileOp (.tadd f rm) a b d tn td = some (.nan false, 0) ∧
      tileOp (.tsub f rm) a b d tn td = some (.nan false, 0) ∧ tileOp (.tmul f rm) a b d tn td = some (.nan false, 0))) ∧
  (∀ hd ha la xa rm (a b d : Val) (tn td : Nat), 0 < tn → 0 < td →
    let exp := tileOp (.texp hd ha la xa rm) a b d tn td
    let log := tileOp (.tlog hd ha la xa rm) a b d tn td
    let rcp := tileOp (.trcp hd ha la xa rm) a b d tn td
    let rsq := tileOp (.trsq hd ha la xa rm) a b d tn td
    let sig := tileOp (.tsig hd ha la xa rm) a b d tn td
    let one : ℚ := td / tn
    (a.isNan = true → ∀ r ∈ [exp, log, rcp, rsq, sig], r = some (.nan false, 0)) ∧
    (ratOf a = some 0 → (∃ v, exp = some (v, 0) ∧ ratOf v = some one) ∧ log = some (.inf true, 8) ∧ rcp = some (.inf a.sign, 8) ∧
      rsq = some (.inf a.sign, 8) ∧ ∃ v, sig = some (v, 0) ∧ ratOf v = some (one / 2)) ∧
    (∀ q, ratOf a = some q → q < 0 → log = some (.nan false, 16) ∧ rsq = some (.nan false, 16)) ∧
    (ratOf a = some 1 → ∃ v, log = some (v, 0) ∧ ratOf v = some 0 ∧ v.sign = false) ∧
    (a = .inf false → exp = some (.inf false, 0) ∧ log = some (.inf false, 0) ∧ (∃ v, rcp = some (v, 0) ∧ ratOf v = some 0 ∧ v.sign = false) ∧
      (∃ v, rsq = some (v, 0) ∧ ratOf v = some 0 ∧ v.sign = false) ∧ ∃ v, sig = some (v, 0) ∧ ratOf v = some one) ∧
    (a = .inf true → (∃ v, exp = some (v, 0) ∧ ratOf v = some 0 ∧ v.sign = false) ∧ log = some (.nan false, 16) ∧
      (∃ v, rcp = some (v, 0) ∧ ratOf v = some 0 ∧ v.sign = true) ∧ rsq = some (.nan false, 16) ∧
      ∃ v, sig = some (v, 0) ∧ ratOf v = some 0 ∧ v.sign = false)) ∧
  (∀ (a b : Val) (test : TPred),
    (a.isNan = true ∨ b.isNan = true → cmpTest test a b = decide (test = .ne ∨ test = .un)) ∧
    (∀ x y, ratOf a = some x → ratOf b = some y → cmpTest test a b = (match test with
      | .eq => decide (x = y) | .ne => decide (x ≠ y) | .lt => decide (x < y) | .le => decide (x ≤ y) | .un => false)) ∧
    (a.isNan = false → b.isNan = false → a.isInf = true ∨ b.isInf = true →
      let less := (a = .inf true ∧ b ≠ .inf true) ∨ (b = .inf false ∧ a ≠ .inf false)
      cmpTest test a b = (match test with
        | .eq => decide (a = b) | .ne => decide (a ≠ b) | .lt => decide less | .le => decide (less ∨ a = b) | .un => false)))

/-- R221 to R230, R236: the units of tile commands. Choices of the model in it: logs 5, 14, 59, 63, 64. -/
def Obligations.TileUnitRunsItsCommands : Prop :=
  Sys2Proof.Claims.TileCommandsStartAndComplete ∧
  Sys2Proof.Claims.TileLinesHoldTheirResults ∧
  Sys2Proof.Claims.ReductionsFollowTheTree ∧
  Sys2Proof.Claims.SelectionsAreRanked ∧
  Sys2Proof.Claims.BlocksAreConvertedUnderTheirScale ∧
  Sys2Proof.Claims.QuantisedLinesCarryTheirResidue ∧
  Sys2Proof.Claims.NumbersAreRoundedIntoElementFormats ∧
  Sys2Proof.Claims.TileOperationsAreExact

/-- R182, R187, R188, R189, R192, R193, R268, R292, R301, R302: the first request for a line is granted; a decanter waits for earlier holds, for
walks that an owned line holds and for the lines of its next unit, asking for those it has not asked for; then it carries out the unit,
asking targets for source bytes in system space, sending them what it writes there, writing its elements' bits, or what is left of a unit in
progress, and releasing exactly the lines that no later unit writes. A unit that faults leaves the deferred fault of the byte that failed and
changes no byte but of the destination's space. A decrypting copy writes the whole tile that its key opens, or poisons its granules. A
completed copy posts its mailbox entry, tags its destination and leaves.
Choices of the model in it: logs 14, 15, 25, 51, 54, 59, 63, 64. -/
def Obligations.DecantersCarryOutCopies : Prop :=
  (∀ (s : State) (line : Nat) (o : Owner), s.owners.find? (fun p => p.line = line) = some o →
    ∃ t, exec (.ownershipGrant line) s = .next t ∧ SameBytes s t ∧
      t = { s with owners := s.owners.map (fun p => if p.line = line ∧ p.cid = o.cid then { p with granted := true } else p) }) ∧
  (∀ (s : State) (cid : Nat) (c : Cmd) (ext : List Byte), s.cmd? cid = some c → RunsCopy s c →
    (s.copyClear c = false ∨ s.pagesHeld c true false = true → exec (.decanterMessage cid ext) s = .next s) ∧
    (s.copyClear c = true → s.pagesHeld c true false = false → s.unitGranted c c.prog = false →
      ∃ t, exec (.decanterMessage cid ext) s = .next t ∧ SameBytes s t ∧
        t = { s with owners := t.owners } ∧ ∀ o, o ∈ t.owners ↔ o ∈ s.owners ∨
          (o.cid = c.cid ∧ o.granted = false ∧ o.line ∈ s.unitLines c c.prog ∧ ∀ p ∈ s.owners, p.line = o.line → p.cid ≠ c.cid))) ∧
  (∀ (s : State) (cid : Nat) (c : Cmd) (ext : List Byte), UnitStarts s cid c → ¬ Decrypts c →
    let d := { c with started := true }
    let m := { s with cmds := s.cmds.map (fun (k : Cmd) => if k.cid = cid then d else k) }
    let sources := d.unitSources (s.launch c.launch).fmt c.prog
    (∀ ws rest, m.planUnit d d.prog ext = .ok (ws, rest) → ((∃ w ∈ ws, anySys w.at_ = true) → rest ≠ []) →
      ∃ t, exec (.decanterMessage cid ext) s = .next t ∧
        t = { withMemory s t with
          owners := t.owners
          hostOut := t.hostOut
          pkg := { s.pkg with replay := t.pkg.replay }
          cmds := s.cmds.map (fun (k : Cmd) => if k.cid = cid then { d with prog := c.prog + 1, walkFault := none, late := none } else k) } ∧
        (∀ k, t.raw k = (ws.foldl (fun s w => s.doWrite c.ctx w) s).raw k) ∧ s.hostOut <+: t.hostOut ∧
        (∀ a ∈ sources, ∀ pa, s.copyPlace d false (commandTile s c c.ha) a .read = .ok (.sys pa) → ∃ at_ n x,
          at_ ≤ pa ∧ pa < at_ + n ∧ s.target c.ctx at_ = some x ∧ .sent x (.read n) ∈ t.hostOut) ∧
        (∀ w ∈ ws, ∀ j pa, w.at_[j]? = some (.sys pa) → ∃ at_ op x, at_ ≤ pa ∧ pa < at_ + extBytes op ∧ s.target c.ctx at_ = some x ∧
          .sent x op ∈ t.hostOut ∧ ∀ b, b < 8 → w.off ≤ 8 * j + b → 8 * j + b < w.off + w.len →
            SendsBit op (8 * (pa - at_) + b) (w.val.testBit (8 * j + b - w.off))) ∧
        ((∀ a ∈ sources, ∀ pa, s.copyPlace d false (commandTile s c c.ha) a .read ≠ .ok (.sys pa)) →
          (∀ w ∈ ws, anySys w.at_ = false) → t.hostOut = s.hostOut) ∧
        (∀ o, o ∈ t.owners ↔ o ∈ s.owners ∧ (o.cid = cid → o.line ∈ t.linesFrom d (c.prog + 1)))) ∧
    (∀ ws, m.planUnit d d.prog ext = .ok (ws, []) → (∃ w ∈ ws, anySys w.at_ = true) →
      ∃ t, exec (.decanterMessage cid ext) s = .next t ∧ UnitFaults s t d (0x0B, 8) c.prog) ∧
    (∀ f : Flt, m.planUnit d d.prog ext = .error f → f.1 ≠ cWalk →
      ∃ t, exec (.decanterMessage cid ext) s = .next t ∧ UnitFaults s t d (f.1, f.2.1) c.prog) ∧
    (∀ f : Flt, m.planUnit d d.prog ext = .error f → f.1 = cWalk → ∃ t, exec (.decanterMessage cid ext) s = .next t ∧ SameBytes s t ∧
      t = { m with walks := t.walks } ∧ (f.2.1 ≠ 0 → t = m))) ∧
  (∀ (s : State) (cid : Nat) (c : Cmd) (ext : List Byte), UnitStarts s cid c → Decrypts c →
    let d := { c with started := true }
    let m := { s with cmds := s.cmds.map (fun (k : Cmd) => if k.cid = cid then d else k) }
    let fmt := (s.launch c.launch).fmt
    let hd := commandTile s c c.hd
    let ha := commandTile s c c.ha
    let read := m.copyRead d ha ((List.range (linesOf ha * lineElems ha)).map (fun i => (baseOf ha + i) % 2 ^ 60)) ext
    (∀ f : Flt, read = .error f → f.1 ≠ cWalk → ∃ t, exec (.decanterMessage cid ext) s = .next t ∧ SameBytes s t ∧
      UnitFaults s t d (f.1, f.2.1) c.prog) ∧
    (∀ bs rest, read = .ok (bs, rest) →
      let plain := Config.gcmOpen (c.key.getD 0) (c.pblk.extractLsb' 256 96) (c.pblk.extractLsb' 384 128) bs
      (plain = none → ∃ t, exec (.decanterMessage cid ext) s = .next t ∧ SameBytes s t ∧ UnitFaults s t d (0x0A, 3) c.prog ∧
        (inScratch hd = true → ∀ g ∈ hd.granules, find? g (t.cluster c.target).tags = some 0xFFFF)) ∧
      (∀ p, plain = some p → s.canonical → Placed hd → c.target < 96 → efOf hd = 0 → oneShape hd ha = true →
        ∃ t, exec (.decanterMessage cid ext) s = .next t ∧
          t.cmds = s.cmds.map (fun (k : Cmd) => if k.cid = cid then { d with prog := c.units fmt, walkFault := none, late := none } else k) ∧
          (∀ r q, r < rowsOf hd → q < colsOf hd → codeIn t c.target hd r q = (p.getD (r * colsOf hd + q) 0).toNat) ∧
          ∀ k, (∀ r q, r < rowsOf hd → q < colsOf hd → k ≠ elementKey c.target hd r q) → t.raw k = s.raw k))) ∧
  (∀ (s : State) (cid : Nat) (c : Cmd) (ext : List Byte) (cells : List (Nat × Byte × Byte)), s.cmd? cid = some c → RunsCopy s c →
    s.copyClear c = true → s.pagesHeld c true false = false → s.unitGranted c c.prog = true → c.late = some cells →
    LeftInScratch c → ¬ Decrypts c → ∃ t, exec (.decanterMessage cid ext) s = .next t ∧
      t = { s with
        mem := (s.putCells cells).mem
        poison := t.poison
        told := t.told
        owners := t.owners
        cmds := s.cmds.map (fun (k : Cmd) => if k.cid = cid then { c with prog := c.prog + 1, walkFault := none, late := none } else k) } ∧
      (s.canonical → CellsWritten s t cells) ∧
      (∀ o, o ∈ t.owners ↔ o ∈ s.owners ∧ (o.cid = cid → o.line ∈ t.linesFrom c (c.prog + 1)))) ∧
  (∀ (s : State) (kid : Nat) (w : CopyWrite) (ks : List Nat), s.canonical → memKeys w.at_ = some ks → ks.Nodup → (∀ k ∈ ks, k < capBase) →
    w.off + w.len ≤ 8 * ks.length →
    (∀ i, i < 8 * ks.length → (littleEndian ((s.doWrite kid w).bytesAs kid ks)).testBit i =
      if w.off ≤ i ∧ i < w.off + w.len then w.val.testBit (i - w.off) else (littleEndian (s.bytesAs kid ks)).testBit i) ∧
    (∀ k, k ∉ ks → (s.doWrite kid w).byteAs kid k = s.byteAs kid k)) ∧
  (∀ (s : State) (cid : Nat) (c : Cmd), s.cmd? cid = some c → c.engine = .copy → c.saved = false → c.dfault = none →
    c.units (s.launch c.launch).fmt ≤ c.prog → ∃ t, exec (.copyComplete cid) s = .next t ∧ SameBytes s t ∧
      t = { s with cur := t.cur, strands := t.strands, ctxs := t.ctxs, clusters := t.clusters, cmds := t.cmds, owners := t.owners } ∧
      t.cmds = s.cmds.filter (fun (k : Cmd) => k.cid ≠ cid) ∧ (∀ o, o ∈ t.owners ↔ o ∈ s.owners ∧ o.cid ≠ cid) ∧
      (s.cur.status ≠ .idle → s.cur.launch = c.launch → s.cur.index = c.item →
        t.cur.mbox = (if c.mb then s.cur.mbox ++ [mailEntry (s.launch c.launch).fmt c] else s.cur.mbox) ∧
        t.cur.x = s.cur.x ∧ t.cur.h = s.cur.h) ∧
      (hScr c.hd = true → ∀ g, g ∈ (tileOf (s.launch c.launch).fmt c.hd).granules →
        find? g (t.cluster c.target).tags = some (c.hd.extractLsb' 160 16)))

/-- R32, R307: writes of the queue registers of one of the 64 contexts, of PF0 alone in recovery. LQBASE and a change of LOGN take effect,
and empty the ring, while EN and ACT are 0; ERR is cleared by a 1; EN starts and stops the ring; the doorbell is taken or sets ERR.
Choices of the model in it: log 28. -/
def Obligations.QueueRegisterWrites : Prop :=
  ∀ (s : State) (v : Nat),
    let c := s.ctx v
    let busy := c.en || c.hostSt != .none
    (queueAnswers s v →
      (∀ x b : Word, b.toNat = x.toNat / 2 ^ 12 % 2 ^ 48 * 2 ^ 12 → ∃ t, exec (.lqbaseWrite v x) s = .next t ∧
        SetsContext s t v (if busy then c else { c with lqbase := b, head := 0, tail := 0 })) ∧
      (∀ x : Word, ∃ t n, exec (.lqcfgWrite v x) s = .next t ∧ n = (if busy then c.logn else x.toNat % 32) ∧ SetsContext s t v { c with
        logn := n
        head := if n = c.logn then c.head else 0
        tail := if n = c.logn then c.tail else 0
        en := x.getLsbD 31
        err := (c.err && !x.getLsbD 32) || (x.getLsbD 31 && !(decide (6 ≤ n) && decide (n ≤ 16)))
        hostSt := if x.getLsbD 31 then c.hostSt else stoppedHead c.hostSt }) ∧
      (∃ t, exec (.queueEnable v) s = .next t ∧
        SetsContext s t v { c with en := true, err := c.err || !(decide (6 ≤ c.logn) && decide (c.logn ≤ 16)) }) ∧
      (∃ t, exec (.queueStop v) s = .next t ∧ SetsContext s t v { c with en := false, hostSt := stoppedHead c.hostSt }) ∧
      (∀ x : Word,
        let size := 2 ^ c.logn
        let held := (c.tail + size - c.head) % size
        let added := (x.toNat % 2 ^ 16 + size - c.tail) % size
        ∃ t, exec (.lqtailDoorbell v x) s = .next t ∧
          (size ≤ x.toNat % 2 ^ 16 ∨ size - 1 < held + added → SetsContext s t v { c with err := true }) ∧
          (x.toNat % 2 ^ 16 < size → held + added ≤ size - 1 → SetsContext s t v { c with tail := x.toNat % 2 ^ 16 }))) ∧
    (¬ queueAnswers s v → ∀ x : Word, exec (.lqbaseWrite v x) s = .next s ∧ exec (.lqcfgWrite v x) s = .next s ∧
      exec (.queueEnable v) s = .next s ∧ exec (.queueStop v) s = .next s ∧ exec (.lqtailDoorbell v x) s = .next s)

/-- R22, R29 to R38: the sequencer takes the record at the head of a queue of a created context through the steps of R35: it drops, rejects or
holds it, copies the descriptor and the table piece by piece, and accepts it; a held record is looked at again after a write to its event
and at each poll. Choices of the model in it: logs 37, 40, 50, 56, 62, 63. -/
def Obligations.LaunchRecordsAreHandledInOrder : Prop :=
  ∀ (v : Nat) (s : State),
    let c := s.ctx v
    let alive := c.cstate = .created ∧ s.pkg.recovery = false
    let ready := c.en = true ∧ 6 ≤ c.logn ∧ c.logn ≤ 16 ∧ c.head ≠ c.tail ∧ c.hostSt = .none
    let slot := c.lqbase.toNat % 2 ^ 60 + 64 * c.head
    (¬ alive → ∀ dev, exec (.launchRecordHead v dev) s = .next s) ∧
    (∀ dev ws, alive → (if dev then c.devSt else c.hostSt) = .waiting ws → exec (.launchRecordHead v dev) s = .next s) ∧
    (∀ dev ws got, alive → (if dev then c.devSt else c.hostSt) = .copying ws got →
      ∃ t, exec (.launchRecordHead v dev) s = .next t ∧ Copies s t v dev ws got) ∧
    (alive → c.devSt = .none → c.devq = [] → exec (.launchRecordHead v true) s = .next s) ∧
    (∀ ws r, alive → c.devSt = .none → c.devq = ws :: r → ∃ t, exec (.launchRecordHead v true) s = .next t ∧ Handles s t v true ws) ∧
    (alive → c.hostSt = .none → ¬ ready ∨ s.seqHeld v slot .read = true → exec (.launchRecordHead v false) s = .next s) ∧
    (∀ m r, alive → ready → s.seqHeld v slot .read = false → SeqReads s m v slot 8 r →
      ∃ t, exec (.launchRecordHead v false) s = .next t ∧ (r = none → SetsContext m t v (popped c false)) ∧
        ∀ ws, r = some ws → Handles (readAtHome m v slot 8) t v false ws) ∧
    (∀ (dev : Bool) (i : Instr), i = .eventWaitReevaluate v dev ∨ i = .eventPollTimer v dev →
      ((∀ ws, (if dev then c.devSt else c.hostSt) ≠ .waiting ws) → exec i s = .next s) ∧
      (∀ ws, (if dev then c.devSt else c.hostSt) = .waiting ws → ∃ t, exec i s = .next t ∧ Awaits s t v dev ws))

/-- R10 to R15, R108: the loader refuses an object whose header, sections, vintage slots or sites are wrong, rejects the first relocation that
fails, and else writes, maps and names the object; it unloads one that no launch uses, and looks a kernel symbol up by its name. -/
def Sys2Proof.Claims.CodeObjectsAreLoadedAndUnloaded : Prop :=
  (∀ (v : Nat) (o : CodeObject) (p : Placement) (s : State),
    let load := exec (.loadCodeObject v o p) s
    let c := s.ctx v
    (64 ≤ v ∨ c.cstate ≠ .created → load = .next s) ∧
    (v < 64 → c.cstate = .created →
      (¬ (headerAccepted o ∧ ∀ x ∈ o.sections, sectionAccepted x) → load = .next (s.answer (.status 1))) ∧
      (headerAccepted o → (∀ x ∈ o.sections, sectionAccepted x) → placementOk o p = false → load = .next s) ∧
      (headerAccepted o → (∀ x ∈ o.sections, sectionAccepted x) → placementOk o p = true → ¬ vintageAccepted o p →
        load = .next (s.answer (.status 1))) ∧
      (headerAccepted o → (∀ x ∈ o.sections, sectionAccepted x) → placementOk o p = true → vintageAccepted o p →
        (∀ r, relocate p o o.relocs o.sections = .error r → load = .next (s.answer (.rejected r.off r.type))) ∧
        (∀ cs, relocate p o o.relocs o.sections = .ok cs →
          let data := fun n => sectionOf { o with sections := cs } n
          let m1 := State.loadSection v p.text p.pText (data ".text") false false true (some (s, p.tables))
          let m2 := State.loadSection v p.const p.pConst (data ".const") true false false m1
          let m3 := State.loadSection v p.vbase p.pVbase (data ".vintage") true true false m2
          let m4 := State.loadSection v p.vdelta p.pVdelta (List.replicate (data ".vintage").length 0) true true false m3
          (m4 = none → load = .next s) ∧
          (∀ m fs, m4 = some (m, fs) → ∃ t, load = .next t ∧
            t = { s with
              ctxs := t.ctxs
              mem := m.mem
              lineKey := m.lineKey
              poison := m.poison
              told := m.told
              hostOut := s.hostOut ++ [.objectId c.nextObj] } ∧
            (∀ w, t.ctx w = if w = v then { c with
                objects := c.objects ++ [⟨c.nextObj, p.text, (data ".text").length, p.const, (data ".const").length, p.vbase, p.vdelta,
                  (data ".vintage").length / 16, kernelsOf o p⟩]
                nextObj := c.nextObj + 1 } else s.ctx w)))))) ∧
  (∀ (v n : Nat) (s : State),
    let c := s.ctx v
    let unload := exec (.unloadCodeObject v n) s
    (c.objects.find? (fun o => o.id = n) = none → unload = .next s) ∧
    (∀ o, c.objects.find? (fun o => o.id = n) = some o →
      (s.usersOf v o ≠ 0 → unload = .next (s.answer (.status 1))) ∧
      (s.usersOf v o = 0 → ∃ t, unload = .next t ∧
        t = { s with
          ctxs := t.ctxs
          clusters := t.clusters
          mem := t.mem
          lineKey := t.lineKey
          poison := t.poison
          told := t.told
          hostOut := s.hostOut ++ [.status 0] } ∧
        (∀ w, t.ctx w = if w = v then { c with objects := c.objects.filter (fun q => q.id != n) } else s.ctx w) ∧
        (s.canonical → ∃ m, LeavesCleared s m v (objectPages o) ∧ t.mem = m.mem ∧ t.lineKey = m.lineKey ∧ t.poison = m.poison ∧ t.told = m.told) ∧
        (∀ k, t.cluster k = { s.cluster k with
          tlb := (s.cluster k).tlb.filter (fun l => !(decide (l.ctx = v) && (objectPages o).contains (l.va / 2 ^ 16))) })))) ∧
  (∀ (v n : Nat) (name : String) (s : State),
    let look := exec (.kernelLookup v n name) s
    ((s.ctx v).objects.find? (fun o => o.id = n) = none → look = .next (s.answer (.status 1))) ∧
    (∀ o, (s.ctx v).objects.find? (fun o => o.id = n) = some o →
      (∀ k, o.kernels.find? (fun k => k.1 = name) = some k → look =
        .next (s.answer (if k.2.2 then .value (BitVec.ofNat 64 k.2.1) else .status 1))) ∧
      (o.kernels.find? (fun k => k.1 = name) = none → look = .next (s.answer (.status 1)))))

/-- R13: what each type of relocation patches, with S the address of its symbol, A its addend and P its place, and the check that rejects it;
the patches are applied in order, each replacing its field's bits alone, up to the first that fails. -/
def Sys2Proof.Claims.RelocationsPatchTheirFields : Prop :=
  (∀ (o : CodeObject) (p : Placement) (r : Reloc) (S : Nat), symAddr o p r.sym = some S →
    let P : Int := (placedAt p (sectionName o r.sec) + r.off : Nat)
    let bundle : Int := P - P % 8
    let V : Int := S + r.addend
    let D := V - bundle
    let low : Int := -(2 ^ 31) - 2 ^ 11
    let high : Int := 2 ^ 31 - 2 ^ 11 - 1
    let z := V - p.vbase
    let slots : Int := ((sectionOf o ".vintage").length / 16 : Nat)
    (r.type = 1 → patchOf o p r = if 0 ≤ V ∧ V < 2 ^ 60 then some ⟨0, 8, 0, 64, V⟩ else none) ∧
    (r.type = 2 → patchOf o p r = if 0 ≤ V ∧ V < 2 ^ 60 then some ⟨0, 8, 0, 60, V⟩ else none) ∧
    (r.type = 3 → patchOf o p r = if 0 ≤ V ∧ V < 2 ^ 32 then some ⟨0, 4, 0, 32, V⟩ else none) ∧
    (r.type = 4 → patchOf o p r = if low ≤ V ∧ V ≤ high then some ⟨0, 4, 0, 20, ⌊((V + 0x800 : Int) : ℚ) / 4096⌋⟩ else none) ∧
    (r.type = 5 → patchOf o p r = some ⟨0, 4, 0, 12, V⟩) ∧
    (r.type = 6 → patchOf o p r = if low ≤ D ∧ D ≤ high then some ⟨0, 4, 0, 20, ⌊((D + 0x800 : Int) : ℚ) / 4096⌋⟩ else none) ∧
    (r.type = 8 → patchOf o p r = if D % 8 = 0 ∧ -(2 ^ 22) ≤ D ∧ D ≤ 2 ^ 22 - 8 then some ⟨0, 4, 0, 20, D / 8⟩ else none) ∧
    (r.type = 9 → patchOf o p r = if z % 16 = 0 ∧ 0 ≤ z / 16 ∧ z / 16 ≤ slots - 1 then some ⟨6, 2, 0, 16, z / 16⟩ else none) ∧
    (r.type = 7 → r.addend ≠ 0 → patchOf o p r = none) ∧
    (r.type = 7 → (∀ q ∈ o.relocs, q.type = 6 → relocPlace o p q ≠ S) → patchOf o p r = none) ∧
    (∀ q T, r.type = 7 → r.addend = 0 → o.relocs.find? (fun q => q.type = 6 && relocPlace o p q = S) = some q → symAddr o p q.sym = some T →
      patchOf o p r = some ⟨0, 4, 0, 12, T + q.addend - S⟩)) ∧
  (∀ (o : CodeObject) (p : Placement) (r : Reloc),
    let slots := (sectionOf o ".vintage").length / 16
    (r.type = 0 → patchOf o p r = some ⟨0, 0, 0, 0, 0⟩) ∧
    (r.type = 10 → patchOf o p r = some ⟨0, 8, 0, 64, if slots = 0 then 0 else p.vbase⟩) ∧
    (r.type = 11 → patchOf o p r = some ⟨0, 8, 0, 64, if slots = 0 then 0 else p.vdelta⟩) ∧
    (r.type = 12 → patchOf o p r = some ⟨0, 8, 0, 64, slots⟩) ∧
    (13 ≤ r.type → patchOf o p r = none)) ∧
  (∀ (o : CodeObject) (p : Placement) (i : Nat), symAddr o p 0 = some 0 ∧
    (∀ y, i ≠ 0 → o.syms[i]? = some y → y.sec < o.sections.length →
      symAddr o p i = some ((placedAt p (sectionName o y.sec) + y.value) % 2 ^ 60)) ∧ (i ≠ 0 → o.syms[i]? = none → symAddr o p i = none)) ∧
  (∀ (q : Patch) (off : Nat) (bs : List Byte),
    let a := off + q.skip
    (q.size = 0 → applyPatch q off bs = some bs) ∧
    (q.size ≠ 0 → bs.length < a + q.size → applyPatch q off bs = none) ∧
    (q.size ≠ 0 → a + q.size ≤ bs.length → q.lo + q.len ≤ 8 * q.size → ∃ cs, applyPatch q off bs = some cs ∧ cs.length = bs.length ∧
      (∀ j, j < a ∨ a + q.size ≤ j → cs[j]? = bs[j]?) ∧
      ∀ i, i < 8 * q.size → (littleEndian ((cs.drop a).take q.size)).testBit i =
        if q.lo ≤ i ∧ i < q.lo + q.len then (q.val % 2 ^ q.len).toNat.testBit (i - q.lo)
        else (littleEndian ((bs.drop a).take q.size)).testBit i)) ∧
  (∀ (o : CodeObject) (p : Placement) (r : Reloc) (rs : List Reloc) (cs : List Section),
    relocate p o [] cs = .ok cs ∧ (patchOf o p r = none → relocate p o (r :: rs) cs = .error r) ∧
    (∀ q c, patchOf o p r = some q → cs[r.sec]? = some c →
      (applyPatch q r.off c.data = none → relocate p o (r :: rs) cs = .error r) ∧
      (∀ bs, applyPatch q r.off c.data = some bs → relocate p o (r :: rs) cs = relocate p o rs (cs.set r.sec { c with data := bs }))))

/-- R10 to R15, R108: code objects are checked, relocated, mapped, named and unloaded. Choices of the model in it: logs 6, 27, 47. -/
def Obligations.CodeObjectsLoadAndUnload : Prop :=
  Sys2Proof.Claims.CodeObjectsAreLoadedAndUnloaded ∧ Sys2Proof.Claims.RelocationsPatchTheirFields

/-- R41 to R43, R138: a live launch without clusters takes those that participate, rising, idle ones being set to its split; a change of
split ends with an empty L1; chunks go out in order, to cluster n mod P or to the lowest that asked; every index lies in one chunk.
Choices of the model in it: logs 48, 64. -/
def Obligations.ChunksGoToParticipatingClusters : Prop :=
  (∀ (s : State) (n : Nat) (l : Launch), s.launch? n = some l →
    (l.live = false ∨ l.parts ≠ [] ∨ (∀ c, ¬ participates s l c) → exec (.participationEvaluate n) s = .next s) ∧
    (l.live = true → l.parts = [] → (∃ c, participates s l c) → ∃ t ps, exec (.participationEvaluate n) s = .next t ∧
      (∀ c, c ∈ ps ↔ participates s l c) ∧ ps.Pairwise (· < ·) ∧ SameBytes s t ∧
      t = { s with
        clusters := t.clusters
        launches := launchBecomes s l.num { l with parts := ps }
        harvest := s.harvest ++ ps.map (fun c => ⟨n, c, [], 0, [], false, false, false, false, 0⟩) } ∧
      (∀ c m, c ∈ ps → splitServes s c l.desc m → t.cluster c =
        if (s.cluster c).split = none ∧ m ≠ (s.cluster c).l1size then { s.cluster c with split := some m } else s.cluster c) ∧
      (∀ c, c ∉ ps → t.cluster c = s.cluster c))) ∧
  (∀ (s : State) (c : Nat),
    ((s.cluster c).split = none → exec (.l1SplitComplete c) s = .next s) ∧
    (∀ n, (s.cluster c).split = some n → ∃ t, exec (.l1SplitComplete c) s = .next t ∧ t = { s with clusters := t.clusters } ∧ SameBytes s t ∧
      (∀ k, t.cluster k = if k = c then { s.cluster c with l1size := n, split := none, l1 := [] } else s.cluster k))) ∧
  (∀ (s : State) (n c : Nat) (l : Launch) (h : Harvest), s.launch? n = some l → l.live = true → l.nchunk < l.desc.chunks →
    (l.desc.dyn = false → l.parts[l.nchunk % l.parts.length]? = some c) →
    (l.desc.dyn = true → l.parts.find? (fun k => (s.harvestOf? n k).any (·.wants)) = some c) →
    s.harvestOf? n c = some h → (s.cluster c).split = none →
    exec (.chunkAssign n) s = .next { s with
      launches := launchBecomes s n { l with nchunk := l.nchunk + 1, chunks := l.chunks ++ [⟨l.nchunk, c⟩] }
      harvest := harvestBecomes s n c { h with chunks := h.chunks ++ [l.nchunk], wants := false } }) ∧
  (∀ (s : State) (n c : Nat) (l : Launch) (h : Harvest), s.launch? n = some l → s.harvestOf? n c = some h →
    let asks := l.live = true ∧ l.desc.dyn = true ∧ h.chunks.length < 2 ∧ h.wants = false ∧ h.yielded = false ∧ l.nchunk < l.desc.chunks
    (asks → exec (.chunkRequest n c) s = .next { s with harvest := harvestBecomes s n c { h with wants := true } }) ∧
    (¬ asks → exec (.chunkRequest n c) s = .next s)) ∧
  (∀ (d : Desc) (i : Nat), d.first.toNat ≤ i → i < d.first.toNat + d.count.toNat →
    let size := Nat.max 64 (2 ^ d.gbits)
    d.chunkOf i < d.chunks ∧ d.chunkLo (d.chunkOf i) ≤ i ∧ i < d.chunkHi (d.chunkOf i) ∧
    ∀ n j, d.chunkLo n ≤ j → j < d.chunkHi n → d.chunkOf j = n ∧ (d.first.toNat ≤ j ∧ j < d.first.toNat + d.count.toNat)
      ∧ (d.chunkLo n % size = 0 ∨ d.chunkLo n = d.first.toNat))

/-- R44, R139, R180: the next group of a launch in a cluster takes free granules, which then read 0 with tags 0; under GB a strand is
reserved for every item of the group; nothing else changes. -/
def Obligations.GroupsTakeScratchAndStrands : Prop :=
  (∀ (s : State) (n c off i : Nat) (l : Launch) (h : Harvest), s.launch? n = some l → s.harvestOf? n c = some h → h.nextItem l.desc = some i → c < 96 →
    let g0 := Nat.max l.desc.first.toNat (i / 2 ^ l.desc.gbits * 2 ^ l.desc.gbits)
    let gran := (l.desc.spb + 4095) / 4096
    let good := l.live = true ∧ h.yielded = false ∧ h.yielding = false ∧ s.group? n c g0 = none ∧ (s.cluster c).split = none ∧
      (gran = 0 ∨ s.scratchFree c off gran = true)
    let within := fun (q : Nat) => scrKey c off ≤ q ∧ q < scrKey c off + gran * 4096
    (¬ good → exec (.groupAllocate n c off) s = .next s) ∧
    (good → ∃ t, exec (.groupAllocate n c off) s = .next t ∧
      t = { s with
        clusters := t.clusters
        mem := t.mem
        poison := t.poison
        told := t.told
        stores := t.stores
        groups := s.groups ++ [⟨n, c, g0, if gran = 0 then 0 else off, gran, l.desc.groupSize g0, 0, 0, false, [], []⟩] } ∧
      (∀ q, (within q → t.toldHome q = []) ∧ (¬ within q → t.toldHome q = s.toldHome q)) ∧
      (∀ q, within q → t.raw q = 0) ∧ (∀ q, ¬ within q → t.raw q = s.raw q) ∧
      (∀ k, off / 4096 ≤ k → k < off / 4096 + gran → (find? k (t.cluster c).tags).getD 0 = 0) ∧
      (∀ k, ¬ (off / 4096 ≤ k ∧ k < off / 4096 + gran) → find? k (t.cluster c).tags = find? k (s.cluster c).tags) ∧
      (∀ k, k ≠ c → t.cluster k = s.cluster k) ∧ t.cluster c = { s.cluster c with tags := (t.cluster c).tags } ∧
      (∀ a, a ∈ t.stores ↔ a ∈ s.stores ∧ ∀ q ∈ a.keys, ¬ within q))) ∧
  (∀ (s : State) (n c i : Nat) (ids : List Nat) (l : Launch) (h : Harvest) (g : Group), s.launch? n = some l → s.harvestOf? n c = some h →
    s.readyItem l h = some (i, g) →
    let good := l.desc.gb = true ∧ ids.length = s.unreserved g i ∧ ids.Nodup ∧ ¬ mustRestore s l c ∧
      ∀ id ∈ ids, id / 64 = c ∧ (s.strand id).reserved = none ∧ s.usable l id = true ∧ s.served l id = true
    (¬ good → exec (.strandReserve n c ids) s = .next s) ∧
    (good → ∃ t, exec (.strandReserve n c ids) s = .next t ∧ SameBytes s t ∧ t = { s with cur := t.cur, strands := t.strands } ∧
      t.cur.id = s.cur.id ∧ ∀ id, t.strand id = if id ∈ ids then { s.strand id with reserved := some (n, g.g0) } else s.strand id))

/-- R39, R44, R45, R188, R266, R284: the next item of a launch in a cluster starts in a slot that may take it, with the registers of R45 and at the
launch's entry; a first item of the launch in a cluster finds the L1 empty, and the first of all writes STATE 0x2.
Choices of the model in it: logs 2, 43. -/
def Obligations.ItemsStartInIndexOrder : Prop :=
  ∀ (s : State) (n c core slot i : Nat) (l : Launch) (h : Harvest) (g : Group), s.launch? n = some l → s.harvestOf? n c = some h →
    s.readyItem l h = some (i, g) →
    let id := 8 * core + slot
    let statusHeld := l.state = .accepted ∧ l.stat ≠ 0 ∧ s.seqHeld l.ctx (l.stat.toNat % 2 ^ 60) .write = true
    let good := core / 8 = c ∧ slot < 8 ∧ ¬ statusHeld ∧ s.usable l id = true ∧ ¬ mustRestore s l c ∧ s.served l id = true ∧
      (l.desc.gb = true → (s.strand id).reserved = some (n, g.g0) ∧ s.unreserved g i = 0) ∧
      (l.desc.gb = false → (s.strand id).reserved = none)
    (¬ good → exec (.itemDispatch n c core slot) s = .next s) ∧
    (good → ∃ t m, exec (.itemDispatch n c core slot) s = .next t ∧ SameBytes s m ∧
      m = { s with
        cur := m.cur
        strands := m.strands
        clusters := m.clusters
        launches := m.launches
        harvest := harvestBecomes s n c { h with
          next := i + 1
          live := h.live ++ [i]
          trellis := h.trellis || (l.desc.vcnt != 0 || l.desc.lv)
          slot := if h.trellis then h.slot else (s.freeTrellis c).getD 0 } } ∧
      StartsItem (s.strand id) (m.strand id) l i g (s.ctx l.ctx).tvec ∧ (∀ j, j ≠ id → m.strand j = s.strand j) ∧
      (∀ k, m.cluster k = if k = c ∧ h.next = 0 then { s.cluster c with l1 := [] } else s.cluster k) ∧
      (l.state = .accepted → m.launches = launchBecomes s n { l with state := .running } ∧ t = m.writeStatus l.ctx l.stat n 2 0) ∧
      (l.state ≠ .accepted → m.launches = s.launches ∧ t = m)) ∧
    (h.live.all (fun j => i < j + 64) = true ∧ l.live = true)

/-- R104, R212, R244, R246, R250, R295: END waits for the strand's results and commands, faults with the repeat buffer armed, delivers
deferred faults, and then leaves the item to its retirement, which makes each publication still due as soon as its value is at hand, by
itself, and when all are made frees the strand and counts the item; under GB the retirement is an arrival that releases (R252, R262).
Choices of the model in it: logs 5, 33, 54. -/
def Obligations.ItemsEndAndRetire : Prop :=
  (∀ s : State, s.cur.rep.armed = true → exec .fin s = .next (s.raise (s.precise 7 0x15 0))) ∧
  (∀ s : State, s.cur.rep.armed = false → (s.cur.settled = false ∨ s.cur.status = .ending) → ∃ t, exec .fin s = .next t ∧ LosesTurn s t) ∧
  (∀ s : State, s.cur.rep.armed = false → s.cur.settled = true → s.cur.status ≠ .ending →
    ((∀ c ∈ s.cmds, c.strand = s.cur.id → c.saved = true) →
      exec .fin s = .next { s with cur := { s.cur with status := .ending }, disp := .left }) ∧
    (s.dueFault = none → (∃ c ∈ s.cmds, c.strand = s.cur.id ∧ c.saved = false) → ∃ t, exec .fin s = .next t ∧ LosesTurn s t) ∧
    (∀ c f, s.dueFault = some c → c.dfault = some f → s.cur.estat.getLsbD 0 = false → ∃ (m : State) (r : FaultInfo),
      exec .fin s = .next (m.raise r) ∧ m = { s with cmds := m.cmds, owners := m.owners } ∧ (∀ k ∈ m.cmds, k.cid ≠ c.cid) ∧
      r.cause = f.cause ∧ r.sub = f.sub ∧ r.deferd = true ∧ r.resume = s.cur.pc)) ∧
  (∀ s : State, (s.cur.status ≠ .ending ∨ s.cur.chosen = true ∨ s.launch? s.cur.launch = none) → exec .itemRetire s = .next s) ∧
  (∀ (s : State) (l : Launch), s.cur.status = .ending → s.cur.chosen = false → s.launch? s.cur.launch = some l →
    let tr := l.desc.vcnt ≠ 0 ∨ l.desc.lv = true
    let m := s.publications l
    m = { s with
      cur := { s.cur with vp := m.cur.vp, lees := m.cur.lees, leesPub := m.cur.leesPub }
      pubs := m.pubs
      leesPubs := m.leesPubs } ∧
    (¬ tr ∨ s.quiet .all = false → m = s) ∧
    (tr → s.quiet .all = true → s.pubs <+: m.pubs ∧ s.leesPubs <+: m.leesPubs ∧
      (∀ j, j < l.desc.vcnt → s.cur.vp.getLsbD j = false → l.desc.vcnt ≤ 8 →
        (m.cur.vp.getLsbD j = true ↔ (dueValue s l j).isSome = true) ∧
        ∀ v, dueValue s l j = some v → ⟨s.cur.launch, s.cur.index, j, v, s.cur.id / 64, false, none⟩ ∈ m.pubs) ∧
      (l.desc.lv = true → s.cur.leesPub = false → s.leesRoom = true →
        (m.cur.leesPub = true ↔ (dueBank s).isSome = true) ∧
        ∀ b, dueBank s = some b → ⟨s.cur.launch, s.cur.index, b, s.cur.id / 64, false, none⟩ ∈ m.leesPubs)) ∧
    (let all := (∀ j, j < l.desc.vcnt → m.cur.vp.getLsbD j = true) ∧ (l.desc.lv = true → m.cur.leesPub = true)
     (¬ all → exec .itemRetire s = .next m) ∧
     (all → l.desc.gb = false → ∃ t, exec .itemRetire s = .next t ∧ SameBytes s t ∧ Retires m t l) ∧
     (all → l.desc.gb = true → m.loadsDone .all = false → exec .itemRetire s = .next m) ∧
     (all → l.desc.gb = true → m.loadsDone .all = true → ∃ told : Group → List Nat,
       (∀ g i, i ∈ told g ↔ (∃ a ∈ m.stores, a.id = i ∧ ComesFirst m a) ∨ (i ∈ g.told ∧ Flying m i)) ∧
       let r := { m with groups := m.groups.map (fun (g : Group) =>
         if g.launch = s.cur.launch ∧ g.cluster = s.cur.id / 64 ∧ g.g0 = s.cur.g0 then { g with told := told g } else g) }
       ∃ t, exec .itemRetire s = .next t ∧ SameBytes s t ∧ Retires r t l))) ∧
  (∀ u : Strand, u.drop.status = .idle ∧ u.drop.x = u.x ∧ u.drop.h = u.h ∧ u.drop.mbox = [] ∧ u.drop.heldInts = [] ∧ u.drop.reserved = none)

/-- R31, R37, R49, R107, R112 to R114: a launch retires when its items have; once no store or vintage update is in flight its delta is
merged, unless another launch still counts on it, its event is signalled and its status written, with 0x16 where no signal could be made, and a
context that was waiting for that is closed;
each waits while a copy command owns a line it writes (R188). An update is performed at its slot, after its strand's earlier ones (R113). A
slot with an uncorrectable error takes neither (R292). Choices of the model in it: logs 37, 39, 45, 54, 56, 63. -/
def Obligations.LaunchesRetireMergeAndSignal : Prop :=
  (∀ (s : State) (n : Nat) (l : Launch), s.launch? n = some l →
    let done := l.nchunk = l.desc.chunks ∧ l.nretired = l.desc.count.toNat
    let m := { s with
      launches := launchBecomes s n { l with state := .retired, merged := decide (l.desc.vcount = 0) || s.deltaShared l }
      harvest := s.harvest.filter (fun h => h.launch != n)
      pubs := s.pubs.filter (fun p => p.launch != n)
      leesPubs := s.leesPubs.filter (fun p => p.launch != n) }
    (l.live = true → ¬ done → exec (.launchRetire n) s = .next s) ∧
    (l.live = true → done → exec (.launchRetire n) s = .next ((m.finish n).getD m)) ∧
    (l.live = false → exec (.launchRetire n) s = .next ((s.finish n).getD s)) ∧
    (l.live = true → exec (.vintageMerge n) s = .next s) ∧
    (l.live = false → (l.merged = true ∨ s.updatesLeft l = true ∨ s.mergeHeld l = true) → exec (.vintageMerge n) s = .next s) ∧
    (l.live = false → l.merged = false → s.updatesLeft l = false → s.mergeHeld l = false → exec (.vintageMerge n) s =
      .next { s.mergeAll l with launches := launchBecomes s n { l with merged := true } }) ∧
    let early := l.signed = true ∨ l.live = true ∨ (∃ a ∈ s.stores, a.launch = n ∨ a.id ∈ l.owed) ∨
      (l.merged = false ∧ (s.updatesLeft l = true ∨ s.mergeHeld l = true))
    let a := if l.merged then s else { s.mergeAll l with launches := launchBecomes s n { l with merged := true } }
    let waits := a.seqHeld l.ctx (l.seva.toNat % 2 ^ 60) .atomic = true ∨ a.seqHeld l.ctx (l.stat.toNat % 2 ^ 60) .write = true
    (early ∨ waits → s.finish n = none) ∧
    (¬ early → ¬ waits →
      let b := a.signalEvent l.ctx l.seva l.sinc (decide (l.state = .aborted))
      s.finish n = some ((State.writeStatus { b.1 with launches := launchBecomes s n { l with merged := true, signed := true } } l.ctx l.stat n
        (if l.state = .aborted then 5 else 3) (if b.2 then 0 else 0x16)).closeCtx l.ctx))) ∧
  (∀ (s : State) (v seq st code k : Nat) (stat : Word) (l1 : Bool), s.canonical → stat ≠ 0 → seq < 2 ^ 64 → st < 16 → code < 256 →
    s.seqPlace v (stat.toNat % 2 ^ 60) .write = some (.mem k l1) → k + 8 ≤ sysBase → HoldsStatus s (s.writeStatus v stat seq st code) v k seq st code) ∧
  (∀ (s : State) (v seq st code : Nat) (stat : Word), stat = 0 ∨ s.seqPlace v (stat.toNat % 2 ^ 60) .write = none →
    s.writeStatus v stat seq st code = s) ∧
  (∀ (s : State) (v seq st code pa : Nat) (stat : Word), stat ≠ 0 → s.seqPlace v (stat.toNat % 2 ^ 60) .write = some (.sys pa) → st < 16 →
    code < 256 → ∃ bs : List Byte, bs.length = 8 ∧ littleEndian bs = seq % 2 ^ 32 * 2 ^ 32 + st * 2 ^ 8 + code ∧
      s.writeStatus v stat seq st code = (s.send v pa (.write bs)).getD s) ∧
  (∀ (s : State) (v : Nat) (seva sinc : Word) (poison : Bool), (seva = 0 → s.signalEvent v seva sinc poison = (s, true)) ∧
    (seva ≠ 0 → seva.toNat % 8 ≠ 0 ∨ s.seqPlace v (seva.toNat % 2 ^ 60) .atomic = none → s.signalEvent v seva sinc poison = (s, false)) ∧
    (∀ pa, seva ≠ 0 → seva.toNat % 8 = 0 → s.seqPlace v (seva.toNat % 2 ^ 60) .atomic = some (.sys pa) →
      (s.target v pa = none → s.signalEvent v seva sinc poison = (s, false)) ∧
      (∀ d, s.target v pa = some d → s.signalEvent v seva sinc poison =
        ({ s.emit d (.signal d sinc poison) with free := s.free + 1 }, !(Config.freeValue s.free).getLsbD 0))) ∧
    (∀ k l1, s.canonical → seva ≠ 0 → seva.toNat % 8 = 0 → s.seqPlace v (seva.toNat % 2 ^ 60) .atomic = some (.mem k l1) → k + 8 ≤ sysBase →
      let t := s.signalEvent v seva sinc poison
      t.2 = true ∧ t.1 = withMemory s t.1 ∧
      t.1.natAs v k 8 % 2 ^ 63 = (s.natAs v k 8 + sinc.toNat) % 2 ^ 63 ∧
      (2 ^ 63 ≤ t.1.natAs v k 8 ↔ poison = true ∨ 2 ^ 63 ≤ s.natAs v k 8) ∧ ∀ q, q < k ∨ k + 8 ≤ q → t.1.byteAs v q = s.byteAs v q)) ∧
  (∀ (s : State) (v vb vd j kb kd : Nat) (b d : List Nat), s.canonical → s.slotAt v (vb + 16 * j) .write = some (kb, b) →
    s.slotAt v (vd + 16 * j) .write = some (kd, d) → kb + 16 ≤ sysBase → kd + 16 ≤ sysBase → (kb + 16 ≤ kd ∨ kd + 16 ≤ kb) →
    let t := s.mergeSlot v vb vd j
    let bad := s.poisoned (keysFrom kb 16) = true ∨ s.poisoned (keysFrom kd 16) = true
    (bad → t = s) ∧ (¬ bad → OnlySlot s t v [kb, kd] ∧ slotMerged (slotWords s v kb) (slotWords s v kd) (slotWords t v kb) ∧ ∀ i, i < 4 → slotWords t v kd i = 0)) ∧
  (∀ (s : State) (v vb vd j : Nat), s.slotAt v (vb + 16 * j) .write = none ∨ s.slotAt v (vd + 16 * j) .write = none → s.mergeSlot v vb vd j = s) ∧
  (∀ (s : State) (k : Nat), (s.vupd.find? (fun u => u.id = k) = none → exec (.vintageUpdatePerform k) s = .next s) ∧
    (∀ u, s.vupd.find? (fun u => u.id = k) = some u →
      ((∃ w ∈ s.vupd, w.id < u.id ∧ w.strand = u.strand ∧ ((w.vdelta = u.vdelta ∧ w.slot = u.slot) ∨
          ∃ kw dw ku du, s.slotAt w.ctx (w.vdelta + 16 * w.slot) .write = some (kw, dw) ∧
            s.slotAt u.ctx (u.vdelta + 16 * u.slot) .write = some (ku, du) ∧ kw < ku + 16 ∧ ku < kw + 16)) ∨ s.updHeld u = true →
        exec (.vintageUpdatePerform k) s = .next s) ∧
      (s.updBehind u = false → s.updHeld u = false →
        let m := { s with vupd := s.vupd.filter (fun w => w.id != u.id) }
        ((s.slotAt u.ctx (u.vdelta + 16 * u.slot) .write = none ∨ s.slotAt u.ctx (u.vbase + 16 * u.slot) .read = none) →
          exec (.vintageUpdatePerform k) s = .next m) ∧
        (∀ kd d kb b, s.canonical → s.slotAt u.ctx (u.vdelta + 16 * u.slot) .write = some (kd, d) →
          s.slotAt u.ctx (u.vbase + 16 * u.slot) .read = some (kb, b) → kd + 16 ≤ sysBase → 1 ≤ u.kind → u.kind ≤ 3 →
          let bad := s.poisoned (keysFrom kb 16) = true ∨ s.poisoned (keysFrom kd 16) = true
          (bad → exec (.vintageUpdatePerform k) s = .next m) ∧
          (¬ bad → ∃ t, exec (.vintageUpdatePerform k) s = .next t ∧ OnlySlot m t u.ctx [kd] ∧
            slotUpdated (slotWords s u.ctx kb) (slotWords s u.ctx kd) ([u.w0, u.w1, u.w2].getD · 0) (slotWords t u.ctx kd) u.kind)))))

/-- R47, R282 to R286: for a launch that lacks a strand in a cluster, the strand of highest index of the launches of lowest priority is chosen,
never an eldest item; the chosen strand is saved whole in the lowest free record slot with its commands, and a saved strand returns to its
cluster, lowest index first. Nothing is chosen or saved where no record slot is free. -/
def Sys2Proof.Claims.StrandsArePreemptedAndRestored : Prop :=
  (∀ (s : State) (c n : Nat) (l : Launch) (h : Harvest), s.launch? n = some l → s.harvestOf? n c = some h → l.live = true → h.yielded = false →
    (∀ k ∈ s.harvest, k.cluster = c → k.yielding = false) → (∀ u ∈ s.allStrands, u.id / 64 = c → u.chosen = false) →
    ¬ waitsForRoom s l h c →
    (s.lacksStrand l h = false → exec (.preemptDecision c n) s = .next s) ∧
    (s.lacksStrand l h = true → s.victim l c = none → exec (.preemptDecision c n) s = .next s) ∧
    (∀ u, s.lacksStrand l h = true → s.victim l c = some u → (s.launch u.launch).desc.gb = false →
      (∀ m, (s.ctx u.ctx).freeSlot = some m → ∃ t, exec (.preemptDecision c n) s = .next t ∧ SameBytes s t ∧
        t = { s with cur := t.cur, strands := t.strands } ∧ ∀ id, t.strand id = if id = u.id then { u with chosen := true } else s.strand id) ∧
      ((s.ctx u.ctx).freeSlot = none → exec (.preemptDecision c n) s = .next s))) ∧
  (∀ (s : State) (c : Nat) (l : Launch) (u : Strand), s.victim l c = some u →
    u ∈ s.allStrands ∧ u.status ≠ .idle ∧ u.id / 64 = c ∧ modeFits s l c (s.core (u.id / 8)).four ∧ s.eldest u.launch ≠ some u.index ∧ ∃ k ∈ s.launches, k.num = u.launch ∧ k.live = true ∧
      k.pri < l.pri ∧ (∀ j ∈ s.launches, j.live = true → (∃ w ∈ s.allStrands, w.status ≠ .idle ∧ w.launch = j.num ∧ w.id / 64 = c) → k.pri ≤ j.pri) ∧
      ∀ w ∈ s.allStrands, ∀ j ∈ s.launches, w.status ≠ .idle → w.id / 64 = c → w.launch = j.num → j.live = true → j.pri = k.pri →
        s.eldest w.launch ≠ some w.index → modeFits s l c (s.core (w.id / 8)).four → s.stopped (w.id / 8) = false →
        w.index ≤ u.index) ∧
  (∀ s : State,
    let ready := s.cur.chosen = true ∧ mayGo s s.cur
    (¬ ready → exec .evictStrand s = .next s) ∧
    (ready → (s.ctx s.cur.ctx).freeSlot = none → exec .evictStrand s = .next { s with cur := { s.cur with chosen := false } }) ∧
    (∀ n, ready → (s.ctx s.cur.ctx).freeSlot = some n → ∃ q, SavesStrand s q s.cur n false ∧
      q.cur = { s.cur.drop with sid := s.nextSid } ∧ q.strands = s.strands ∧ exec .evictStrand s = .next { q with disp := .left })) ∧
  (∀ (s : State) (u : Strand), s.frecOf u = ((s.ctx u.ctx).frbase.toNat / 2 ^ 16 % 2 ^ 44 * 2 ^ 16 + 256 * u.id) % 2 ^ 60) ∧
  (∀ (s : State) (v n core slot : Nat), (s.ctx v).saved.find? (fun r => r.num = n) = none → exec (.restoreStrand v n core slot) s = .next s) ∧
  (∀ (s : State) (v n core slot : Nat) (r : Saved), (s.ctx v).saved.find? (fun r => r.num = n) = some r →
    let id := 8 * core + slot
    let cl := r.strand.id / 64
    let u := { r.strand with id := id }
    let mine := fun (c : Cmd) => c.saved && decide (c.launch = r.strand.launch) && decide (c.item = r.strand.index)
    let good := ∃ l, s.launch? r.strand.launch = some l ∧ core / 8 = cl ∧ slot < 8 ∧ (s.core core).four = r.four ∧ s.usable l id = true ∧
      (s.strand id).reserved = none ∧ s.asleep l.num cl = false ∧ (∀ q ∈ s.savedOf l cl, r.strand.index ≤ q.strand.index) ∧
      s.served l id = true ∧ reservedClear s v n (Nat.min 40 (r.strand.records (s.cmds.filter mine)).length) ∧ s.recordFree u = true
    (¬ good → exec (.restoreStrand v n core slot) s = .next s) ∧
    (good → ∃ q t, exec (.restoreStrand v n core slot) s = .next t ∧
      q = { s with
        cur := q.cur
        strands := q.strands
        ctxs := q.ctxs
        owners := q.owners
        cmds := s.cmds.filter (fun c => !mine c) ++ (s.cmds.filter mine).map (fun (c : Cmd) => { c with saved := false, started := false, strand := id, core := id / 8, since := s.cycle (id / 64 / 24) }) } ∧
      (∀ j, q.strand j = if j = id then u else s.strand j) ∧
      (∀ w, q.ctx w = if w = v then { s.ctx v with saved := (s.ctx v).saved.filter (fun p => p.num != n) } else s.ctx w) ∧
      s.owners <+: q.owners ∧ (∀ o ∈ q.owners, o ∈ s.owners ∨ (o.granted = false ∧
        ∃ c ∈ s.cmds, mine c = true ∧ c.engine = .copy ∧ c.dfault = none ∧ c.cid = o.cid)) ∧
      RecordFollows q t u))

/-- R47, R138, R266, R283, R285: where the scratchpad or the strands a launch needs belong to groups of a launch of lower priority, that launch is
marked to yield; it is then saved in the cluster whole, if its context has the record slots, and resumes there, into an empty L1 and at the
same scratch offsets, once nothing of higher priority has work there. -/
def Sys2Proof.Claims.LaunchesYieldAndResume : Prop :=
  (∀ (s : State) (c n : Nat) (l : Launch) (h : Harvest), s.launch? n = some l → s.harvestOf? n c = some h → l.live = true → h.yielded = false →
    (∀ k ∈ s.harvest, k.cluster = c → k.yielding = false) → (∀ u ∈ s.allStrands, u.id / 64 = c → u.chosen = false) →
    let marked := fun (m : Nat) => ∃ t, exec (.preemptDecision c n) s = .next t ∧
      (∀ g, s.harvestOf? m c = some g → (s.ctx (s.launch m).ctx).saved.length + (s.strandsIn m c).length ≤ (s.ctx (s.launch m).ctx).nslot →
        t = { s with harvest := harvestBecomes s m c { g with yielding := true } }) ∧
      ((s.ctx (s.launch m).ctx).nslot < (s.ctx (s.launch m).ctx).saved.length + (s.strandsIn m c).length → t = s)
    let lowest := fun (k : Launch) => k ∈ s.launches ∧ k.live = true ∧ k.pri < l.pri ∧ ownsScratch s c k ∧
      ∀ j ∈ s.launches, j.live = true → ownsScratch s c j → k.pri ≤ j.pri
    (waitsForRoom s l h c → ∃ k, lowest k ∧ marked k.num) ∧
    (∀ u, ¬ waitsForRoom s l h c → s.lacksStrand l h = true → s.victim l c = some u → (s.launch u.launch).desc.gb = true → marked u.launch)) ∧
  (∀ (s : State) (n c : Nat) (l : Launch) (h : Harvest), s.launch? n = some l → s.harvestOf? n c = some h →
    let ts := s.strandsIn n c
    let ready := h.yielding = true ∧ (∀ u ∈ ts, mayGo s u) ∧ s.scratchStores n c = false
    (¬ ready → exec (.yieldLaunch n c) s = .next s) ∧
    (ready → s.saveAll ts = none → exec (.yieldLaunch n c) s = .next { s with harvest := harvestBecomes s n c { h with yielding := false } }) ∧
    (∀ m : State, (s.allStrands.map (·.id)).Nodup → ready → s.saveAll ts = some m → SavedInTurn s m ts ∧ ∃ t, exec (.yieldLaunch n c) s = .next t ∧
      let k := { h with yielding := false, yielded := true, slot := s.imagePlaceOf h }
      let images := (s.groups.filter (fun g => decide (g.launch = n) && decide (g.cluster = c) && g.gran != 0)).map (allocationImage m)
      let runs := images.flatMap (imageRuns s l.ctx c) ++ [(trellisAddr s l.ctx c k.slot, t.trellisBytes k, [])]
      t = { s with
        cur := t.cur
        strands := t.strands
        ctxs := m.ctxs
        cmds := m.cmds
        owners := m.owners
        nextSid := m.nextSid
        mem := t.mem
        lineKey := t.lineKey
        poison := t.poison
        told := t.told
        clusters := t.clusters
        disp := if t.cur.status = Status.idle then .left else s.disp
        groups := s.groups.map (fun (g : Group) => if g.launch = n ∧ g.cluster = c then { g with yielded := true } else g)
        harvest := harvestBecomes s n c k } ∧
      (∀ id, t.strand id = if id / 64 = c ∧ (m.strand id).reserved.any (fun r => r.1 = n) = true then { m.strand id with reserved := none } else m.strand id) ∧
      (∀ j, t.cluster j = if j = c then { m.cluster c with images := (s.cluster c).images ++ images } else m.cluster j) ∧
      (s.canonical → (∀ r ∈ runs, r.1 + r.2.1.length ≤ capBase) → WrittenInTurn m t l.ctx runs))) ∧
  (∀ (s : State) (n c : Nat) (l : Launch) (h : Harvest), s.launch? n = some l → s.harvestOf? n c = some h →
    let good := s.resumable l c = true ∧ ∀ k ∈ s.launches, k.before l = true → s.resumable k c = false
    (s.resumable l c = true → headerClear s l.ctx) ∧
    let images := (s.cluster c).images.filter (fun i => i.launch = n)
    (¬ good → exec (.resumeLaunch n c) s = .next s) ∧
    (good → ∃ t, exec (.resumeLaunch n c) s = .next t ∧
      t = { s with
        clusters := t.clusters
        mem := t.mem
        lineKey := t.lineKey
        poison := t.poison
        told := t.told
        stores := t.stores
        groups := s.groups.map (fun (g : Group) => if g.launch = n ∧ g.cluster = c then { g with yielded := false } else g)
        harvest := harvestBecomes s n c { h with yielded := false } } ∧
      (∀ a, a ∈ t.stores ↔ a ∈ s.stores ∧ ∀ i ∈ images, ∀ q ∈ a.keys, q < scrKey c i.off ∨ scrKey c i.off + i.bytes.length ≤ q) ∧
      t.cluster c = { s.cluster c with
        l1 := []
        images := (s.cluster c).images.filter (fun i => i.launch != n)
        tags := (t.cluster c).tags } ∧
      (∀ p, (∀ i ∈ images, p < i.off / 4096 ∨ i.off / 4096 + i.tags.length ≤ p) → find? p (t.cluster c).tags = find? p (s.cluster c).tags) ∧
      (images.Pairwise (fun i j => i.off / 4096 + i.tags.length ≤ j.off / 4096 ∨ j.off / 4096 + j.tags.length ≤ i.off / 4096) →
        ∀ i ∈ images, ∀ j, j < i.tags.length → find? (i.off / 4096 + j) (t.cluster c).tags = i.tags[j]?) ∧
      (∀ k, k ≠ c → t.cluster k = s.cluster k) ∧
      (∀ p ∈ t.poison, p ∈ s.poison ∨ ∃ i ∈ images, ∃ w ∈ i.bad, p = scrKey c w) ∧
      (images.Pairwise (fun i j => i.off + i.bytes.length ≤ j.off ∨ j.off + j.bytes.length ≤ i.off) →
        (∀ i ∈ images, ∀ w ∈ i.bad, i.off ≤ w ∧ w < i.off + i.bytes.length) → ∀ i ∈ images, ∀ w ∈ i.bad, scrKey c w ∈ t.poison) ∧
      (s.canonical → c < 96 → (∀ i ∈ images, i.off + i.bytes.length ≤ 2 ^ 22) →
        images.Pairwise (fun i j => i.off + i.bytes.length ≤ j.off ∨ j.off + j.bytes.length ≤ i.off) →
        (∀ i ∈ images, ∀ o, o < i.bytes.length → some (t.raw (scrKey c (i.off + o))) = i.bytes[o]?) ∧
        (∀ q, (∀ i ∈ images, q < scrKey c i.off ∨ scrKey c i.off + i.bytes.length ≤ q) → t.raw q = s.raw q))))

/-- R47, R282 to R286: strands are pre-empted and restored, launches yield and resume.
Choices of the model in it: logs 21, 22, 23, 24, 37, 49, 55, 63, 64. -/
def Obligations.PreemptionSavesAndRestores : Prop :=
  Sys2Proof.Claims.StrandsArePreemptedAndRestored ∧ Sys2Proof.Claims.LaunchesYieldAndResume

/-- R292, R293, R313, R314: a corrected error is counted over one second and retires its unit past the unit's threshold; an uncorrectable one
poisons the word it lies in, or aborts the launches of its cluster, and a second within a second retires its unit. A retired unit is announced;
a retired cluster leaves every cluster set and takes the launches that need it with it. Choices of the model in it: logs 19, 31, 59. -/
def Obligations.ErrorsCountAndRetireUnits : Prop :=
  (∀ (s : State) (u : ErrUnit),
    let e := s.pkg.errOf u
    let now := lastSecond s.pkg.ms e.soft
    ∃ m : State, m = { s with pkg := { s.pkg with errs := m.pkg.errs } } ∧ m.pkg.errOf u = { e with soft := now } ∧
      (∀ w, w ≠ u → m.pkg.errOf w = s.pkg.errOf w) ∧
      exec (.correctedError u) s = .next (if limitOf s.pkg.sethr u < now.length then m.retireUnit u else m)) ∧
  (∀ (s : State) (pa : Nat) (u : ErrUnit) (i : Instr), i = .uncorrectableError (.data pa) u ∨ i = .uncorrectableError (.writeback pa) u →
    let e := s.pkg.errOf u
    let now := lastSecond s.pkg.ms e.hard
    (isBeingRead s pa → exec i s = .next s) ∧
    (¬ isBeingRead s pa → ∃ m : State, m = { s with pkg := { s.pkg with errs := m.pkg.errs }, poison := m.poison } ∧ m.pkg.errOf u = { e with hard := now } ∧
      (∀ w, w ≠ u → m.pkg.errOf w = s.pkg.errOf w) ∧ (∀ q, q ∈ m.poison ↔ q ∈ s.poison ∨ (q = pa / 8 * 8 ∧ pa < capBase)) ∧
      exec i s = .next (if 2 ≤ now.length then m.retireUnit u else m))) ∧
  (∀ (s : State) (c : Nat) (u : ErrUnit),
    let n := s.abortAll 4 (fun l => s.runsIn l.num c)
    let now := lastSecond n.pkg.ms (n.pkg.errOf u).hard
    ∃ m : State, m = { n with pkg := { n.pkg with errs := m.pkg.errs } } ∧ m.pkg.errOf u = { n.pkg.errOf u with hard := now } ∧
      exec (.uncorrectableError (.clusterState c) u) s = .next (if 2 ≤ now.length then m.retireUnit u else m)) ∧
  (∀ (s : State) (reason : Nat) (p : Launch → Bool), (s.launches.map (·.num)).Nodup → ∀ l ∈ s.launches,
    ((s.abortAll reason p).launch? l.num).map (·.state) = some (if l.live && p l then .aborted else l.state)) ∧
  (∀ (s : State) (n : Nat),
    (n ∈ s.pkg.retiredFr → s.retireUnit (.frame n) = s) ∧
    (n ∉ s.pkg.retiredFr → ∃ p, SetsPkg s (s.retireUnit (.frame n)) p ∧ Announces s.pkg p 1 (n * 2 ^ 16) ∧
      p = { s.pkg with retiredFr := n :: s.pkg.retiredFr, retireq := p.retireq, msix := p.msix }) ∧
    (n ∈ s.pkg.retiredL2 → s.retireUnit (.l2bank n) = s) ∧
    (n ∉ s.pkg.retiredL2 → ∃ p, SetsPkg s (s.retireUnit (.l2bank n)) p ∧ Announces s.pkg p 2 n ∧
      p = { s.pkg with retiredL2 := n :: s.pkg.retiredL2, retireq := p.retireq, msix := p.msix })) ∧
  (∀ (s : State) (c : Nat), ((s.cluster c).retired = true → s.retireUnit (.cluster c) = s) ∧
    ((s.cluster c).retired = false →
      let t := s.retireUnit (.cluster c)
      (t.cluster c).retired = true ∧ Announces s.pkg t.pkg 3 c ∧
      (∀ v, (t.ctx v).clset.getLsbD c = false ∧ ∀ k, k ≠ c → (t.ctx v).clset.getLsbD k = (s.ctx v).clset.getLsbD k) ∧
      (∀ l ∈ t.launches, c ∉ l.parts) ∧ (∀ h ∈ t.harvest, h.cluster ≠ c) ∧
      ((s.launches.map (·.num)).Nodup → ∀ l ∈ s.launches, l.live = true →
        (s.runsIn l.num c = true ∨ (l.desc.dyn = false ∧ c ∈ l.parts) ∨
          (∃ h ∈ s.harvest, h.launch = l.num ∧ h.cluster = c ∧ (h.chunks ≠ [] ∨ h.yielded = true))) →
        (t.launch? l.num).map (·.state) = some .aborted)))

/-- R171, R298, R305, R307, R308: an access through BAR2 of a function that answers, below 2^38, or from a peer that a valid entry names, below
2^44, is performed at its home under the context's key; any other has the answer of a failure, and a function that does not answer gives none. What a
peer is answered stands in the replay buffer of its port (R303). A read of a word with an uncorrectable error has the answer of a failure, which is
the choice of log 19. Choices of the model in it: logs 19, 30, 37, 56, 57. -/
def Obligations.OutsideAccessesArePerformedAtHome : Prop :=
  (∀ (s : State) (v off : Nat) (op : ExtOp) (i : Instr),
    (∃ n, op = .read n ∧ i = .hostBar2Read v off n) ∨ (∃ bs, op = .write bs ∧ i = .hostBar2Write v off bs) ∨
      (((∃ x, op = .fetchAdd x) ∨ (∃ x, op = .swap x) ∨ (∃ x y, op = .cas x y)) ∧ i = .hostAtomicop v off op) →
    (¬ queueAnswers s v → exec i s = .next s) ∧
    (queueAnswers s v → 2 ^ 38 < off + outsideBytes op → exec i s = .next (s.answer .unsupported)) ∧
    (queueAnswers s v → off + outsideBytes op ≤ 2 ^ 38 → ∃ t, exec i s = .next t ∧ Outside s t v off op .unsupported)) ∧
  (∀ (s : State) (v off : Nat) (op : ExtOp), (∀ x, op ≠ .fetchAdd x) → (∀ x, op ≠ .swap x) → (∀ x y, op ≠ .cas x y) →
    exec (.hostAtomicop v off op) s = .next (if decide (v < 64) && (!s.pkg.recovery || decide (v = 0)) then s.answer .unsupported else s)) ∧
  (∀ (s : State) (port pkg rctx v va : Nat) (op : ExtOp),
    let named := ∃ p ∈ (s.ctx v).peers, p.2.getLsbD 63 = true ∧ p.2.toNat / 2 ^ 32 % 2 ^ 16 = pkg ∧ p.2.toNat / 2 ^ 20 % 2 ^ 6 = rctx
    let access := exec (.forsilIncomingAccess ⟨port, pkg⟩ rctx v va op) s
    (64 ≤ v ∨ s.pkg.recovery = true ∨ s.pkg.up.getLsbD port = false → access = .next s) ∧
    (v < 64 → s.pkg.recovery = false → s.pkg.up.getLsbD port = true → ∃ q t, access = .next t ∧ AnsweredBy s q t port ∧
      ((¬ named ∨ 2 ^ 44 < va + outsideBytes op) → q = s.answer .nak) ∧
      (named → va + outsideBytes op ≤ 2 ^ 44 → Outside s q v va op .nak)))

/-- R38, R299, R300, R304, R306, R307, R313, R314: writes of a context's page through its function or PF0's copy, of CSEED, and of the management
registers; a read of RETIRE takes its oldest event; the signed measurement blocks 1 to 5. Choices of the model in it: logs 9, 28. -/
def Obligations.RegisterWritesTakeEffect : Prop :=
  (∀ (s : State) (v off : Nat) (pf0 : Bool) (x : Word),
    let p := pf0 || decide (v = 0)
    let answers := if p then True else v < 64 ∧ s.pkg.recovery = false
    let idle := !(s.ctx v).en && !s.launches.any (fun l => l.ctx = v && l.live)
    (¬ answers ∨ 64 ≤ v → exec (.registerWrite v pf0 off x) s = .next s) ∧
    (answers → (v ≠ 0 ∨ off < 0x100 ∨ 0x800 ≤ off) → v < 64 →
      ∃ t d, exec (.registerWrite v pf0 off x) s = .next t ∧ SetsContext s t v d ∧ pageWritten s (s.ctx v) idle p off x d) ∧
    (v = 0 → off = 0x118 → ∃ t w, exec (.registerWrite v pf0 off x) s = .next t ∧ w.toNat = x.toNat % 2 ^ 48 ∧
      SetsPkg s t { s.pkg with sethr := w }) ∧
    (v = 0 → off = 0x140 → ∃ t w, exec (.registerWrite v pf0 off x) s = .next t ∧ SetsPkg s t { s.pkg with down := w } ∧
      ∀ i, w.getLsbD i = (s.pkg.down.getLsbD i && !(decide (i < 16) && x.getLsbD (16 + i)))) ∧
    (v = 0 → 0x100 ≤ off → off < 0x800 → off ≠ 0x118 → off ≠ 0x140 → exec (.registerWrite v pf0 off x) s = .next s)) ∧
  (∀ (s : State) (v : Nat) (x : Word), ¬ queueAnswers s v → exec (.cseedWrite v x) s = .next s) ∧
  (∀ (s : State) (v : Nat) (x : Word), queueAnswers s v → ∃ t, exec (.cseedWrite v x) s = .next t ∧ SetsContext s t v
    (if !(s.ctx v).en && !s.launches.any (fun l => l.ctx = v && l.live) then { s.ctx v with cseed := x, seeds := [x] } else { s.ctx v with ign := true })) ∧
  (∀ (s : State) (x : Word),
    (s.pkg.up = 0 → ∃ t w, exec (.pkgidWrite x) s = .next t ∧ w.toNat = x.toNat % 2 ^ 16 ∧ SetsPkg s t { s.pkg with pkgid := w }) ∧
    (s.pkg.up ≠ 0 → exec (.pkgidWrite x) s = .next s) ∧
    (∃ t, exec (.pwrlimWrite x) s = .next t ∧ SetsPkg s t { s.pkg with pwrlim :=
      if x.toNat % 2 ^ 12 < 600 then 600 else if 3000 < x.toNat % 2 ^ 12 then 3000 else x.toNat % 2 ^ 12 })) ∧
  (∀ s : State, (s.pkg.retireq = [] → exec .retireRead s = .next (s.answer (.value 0))) ∧
    (∀ e r, s.pkg.retireq = e :: r → ∃ w : Word, exec .retireRead s =
        .next { s with hostOut := s.hostOut ++ [.value w], pkg := { s.pkg with retireq := r } } ∧
      w.getLsbD 63 = true ∧ w.toNat / 2 ^ 60 % 4 = e.kind % 4 ∧ w.toNat % 2 ^ 52 = e.num % 2 ^ 52 ∧ w.toNat / 2 ^ 52 % 2 ^ 8 = 0)) ∧
  (∀ (s : State) (n : Nat), (n < 1 ∨ 5 < n) → exec (.getMeasurements n) s = .next (s.answer .unsupported)) ∧
  (∀ (s : State) (n : Nat) (of : List Byte), 1 ≤ n → n ≤ 5 →
    ((n = 1 ∨ n = 2) ∧ ((∃ fw, s.pkg.firmware = some fw ∧ of = fw.image) ∨ (s.pkg.firmware = none ∧ of = []))) ∨
      (n = 3 ∧ of.length = 8 * capWords.length ∧ ∀ i, i < capWords.length → leNat ((of.drop (8 * i)).take 8) = (capWords.getD i 0).toNat) ∨
      (n = 4 ∧ of.length = 8 ∧ leNat (of.take 4) = Config.acv % 2 ^ 32 ∧ leNat (of.drop 4) = Config.revision % 2 ^ 32) ∨
      (n = 5 ∧ of.length = 8 ∧ leNat of = Config.fusedSvn % 2 ^ 64) →
    exec (.getMeasurements n) s = .next (s.answer (.data (Config.measurement n of ++ Config.measurementSig (Config.measurement n of)))))

/-- R38, R193, R308 to R310: CREATE opens a free context with a key and a seed stack of one entry; DESTROY aborts its launches, drops its records,
saved state and translations, and once those launches have ended erases its keys and its L1 lines; the sweep empties its lines and frees it; a
TDISP error takes the first two steps; the import key is set whole. Choices of the model in it: logs 28, 61. -/
def Obligations.ContextsAreCreatedAndDestroyed : Prop :=
  (∀ (s : State) (v : Nat),
    let c := s.ctx v
    let ended := fun (m : State) (code : Nat) => { m with pkg := { m.pkg with cmdBusy := true, cmdCode := code } }
    (s.pkg.cmdBusy = true → exec (.create v) s = .next s ∧ exec (.destroy v) s = .next s) ∧
    (s.pkg.cmdBusy = false → v < 64 → c.cstate = .free → ∃ t m, exec (.create v) s = .next t ∧ t = ended m 0 ∧
      SetsContext s m v { c with cstate := .created, hasKey := true, seeds := [c.cseed] }) ∧
    (s.pkg.cmdBusy = false → v < 64 → c.cstate = .destroying → exec (.create v) s = .next (ended s 1) ∧ exec (.destroy v) s = .next (ended s 1)) ∧
    (s.pkg.cmdBusy = false → v < 64 → c.cstate = .closing false → exec (.destroy v) s = .next (ended s 1)) ∧
    (s.pkg.cmdBusy = false → (64 ≤ v ∨ c.cstate = .created ∨ c.cstate = .tdiError ∨ ∃ b, c.cstate = .closing b) →
      exec (.create v) s = .next (ended s 2)) ∧
    (s.pkg.cmdBusy = false → (64 ≤ v ∨ c.cstate = .free) → exec (.destroy v) s = .next (ended s 2))) ∧
  (∀ (s : State) (v : Nat) (i : Instr), v < 64 →
    (i = .destroy v ∧ s.pkg.cmdBusy = false ∧ ((s.ctx v).cstate = .created ∨ (s.ctx v).cstate = .tdiError ∨ (s.ctx v).cstate = .closing true)) ∨
      (i = .tdispError v ∧ (s.ctx v).cstate = .created) →
    ∃ t, exec i s = .next t ∧
      (let c := { s.ctx v with en := false, hostSt := .none, devSt := .none, devq := [], head := 0, tail := 0, saved := [] }
       (¬ ended t v → t.ctx v = { c with cstate := .closing (decide (i ≠ .destroy v)) }) ∧
       (ended t v → i = .destroy v → t.ctx v = keyErased c) ∧ (ended t v → i ≠ .destroy v → t.ctx v = { c with cstate := .tdiError })) ∧
      (∀ w, w ≠ v → t.ctx w = s.ctx w) ∧
      ((s.launches.map (·.num)).Nodup → ∀ l ∈ s.launches,
        (t.launch? l.num).map (·.state) = some (if decide (l.ctx = v) && l.live then .aborted else l.state)) ∧
      (∀ p ∈ t.clusters, (∀ k ∈ p.2.images, (t.launch k.launch).ctx ≠ v) ∧ (∀ k ∈ p.2.tlb, k.ctx ≠ v) ∧
        (i = .destroy v → ended t v → ∀ k ∈ p.2.l1, k.kid ≠ v)) ∧
      (∀ w ∈ t.walks, w.ctx ≠ v) ∧
      (i = .destroy v → t.pkg.cmdBusy = true ∧ t.pkg.cmdCode = 0 ∧
        (ended t v → (∀ a ∈ t.stores, a.kid ≠ v) ∧ ∀ u ∈ t.vupd, u.ctx ≠ v))) ∧
  (∀ (s : State) (v : Nat), v < 64 →
    (¬ ended s v ∨ (∀ b, (s.ctx v).cstate ≠ .closing b) → s.closeCtx v = s) ∧
    (ended s v → (s.ctx v).cstate = .closing true → SetsContext s (s.closeCtx v) v { s.ctx v with cstate := .tdiError }) ∧
    (ended s v → (s.ctx v).cstate = .closing false →
      let t := s.closeCtx v
      SameBytes s t ∧ t = { s with ctxs := t.ctxs, clusters := t.clusters, stores := t.stores, vupd := t.vupd } ∧
      (∀ w, t.ctx w = if w = v then keyErased (s.ctx v) else s.ctx w) ∧
      (∀ k, t.cluster k = { s.cluster k with l1 := (s.cluster k).l1.filter (fun l => decide (l.kid ≠ v)) }) ∧
      t.stores = s.stores.filter (fun a => decide (a.kid ≠ v)) ∧ t.vupd = s.vupd.filter (fun u => decide (u.ctx ≠ v)))) ∧
  (∀ (s : State) (v : Nat), ((s.ctx v).cstate ≠ .destroying → exec (.keySweepComplete v) s = .next s) ∧
    (v < 64 → (s.ctx v).cstate = .destroying → (s.lineKey.map (·.1)).Nodup → ∃ t, exec (.keySweepComplete v) s = .next t ∧
      t = { s with ctxs := t.ctxs, mem := t.mem, lineKey := t.lineKey } ∧
      (∀ w, t.ctx w = if w = v then { s.ctx v with cstate := .free } else s.ctx w) ∧
      (∀ k, t.keyId k = if s.keyId k = v then 0x7F else s.keyId k) ∧
      (∀ q, t.raw q = if q < sysBase ∧ s.keyId q = v then 0 else s.raw q) ∧
      (∀ kid q, kid ≠ v → kid ≠ 0x7F → t.byteAs kid q = s.byteAs kid q))) ∧
  (∀ (s : State) (v : Nat), ((s.ctx v).cstate ≠ .created → exec (.tdispError v) s = .next s) ∧
    (∀ key, (s.ctx v).cstate ≠ .created → exec (.setImportKey v key) s = .next s) ∧
    (∀ key, v < 64 → (s.ctx v).cstate = .created → ∃ t, exec (.setImportKey v key) s = .next t ∧
      SetsContext s t v { s.ctx v with impKey := some key }))

/-- R301 to R304, R314: training starts for present ports that are down and idle, and ends with the port up, its replay buffer empty, or down; a
flit is delivered in order; the eighth failed replay in a row of one flit takes the port down, with an error for what it carries and an interrupt at
the first DOWN; an address in system space names the host or, by its entry, a peer and a port; an access to system space completes with its answer
or, after the timeout, with an error. -/
def Sys2Proof.Claims.ForsilPortsTrainDeliverAndFail : Prop :=
  (∀ (s : State) (x : Word), ∃ t w, exec (.fltrainWrite x) s = .next t ∧ SetsPkg s t { s.pkg with trn := w } ∧
    ∀ i, i < 16 → w.getLsbD i = (s.pkg.trn.getLsbD i || (x.getLsbD i && Config.portsPresent.testBit i && !s.pkg.up.getLsbD i))) ∧
  (∀ (s : State) (p : Nat) (ok : Bool),
    (s.pkg.trn &&& portMask p = 0 → exec (.forsilTrainingComplete p ok) s = .next s) ∧
    (s.pkg.trn &&& portMask p ≠ 0 → ∃ t q, exec (.forsilTrainingComplete p ok) s = .next t ∧ SetsPkg s t q ∧
      q = { s.pkg with trn := q.trn, up := q.up, replay := q.replay, fails := q.fails } ∧
      (∀ i, i < 16 → q.trn.getLsbD i = (s.pkg.trn.getLsbD i && decide (i ≠ p)) ∧
        q.up.getLsbD i = (s.pkg.up.getLsbD i || (ok && decide (i = p)))) ∧
      find? p q.replay = some [] ∧ find? p q.fails = some (0, 0) ∧
      (∀ i, i ≠ p → find? i q.replay = find? i s.pkg.replay ∧ find? i q.fails = find? i s.pkg.fails))) ∧
  (∀ (s : State) (p : Nat) (bytes : List Byte),
    (s.pkg.up &&& portMask p = 0 ∨ bytes.length ≠ 240 → exec (.flitReceive p bytes) s = .next s) ∧
    (s.pkg.up &&& portMask p ≠ 0 → bytes.length = 240 →
      exec (.flitReceive p bytes) s = .next { s with pkg := { s.pkg with rxFlits := s.pkg.rxFlits ++ [(p, bytes)] } }) ∧
    (s.pkg.up &&& portMask p = 0 → (∀ n, exec (.flitReplay ⟨p, n⟩) s = .next s) ∧ exec (.forsilPortDown p) s = .next s) ∧
    (∀ n, s.pkg.up &&& portMask p ≠ 0 → ∃ t q, exec (.flitReplay ⟨p, n⟩) s = .next t ∧ SameBytes s t ∧ t = { s with
        hostOut := s.hostOut ++ [.resent p ((find? p s.pkg.replay).getD []).length]
        pkg := q } ∧ q = { s.pkg with fails := q.fails } ∧
      (∀ k, find? p s.pkg.fails = some (n, k) → find? p q.fails = some (n, k + 1)) ∧
      ((∀ k, find? p s.pkg.fails ≠ some (n, k)) → find? p q.fails = some (n, 1)) ∧
      ∀ i, i ≠ p → find? i q.fails = find? i s.pkg.fails) ∧
    let eighth := ∃ n k, find? p s.pkg.fails = some (n, k) ∧ 8 ≤ k
    (¬ eighth → exec (.forsilPortDown p) s = .next s) ∧
    (s.pkg.up &&& portMask p ≠ 0 → eighth → ∃ t q, exec (.forsilPortDown p) s = .next t ∧ SameBytes s t ∧
      t = { s with pkg := q, cur := t.cur, strands := t.strands } ∧
      q = { s.pkg with up := s.pkg.up &&& ~~~portMask p, down := s.pkg.down ||| portMask p, msix := q.msix } ∧
      q.msix = s.pkg.msix + (if s.pkg.down &&& portMask p = 0 then 1 else 0) ∧
      (∀ (i : Nat) (u : Strand), s.allStrands[i]? = some u → ∃ w, t.allStrands[i]? = some w ∧
        (∀ r, u.sys = some r → r.port = some p → w = { u with sys := none, sysGot := w.sysGot } ∧ find? r.tag w.sysGot = some .error) ∧
        ((∀ r, u.sys = some r → r.port ≠ some p) → w = u)))) ∧
  (∀ (s : State) (v pa : Nat),
    let e := (find? (pa / 2 ^ 44 % 2 ^ 6) (s.ctx v).peers).getD 0
    let ports := fun (n : Nat) => (List.range n).filter (fun i => e.getLsbD i)
    (pa / 2 ^ 50 % 2 = 0 → s.target v pa = some (.host v (pa % 2 ^ 50))) ∧
    (pa / 2 ^ 50 % 2 = 1 → e.getLsbD 63 = false ∨ ports 16 = [] → s.target v pa = none) ∧
    (∀ p, pa / 2 ^ 50 % 2 = 1 → e.getLsbD 63 = true → p < 16 → e.getLsbD p = true →
      (ports p).length = pa / 2 ^ 12 % 2 ^ 32 % (ports 16).length →
      s.target v pa = if s.pkg.up.getLsbD p then some (.peer p (e.toNat / 2 ^ 32 % 2 ^ 16) (e.toNat / 2 ^ 20 % 2 ^ 6) (pa % 2 ^ 44)) else none)) ∧
  (∀ s : State, s.cur.sys = none → ∀ a, exec (.systemAccessComplete a) s = .next s ∧ exec .completionTimeout s = .next s) ∧
  (∀ (s : State) (r : SysReq) (a : SysResp) (i : Instr), s.cur.sys = some r →
    i = .systemAccessComplete a ∨ (i = .completionTimeout ∧ a = .error) → ∃ t, exec i s = .next t ∧ SameBytes s t ∧
      t = { s with cur := { s.cur with sys := none, sysGot := t.cur.sysGot } } ∧ find? r.tag t.cur.sysGot = some a ∧
      ∀ n, n ≠ r.tag → find? n t.cur.sysGot = find? n s.cur.sysGot)

/-- R159, R168, R301 to R304: the accesses of strands to system space, and the ports they go through.
Choices of the model in it: logs 6, 10, 30, 41, 46, 54, 59, 64. -/
def Obligations.ForsilPortsTrainDeliverAndFail : Prop :=
  Sys2Proof.Claims.SystemSpaceAccesses ∧ Sys2Proof.Claims.ForsilPortsTrainDeliverAndFail

/-- R216, R307, R311 to R314: each millisecond the arbiter's measurements and settings take effect within their limits; 120 degrees or the loss of
power leaves the package dark; a reset verifies the staged image and starts from the reset state, in recovery after a rejection.
Choices of the model in it: logs 9, 29, 41, 44. -/
def Obligations.PowerArbiterResetAndTrip : Prop :=
  (∀ (s : State) (p : PowerSet), ∃ t q, exec (.powerArbiterTick p) s = .next t ∧ SetsPkg s t q ∧
    q = { s.pkg with
      ms := s.pkg.ms + 1
      power := p.power
      temps := q.temps
      stretch := q.stretch
      permits := q.permits
      ring := q.ring
      budgets := q.budgets } ∧
    q.temps.length = 4 ∧ q.stretch.length = 4 ∧ q.permits.length = 4 ∧ q.budgets.length = 8 ∧
    (∀ d, d < 4 → q.temps.getD d 0 = p.temps.getD d 0 ∧ 16 ≤ q.stretch.getD d 0 ∧ q.stretch.getD d 0 ≤ 64 ∧ 1 ≤ q.permits.getD d 0 ∧
      q.permits.getD d 0 ≤ 24 ∧ (110 ≤ p.temps.getD d 0 → q.stretch.getD d 0 = 64 ∧ q.permits.getD d 0 = 1) ∧
      (100 ≤ p.temps.getD d 0 → Nat.min 64 (s.pkg.stretch.getD d 16 + 1) ≤ q.stretch.getD d 0) ∧
      (p.temps.getD d 0 < 100 → 16 ≤ p.stretch.getD d 16 → p.stretch.getD d 16 ≤ 64 → q.stretch.getD d 0 = p.stretch.getD d 16)) ∧
    (∀ d, d < 4 → ∀ n, n = (s.pkg.ring.filter (fun p => p.die = d)).length + s.permitsHeld d →
      (q.ring.filter (fun p => p.die = d)).length = (s.pkg.ring.filter (fun p => p.die = d)).length - (n - q.permits.getD d 0)
        + (q.permits.getD d 0 - n)) ∧
    (∀ b, b < 8 → 500000000 ≤ q.budgets.getD b 0 ∧ q.budgets.getD b 0 ≤ 4000000000)) ∧
  (∀ s : State,
    let dark := { State.reset with
      pkg := { Pkg.fresh with powered := false, staged := s.pkg.staged, firmware := s.pkg.firmware, fwstat := s.pkg.fwstat, recovery := s.pkg.recovery }
      free := s.free
      hostOut := s.hostOut
      tape := s.tape }
    exec .packagePowerOff s = .next dark ∧ ((∃ x ∈ s.pkg.temps, 120 ≤ x) → exec .thermalTrip s = .next dark) ∧
    ((∀ x ∈ s.pkg.temps, x < 120) → exec .thermalTrip s = .next s)) ∧
  (∀ (s : State) (fw : Firmware), exec (.firmwareImageStage fw) s = .next { s with pkg := { s.pkg with staged := some fw } }) ∧
  (∀ s : State, ∃ st, exec .packageReset s = .next { State.reset with
      pkg := { Pkg.fresh with
        fwstat := st
        recovery := decide (st ≠ 0)
        firmware := if st = 0 then s.pkg.staged.or s.pkg.firmware else s.pkg.firmware }
      free := s.free
      hostOut := s.hostOut
      tape := s.tape } ∧
    (s.pkg.staged = none → st = s.pkg.fwstat) ∧
    (∀ fw, s.pkg.staged = some fw → (Config.sigVerifies fw.image fw.sig = false → st = 1) ∧
      (Config.sigVerifies fw.image fw.sig = true → fw.svn < Config.fusedSvn → st = 2) ∧
      (Config.sigVerifies fw.image fw.sig = true → Config.fusedSvn ≤ fw.svn → st = 0)))

/-- R50 to R64: the encoder and the decoder agree. Every well-formed word of the opcode table has an encoding that decodes to it, and a bundle
of one word decodes only to a well-formed word whose encoding it is. -/
def Obligations.DecodingAndEncodingAgree : Prop :=
  (∀ i : Instr, isWord i = true → WellFormed i = true → ∃ w, encode i = some w ∧ decodeOne w = some i) ∧
  (∀ (w : Word) (i : Instr), decodeOne w = some i → isWord i = true ∧ WellFormed i = true ∧ encode i = some w) ∧
  (∀ i : Instr, isWord i = false → encode i = none)

/-- Sanity: the bundles of the manual's worked encodings decode as it says (spec/03 and spec/20). -/
def Obligations.WorkedEncodingsDecode : Prop :=
  decode 0x0CD340407C614000 = .ok (.pair (.launch 12) (.addi 13 13 64)) ∧
  decode 0x00000000105166C2 = .ok (.pair (.ldGShort 10 11 3 .i32 2) .nop) ∧
  decode 0x0000001090717EE0 = .ok (.long (.ldGLong 14 11 15 .i64 512 none)) ∧
  decode 0x04A24C0082400000 = .ok (.long (.backRefWrap 2 0 0 (.add 10 9 12))) ∧
  decode 0x00000C40882FFFF8 = .ok (.long (.bLt 3 4 0xFFFF8 none)) ∧
  decode 0x000000007C030000 = .ok (.pair .fin .nop) ∧
  decode 0x0CB000017C00002A = .ok (.pair (.trap 42) (.addi 11 0 1)) ∧
  decode 0x000000007CA8D010 = .ok (.pair (.mts 0x101 21) .nop) ∧
  decode 0 = .ok (.pair .nop .nop) ∧
  decode 1 = .error (false, .field) ∧
  decode 0x08000000 = .error (false, .code)

/-- R52, R55, R58, R62, R64, R65, R69, R71, R110: a bundle that decodes for a strand names only registers of its slot mode, no privileged word at user
privilege, no word its launch forbids, no site beyond VCOUNT, and two words of it never write one register. A word of zeros is
a no-operation in either slot, and major 0 with any other bit set is illegal. -/
def Obligations.DecodedBundlesKeepTheChecks : Prop :=
  (∀ (e : DecEnv) (w : Word) (d : Decoded), decodeIn e w = .ok d →
    (∀ p ∈ wordsIn d,
      (e.fourSlot = false → (∀ r ∈ xFields p.2, r.toNat < 32) ∧ ∀ h ∈ hFields p.2, h.toNat < 8) ∧
      (e.super = false → needsSupervisor p.2 = false) ∧ (e.gb = false → p.2 ≠ .gbar) ∧ (∀ f, e.det = true → p.2 ≠ .amoFadd f) ∧
      (∀ r, e.det = true → p.2 ≠ .mfs r 9 ∧ p.2 ≠ .mfs r 10) ∧ (e.inHandler = false → p.2 ≠ .uiret) ∧
      (∀ j, siteField p.2 = some j → j.toNat < e.vcount) ∧ WellFormed p.2 = true) ∧
    (∀ c a, d = .pair c a → isAWord a = true ∧ (cDest c ≠ 0 → aDest a ≠ cDest c)) ∧
    (w.getLsbD 31 = true ↔ ∃ i, d = .long i)) ∧
  (∀ (e : DecEnv) (w : Word),
    (w.toNat / 2 ^ 25 % 2 ^ 6 = 0 → w.toNat % 2 ^ 32 ≠ 0 → ∃ b, decodeIn e w = .error (false, b)) ∧
    (w.toNat / 2 ^ 31 % 2 = 0 → w.toNat / 2 ^ 58 = 0 → w.toNat / 2 ^ 32 ≠ 0 → ∃ x, decodeIn e w = .error x) ∧
    ∀ c a, decodeIn e w = .ok (.pair c a) → (w.toNat % 2 ^ 32 = 0 → c = .nop) ∧ (w.toNat / 2 ^ 32 = 0 → a = .nop)) ∧
  (∀ e : DecEnv, decodeIn e 0 = .ok (.pair .nop .nop))

/-- R52, R54, R65 to R67, R73, R270: at its turn a strand with nothing to take first fetches its bundle, checks it and its windows, waits for the
registers it names, those that land in its own cycle among them, and runs it: a long instruction, or a C-word and an A-word that both read before either writes, where a fault of the
C-word comes first. The next bundle is the one its words lead to. Where the tape is empty the strand in hand has such a turn, and the turn
then passes on; an event on the tape happens as it stands (log 1). Choices of the model in it: logs 1, 3, 7, 16, 17, 18, 61. -/
def Obligations.StepRunsTheDecodedBundle : Prop :=
  (∀ (s : State) (id : Nat) (rest : List Move) (w : Word) (f : State), s.pkg.powered = true → s.pkg.recovery = false → s.tape = .turn id :: rest →
    let m := turnBegins ({ s with tape := rest }.focus id)
    readyToIssue m → exec .bundleFetch m = .next f → f.disp = .done → f.cur.ibuf = some (m.cur.pc, w) →
    let b := inHand f w
    let h := b.cur.handling
    (∀ slotA x, decodeIn b.decEnv w = .error (slotA, x) → ∃ t, exec (.illegalBundle slotA x.sub) b = .next t ∧ step s = .next t) ∧
    (∀ d slotA p, decodeIn b.decEnv w = .ok d → b.cur.breach d = some (slotA, p) →
      step s = .next (State.raise { b with inA := slotA } (State.precise { b with inA := slotA } 2 0 p.prod))) ∧
    (∀ d, b.cur.interlocked b.now d = true ↔ ∃ p ∈ wordsIn d, ∃ r ∈ wordRegs p.2,
      (∃ q ∈ b.cur.pend, q.reg = r ∧ q.landed = false) ∨ (r, b.now) ∈ b.cur.justIn) ∧
    (∀ d, decodeIn b.decEnv w = .ok d → b.cur.breach d = none → b.cur.interlocked b.now d = true → step s = .next { b with disp := .wait }) ∧
    (∀ i, decodeIn b.decEnv w = .ok (.long i) → b.cur.breach (.long i) = none → b.cur.interlocked b.now (.long i) = false →
      (∀ r, exec i b.tick = .next r → r.disp = .done → step s = .next (goesOn r h)) ∧
      (∀ q r, exec i b.tick = .next q → q.disp ≠ .done → exec i b = .next r → step s = .next (if r.disp = .done then goesOn r h else r))) ∧
    (∀ c a, decodeIn b.decEnv w = .ok (.pair c a) → b.cur.breach (.pair c a) = none → b.cur.interlocked b.now (.pair c a) = false → c ≠ .fin →
      (∀ ra rc r, leavesPlace c = false → exec a (readsBefore b b) = .next ra → ra.disp = .done → ra.cur.faulting = none →
        exec c b.tick = .next rc → rc.disp = .done → exec a (readsBefore b rc) = .next r → r.disp = .done → step s = .next (goesOn (aDone r) h)) ∧
      (∀ rc t, leavesPlace c = false → exec c b.tick = .next rc → rc.disp ≠ .done → exec c b = .next t → stopped t → step s = .next t) ∧
      (∀ ra rc, leavesPlace c = false → exec c b.tick = .next rc → rc.disp = .done → exec a (readsBefore b b) = .next ra → stopped ra →
        step s = .next (aDone ra)) ∧
      (∀ ra r t, leavesPlace c = true → exec a (readsBefore b b) = .next ra → ra.disp = .done → exec a (readsBefore b b.tick) = .next r →
        exec c (aDone r) = .next t → step s = .next (if t.disp = .done then goesOn t h else t))) ∧
    (∀ a r t, decodeIn b.decEnv w = .ok (.pair .fin a) → b.cur.breach (.pair .fin a) = none → b.cur.interlocked b.now (.pair .fin a) = false →
      b.cur.rep.armed = false → exec a (readsBefore b b) = .next r → r.disp = .done →
      exec .fin { aDone r with cur := { r.cur with actDone := some b.cur.pc } } = .next t →
      step s = .next (if t.disp = .done then goesOn t h else t))) ∧
  (∀ (u : State), u.cycles.length = 4 → u.cur.id < 6144 →
    let m := turnBegins u
    let n := if u.four then 4 else 8
    let k := u.cur.id / 8
    u.now ≤ m.now ∧ (u.core k).used ≤ m.now ∧ (m.now < u.now + n ∨ m.now < (u.core k).used + n) ∧ m.now % n = u.cur.id % 8 % n ∧
      m.cur = u.cur ∧ m.core k = { u.core k with used := m.now + 1 } ∧ (∀ j, j ≠ k → m.core j = u.core j)) ∧
  (∀ (s t : State) (i : Instr) (rest : List Move), s.pkg.powered = true → s.pkg.recovery = false → s.tape = .event i :: rest →
    isWord i = false → (∀ a x, i ≠ .illegalBundle a x) → exec i { s with tape := rest } = .next t → step s = .next t) ∧
  (∀ (s : State) (rest : List Move), s.pkg.powered = true → s.tape = .cmdDone :: rest →
    ((∃ p ∈ s.ctxs, p.2.cstate = .closing false) → step s = .next { s with tape := rest }) ∧
    ((∀ p ∈ s.ctxs, p.2.cstate ≠ .closing false) → step s = .next { s with tape := rest, pkg := { s.pkg with cmdBusy := false } })) ∧
  (∀ s : State, s.pkg.powered = true → s.pkg.recovery = false → s.tape = [] → s.cur.status = .running → s.disp ≠ .wait →
    ∃ t, step { s with tape := [.turn s.cur.id] } = .next t ∧ step s = .next t.share)

/-- R54, R312, R314: every word and event answers a next state, and so does every step of a package with power; without power only a package
reset does, and any other step is the fault `noPower`. Choices of the model in it: log 29. -/
def Obligations.OnlyTheLossOfPowerStopsAStep : Prop :=
  (∀ (i : Instr) (s : State), ∃ t, exec i s = .next t) ∧
  (∀ s : State, s.pkg.powered = true → ∃ t, step s = .next t) ∧
  (∀ (s : State) (r : List Move), s.pkg.powered = false → s.tape = .event .packageReset :: r → ∃ t, step s = .next t ∧ t.pkg.powered = true ∧
    t.tape = r) ∧
  (∀ s : State, s.pkg.powered = false → s.resetNext = false → step s = .fault .noPower)

/-- Whatever a step does, memory keeps its canonical form: addresses strictly rising, and no entry that reads as an unlisted address does. So it
stands at every state that steps reach from a state where it stood. Choices of the model in it: log 4. -/
def Obligations.StepsKeepMemoryCanonical : Prop :=
  (∀ s t : State, s.canonical → step s = .next t → t.canonical) ∧ (∀ s t : State, s.canonical → Reaches s t → t.canonical)

/-- Memory's canonical form stands at reset. R32, R66, R72, R138, R216, R299, R304, R313, R314: the values the manual gives at package reset.
Choices of the model in it: logs 2, 4. -/
def Obligations.ResetLeavesTheManualsValues : Prop :=
  let s := State.reset
  s.canonical ∧ s.mem = [] ∧ (∀ d, s.cycle d = 0) ∧ (∀ k, (s.core k).four = false) ∧ (∀ c, (s.cluster c).l1size = 1) ∧
    (∀ v, (s.ctx v).en = false ∧ (s.ctx v).err = false ∧ (s.ctx v).act = false ∧ (s.ctx v).logn = 0 ∧ (s.ctx v).peers = [] ∧
      (s.ctx v).cstate = .free) ∧
    s.pkg.pwrlim = 3000 ∧ s.pkg.sethr.toNat / 2 ^ 32 = 1024 ∧ s.pkg.sethr.toNat / 2 ^ 16 % 2 ^ 16 = 256 ∧ s.pkg.sethr.toNat % 2 ^ 16 = 64 ∧
    s.pkg.up = 0 ∧ s.pkg.down = 0 ∧ s.pkg.trn = 0 ∧ s.pkg.permits = [24, 24, 24, 24] ∧ s.launches = [] ∧ s.cmds = [] ∧ s.stores = []

/-- R62, R71, R275 to R277: at user privilege no word leaves the strand at supervisor privilege, but for taking a trap; nor does one change %tvec,
or, unless the strand leaves its item, %epc and %estat. -/
def Obligations.UserPrivilegeIsLeftOnlyByTraps : Prop :=
  ∀ (i : Instr) (s t : State), isWord i = true → s.cur.super = false → exec i s = .next t → t.disp ≠ .trapped →
    t.cur.super = false ∧ t.cur.tvec = s.cur.tvec ∧ (t.disp ≠ .left → t.cur.epc = s.cur.epc ∧ t.cur.estat = s.cur.estat)

/-- R16 to R21, R23, R25, R27: the sequencer's checks of a descriptor and its format table, in order; the first that fails gives the code. An
invalid SM passes check 0x09, which has no limit for it, and fails 0x0C (log 36). -/
def Obligations.DescriptorChecksFailInOrder : Prop :=
  ∀ (c : Context) (ws : List Word) (fmt : Option (List (BitVec 128))), ws.length = 32 →
    (descFault c ws fmt = none ↔ ∀ n, 2 ≤ n → n ≤ 0xF → Sys2Proof.Claims.descriptorCheck c ws fmt n) ∧
    (∀ n, descFault c ws fmt = some n ↔ 2 ≤ n ∧ n ≤ 0xF ∧ ¬ Sys2Proof.Claims.descriptorCheck c ws fmt n ∧
      ∀ m, 2 ≤ m → m < n → Sys2Proof.Claims.descriptorCheck c ws fmt m)
end

