-- ==== Sys2Proof/Laws/State.lean ====
section
/-! SUPPORT. One lemma for each field of the state under each update of it, so that no later proof unfolds a record update. -/

namespace Sys2Proof.Machine

open Sys2Proof

/-! ### `State.lose`: losing the turn -/

@[simp] theorem State.lose_cur (s : State) : s.lose.cur = s.cur := rfl
@[simp] theorem State.lose_strands (s : State) : s.lose.strands = s.strands := rfl
@[simp] theorem State.lose_cores (s : State) : s.lose.cores = s.cores := rfl
@[simp] theorem State.lose_clusters (s : State) : s.lose.clusters = s.clusters := rfl
@[simp] theorem State.lose_ctxs (s : State) : s.lose.ctxs = s.ctxs := rfl
@[simp] theorem State.lose_launches (s : State) : s.lose.launches = s.launches := rfl
@[simp] theorem State.lose_harvest (s : State) : s.lose.harvest = s.harvest := rfl
@[simp] theorem State.lose_groups (s : State) : s.lose.groups = s.groups := rfl
@[simp] theorem State.lose_mem (s : State) : s.lose.mem = s.mem := rfl
@[simp] theorem State.lose_lineKey (s : State) : s.lose.lineKey = s.lineKey := rfl
@[simp] theorem State.lose_poison (s : State) : s.lose.poison = s.poison := rfl
@[simp] theorem State.lose_stores (s : State) : s.lose.stores = s.stores := rfl
@[simp] theorem State.lose_vupd (s : State) : s.lose.vupd = s.vupd := rfl
@[simp] theorem State.lose_told (s : State) : s.lose.told = s.told := rfl
@[simp] theorem State.lose_homeUse (s : State) : s.lose.homeUse = s.homeUse := rfl
@[simp] theorem State.lose_walks (s : State) : s.lose.walks = s.walks := rfl
@[simp] theorem State.lose_cmds (s : State) : s.lose.cmds = s.cmds := rfl
@[simp] theorem State.lose_owners (s : State) : s.lose.owners = s.owners := rfl
@[simp] theorem State.lose_pubs (s : State) : s.lose.pubs = s.pubs := rfl
@[simp] theorem State.lose_leesPubs (s : State) : s.lose.leesPubs = s.leesPubs := rfl
@[simp] theorem State.lose_cycles (s : State) : s.lose.cycles = s.cycles := rfl
@[simp] theorem State.lose_nextId (s : State) : s.lose.nextId = s.nextId := rfl
@[simp] theorem State.lose_nextSid (s : State) : s.lose.nextSid = s.nextSid := rfl
@[simp] theorem State.lose_pkg (s : State) : s.lose.pkg = s.pkg := rfl
@[simp] theorem State.lose_disp (s : State) : s.lose.disp = .wait := rfl
@[simp] theorem State.lose_latch (s : State) : s.lose.latch = s.latch := rfl
@[simp] theorem State.lose_refs (s : State) : s.lose.refs = s.refs := rfl
@[simp] theorem State.lose_bundle (s : State) : s.lose.bundle = s.bundle := rfl
@[simp] theorem State.lose_inA (s : State) : s.lose.inA = s.inA := rfl
@[simp] theorem State.lose_free (s : State) : s.lose.free = s.free := rfl
@[simp] theorem State.lose_hostOut (s : State) : s.lose.hostOut = s.hostOut := rfl
@[simp] theorem State.lose_tape (s : State) : s.lose.tape = s.tape := rfl

/-! ### `State.leave`: leaving the item -/

@[simp] theorem State.leave_cur (s : State) : s.leave.cur = s.cur := rfl
@[simp] theorem State.leave_strands (s : State) : s.leave.strands = s.strands := rfl
@[simp] theorem State.leave_cores (s : State) : s.leave.cores = s.cores := rfl
@[simp] theorem State.leave_clusters (s : State) : s.leave.clusters = s.clusters := rfl
@[simp] theorem State.leave_ctxs (s : State) : s.leave.ctxs = s.ctxs := rfl
@[simp] theorem State.leave_launches (s : State) : s.leave.launches = s.launches := rfl
@[simp] theorem State.leave_harvest (s : State) : s.leave.harvest = s.harvest := rfl
@[simp] theorem State.leave_groups (s : State) : s.leave.groups = s.groups := rfl
@[simp] theorem State.leave_mem (s : State) : s.leave.mem = s.mem := rfl
@[simp] theorem State.leave_lineKey (s : State) : s.leave.lineKey = s.lineKey := rfl
@[simp] theorem State.leave_poison (s : State) : s.leave.poison = s.poison := rfl
@[simp] theorem State.leave_stores (s : State) : s.leave.stores = s.stores := rfl
@[simp] theorem State.leave_vupd (s : State) : s.leave.vupd = s.vupd := rfl
@[simp] theorem State.leave_told (s : State) : s.leave.told = s.told := rfl
@[simp] theorem State.leave_homeUse (s : State) : s.leave.homeUse = s.homeUse := rfl
@[simp] theorem State.leave_walks (s : State) : s.leave.walks = s.walks := rfl
@[simp] theorem State.leave_cmds (s : State) : s.leave.cmds = s.cmds := rfl
@[simp] theorem State.leave_owners (s : State) : s.leave.owners = s.owners := rfl
@[simp] theorem State.leave_pubs (s : State) : s.leave.pubs = s.pubs := rfl
@[simp] theorem State.leave_leesPubs (s : State) : s.leave.leesPubs = s.leesPubs := rfl
@[simp] theorem State.leave_cycles (s : State) : s.leave.cycles = s.cycles := rfl
@[simp] theorem State.leave_nextId (s : State) : s.leave.nextId = s.nextId := rfl
@[simp] theorem State.leave_nextSid (s : State) : s.leave.nextSid = s.nextSid := rfl
@[simp] theorem State.leave_pkg (s : State) : s.leave.pkg = s.pkg := rfl
@[simp] theorem State.leave_disp (s : State) : s.leave.disp = .left := rfl
@[simp] theorem State.leave_latch (s : State) : s.leave.latch = s.latch := rfl
@[simp] theorem State.leave_refs (s : State) : s.leave.refs = s.refs := rfl
@[simp] theorem State.leave_bundle (s : State) : s.leave.bundle = s.bundle := rfl
@[simp] theorem State.leave_inA (s : State) : s.leave.inA = s.inA := rfl
@[simp] theorem State.leave_free (s : State) : s.leave.free = s.free := rfl
@[simp] theorem State.leave_hostOut (s : State) : s.leave.hostOut = s.hostOut := rfl
@[simp] theorem State.leave_tape (s : State) : s.leave.tape = s.tape := rfl

/-! ### `State.setCore`: replacing a core -/

@[simp] theorem State.setCore_cur (s : State) (k : Nat) (v : Core) : (s.setCore k v).cur = s.cur := rfl
@[simp] theorem State.setCore_strands (s : State) (k : Nat) (v : Core) : (s.setCore k v).strands = s.strands := rfl
@[simp] theorem State.setCore_cores (s : State) (k : Nat) (v : Core) : (s.setCore k v).cores = bind k v s.cores := rfl
@[simp] theorem State.setCore_clusters (s : State) (k : Nat) (v : Core) : (s.setCore k v).clusters = s.clusters := rfl
@[simp] theorem State.setCore_ctxs (s : State) (k : Nat) (v : Core) : (s.setCore k v).ctxs = s.ctxs := rfl
@[simp] theorem State.setCore_launches (s : State) (k : Nat) (v : Core) : (s.setCore k v).launches = s.launches := rfl
@[simp] theorem State.setCore_harvest (s : State) (k : Nat) (v : Core) : (s.setCore k v).harvest = s.harvest := rfl
@[simp] theorem State.setCore_groups (s : State) (k : Nat) (v : Core) : (s.setCore k v).groups = s.groups := rfl
@[simp] theorem State.setCore_mem (s : State) (k : Nat) (v : Core) : (s.setCore k v).mem = s.mem := rfl
@[simp] theorem State.setCore_lineKey (s : State) (k : Nat) (v : Core) : (s.setCore k v).lineKey = s.lineKey := rfl
@[simp] theorem State.setCore_poison (s : State) (k : Nat) (v : Core) : (s.setCore k v).poison = s.poison := rfl
@[simp] theorem State.setCore_stores (s : State) (k : Nat) (v : Core) : (s.setCore k v).stores = s.stores := rfl
@[simp] theorem State.setCore_vupd (s : State) (k : Nat) (v : Core) : (s.setCore k v).vupd = s.vupd := rfl
@[simp] theorem State.setCore_told (s : State) (k : Nat) (v : Core) : (s.setCore k v).told = s.told := rfl
@[simp] theorem State.setCore_homeUse (s : State) (k : Nat) (v : Core) : (s.setCore k v).homeUse = s.homeUse := rfl
@[simp] theorem State.setCore_walks (s : State) (k : Nat) (v : Core) : (s.setCore k v).walks = s.walks := rfl
@[simp] theorem State.setCore_cmds (s : State) (k : Nat) (v : Core) : (s.setCore k v).cmds = s.cmds := rfl
@[simp] theorem State.setCore_owners (s : State) (k : Nat) (v : Core) : (s.setCore k v).owners = s.owners := rfl
@[simp] theorem State.setCore_pubs (s : State) (k : Nat) (v : Core) : (s.setCore k v).pubs = s.pubs := rfl
@[simp] theorem State.setCore_leesPubs (s : State) (k : Nat) (v : Core) : (s.setCore k v).leesPubs = s.leesPubs := rfl
@[simp] theorem State.setCore_cycles (s : State) (k : Nat) (v : Core) : (s.setCore k v).cycles = s.cycles := rfl
@[simp] theorem State.setCore_nextId (s : State) (k : Nat) (v : Core) : (s.setCore k v).nextId = s.nextId := rfl
@[simp] theorem State.setCore_nextSid (s : State) (k : Nat) (v : Core) : (s.setCore k v).nextSid = s.nextSid := rfl
@[simp] theorem State.setCore_pkg (s : State) (k : Nat) (v : Core) : (s.setCore k v).pkg = s.pkg := rfl
@[simp] theorem State.setCore_disp (s : State) (k : Nat) (v : Core) : (s.setCore k v).disp = s.disp := rfl
@[simp] theorem State.setCore_latch (s : State) (k : Nat) (v : Core) : (s.setCore k v).latch = s.latch := rfl
@[simp] theorem State.setCore_refs (s : State) (k : Nat) (v : Core) : (s.setCore k v).refs = s.refs := rfl
@[simp] theorem State.setCore_bundle (s : State) (k : Nat) (v : Core) : (s.setCore k v).bundle = s.bundle := rfl
@[simp] theorem State.setCore_inA (s : State) (k : Nat) (v : Core) : (s.setCore k v).inA = s.inA := rfl
@[simp] theorem State.setCore_free (s : State) (k : Nat) (v : Core) : (s.setCore k v).free = s.free := rfl
@[simp] theorem State.setCore_hostOut (s : State) (k : Nat) (v : Core) : (s.setCore k v).hostOut = s.hostOut := rfl
@[simp] theorem State.setCore_tape (s : State) (k : Nat) (v : Core) : (s.setCore k v).tape = s.tape := rfl

/-! ### `State.setCluster`: replacing a cluster -/

@[simp] theorem State.setCluster_cur (s : State) (c : Nat) (v : Cluster) : (s.setCluster c v).cur = s.cur := rfl
@[simp] theorem State.setCluster_strands (s : State) (c : Nat) (v : Cluster) : (s.setCluster c v).strands = s.strands := rfl
@[simp] theorem State.setCluster_cores (s : State) (c : Nat) (v : Cluster) : (s.setCluster c v).cores = s.cores := rfl
@[simp] theorem State.setCluster_clusters (s : State) (c : Nat) (v : Cluster) : (s.setCluster c v).clusters = bind c v s.clusters := rfl
@[simp] theorem State.setCluster_ctxs (s : State) (c : Nat) (v : Cluster) : (s.setCluster c v).ctxs = s.ctxs := rfl
@[simp] theorem State.setCluster_launches (s : State) (c : Nat) (v : Cluster) : (s.setCluster c v).launches = s.launches := rfl
@[simp] theorem State.setCluster_harvest (s : State) (c : Nat) (v : Cluster) : (s.setCluster c v).harvest = s.harvest := rfl
@[simp] theorem State.setCluster_groups (s : State) (c : Nat) (v : Cluster) : (s.setCluster c v).groups = s.groups := rfl
@[simp] theorem State.setCluster_mem (s : State) (c : Nat) (v : Cluster) : (s.setCluster c v).mem = s.mem := rfl
@[simp] theorem State.setCluster_lineKey (s : State) (c : Nat) (v : Cluster) : (s.setCluster c v).lineKey = s.lineKey := rfl
@[simp] theorem State.setCluster_poison (s : State) (c : Nat) (v : Cluster) : (s.setCluster c v).poison = s.poison := rfl
@[simp] theorem State.setCluster_stores (s : State) (c : Nat) (v : Cluster) : (s.setCluster c v).stores = s.stores := rfl
@[simp] theorem State.setCluster_vupd (s : State) (c : Nat) (v : Cluster) : (s.setCluster c v).vupd = s.vupd := rfl
@[simp] theorem State.setCluster_told (s : State) (c : Nat) (v : Cluster) : (s.setCluster c v).told = s.told := rfl
@[simp] theorem State.setCluster_homeUse (s : State) (c : Nat) (v : Cluster) : (s.setCluster c v).homeUse = s.homeUse := rfl
@[simp] theorem State.setCluster_walks (s : State) (c : Nat) (v : Cluster) : (s.setCluster c v).walks = s.walks := rfl
@[simp] theorem State.setCluster_cmds (s : State) (c : Nat) (v : Cluster) : (s.setCluster c v).cmds = s.cmds := rfl
@[simp] theorem State.setCluster_owners (s : State) (c : Nat) (v : Cluster) : (s.setCluster c v).owners = s.owners := rfl
@[simp] theorem State.setCluster_pubs (s : State) (c : Nat) (v : Cluster) : (s.setCluster c v).pubs = s.pubs := rfl
@[simp] theorem State.setCluster_leesPubs (s : State) (c : Nat) (v : Cluster) : (s.setCluster c v).leesPubs = s.leesPubs := rfl
@[simp] theorem State.setCluster_cycles (s : State) (c : Nat) (v : Cluster) : (s.setCluster c v).cycles = s.cycles := rfl
@[simp] theorem State.setCluster_nextId (s : State) (c : Nat) (v : Cluster) : (s.setCluster c v).nextId = s.nextId := rfl
@[simp] theorem State.setCluster_nextSid (s : State) (c : Nat) (v : Cluster) : (s.setCluster c v).nextSid = s.nextSid := rfl
@[simp] theorem State.setCluster_pkg (s : State) (c : Nat) (v : Cluster) : (s.setCluster c v).pkg = s.pkg := rfl
@[simp] theorem State.setCluster_disp (s : State) (c : Nat) (v : Cluster) : (s.setCluster c v).disp = s.disp := rfl
@[simp] theorem State.setCluster_latch (s : State) (c : Nat) (v : Cluster) : (s.setCluster c v).latch = s.latch := rfl
@[simp] theorem State.setCluster_refs (s : State) (c : Nat) (v : Cluster) : (s.setCluster c v).refs = s.refs := rfl
@[simp] theorem State.setCluster_bundle (s : State) (c : Nat) (v : Cluster) : (s.setCluster c v).bundle = s.bundle := rfl
@[simp] theorem State.setCluster_inA (s : State) (c : Nat) (v : Cluster) : (s.setCluster c v).inA = s.inA := rfl
@[simp] theorem State.setCluster_free (s : State) (c : Nat) (v : Cluster) : (s.setCluster c v).free = s.free := rfl
@[simp] theorem State.setCluster_hostOut (s : State) (c : Nat) (v : Cluster) : (s.setCluster c v).hostOut = s.hostOut := rfl
@[simp] theorem State.setCluster_tape (s : State) (c : Nat) (v : Cluster) : (s.setCluster c v).tape = s.tape := rfl

/-! ### `State.setCtx`: replacing a context -/

@[simp] theorem State.setCtx_cur (s : State) (v : Nat) (c : Context) : (s.setCtx v c).cur = s.cur := rfl
@[simp] theorem State.setCtx_strands (s : State) (v : Nat) (c : Context) : (s.setCtx v c).strands = s.strands := rfl
@[simp] theorem State.setCtx_cores (s : State) (v : Nat) (c : Context) : (s.setCtx v c).cores = s.cores := rfl
@[simp] theorem State.setCtx_clusters (s : State) (v : Nat) (c : Context) : (s.setCtx v c).clusters = s.clusters := rfl
@[simp] theorem State.setCtx_ctxs (s : State) (v : Nat) (c : Context) : (s.setCtx v c).ctxs = bind v c s.ctxs := rfl
@[simp] theorem State.setCtx_launches (s : State) (v : Nat) (c : Context) : (s.setCtx v c).launches = s.launches := rfl
@[simp] theorem State.setCtx_harvest (s : State) (v : Nat) (c : Context) : (s.setCtx v c).harvest = s.harvest := rfl
@[simp] theorem State.setCtx_groups (s : State) (v : Nat) (c : Context) : (s.setCtx v c).groups = s.groups := rfl
@[simp] theorem State.setCtx_mem (s : State) (v : Nat) (c : Context) : (s.setCtx v c).mem = s.mem := rfl
@[simp] theorem State.setCtx_lineKey (s : State) (v : Nat) (c : Context) : (s.setCtx v c).lineKey = s.lineKey := rfl
@[simp] theorem State.setCtx_poison (s : State) (v : Nat) (c : Context) : (s.setCtx v c).poison = s.poison := rfl
@[simp] theorem State.setCtx_stores (s : State) (v : Nat) (c : Context) : (s.setCtx v c).stores = s.stores := rfl
@[simp] theorem State.setCtx_vupd (s : State) (v : Nat) (c : Context) : (s.setCtx v c).vupd = s.vupd := rfl
@[simp] theorem State.setCtx_told (s : State) (v : Nat) (c : Context) : (s.setCtx v c).told = s.told := rfl
@[simp] theorem State.setCtx_homeUse (s : State) (v : Nat) (c : Context) : (s.setCtx v c).homeUse = s.homeUse := rfl
@[simp] theorem State.setCtx_walks (s : State) (v : Nat) (c : Context) : (s.setCtx v c).walks = s.walks := rfl
@[simp] theorem State.setCtx_cmds (s : State) (v : Nat) (c : Context) : (s.setCtx v c).cmds = s.cmds := rfl
@[simp] theorem State.setCtx_owners (s : State) (v : Nat) (c : Context) : (s.setCtx v c).owners = s.owners := rfl
@[simp] theorem State.setCtx_pubs (s : State) (v : Nat) (c : Context) : (s.setCtx v c).pubs = s.pubs := rfl
@[simp] theorem State.setCtx_leesPubs (s : State) (v : Nat) (c : Context) : (s.setCtx v c).leesPubs = s.leesPubs := rfl
@[simp] theorem State.setCtx_cycles (s : State) (v : Nat) (c : Context) : (s.setCtx v c).cycles = s.cycles := rfl
@[simp] theorem State.setCtx_nextId (s : State) (v : Nat) (c : Context) : (s.setCtx v c).nextId = s.nextId := rfl
@[simp] theorem State.setCtx_nextSid (s : State) (v : Nat) (c : Context) : (s.setCtx v c).nextSid = s.nextSid := rfl
@[simp] theorem State.setCtx_pkg (s : State) (v : Nat) (c : Context) : (s.setCtx v c).pkg = s.pkg := rfl
@[simp] theorem State.setCtx_disp (s : State) (v : Nat) (c : Context) : (s.setCtx v c).disp = s.disp := rfl
@[simp] theorem State.setCtx_latch (s : State) (v : Nat) (c : Context) : (s.setCtx v c).latch = s.latch := rfl
@[simp] theorem State.setCtx_refs (s : State) (v : Nat) (c : Context) : (s.setCtx v c).refs = s.refs := rfl
@[simp] theorem State.setCtx_bundle (s : State) (v : Nat) (c : Context) : (s.setCtx v c).bundle = s.bundle := rfl
@[simp] theorem State.setCtx_inA (s : State) (v : Nat) (c : Context) : (s.setCtx v c).inA = s.inA := rfl
@[simp] theorem State.setCtx_free (s : State) (v : Nat) (c : Context) : (s.setCtx v c).free = s.free := rfl
@[simp] theorem State.setCtx_hostOut (s : State) (v : Nat) (c : Context) : (s.setCtx v c).hostOut = s.hostOut := rfl
@[simp] theorem State.setCtx_tape (s : State) (v : Nat) (c : Context) : (s.setCtx v c).tape = s.tape := rfl

/-! ### `State.setLaunch`: replacing a launch -/

@[simp] theorem State.setLaunch_cur (s : State) (l : Launch) : (s.setLaunch l).cur = s.cur := rfl
@[simp] theorem State.setLaunch_strands (s : State) (l : Launch) : (s.setLaunch l).strands = s.strands := rfl
@[simp] theorem State.setLaunch_cores (s : State) (l : Launch) : (s.setLaunch l).cores = s.cores := rfl
@[simp] theorem State.setLaunch_clusters (s : State) (l : Launch) : (s.setLaunch l).clusters = s.clusters := rfl
@[simp] theorem State.setLaunch_ctxs (s : State) (l : Launch) : (s.setLaunch l).ctxs = s.ctxs := rfl
@[simp] theorem State.setLaunch_launches (s : State) (l : Launch) : (s.setLaunch l).launches = s.launches.map (fun k => if k.num = l.num then l else k) := rfl
@[simp] theorem State.setLaunch_harvest (s : State) (l : Launch) : (s.setLaunch l).harvest = s.harvest := rfl
@[simp] theorem State.setLaunch_groups (s : State) (l : Launch) : (s.setLaunch l).groups = s.groups := rfl
@[simp] theorem State.setLaunch_mem (s : State) (l : Launch) : (s.setLaunch l).mem = s.mem := rfl
@[simp] theorem State.setLaunch_lineKey (s : State) (l : Launch) : (s.setLaunch l).lineKey = s.lineKey := rfl
@[simp] theorem State.setLaunch_poison (s : State) (l : Launch) : (s.setLaunch l).poison = s.poison := rfl
@[simp] theorem State.setLaunch_stores (s : State) (l : Launch) : (s.setLaunch l).stores = s.stores := rfl
@[simp] theorem State.setLaunch_vupd (s : State) (l : Launch) : (s.setLaunch l).vupd = s.vupd := rfl
@[simp] theorem State.setLaunch_told (s : State) (l : Launch) : (s.setLaunch l).told = s.told := rfl
@[simp] theorem State.setLaunch_homeUse (s : State) (l : Launch) : (s.setLaunch l).homeUse = s.homeUse := rfl
@[simp] theorem State.setLaunch_walks (s : State) (l : Launch) : (s.setLaunch l).walks = s.walks := rfl
@[simp] theorem State.setLaunch_cmds (s : State) (l : Launch) : (s.setLaunch l).cmds = s.cmds := rfl
@[simp] theorem State.setLaunch_owners (s : State) (l : Launch) : (s.setLaunch l).owners = s.owners := rfl
@[simp] theorem State.setLaunch_pubs (s : State) (l : Launch) : (s.setLaunch l).pubs = s.pubs := rfl
@[simp] theorem State.setLaunch_leesPubs (s : State) (l : Launch) : (s.setLaunch l).leesPubs = s.leesPubs := rfl
@[simp] theorem State.setLaunch_cycles (s : State) (l : Launch) : (s.setLaunch l).cycles = s.cycles := rfl
@[simp] theorem State.setLaunch_nextId (s : State) (l : Launch) : (s.setLaunch l).nextId = s.nextId := rfl
@[simp] theorem State.setLaunch_nextSid (s : State) (l : Launch) : (s.setLaunch l).nextSid = s.nextSid := rfl
@[simp] theorem State.setLaunch_pkg (s : State) (l : Launch) : (s.setLaunch l).pkg = s.pkg := rfl
@[simp] theorem State.setLaunch_disp (s : State) (l : Launch) : (s.setLaunch l).disp = s.disp := rfl
@[simp] theorem State.setLaunch_latch (s : State) (l : Launch) : (s.setLaunch l).latch = s.latch := rfl
@[simp] theorem State.setLaunch_refs (s : State) (l : Launch) : (s.setLaunch l).refs = s.refs := rfl
@[simp] theorem State.setLaunch_bundle (s : State) (l : Launch) : (s.setLaunch l).bundle = s.bundle := rfl
@[simp] theorem State.setLaunch_inA (s : State) (l : Launch) : (s.setLaunch l).inA = s.inA := rfl
@[simp] theorem State.setLaunch_free (s : State) (l : Launch) : (s.setLaunch l).free = s.free := rfl
@[simp] theorem State.setLaunch_hostOut (s : State) (l : Launch) : (s.setLaunch l).hostOut = s.hostOut := rfl
@[simp] theorem State.setLaunch_tape (s : State) (l : Launch) : (s.setLaunch l).tape = s.tape := rfl

/-! ### `State.setCmd`: replacing a command -/

@[simp] theorem State.setCmd_cur (s : State) (c : Cmd) : (s.setCmd c).cur = s.cur := rfl
@[simp] theorem State.setCmd_strands (s : State) (c : Cmd) : (s.setCmd c).strands = s.strands := rfl
@[simp] theorem State.setCmd_cores (s : State) (c : Cmd) : (s.setCmd c).cores = s.cores := rfl
@[simp] theorem State.setCmd_clusters (s : State) (c : Cmd) : (s.setCmd c).clusters = s.clusters := rfl
@[simp] theorem State.setCmd_ctxs (s : State) (c : Cmd) : (s.setCmd c).ctxs = s.ctxs := rfl
@[simp] theorem State.setCmd_launches (s : State) (c : Cmd) : (s.setCmd c).launches = s.launches := rfl
@[simp] theorem State.setCmd_harvest (s : State) (c : Cmd) : (s.setCmd c).harvest = s.harvest := rfl
@[simp] theorem State.setCmd_groups (s : State) (c : Cmd) : (s.setCmd c).groups = s.groups := rfl
@[simp] theorem State.setCmd_mem (s : State) (c : Cmd) : (s.setCmd c).mem = s.mem := rfl
@[simp] theorem State.setCmd_lineKey (s : State) (c : Cmd) : (s.setCmd c).lineKey = s.lineKey := rfl
@[simp] theorem State.setCmd_poison (s : State) (c : Cmd) : (s.setCmd c).poison = s.poison := rfl
@[simp] theorem State.setCmd_stores (s : State) (c : Cmd) : (s.setCmd c).stores = s.stores := rfl
@[simp] theorem State.setCmd_vupd (s : State) (c : Cmd) : (s.setCmd c).vupd = s.vupd := rfl
@[simp] theorem State.setCmd_told (s : State) (c : Cmd) : (s.setCmd c).told = s.told := rfl
@[simp] theorem State.setCmd_homeUse (s : State) (c : Cmd) : (s.setCmd c).homeUse = s.homeUse := rfl
@[simp] theorem State.setCmd_walks (s : State) (c : Cmd) : (s.setCmd c).walks = s.walks := rfl
@[simp] theorem State.setCmd_cmds (s : State) (c : Cmd) : (s.setCmd c).cmds = s.cmds.map (fun k => if k.cid = c.cid then c else k) := rfl
@[simp] theorem State.setCmd_owners (s : State) (c : Cmd) : (s.setCmd c).owners = s.owners := rfl
@[simp] theorem State.setCmd_pubs (s : State) (c : Cmd) : (s.setCmd c).pubs = s.pubs := rfl
@[simp] theorem State.setCmd_leesPubs (s : State) (c : Cmd) : (s.setCmd c).leesPubs = s.leesPubs := rfl
@[simp] theorem State.setCmd_cycles (s : State) (c : Cmd) : (s.setCmd c).cycles = s.cycles := rfl
@[simp] theorem State.setCmd_nextId (s : State) (c : Cmd) : (s.setCmd c).nextId = s.nextId := rfl
@[simp] theorem State.setCmd_nextSid (s : State) (c : Cmd) : (s.setCmd c).nextSid = s.nextSid := rfl
@[simp] theorem State.setCmd_pkg (s : State) (c : Cmd) : (s.setCmd c).pkg = s.pkg := rfl
@[simp] theorem State.setCmd_disp (s : State) (c : Cmd) : (s.setCmd c).disp = s.disp := rfl
@[simp] theorem State.setCmd_latch (s : State) (c : Cmd) : (s.setCmd c).latch = s.latch := rfl
@[simp] theorem State.setCmd_refs (s : State) (c : Cmd) : (s.setCmd c).refs = s.refs := rfl
@[simp] theorem State.setCmd_bundle (s : State) (c : Cmd) : (s.setCmd c).bundle = s.bundle := rfl
@[simp] theorem State.setCmd_inA (s : State) (c : Cmd) : (s.setCmd c).inA = s.inA := rfl
@[simp] theorem State.setCmd_free (s : State) (c : Cmd) : (s.setCmd c).free = s.free := rfl
@[simp] theorem State.setCmd_hostOut (s : State) (c : Cmd) : (s.setCmd c).hostOut = s.hostOut := rfl
@[simp] theorem State.setCmd_tape (s : State) (c : Cmd) : (s.setCmd c).tape = s.tape := rfl

/-! ### `State.answer`: an answer to the host -/

@[simp] theorem State.answer_cur (s : State) (o : HostOut) : (s.answer o).cur = s.cur := rfl
@[simp] theorem State.answer_strands (s : State) (o : HostOut) : (s.answer o).strands = s.strands := rfl
@[simp] theorem State.answer_cores (s : State) (o : HostOut) : (s.answer o).cores = s.cores := rfl
@[simp] theorem State.answer_clusters (s : State) (o : HostOut) : (s.answer o).clusters = s.clusters := rfl
@[simp] theorem State.answer_ctxs (s : State) (o : HostOut) : (s.answer o).ctxs = s.ctxs := rfl
@[simp] theorem State.answer_launches (s : State) (o : HostOut) : (s.answer o).launches = s.launches := rfl
@[simp] theorem State.answer_harvest (s : State) (o : HostOut) : (s.answer o).harvest = s.harvest := rfl
@[simp] theorem State.answer_groups (s : State) (o : HostOut) : (s.answer o).groups = s.groups := rfl
@[simp] theorem State.answer_mem (s : State) (o : HostOut) : (s.answer o).mem = s.mem := rfl
@[simp] theorem State.answer_lineKey (s : State) (o : HostOut) : (s.answer o).lineKey = s.lineKey := rfl
@[simp] theorem State.answer_poison (s : State) (o : HostOut) : (s.answer o).poison = s.poison := rfl
@[simp] theorem State.answer_stores (s : State) (o : HostOut) : (s.answer o).stores = s.stores := rfl
@[simp] theorem State.answer_vupd (s : State) (o : HostOut) : (s.answer o).vupd = s.vupd := rfl
@[simp] theorem State.answer_told (s : State) (o : HostOut) : (s.answer o).told = s.told := rfl
@[simp] theorem State.answer_homeUse (s : State) (o : HostOut) : (s.answer o).homeUse = s.homeUse := rfl
@[simp] theorem State.answer_walks (s : State) (o : HostOut) : (s.answer o).walks = s.walks := rfl
@[simp] theorem State.answer_cmds (s : State) (o : HostOut) : (s.answer o).cmds = s.cmds := rfl
@[simp] theorem State.answer_owners (s : State) (o : HostOut) : (s.answer o).owners = s.owners := rfl
@[simp] theorem State.answer_pubs (s : State) (o : HostOut) : (s.answer o).pubs = s.pubs := rfl
@[simp] theorem State.answer_leesPubs (s : State) (o : HostOut) : (s.answer o).leesPubs = s.leesPubs := rfl
@[simp] theorem State.answer_cycles (s : State) (o : HostOut) : (s.answer o).cycles = s.cycles := rfl
@[simp] theorem State.answer_nextId (s : State) (o : HostOut) : (s.answer o).nextId = s.nextId := rfl
@[simp] theorem State.answer_nextSid (s : State) (o : HostOut) : (s.answer o).nextSid = s.nextSid := rfl
@[simp] theorem State.answer_pkg (s : State) (o : HostOut) : (s.answer o).pkg = s.pkg := rfl
@[simp] theorem State.answer_disp (s : State) (o : HostOut) : (s.answer o).disp = s.disp := rfl
@[simp] theorem State.answer_latch (s : State) (o : HostOut) : (s.answer o).latch = s.latch := rfl
@[simp] theorem State.answer_refs (s : State) (o : HostOut) : (s.answer o).refs = s.refs := rfl
@[simp] theorem State.answer_bundle (s : State) (o : HostOut) : (s.answer o).bundle = s.bundle := rfl
@[simp] theorem State.answer_inA (s : State) (o : HostOut) : (s.answer o).inA = s.inA := rfl
@[simp] theorem State.answer_free (s : State) (o : HostOut) : (s.answer o).free = s.free := rfl
@[simp] theorem State.answer_hostOut (s : State) (o : HostOut) : (s.answer o).hostOut = s.hostOut ++ [o] := rfl
@[simp] theorem State.answer_tape (s : State) (o : HostOut) : (s.answer o).tape = s.tape := rfl

/-! ### `State.pass`: cycles that pass -/

@[simp] theorem State.pass_cur (s : State) (d n : Nat) : (s.pass d n).cur = s.cur := rfl
@[simp] theorem State.pass_strands (s : State) (d n : Nat) : (s.pass d n).strands = s.strands := rfl
@[simp] theorem State.pass_cores (s : State) (d n : Nat) : (s.pass d n).cores = s.cores := rfl
@[simp] theorem State.pass_clusters (s : State) (d n : Nat) : (s.pass d n).clusters = s.clusters := rfl
@[simp] theorem State.pass_ctxs (s : State) (d n : Nat) : (s.pass d n).ctxs = s.ctxs := rfl
@[simp] theorem State.pass_launches (s : State) (d n : Nat) : (s.pass d n).launches = s.launches := rfl
@[simp] theorem State.pass_harvest (s : State) (d n : Nat) : (s.pass d n).harvest = s.harvest := rfl
@[simp] theorem State.pass_groups (s : State) (d n : Nat) : (s.pass d n).groups = s.groups := rfl
@[simp] theorem State.pass_mem (s : State) (d n : Nat) : (s.pass d n).mem = s.mem := rfl
@[simp] theorem State.pass_lineKey (s : State) (d n : Nat) : (s.pass d n).lineKey = s.lineKey := rfl
@[simp] theorem State.pass_poison (s : State) (d n : Nat) : (s.pass d n).poison = s.poison := rfl
@[simp] theorem State.pass_stores (s : State) (d n : Nat) : (s.pass d n).stores = s.stores := rfl
@[simp] theorem State.pass_vupd (s : State) (d n : Nat) : (s.pass d n).vupd = s.vupd := rfl
@[simp] theorem State.pass_told (s : State) (d n : Nat) : (s.pass d n).told = s.told := rfl
@[simp] theorem State.pass_homeUse (s : State) (d n : Nat) : (s.pass d n).homeUse = s.homeUse := rfl
@[simp] theorem State.pass_walks (s : State) (d n : Nat) : (s.pass d n).walks = s.walks := rfl
@[simp] theorem State.pass_cmds (s : State) (d n : Nat) : (s.pass d n).cmds = s.cmds := rfl
@[simp] theorem State.pass_owners (s : State) (d n : Nat) : (s.pass d n).owners = s.owners := rfl
@[simp] theorem State.pass_pubs (s : State) (d n : Nat) : (s.pass d n).pubs = s.pubs := rfl
@[simp] theorem State.pass_leesPubs (s : State) (d n : Nat) : (s.pass d n).leesPubs = s.leesPubs := rfl
@[simp] theorem State.pass_cycles (s : State) (d n : Nat) : (s.pass d n).cycles = s.cycles.mapIdx (fun i c => if i = d then c + n else c) := rfl
@[simp] theorem State.pass_nextId (s : State) (d n : Nat) : (s.pass d n).nextId = s.nextId := rfl
@[simp] theorem State.pass_nextSid (s : State) (d n : Nat) : (s.pass d n).nextSid = s.nextSid := rfl
@[simp] theorem State.pass_pkg (s : State) (d n : Nat) : (s.pass d n).pkg = s.pkg := rfl
@[simp] theorem State.pass_disp (s : State) (d n : Nat) : (s.pass d n).disp = s.disp := rfl
@[simp] theorem State.pass_latch (s : State) (d n : Nat) : (s.pass d n).latch = s.latch := rfl
@[simp] theorem State.pass_refs (s : State) (d n : Nat) : (s.pass d n).refs = s.refs := rfl
@[simp] theorem State.pass_bundle (s : State) (d n : Nat) : (s.pass d n).bundle = s.bundle := rfl
@[simp] theorem State.pass_inA (s : State) (d n : Nat) : (s.pass d n).inA = s.inA := rfl
@[simp] theorem State.pass_free (s : State) (d n : Nat) : (s.pass d n).free = s.free := rfl
@[simp] theorem State.pass_hostOut (s : State) (d n : Nat) : (s.pass d n).hostOut = s.hostOut := rfl
@[simp] theorem State.pass_tape (s : State) (d n : Nat) : (s.pass d n).tape = s.tape := rfl

/-! ### `State.withCur`: changing the strand in hand -/

@[simp] theorem State.withCur_cur (s : State) (t : Strand) : (s.withCur t).cur = t := rfl
@[simp] theorem State.withCur_strands (s : State) (t : Strand) : (s.withCur t).strands = s.strands := rfl
@[simp] theorem State.withCur_cores (s : State) (t : Strand) : (s.withCur t).cores = s.cores := rfl
@[simp] theorem State.withCur_clusters (s : State) (t : Strand) : (s.withCur t).clusters = s.clusters := rfl
@[simp] theorem State.withCur_ctxs (s : State) (t : Strand) : (s.withCur t).ctxs = s.ctxs := rfl
@[simp] theorem State.withCur_launches (s : State) (t : Strand) : (s.withCur t).launches = s.launches := rfl
@[simp] theorem State.withCur_harvest (s : State) (t : Strand) : (s.withCur t).harvest = s.harvest := rfl
@[simp] theorem State.withCur_groups (s : State) (t : Strand) : (s.withCur t).groups = s.groups := rfl
@[simp] theorem State.withCur_mem (s : State) (t : Strand) : (s.withCur t).mem = s.mem := rfl
@[simp] theorem State.withCur_lineKey (s : State) (t : Strand) : (s.withCur t).lineKey = s.lineKey := rfl
@[simp] theorem State.withCur_poison (s : State) (t : Strand) : (s.withCur t).poison = s.poison := rfl
@[simp] theorem State.withCur_stores (s : State) (t : Strand) : (s.withCur t).stores = s.stores := rfl
@[simp] theorem State.withCur_vupd (s : State) (t : Strand) : (s.withCur t).vupd = s.vupd := rfl
@[simp] theorem State.withCur_told (s : State) (t : Strand) : (s.withCur t).told = s.told := rfl
@[simp] theorem State.withCur_homeUse (s : State) (t : Strand) : (s.withCur t).homeUse = s.homeUse := rfl
@[simp] theorem State.withCur_walks (s : State) (t : Strand) : (s.withCur t).walks = s.walks := rfl
@[simp] theorem State.withCur_cmds (s : State) (t : Strand) : (s.withCur t).cmds = s.cmds := rfl
@[simp] theorem State.withCur_owners (s : State) (t : Strand) : (s.withCur t).owners = s.owners := rfl
@[simp] theorem State.withCur_pubs (s : State) (t : Strand) : (s.withCur t).pubs = s.pubs := rfl
@[simp] theorem State.withCur_leesPubs (s : State) (t : Strand) : (s.withCur t).leesPubs = s.leesPubs := rfl
@[simp] theorem State.withCur_cycles (s : State) (t : Strand) : (s.withCur t).cycles = s.cycles := rfl
@[simp] theorem State.withCur_nextId (s : State) (t : Strand) : (s.withCur t).nextId = s.nextId := rfl
@[simp] theorem State.withCur_nextSid (s : State) (t : Strand) : (s.withCur t).nextSid = s.nextSid := rfl
@[simp] theorem State.withCur_pkg (s : State) (t : Strand) : (s.withCur t).pkg = s.pkg := rfl
@[simp] theorem State.withCur_disp (s : State) (t : Strand) : (s.withCur t).disp = s.disp := rfl
@[simp] theorem State.withCur_latch (s : State) (t : Strand) : (s.withCur t).latch = s.latch := rfl
@[simp] theorem State.withCur_refs (s : State) (t : Strand) : (s.withCur t).refs = s.refs := rfl
@[simp] theorem State.withCur_bundle (s : State) (t : Strand) : (s.withCur t).bundle = s.bundle := rfl
@[simp] theorem State.withCur_inA (s : State) (t : Strand) : (s.withCur t).inA = s.inA := rfl
@[simp] theorem State.withCur_free (s : State) (t : Strand) : (s.withCur t).free = s.free := rfl
@[simp] theorem State.withCur_hostOut (s : State) (t : Strand) : (s.withCur t).hostOut = s.hostOut := rfl
@[simp] theorem State.withCur_tape (s : State) (t : Strand) : (s.withCur t).tape = s.tape := rfl

/-! ### `State.claimLine`: giving a line a KeyID -/

@[simp] theorem State.claimLine_cur (s : State) (kid line : Nat) : (s.claimLine kid line).cur = s.cur := rfl
@[simp] theorem State.claimLine_strands (s : State) (kid line : Nat) : (s.claimLine kid line).strands = s.strands := rfl
@[simp] theorem State.claimLine_cores (s : State) (kid line : Nat) : (s.claimLine kid line).cores = s.cores := rfl
@[simp] theorem State.claimLine_clusters (s : State) (kid line : Nat) : (s.claimLine kid line).clusters = s.clusters := rfl
@[simp] theorem State.claimLine_ctxs (s : State) (kid line : Nat) : (s.claimLine kid line).ctxs = s.ctxs := rfl
@[simp] theorem State.claimLine_launches (s : State) (kid line : Nat) : (s.claimLine kid line).launches = s.launches := rfl
@[simp] theorem State.claimLine_harvest (s : State) (kid line : Nat) : (s.claimLine kid line).harvest = s.harvest := rfl
@[simp] theorem State.claimLine_groups (s : State) (kid line : Nat) : (s.claimLine kid line).groups = s.groups := rfl
@[simp] theorem State.claimLine_mem (s : State) (kid line : Nat) : (s.claimLine kid line).mem = s.mem.filter (fun c => !(line ≤ c.1 && c.1 < line + 64)) := rfl
@[simp] theorem State.claimLine_lineKey (s : State) (kid line : Nat) : (s.claimLine kid line).lineKey = bind line kid s.lineKey := rfl
@[simp] theorem State.claimLine_poison (s : State) (kid line : Nat) : (s.claimLine kid line).poison = s.poison := rfl
@[simp] theorem State.claimLine_stores (s : State) (kid line : Nat) : (s.claimLine kid line).stores = s.stores := rfl
@[simp] theorem State.claimLine_vupd (s : State) (kid line : Nat) : (s.claimLine kid line).vupd = s.vupd := rfl
@[simp] theorem State.claimLine_told (s : State) (kid line : Nat) : (s.claimLine kid line).told = s.told := rfl
@[simp] theorem State.claimLine_homeUse (s : State) (kid line : Nat) : (s.claimLine kid line).homeUse = s.homeUse := rfl
@[simp] theorem State.claimLine_walks (s : State) (kid line : Nat) : (s.claimLine kid line).walks = s.walks := rfl
@[simp] theorem State.claimLine_cmds (s : State) (kid line : Nat) : (s.claimLine kid line).cmds = s.cmds := rfl
@[simp] theorem State.claimLine_owners (s : State) (kid line : Nat) : (s.claimLine kid line).owners = s.owners := rfl
@[simp] theorem State.claimLine_pubs (s : State) (kid line : Nat) : (s.claimLine kid line).pubs = s.pubs := rfl
@[simp] theorem State.claimLine_leesPubs (s : State) (kid line : Nat) : (s.claimLine kid line).leesPubs = s.leesPubs := rfl
@[simp] theorem State.claimLine_cycles (s : State) (kid line : Nat) : (s.claimLine kid line).cycles = s.cycles := rfl
@[simp] theorem State.claimLine_nextId (s : State) (kid line : Nat) : (s.claimLine kid line).nextId = s.nextId := rfl
@[simp] theorem State.claimLine_nextSid (s : State) (kid line : Nat) : (s.claimLine kid line).nextSid = s.nextSid := rfl
@[simp] theorem State.claimLine_pkg (s : State) (kid line : Nat) : (s.claimLine kid line).pkg = s.pkg := rfl
@[simp] theorem State.claimLine_disp (s : State) (kid line : Nat) : (s.claimLine kid line).disp = s.disp := rfl
@[simp] theorem State.claimLine_latch (s : State) (kid line : Nat) : (s.claimLine kid line).latch = s.latch := rfl
@[simp] theorem State.claimLine_refs (s : State) (kid line : Nat) : (s.claimLine kid line).refs = s.refs := rfl
@[simp] theorem State.claimLine_bundle (s : State) (kid line : Nat) : (s.claimLine kid line).bundle = s.bundle := rfl
@[simp] theorem State.claimLine_inA (s : State) (kid line : Nat) : (s.claimLine kid line).inA = s.inA := rfl
@[simp] theorem State.claimLine_free (s : State) (kid line : Nat) : (s.claimLine kid line).free = s.free := rfl
@[simp] theorem State.claimLine_hostOut (s : State) (kid line : Nat) : (s.claimLine kid line).hostOut = s.hostOut := rfl
@[simp] theorem State.claimLine_tape (s : State) (kid line : Nat) : (s.claimLine kid line).tape = s.tape := rfl

/-! ### `State.healWords`: healing poisoned words -/

@[simp] theorem State.healWords_cur (s : State) (ks : List Nat) : (s.healWords ks).cur = s.cur := rfl
@[simp] theorem State.healWords_strands (s : State) (ks : List Nat) : (s.healWords ks).strands = s.strands := rfl
@[simp] theorem State.healWords_cores (s : State) (ks : List Nat) : (s.healWords ks).cores = s.cores := rfl
@[simp] theorem State.healWords_clusters (s : State) (ks : List Nat) : (s.healWords ks).clusters = s.clusters := rfl
@[simp] theorem State.healWords_ctxs (s : State) (ks : List Nat) : (s.healWords ks).ctxs = s.ctxs := rfl
@[simp] theorem State.healWords_launches (s : State) (ks : List Nat) : (s.healWords ks).launches = s.launches := rfl
@[simp] theorem State.healWords_harvest (s : State) (ks : List Nat) : (s.healWords ks).harvest = s.harvest := rfl
@[simp] theorem State.healWords_groups (s : State) (ks : List Nat) : (s.healWords ks).groups = s.groups := rfl
@[simp] theorem State.healWords_mem (s : State) (ks : List Nat) : (s.healWords ks).mem = s.mem := rfl
@[simp] theorem State.healWords_lineKey (s : State) (ks : List Nat) : (s.healWords ks).lineKey = s.lineKey := rfl
@[simp] theorem State.healWords_poison (s : State) (ks : List Nat) : (s.healWords ks).poison = s.poison.filter (fun p => !((keysFrom p 8).all (fun k => ks.contains k))) := rfl
@[simp] theorem State.healWords_stores (s : State) (ks : List Nat) : (s.healWords ks).stores = s.stores := rfl
@[simp] theorem State.healWords_vupd (s : State) (ks : List Nat) : (s.healWords ks).vupd = s.vupd := rfl
@[simp] theorem State.healWords_told (s : State) (ks : List Nat) : (s.healWords ks).told = s.told := rfl
@[simp] theorem State.healWords_homeUse (s : State) (ks : List Nat) : (s.healWords ks).homeUse = s.homeUse := rfl
@[simp] theorem State.healWords_walks (s : State) (ks : List Nat) : (s.healWords ks).walks = s.walks := rfl
@[simp] theorem State.healWords_cmds (s : State) (ks : List Nat) : (s.healWords ks).cmds = s.cmds := rfl
@[simp] theorem State.healWords_owners (s : State) (ks : List Nat) : (s.healWords ks).owners = s.owners := rfl
@[simp] theorem State.healWords_pubs (s : State) (ks : List Nat) : (s.healWords ks).pubs = s.pubs := rfl
@[simp] theorem State.healWords_leesPubs (s : State) (ks : List Nat) : (s.healWords ks).leesPubs = s.leesPubs := rfl
@[simp] theorem State.healWords_cycles (s : State) (ks : List Nat) : (s.healWords ks).cycles = s.cycles := rfl
@[simp] theorem State.healWords_nextId (s : State) (ks : List Nat) : (s.healWords ks).nextId = s.nextId := rfl
@[simp] theorem State.healWords_nextSid (s : State) (ks : List Nat) : (s.healWords ks).nextSid = s.nextSid := rfl
@[simp] theorem State.healWords_pkg (s : State) (ks : List Nat) : (s.healWords ks).pkg = s.pkg := rfl
@[simp] theorem State.healWords_disp (s : State) (ks : List Nat) : (s.healWords ks).disp = s.disp := rfl
@[simp] theorem State.healWords_latch (s : State) (ks : List Nat) : (s.healWords ks).latch = s.latch := rfl
@[simp] theorem State.healWords_refs (s : State) (ks : List Nat) : (s.healWords ks).refs = s.refs := rfl
@[simp] theorem State.healWords_bundle (s : State) (ks : List Nat) : (s.healWords ks).bundle = s.bundle := rfl
@[simp] theorem State.healWords_inA (s : State) (ks : List Nat) : (s.healWords ks).inA = s.inA := rfl
@[simp] theorem State.healWords_free (s : State) (ks : List Nat) : (s.healWords ks).free = s.free := rfl
@[simp] theorem State.healWords_hostOut (s : State) (ks : List Nat) : (s.healWords ks).hostOut = s.hostOut := rfl
@[simp] theorem State.healWords_tape (s : State) (ks : List Nat) : (s.healWords ks).tape = s.tape := rfl

/-! ### `State.goto`: going on elsewhere -/

@[simp] theorem State.goto_strands (s : State) (a : Word) : (s.goto a).strands = s.strands := rfl
@[simp] theorem State.goto_cores (s : State) (a : Word) : (s.goto a).cores = s.cores := rfl
@[simp] theorem State.goto_clusters (s : State) (a : Word) : (s.goto a).clusters = s.clusters := rfl
@[simp] theorem State.goto_ctxs (s : State) (a : Word) : (s.goto a).ctxs = s.ctxs := rfl
@[simp] theorem State.goto_launches (s : State) (a : Word) : (s.goto a).launches = s.launches := rfl
@[simp] theorem State.goto_harvest (s : State) (a : Word) : (s.goto a).harvest = s.harvest := rfl
@[simp] theorem State.goto_groups (s : State) (a : Word) : (s.goto a).groups = s.groups := rfl
@[simp] theorem State.goto_mem (s : State) (a : Word) : (s.goto a).mem = s.mem := rfl
@[simp] theorem State.goto_lineKey (s : State) (a : Word) : (s.goto a).lineKey = s.lineKey := rfl
@[simp] theorem State.goto_poison (s : State) (a : Word) : (s.goto a).poison = s.poison := rfl
@[simp] theorem State.goto_stores (s : State) (a : Word) : (s.goto a).stores = s.stores := rfl
@[simp] theorem State.goto_vupd (s : State) (a : Word) : (s.goto a).vupd = s.vupd := rfl
@[simp] theorem State.goto_told (s : State) (a : Word) : (s.goto a).told = s.told := rfl
@[simp] theorem State.goto_homeUse (s : State) (a : Word) : (s.goto a).homeUse = s.homeUse := rfl
@[simp] theorem State.goto_walks (s : State) (a : Word) : (s.goto a).walks = s.walks := rfl
@[simp] theorem State.goto_cmds (s : State) (a : Word) : (s.goto a).cmds = s.cmds := rfl
@[simp] theorem State.goto_owners (s : State) (a : Word) : (s.goto a).owners = s.owners := rfl
@[simp] theorem State.goto_pubs (s : State) (a : Word) : (s.goto a).pubs = s.pubs := rfl
@[simp] theorem State.goto_leesPubs (s : State) (a : Word) : (s.goto a).leesPubs = s.leesPubs := rfl
@[simp] theorem State.goto_cycles (s : State) (a : Word) : (s.goto a).cycles = s.cycles := rfl
@[simp] theorem State.goto_nextId (s : State) (a : Word) : (s.goto a).nextId = s.nextId := rfl
@[simp] theorem State.goto_nextSid (s : State) (a : Word) : (s.goto a).nextSid = s.nextSid := rfl
@[simp] theorem State.goto_pkg (s : State) (a : Word) : (s.goto a).pkg = s.pkg := rfl
@[simp] theorem State.goto_disp (s : State) (a : Word) : (s.goto a).disp = s.disp := rfl
@[simp] theorem State.goto_latch (s : State) (a : Word) : (s.goto a).latch = s.latch := rfl
@[simp] theorem State.goto_refs (s : State) (a : Word) : (s.goto a).refs = s.refs := rfl
@[simp] theorem State.goto_bundle (s : State) (a : Word) : (s.goto a).bundle = s.bundle := rfl
@[simp] theorem State.goto_inA (s : State) (a : Word) : (s.goto a).inA = s.inA := rfl
@[simp] theorem State.goto_free (s : State) (a : Word) : (s.goto a).free = s.free := rfl
@[simp] theorem State.goto_hostOut (s : State) (a : Word) : (s.goto a).hostOut = s.hostOut := rfl
@[simp] theorem State.goto_tape (s : State) (a : Word) : (s.goto a).tape = s.tape := rfl
@[simp] theorem State.goto_cur_id (s : State) (a : Word) : (s.goto a).cur.id = s.cur.id := rfl
@[simp] theorem State.goto_cur_sid (s : State) (a : Word) : (s.goto a).cur.sid = s.cur.sid := rfl
@[simp] theorem State.goto_cur_status (s : State) (a : Word) : (s.goto a).cur.status = s.cur.status := rfl
@[simp] theorem State.goto_cur_reserved (s : State) (a : Word) : (s.goto a).cur.reserved = s.cur.reserved := rfl
@[simp] theorem State.goto_cur_x (s : State) (a : Word) : (s.goto a).cur.x = s.cur.x := rfl
@[simp] theorem State.goto_cur_h (s : State) (a : Word) : (s.goto a).cur.h = s.cur.h := rfl
@[simp] theorem State.goto_cur_pc (s : State) (a : Word) : (s.goto a).cur.pc = s.cur.pc := rfl
@[simp] theorem State.goto_cur_npc (s : State) (a : Word) : (s.goto a).cur.npc = a := rfl
@[simp] theorem State.goto_cur_super (s : State) (a : Word) : (s.goto a).cur.super = s.cur.super := rfl
@[simp] theorem State.goto_cur_fpc (s : State) (a : Word) : (s.goto a).cur.fpc = s.cur.fpc := rfl
@[simp] theorem State.goto_cur_fcause (s : State) (a : Word) : (s.goto a).cur.fcause = s.cur.fcause := rfl
@[simp] theorem State.goto_cur_faddr (s : State) (a : Word) : (s.goto a).cur.faddr = s.cur.faddr := rfl
@[simp] theorem State.goto_cur_uid (s : State) (a : Word) : (s.goto a).cur.uid = s.cur.uid := rfl
@[simp] theorem State.goto_cur_cuvc (s : State) (a : Word) : (s.goto a).cur.cuvc = s.cur.cuvc := rfl
@[simp] theorem State.goto_cur_tvec (s : State) (a : Word) : (s.goto a).cur.tvec = s.cur.tvec := rfl
@[simp] theorem State.goto_cur_epc (s : State) (a : Word) : (s.goto a).cur.epc = s.cur.epc := rfl
@[simp] theorem State.goto_cur_estat (s : State) (a : Word) : (s.goto a).cur.estat = s.cur.estat := rfl
@[simp] theorem State.goto_cur_lees (s : State) (a : Word) : (s.goto a).cur.lees = s.cur.lees := rfl
@[simp] theorem State.goto_cur_pend (s : State) (a : Word) : (s.goto a).cur.pend = s.cur.pend := rfl
@[simp] theorem State.goto_cur_trapWins (s : State) (a : Word) : (s.goto a).cur.trapWins = s.cur.trapWins := rfl
@[simp] theorem State.goto_cur_uiWins (s : State) (a : Word) : (s.goto a).cur.uiWins = s.cur.uiWins := rfl
@[simp] theorem State.goto_cur_uiPc (s : State) (a : Word) : (s.goto a).cur.uiPc = s.cur.uiPc := rfl
@[simp] theorem State.goto_cur_inUi (s : State) (a : Word) : (s.goto a).cur.inUi = s.cur.inUi := rfl
@[simp] theorem State.goto_cur_heldInts (s : State) (a : Word) : (s.goto a).cur.heldInts = s.cur.heldInts := rfl
@[simp] theorem State.goto_cur_mbox (s : State) (a : Word) : (s.goto a).cur.mbox = s.cur.mbox := rfl
@[simp] theorem State.goto_cur_mboxRes (s : State) (a : Word) : (s.goto a).cur.mboxRes = s.cur.mboxRes := rfl
@[simp] theorem State.goto_cur_rep (s : State) (a : Word) : (s.goto a).cur.rep = s.cur.rep := rfl
@[simp] theorem State.goto_cur_vw (s : State) (a : Word) : (s.goto a).cur.vw = s.cur.vw := rfl
@[simp] theorem State.goto_cur_vp (s : State) (a : Word) : (s.goto a).cur.vp = s.cur.vp := rfl
@[simp] theorem State.goto_cur_leesPub (s : State) (a : Word) : (s.goto a).cur.leesPub = s.cur.leesPub := rfl
@[simp] theorem State.goto_cur_leesRcv (s : State) (a : Word) : (s.goto a).cur.leesRcv = s.cur.leesRcv := rfl
@[simp] theorem State.goto_cur_leesPart (s : State) (a : Word) : (s.goto a).cur.leesPart = s.cur.leesPart := rfl
@[simp] theorem State.goto_cur_waitRef (s : State) (a : Word) : (s.goto a).cur.waitRef = s.cur.waitRef := rfl
@[simp] theorem State.goto_cur_gbar (s : State) (a : Word) : (s.goto a).cur.gbar = s.cur.gbar := rfl
@[simp] theorem State.goto_cur_atBar (s : State) (a : Word) : (s.goto a).cur.atBar = s.cur.atBar := rfl
@[simp] theorem State.goto_cur_index (s : State) (a : Word) : (s.goto a).cur.index = s.cur.index := rfl
@[simp] theorem State.goto_cur_launch (s : State) (a : Word) : (s.goto a).cur.launch = s.cur.launch := rfl
@[simp] theorem State.goto_cur_ctx (s : State) (a : Word) : (s.goto a).cur.ctx = s.cur.ctx := rfl
@[simp] theorem State.goto_cur_g0 (s : State) (a : Word) : (s.goto a).cur.g0 = s.cur.g0 := rfl
@[simp] theorem State.goto_cur_stall (s : State) (a : Word) : (s.goto a).cur.stall = s.cur.stall := rfl
@[simp] theorem State.goto_cur_faulting (s : State) (a : Word) : (s.goto a).cur.faulting = s.cur.faulting := rfl
@[simp] theorem State.goto_cur_fence (s : State) (a : Word) : (s.goto a).cur.fence = s.cur.fence := rfl
@[simp] theorem State.goto_cur_sys (s : State) (a : Word) : (s.goto a).cur.sys = s.cur.sys := rfl
@[simp] theorem State.goto_cur_sysGot (s : State) (a : Word) : (s.goto a).cur.sysGot = s.cur.sysGot := rfl
@[simp] theorem State.goto_cur_actDone (s : State) (a : Word) : (s.goto a).cur.actDone = s.cur.actDone := rfl
@[simp] theorem State.goto_cur_doing (s : State) (a : Word) : (s.goto a).cur.doing = s.cur.doing := rfl
@[simp] theorem State.goto_cur_seen (s : State) (a : Word) : (s.goto a).cur.seen = s.cur.seen := rfl
@[simp] theorem State.goto_cur_leaves (s : State) (a : Word) : (s.goto a).cur.leaves = s.cur.leaves := rfl
@[simp] theorem State.goto_cur_walkFault (s : State) (a : Word) : (s.goto a).cur.walkFault = s.cur.walkFault := rfl
@[simp] theorem State.goto_cur_ibuf (s : State) (a : Word) : (s.goto a).cur.ibuf = s.cur.ibuf := rfl
@[simp] theorem State.goto_cur_last (s : State) (a : Word) : (s.goto a).cur.last = s.cur.last := rfl
@[simp] theorem State.goto_cur_word (s : State) (a : Word) : (s.goto a).cur.word = s.cur.word := rfl
@[simp] theorem State.goto_cur_code (s : State) (a : Word) : (s.goto a).cur.code = s.cur.code := rfl
@[simp] theorem State.goto_cur_leesGot (s : State) (a : Word) : (s.goto a).cur.leesGot = s.cur.leesGot := rfl
@[simp] theorem State.goto_cur_relAt (s : State) (a : Word) : (s.goto a).cur.relAt = s.cur.relAt := rfl
@[simp] theorem State.goto_cur_chosen (s : State) (a : Word) : (s.goto a).cur.chosen = s.cur.chosen := rfl
@[simp] theorem State.goto_cur_rels (s : State) (a : Word) : (s.goto a).cur.rels = s.cur.rels := rfl
@[simp] theorem State.goto_cur_heard (s : State) (a : Word) : (s.goto a).cur.heard = s.cur.heard := rfl
@[simp] theorem State.goto_cur_before (s : State) (a : Word) : (s.goto a).cur.before = s.cur.before := rfl
@[simp] theorem State.goto_cur_justIn (s : State) (a : Word) : (s.goto a).cur.justIn = s.cur.justIn := rfl
@[simp] theorem State.goto_cur_record (s : State) (a : Word) : (s.goto a).cur.record = s.cur.record := rfl

/-! ### `State.wrH`: writing a handle register -/

@[simp] theorem State.wrH_strands (s : State) (r : HReg) (v : Handle) : (s.wrH r v).strands = s.strands := rfl
@[simp] theorem State.wrH_cores (s : State) (r : HReg) (v : Handle) : (s.wrH r v).cores = s.cores := rfl
@[simp] theorem State.wrH_clusters (s : State) (r : HReg) (v : Handle) : (s.wrH r v).clusters = s.clusters := rfl
@[simp] theorem State.wrH_ctxs (s : State) (r : HReg) (v : Handle) : (s.wrH r v).ctxs = s.ctxs := rfl
@[simp] theorem State.wrH_launches (s : State) (r : HReg) (v : Handle) : (s.wrH r v).launches = s.launches := rfl
@[simp] theorem State.wrH_harvest (s : State) (r : HReg) (v : Handle) : (s.wrH r v).harvest = s.harvest := rfl
@[simp] theorem State.wrH_groups (s : State) (r : HReg) (v : Handle) : (s.wrH r v).groups = s.groups := rfl
@[simp] theorem State.wrH_mem (s : State) (r : HReg) (v : Handle) : (s.wrH r v).mem = s.mem := rfl
@[simp] theorem State.wrH_lineKey (s : State) (r : HReg) (v : Handle) : (s.wrH r v).lineKey = s.lineKey := rfl
@[simp] theorem State.wrH_poison (s : State) (r : HReg) (v : Handle) : (s.wrH r v).poison = s.poison := rfl
@[simp] theorem State.wrH_stores (s : State) (r : HReg) (v : Handle) : (s.wrH r v).stores = s.stores := rfl
@[simp] theorem State.wrH_vupd (s : State) (r : HReg) (v : Handle) : (s.wrH r v).vupd = s.vupd := rfl
@[simp] theorem State.wrH_told (s : State) (r : HReg) (v : Handle) : (s.wrH r v).told = s.told := rfl
@[simp] theorem State.wrH_homeUse (s : State) (r : HReg) (v : Handle) : (s.wrH r v).homeUse = s.homeUse := rfl
@[simp] theorem State.wrH_walks (s : State) (r : HReg) (v : Handle) : (s.wrH r v).walks = s.walks := rfl
@[simp] theorem State.wrH_cmds (s : State) (r : HReg) (v : Handle) : (s.wrH r v).cmds = s.cmds := rfl
@[simp] theorem State.wrH_owners (s : State) (r : HReg) (v : Handle) : (s.wrH r v).owners = s.owners := rfl
@[simp] theorem State.wrH_pubs (s : State) (r : HReg) (v : Handle) : (s.wrH r v).pubs = s.pubs := rfl
@[simp] theorem State.wrH_leesPubs (s : State) (r : HReg) (v : Handle) : (s.wrH r v).leesPubs = s.leesPubs := rfl
@[simp] theorem State.wrH_cycles (s : State) (r : HReg) (v : Handle) : (s.wrH r v).cycles = s.cycles := rfl
@[simp] theorem State.wrH_nextId (s : State) (r : HReg) (v : Handle) : (s.wrH r v).nextId = s.nextId := rfl
@[simp] theorem State.wrH_nextSid (s : State) (r : HReg) (v : Handle) : (s.wrH r v).nextSid = s.nextSid := rfl
@[simp] theorem State.wrH_pkg (s : State) (r : HReg) (v : Handle) : (s.wrH r v).pkg = s.pkg := rfl
@[simp] theorem State.wrH_disp (s : State) (r : HReg) (v : Handle) : (s.wrH r v).disp = s.disp := rfl
@[simp] theorem State.wrH_latch (s : State) (r : HReg) (v : Handle) : (s.wrH r v).latch = s.latch := rfl
@[simp] theorem State.wrH_refs (s : State) (r : HReg) (v : Handle) : (s.wrH r v).refs = s.refs := rfl
@[simp] theorem State.wrH_bundle (s : State) (r : HReg) (v : Handle) : (s.wrH r v).bundle = s.bundle := rfl
@[simp] theorem State.wrH_inA (s : State) (r : HReg) (v : Handle) : (s.wrH r v).inA = s.inA := rfl
@[simp] theorem State.wrH_free (s : State) (r : HReg) (v : Handle) : (s.wrH r v).free = s.free := rfl
@[simp] theorem State.wrH_hostOut (s : State) (r : HReg) (v : Handle) : (s.wrH r v).hostOut = s.hostOut := rfl
@[simp] theorem State.wrH_tape (s : State) (r : HReg) (v : Handle) : (s.wrH r v).tape = s.tape := rfl
@[simp] theorem State.wrH_cur_id (s : State) (r : HReg) (v : Handle) : (s.wrH r v).cur.id = s.cur.id := rfl
@[simp] theorem State.wrH_cur_sid (s : State) (r : HReg) (v : Handle) : (s.wrH r v).cur.sid = s.cur.sid := rfl
@[simp] theorem State.wrH_cur_status (s : State) (r : HReg) (v : Handle) : (s.wrH r v).cur.status = s.cur.status := rfl
@[simp] theorem State.wrH_cur_reserved (s : State) (r : HReg) (v : Handle) : (s.wrH r v).cur.reserved = s.cur.reserved := rfl
@[simp] theorem State.wrH_cur_x (s : State) (r : HReg) (v : Handle) : (s.wrH r v).cur.x = s.cur.x := rfl
@[simp] theorem State.wrH_cur_h (s : State) (r : HReg) (v : Handle) : (s.wrH r v).cur.h = (s.cur.setH r v).h := rfl
@[simp] theorem State.wrH_cur_pc (s : State) (r : HReg) (v : Handle) : (s.wrH r v).cur.pc = s.cur.pc := rfl
@[simp] theorem State.wrH_cur_npc (s : State) (r : HReg) (v : Handle) : (s.wrH r v).cur.npc = s.cur.npc := rfl
@[simp] theorem State.wrH_cur_super (s : State) (r : HReg) (v : Handle) : (s.wrH r v).cur.super = s.cur.super := rfl
@[simp] theorem State.wrH_cur_fpc (s : State) (r : HReg) (v : Handle) : (s.wrH r v).cur.fpc = s.cur.fpc := rfl
@[simp] theorem State.wrH_cur_fcause (s : State) (r : HReg) (v : Handle) : (s.wrH r v).cur.fcause = s.cur.fcause := rfl
@[simp] theorem State.wrH_cur_faddr (s : State) (r : HReg) (v : Handle) : (s.wrH r v).cur.faddr = s.cur.faddr := rfl
@[simp] theorem State.wrH_cur_uid (s : State) (r : HReg) (v : Handle) : (s.wrH r v).cur.uid = s.cur.uid := rfl
@[simp] theorem State.wrH_cur_cuvc (s : State) (r : HReg) (v : Handle) : (s.wrH r v).cur.cuvc = s.cur.cuvc := rfl
@[simp] theorem State.wrH_cur_tvec (s : State) (r : HReg) (v : Handle) : (s.wrH r v).cur.tvec = s.cur.tvec := rfl
@[simp] theorem State.wrH_cur_epc (s : State) (r : HReg) (v : Handle) : (s.wrH r v).cur.epc = s.cur.epc := rfl
@[simp] theorem State.wrH_cur_estat (s : State) (r : HReg) (v : Handle) : (s.wrH r v).cur.estat = s.cur.estat := rfl
@[simp] theorem State.wrH_cur_lees (s : State) (r : HReg) (v : Handle) : (s.wrH r v).cur.lees = s.cur.lees := rfl
@[simp] theorem State.wrH_cur_pend (s : State) (r : HReg) (v : Handle) : (s.wrH r v).cur.pend = s.cur.pend := rfl
@[simp] theorem State.wrH_cur_trapWins (s : State) (r : HReg) (v : Handle) : (s.wrH r v).cur.trapWins = s.cur.trapWins := rfl
@[simp] theorem State.wrH_cur_uiWins (s : State) (r : HReg) (v : Handle) : (s.wrH r v).cur.uiWins = s.cur.uiWins := rfl
@[simp] theorem State.wrH_cur_uiPc (s : State) (r : HReg) (v : Handle) : (s.wrH r v).cur.uiPc = s.cur.uiPc := rfl
@[simp] theorem State.wrH_cur_inUi (s : State) (r : HReg) (v : Handle) : (s.wrH r v).cur.inUi = s.cur.inUi := rfl
@[simp] theorem State.wrH_cur_heldInts (s : State) (r : HReg) (v : Handle) : (s.wrH r v).cur.heldInts = s.cur.heldInts := rfl
@[simp] theorem State.wrH_cur_mbox (s : State) (r : HReg) (v : Handle) : (s.wrH r v).cur.mbox = s.cur.mbox := rfl
@[simp] theorem State.wrH_cur_mboxRes (s : State) (r : HReg) (v : Handle) : (s.wrH r v).cur.mboxRes = s.cur.mboxRes := rfl
@[simp] theorem State.wrH_cur_rep (s : State) (r : HReg) (v : Handle) : (s.wrH r v).cur.rep = s.cur.rep := rfl
@[simp] theorem State.wrH_cur_vw (s : State) (r : HReg) (v : Handle) : (s.wrH r v).cur.vw = s.cur.vw := rfl
@[simp] theorem State.wrH_cur_vp (s : State) (r : HReg) (v : Handle) : (s.wrH r v).cur.vp = s.cur.vp := rfl
@[simp] theorem State.wrH_cur_leesPub (s : State) (r : HReg) (v : Handle) : (s.wrH r v).cur.leesPub = s.cur.leesPub := rfl
@[simp] theorem State.wrH_cur_leesRcv (s : State) (r : HReg) (v : Handle) : (s.wrH r v).cur.leesRcv = s.cur.leesRcv := rfl
@[simp] theorem State.wrH_cur_leesPart (s : State) (r : HReg) (v : Handle) : (s.wrH r v).cur.leesPart = s.cur.leesPart := rfl
@[simp] theorem State.wrH_cur_waitRef (s : State) (r : HReg) (v : Handle) : (s.wrH r v).cur.waitRef = s.cur.waitRef := rfl
@[simp] theorem State.wrH_cur_gbar (s : State) (r : HReg) (v : Handle) : (s.wrH r v).cur.gbar = s.cur.gbar := rfl
@[simp] theorem State.wrH_cur_atBar (s : State) (r : HReg) (v : Handle) : (s.wrH r v).cur.atBar = s.cur.atBar := rfl
@[simp] theorem State.wrH_cur_index (s : State) (r : HReg) (v : Handle) : (s.wrH r v).cur.index = s.cur.index := rfl
@[simp] theorem State.wrH_cur_launch (s : State) (r : HReg) (v : Handle) : (s.wrH r v).cur.launch = s.cur.launch := rfl
@[simp] theorem State.wrH_cur_ctx (s : State) (r : HReg) (v : Handle) : (s.wrH r v).cur.ctx = s.cur.ctx := rfl
@[simp] theorem State.wrH_cur_g0 (s : State) (r : HReg) (v : Handle) : (s.wrH r v).cur.g0 = s.cur.g0 := rfl
@[simp] theorem State.wrH_cur_stall (s : State) (r : HReg) (v : Handle) : (s.wrH r v).cur.stall = s.cur.stall := rfl
@[simp] theorem State.wrH_cur_faulting (s : State) (r : HReg) (v : Handle) : (s.wrH r v).cur.faulting = s.cur.faulting := rfl
@[simp] theorem State.wrH_cur_fence (s : State) (r : HReg) (v : Handle) : (s.wrH r v).cur.fence = s.cur.fence := rfl
@[simp] theorem State.wrH_cur_sys (s : State) (r : HReg) (v : Handle) : (s.wrH r v).cur.sys = s.cur.sys := rfl
@[simp] theorem State.wrH_cur_sysGot (s : State) (r : HReg) (v : Handle) : (s.wrH r v).cur.sysGot = s.cur.sysGot := rfl
@[simp] theorem State.wrH_cur_actDone (s : State) (r : HReg) (v : Handle) : (s.wrH r v).cur.actDone = s.cur.actDone := rfl
@[simp] theorem State.wrH_cur_doing (s : State) (r : HReg) (v : Handle) : (s.wrH r v).cur.doing = s.cur.doing := rfl
@[simp] theorem State.wrH_cur_seen (s : State) (r : HReg) (v : Handle) : (s.wrH r v).cur.seen = s.cur.seen := rfl
@[simp] theorem State.wrH_cur_leaves (s : State) (r : HReg) (v : Handle) : (s.wrH r v).cur.leaves = s.cur.leaves := rfl
@[simp] theorem State.wrH_cur_walkFault (s : State) (r : HReg) (v : Handle) : (s.wrH r v).cur.walkFault = s.cur.walkFault := rfl
@[simp] theorem State.wrH_cur_ibuf (s : State) (r : HReg) (v : Handle) : (s.wrH r v).cur.ibuf = s.cur.ibuf := rfl
@[simp] theorem State.wrH_cur_last (s : State) (r : HReg) (v : Handle) : (s.wrH r v).cur.last = s.cur.last := rfl
@[simp] theorem State.wrH_cur_word (s : State) (r : HReg) (v : Handle) : (s.wrH r v).cur.word = s.cur.word := rfl
@[simp] theorem State.wrH_cur_code (s : State) (r : HReg) (v : Handle) : (s.wrH r v).cur.code = s.cur.code := rfl
@[simp] theorem State.wrH_cur_leesGot (s : State) (r : HReg) (v : Handle) : (s.wrH r v).cur.leesGot = s.cur.leesGot := rfl
@[simp] theorem State.wrH_cur_relAt (s : State) (r : HReg) (v : Handle) : (s.wrH r v).cur.relAt = s.cur.relAt := rfl
@[simp] theorem State.wrH_cur_chosen (s : State) (r : HReg) (v : Handle) : (s.wrH r v).cur.chosen = s.cur.chosen := rfl
@[simp] theorem State.wrH_cur_rels (s : State) (r : HReg) (v : Handle) : (s.wrH r v).cur.rels = s.cur.rels := rfl
@[simp] theorem State.wrH_cur_heard (s : State) (r : HReg) (v : Handle) : (s.wrH r v).cur.heard = s.cur.heard := rfl
@[simp] theorem State.wrH_cur_before (s : State) (r : HReg) (v : Handle) : (s.wrH r v).cur.before = s.cur.before := rfl
@[simp] theorem State.wrH_cur_justIn (s : State) (r : HReg) (v : Handle) : (s.wrH r v).cur.justIn = s.cur.justIn := rfl
@[simp] theorem State.wrH_cur_record (s : State) (r : HReg) (v : Handle) : (s.wrH r v).cur.record = s.cur.record := rfl

/-! ### `Strand.setH`: a handle register of a strand -/

@[simp] theorem Strand.setH_id (t : Strand) (r : HReg) (v : Handle) : (t.setH r v).id = t.id := rfl
@[simp] theorem Strand.setH_sid (t : Strand) (r : HReg) (v : Handle) : (t.setH r v).sid = t.sid := rfl
@[simp] theorem Strand.setH_status (t : Strand) (r : HReg) (v : Handle) : (t.setH r v).status = t.status := rfl
@[simp] theorem Strand.setH_reserved (t : Strand) (r : HReg) (v : Handle) : (t.setH r v).reserved = t.reserved := rfl
@[simp] theorem Strand.setH_x (t : Strand) (r : HReg) (v : Handle) : (t.setH r v).x = t.x := rfl
@[simp] theorem Strand.setH_pc (t : Strand) (r : HReg) (v : Handle) : (t.setH r v).pc = t.pc := rfl
@[simp] theorem Strand.setH_npc (t : Strand) (r : HReg) (v : Handle) : (t.setH r v).npc = t.npc := rfl
@[simp] theorem Strand.setH_super (t : Strand) (r : HReg) (v : Handle) : (t.setH r v).super = t.super := rfl
@[simp] theorem Strand.setH_fpc (t : Strand) (r : HReg) (v : Handle) : (t.setH r v).fpc = t.fpc := rfl
@[simp] theorem Strand.setH_fcause (t : Strand) (r : HReg) (v : Handle) : (t.setH r v).fcause = t.fcause := rfl
@[simp] theorem Strand.setH_faddr (t : Strand) (r : HReg) (v : Handle) : (t.setH r v).faddr = t.faddr := rfl
@[simp] theorem Strand.setH_uid (t : Strand) (r : HReg) (v : Handle) : (t.setH r v).uid = t.uid := rfl
@[simp] theorem Strand.setH_cuvc (t : Strand) (r : HReg) (v : Handle) : (t.setH r v).cuvc = t.cuvc := rfl
@[simp] theorem Strand.setH_tvec (t : Strand) (r : HReg) (v : Handle) : (t.setH r v).tvec = t.tvec := rfl
@[simp] theorem Strand.setH_epc (t : Strand) (r : HReg) (v : Handle) : (t.setH r v).epc = t.epc := rfl
@[simp] theorem Strand.setH_estat (t : Strand) (r : HReg) (v : Handle) : (t.setH r v).estat = t.estat := rfl
@[simp] theorem Strand.setH_lees (t : Strand) (r : HReg) (v : Handle) : (t.setH r v).lees = t.lees := rfl
@[simp] theorem Strand.setH_pend (t : Strand) (r : HReg) (v : Handle) : (t.setH r v).pend = t.pend := rfl
@[simp] theorem Strand.setH_trapWins (t : Strand) (r : HReg) (v : Handle) : (t.setH r v).trapWins = t.trapWins := rfl
@[simp] theorem Strand.setH_uiWins (t : Strand) (r : HReg) (v : Handle) : (t.setH r v).uiWins = t.uiWins := rfl
@[simp] theorem Strand.setH_uiPc (t : Strand) (r : HReg) (v : Handle) : (t.setH r v).uiPc = t.uiPc := rfl
@[simp] theorem Strand.setH_inUi (t : Strand) (r : HReg) (v : Handle) : (t.setH r v).inUi = t.inUi := rfl
@[simp] theorem Strand.setH_heldInts (t : Strand) (r : HReg) (v : Handle) : (t.setH r v).heldInts = t.heldInts := rfl
@[simp] theorem Strand.setH_mbox (t : Strand) (r : HReg) (v : Handle) : (t.setH r v).mbox = t.mbox := rfl
@[simp] theorem Strand.setH_mboxRes (t : Strand) (r : HReg) (v : Handle) : (t.setH r v).mboxRes = t.mboxRes := rfl
@[simp] theorem Strand.setH_rep (t : Strand) (r : HReg) (v : Handle) : (t.setH r v).rep = t.rep := rfl
@[simp] theorem Strand.setH_vw (t : Strand) (r : HReg) (v : Handle) : (t.setH r v).vw = t.vw := rfl
@[simp] theorem Strand.setH_vp (t : Strand) (r : HReg) (v : Handle) : (t.setH r v).vp = t.vp := rfl
@[simp] theorem Strand.setH_leesPub (t : Strand) (r : HReg) (v : Handle) : (t.setH r v).leesPub = t.leesPub := rfl
@[simp] theorem Strand.setH_leesRcv (t : Strand) (r : HReg) (v : Handle) : (t.setH r v).leesRcv = t.leesRcv := rfl
@[simp] theorem Strand.setH_leesPart (t : Strand) (r : HReg) (v : Handle) : (t.setH r v).leesPart = t.leesPart := rfl
@[simp] theorem Strand.setH_waitRef (t : Strand) (r : HReg) (v : Handle) : (t.setH r v).waitRef = t.waitRef := rfl
@[simp] theorem Strand.setH_gbar (t : Strand) (r : HReg) (v : Handle) : (t.setH r v).gbar = t.gbar := rfl
@[simp] theorem Strand.setH_atBar (t : Strand) (r : HReg) (v : Handle) : (t.setH r v).atBar = t.atBar := rfl
@[simp] theorem Strand.setH_index (t : Strand) (r : HReg) (v : Handle) : (t.setH r v).index = t.index := rfl
@[simp] theorem Strand.setH_launch (t : Strand) (r : HReg) (v : Handle) : (t.setH r v).launch = t.launch := rfl
@[simp] theorem Strand.setH_ctx (t : Strand) (r : HReg) (v : Handle) : (t.setH r v).ctx = t.ctx := rfl
@[simp] theorem Strand.setH_g0 (t : Strand) (r : HReg) (v : Handle) : (t.setH r v).g0 = t.g0 := rfl
@[simp] theorem Strand.setH_stall (t : Strand) (r : HReg) (v : Handle) : (t.setH r v).stall = t.stall := rfl
@[simp] theorem Strand.setH_faulting (t : Strand) (r : HReg) (v : Handle) : (t.setH r v).faulting = t.faulting := rfl
@[simp] theorem Strand.setH_fence (t : Strand) (r : HReg) (v : Handle) : (t.setH r v).fence = t.fence := rfl
@[simp] theorem Strand.setH_sys (t : Strand) (r : HReg) (v : Handle) : (t.setH r v).sys = t.sys := rfl
@[simp] theorem Strand.setH_sysGot (t : Strand) (r : HReg) (v : Handle) : (t.setH r v).sysGot = t.sysGot := rfl
@[simp] theorem Strand.setH_actDone (t : Strand) (r : HReg) (v : Handle) : (t.setH r v).actDone = t.actDone := rfl
@[simp] theorem Strand.setH_doing (t : Strand) (r : HReg) (v : Handle) : (t.setH r v).doing = t.doing := rfl
@[simp] theorem Strand.setH_seen (t : Strand) (r : HReg) (v : Handle) : (t.setH r v).seen = t.seen := rfl
@[simp] theorem Strand.setH_leaves (t : Strand) (r : HReg) (v : Handle) : (t.setH r v).leaves = t.leaves := rfl
@[simp] theorem Strand.setH_walkFault (t : Strand) (r : HReg) (v : Handle) : (t.setH r v).walkFault = t.walkFault := rfl
@[simp] theorem Strand.setH_ibuf (t : Strand) (r : HReg) (v : Handle) : (t.setH r v).ibuf = t.ibuf := rfl
@[simp] theorem Strand.setH_last (t : Strand) (r : HReg) (v : Handle) : (t.setH r v).last = t.last := rfl
@[simp] theorem Strand.setH_word (t : Strand) (r : HReg) (v : Handle) : (t.setH r v).word = t.word := rfl
@[simp] theorem Strand.setH_code (t : Strand) (r : HReg) (v : Handle) : (t.setH r v).code = t.code := rfl
@[simp] theorem Strand.setH_leesGot (t : Strand) (r : HReg) (v : Handle) : (t.setH r v).leesGot = t.leesGot := rfl
@[simp] theorem Strand.setH_relAt (t : Strand) (r : HReg) (v : Handle) : (t.setH r v).relAt = t.relAt := rfl
@[simp] theorem Strand.setH_chosen (t : Strand) (r : HReg) (v : Handle) : (t.setH r v).chosen = t.chosen := rfl
@[simp] theorem Strand.setH_rels (t : Strand) (r : HReg) (v : Handle) : (t.setH r v).rels = t.rels := rfl
@[simp] theorem Strand.setH_heard (t : Strand) (r : HReg) (v : Handle) : (t.setH r v).heard = t.heard := rfl
@[simp] theorem Strand.setH_before (t : Strand) (r : HReg) (v : Handle) : (t.setH r v).before = t.before := rfl
@[simp] theorem Strand.setH_justIn (t : Strand) (r : HReg) (v : Handle) : (t.setH r v).justIn = t.justIn := rfl
@[simp] theorem Strand.setH_record (t : Strand) (r : HReg) (v : Handle) : (t.setH r v).record = t.record := rfl

/-! ### `Strand.setX`: a scalar register of a strand -/

@[simp] theorem Strand.setX_id (t : Strand) (r : XReg) (v : Word) : (t.setX r v).id = t.id := by
  unfold Strand.setX; split <;> rfl
@[simp] theorem Strand.setX_sid (t : Strand) (r : XReg) (v : Word) : (t.setX r v).sid = t.sid := by
  unfold Strand.setX; split <;> rfl
@[simp] theorem Strand.setX_status (t : Strand) (r : XReg) (v : Word) : (t.setX r v).status = t.status := by
  unfold Strand.setX; split <;> rfl
@[simp] theorem Strand.setX_reserved (t : Strand) (r : XReg) (v : Word) : (t.setX r v).reserved = t.reserved := by
  unfold Strand.setX; split <;> rfl
@[simp] theorem Strand.setX_h (t : Strand) (r : XReg) (v : Word) : (t.setX r v).h = t.h := by
  unfold Strand.setX; split <;> rfl
@[simp] theorem Strand.setX_pc (t : Strand) (r : XReg) (v : Word) : (t.setX r v).pc = t.pc := by
  unfold Strand.setX; split <;> rfl
@[simp] theorem Strand.setX_npc (t : Strand) (r : XReg) (v : Word) : (t.setX r v).npc = t.npc := by
  unfold Strand.setX; split <;> rfl
@[simp] theorem Strand.setX_super (t : Strand) (r : XReg) (v : Word) : (t.setX r v).super = t.super := by
  unfold Strand.setX; split <;> rfl
@[simp] theorem Strand.setX_fpc (t : Strand) (r : XReg) (v : Word) : (t.setX r v).fpc = t.fpc := by
  unfold Strand.setX; split <;> rfl
@[simp] theorem Strand.setX_fcause (t : Strand) (r : XReg) (v : Word) : (t.setX r v).fcause = t.fcause := by
  unfold Strand.setX; split <;> rfl
@[simp] theorem Strand.setX_faddr (t : Strand) (r : XReg) (v : Word) : (t.setX r v).faddr = t.faddr := by
  unfold Strand.setX; split <;> rfl
@[simp] theorem Strand.setX_uid (t : Strand) (r : XReg) (v : Word) : (t.setX r v).uid = t.uid := by
  unfold Strand.setX; split <;> rfl
@[simp] theorem Strand.setX_cuvc (t : Strand) (r : XReg) (v : Word) : (t.setX r v).cuvc = t.cuvc := by
  unfold Strand.setX; split <;> rfl
@[simp] theorem Strand.setX_tvec (t : Strand) (r : XReg) (v : Word) : (t.setX r v).tvec = t.tvec := by
  unfold Strand.setX; split <;> rfl
@[simp] theorem Strand.setX_epc (t : Strand) (r : XReg) (v : Word) : (t.setX r v).epc = t.epc := by
  unfold Strand.setX; split <;> rfl
@[simp] theorem Strand.setX_estat (t : Strand) (r : XReg) (v : Word) : (t.setX r v).estat = t.estat := by
  unfold Strand.setX; split <;> rfl
@[simp] theorem Strand.setX_lees (t : Strand) (r : XReg) (v : Word) : (t.setX r v).lees = t.lees := by
  unfold Strand.setX; split <;> rfl
@[simp] theorem Strand.setX_pend (t : Strand) (r : XReg) (v : Word) : (t.setX r v).pend = t.pend := by
  unfold Strand.setX; split <;> rfl
@[simp] theorem Strand.setX_trapWins (t : Strand) (r : XReg) (v : Word) : (t.setX r v).trapWins = t.trapWins := by
  unfold Strand.setX; split <;> rfl
@[simp] theorem Strand.setX_uiWins (t : Strand) (r : XReg) (v : Word) : (t.setX r v).uiWins = t.uiWins := by
  unfold Strand.setX; split <;> rfl
@[simp] theorem Strand.setX_uiPc (t : Strand) (r : XReg) (v : Word) : (t.setX r v).uiPc = t.uiPc := by
  unfold Strand.setX; split <;> rfl
@[simp] theorem Strand.setX_inUi (t : Strand) (r : XReg) (v : Word) : (t.setX r v).inUi = t.inUi := by
  unfold Strand.setX; split <;> rfl
@[simp] theorem Strand.setX_heldInts (t : Strand) (r : XReg) (v : Word) : (t.setX r v).heldInts = t.heldInts := by
  unfold Strand.setX; split <;> rfl
@[simp] theorem Strand.setX_mbox (t : Strand) (r : XReg) (v : Word) : (t.setX r v).mbox = t.mbox := by
  unfold Strand.setX; split <;> rfl
@[simp] theorem Strand.setX_mboxRes (t : Strand) (r : XReg) (v : Word) : (t.setX r v).mboxRes = t.mboxRes := by
  unfold Strand.setX; split <;> rfl
@[simp] theorem Strand.setX_rep (t : Strand) (r : XReg) (v : Word) : (t.setX r v).rep = t.rep := by
  unfold Strand.setX; split <;> rfl
@[simp] theorem Strand.setX_vw (t : Strand) (r : XReg) (v : Word) : (t.setX r v).vw = t.vw := by
  unfold Strand.setX; split <;> rfl
@[simp] theorem Strand.setX_vp (t : Strand) (r : XReg) (v : Word) : (t.setX r v).vp = t.vp := by
  unfold Strand.setX; split <;> rfl
@[simp] theorem Strand.setX_leesPub (t : Strand) (r : XReg) (v : Word) : (t.setX r v).leesPub = t.leesPub := by
  unfold Strand.setX; split <;> rfl
@[simp] theorem Strand.setX_leesRcv (t : Strand) (r : XReg) (v : Word) : (t.setX r v).leesRcv = t.leesRcv := by
  unfold Strand.setX; split <;> rfl
@[simp] theorem Strand.setX_leesPart (t : Strand) (r : XReg) (v : Word) : (t.setX r v).leesPart = t.leesPart := by
  unfold Strand.setX; split <;> rfl
@[simp] theorem Strand.setX_waitRef (t : Strand) (r : XReg) (v : Word) : (t.setX r v).waitRef = t.waitRef := by
  unfold Strand.setX; split <;> rfl
@[simp] theorem Strand.setX_gbar (t : Strand) (r : XReg) (v : Word) : (t.setX r v).gbar = t.gbar := by
  unfold Strand.setX; split <;> rfl
@[simp] theorem Strand.setX_atBar (t : Strand) (r : XReg) (v : Word) : (t.setX r v).atBar = t.atBar := by
  unfold Strand.setX; split <;> rfl
@[simp] theorem Strand.setX_index (t : Strand) (r : XReg) (v : Word) : (t.setX r v).index = t.index := by
  unfold Strand.setX; split <;> rfl
@[simp] theorem Strand.setX_launch (t : Strand) (r : XReg) (v : Word) : (t.setX r v).launch = t.launch := by
  unfold Strand.setX; split <;> rfl
@[simp] theorem Strand.setX_ctx (t : Strand) (r : XReg) (v : Word) : (t.setX r v).ctx = t.ctx := by
  unfold Strand.setX; split <;> rfl
@[simp] theorem Strand.setX_g0 (t : Strand) (r : XReg) (v : Word) : (t.setX r v).g0 = t.g0 := by
  unfold Strand.setX; split <;> rfl
@[simp] theorem Strand.setX_stall (t : Strand) (r : XReg) (v : Word) : (t.setX r v).stall = t.stall := by
  unfold Strand.setX; split <;> rfl
@[simp] theorem Strand.setX_faulting (t : Strand) (r : XReg) (v : Word) : (t.setX r v).faulting = t.faulting := by
  unfold Strand.setX; split <;> rfl
@[simp] theorem Strand.setX_fence (t : Strand) (r : XReg) (v : Word) : (t.setX r v).fence = t.fence := by
  unfold Strand.setX; split <;> rfl
@[simp] theorem Strand.setX_sys (t : Strand) (r : XReg) (v : Word) : (t.setX r v).sys = t.sys := by
  unfold Strand.setX; split <;> rfl
@[simp] theorem Strand.setX_sysGot (t : Strand) (r : XReg) (v : Word) : (t.setX r v).sysGot = t.sysGot := by
  unfold Strand.setX; split <;> rfl
@[simp] theorem Strand.setX_actDone (t : Strand) (r : XReg) (v : Word) : (t.setX r v).actDone = t.actDone := by
  unfold Strand.setX; split <;> rfl
@[simp] theorem Strand.setX_doing (t : Strand) (r : XReg) (v : Word) : (t.setX r v).doing = t.doing := by
  unfold Strand.setX; split <;> rfl
@[simp] theorem Strand.setX_seen (t : Strand) (r : XReg) (v : Word) : (t.setX r v).seen = t.seen := by
  unfold Strand.setX; split <;> rfl
@[simp] theorem Strand.setX_leaves (t : Strand) (r : XReg) (v : Word) : (t.setX r v).leaves = t.leaves := by
  unfold Strand.setX; split <;> rfl
@[simp] theorem Strand.setX_walkFault (t : Strand) (r : XReg) (v : Word) : (t.setX r v).walkFault = t.walkFault := by
  unfold Strand.setX; split <;> rfl
@[simp] theorem Strand.setX_ibuf (t : Strand) (r : XReg) (v : Word) : (t.setX r v).ibuf = t.ibuf := by
  unfold Strand.setX; split <;> rfl
@[simp] theorem Strand.setX_last (t : Strand) (r : XReg) (v : Word) : (t.setX r v).last = t.last := by
  unfold Strand.setX; split <;> rfl
@[simp] theorem Strand.setX_word (t : Strand) (r : XReg) (v : Word) : (t.setX r v).word = t.word := by
  unfold Strand.setX; split <;> rfl
@[simp] theorem Strand.setX_code (t : Strand) (r : XReg) (v : Word) : (t.setX r v).code = t.code := by
  unfold Strand.setX; split <;> rfl
@[simp] theorem Strand.setX_leesGot (t : Strand) (r : XReg) (v : Word) : (t.setX r v).leesGot = t.leesGot := by
  unfold Strand.setX; split <;> rfl
@[simp] theorem Strand.setX_relAt (t : Strand) (r : XReg) (v : Word) : (t.setX r v).relAt = t.relAt := by
  unfold Strand.setX; split <;> rfl
@[simp] theorem Strand.setX_chosen (t : Strand) (r : XReg) (v : Word) : (t.setX r v).chosen = t.chosen := by
  unfold Strand.setX; split <;> rfl
@[simp] theorem Strand.setX_rels (t : Strand) (r : XReg) (v : Word) : (t.setX r v).rels = t.rels := by
  unfold Strand.setX; split <;> rfl
@[simp] theorem Strand.setX_heard (t : Strand) (r : XReg) (v : Word) : (t.setX r v).heard = t.heard := by
  unfold Strand.setX; split <;> rfl
@[simp] theorem Strand.setX_before (t : Strand) (r : XReg) (v : Word) : (t.setX r v).before = t.before := by
  unfold Strand.setX; split <;> rfl
@[simp] theorem Strand.setX_justIn (t : Strand) (r : XReg) (v : Word) : (t.setX r v).justIn = t.justIn := by
  unfold Strand.setX; split <;> rfl
@[simp] theorem Strand.setX_record (t : Strand) (r : XReg) (v : Word) : (t.setX r v).record = t.record := by
  unfold Strand.setX; split <;> rfl

/-! ### `State.markWritten` and `State.wr`: a scalar register of the strand in hand -/

/-- Marking a vine register changes `vw` alone (R243). -/
theorem State.markWritten_eq (s : State) (r : XReg) :
    s.markWritten r = { s with cur := { s.cur with vw := (s.markWritten r).cur.vw } } := by
  unfold State.markWritten
  cases s.vineEntry r <;> rfl

/-- A write of a scalar register changes the register file and the vine marks of the strand in hand, and nothing else. -/
theorem State.wr_eq (s : State) (d : XReg) (v : Word) :
    s.wr d v = { s with cur := { s.cur with x := (s.wr d v).cur.x, vw := (s.markWritten d).cur.vw } } := by
  unfold State.wr
  rw [State.markWritten_eq]
  unfold Strand.setX
  split <;> rfl

@[simp] theorem State.wr_strands (s : State) (d : XReg) (v : Word) : (s.wr d v).strands = s.strands := by rw [State.wr_eq]
@[simp] theorem State.wr_cores (s : State) (d : XReg) (v : Word) : (s.wr d v).cores = s.cores := by rw [State.wr_eq]
@[simp] theorem State.wr_clusters (s : State) (d : XReg) (v : Word) : (s.wr d v).clusters = s.clusters := by rw [State.wr_eq]
@[simp] theorem State.wr_ctxs (s : State) (d : XReg) (v : Word) : (s.wr d v).ctxs = s.ctxs := by rw [State.wr_eq]
@[simp] theorem State.wr_launches (s : State) (d : XReg) (v : Word) : (s.wr d v).launches = s.launches := by rw [State.wr_eq]
@[simp] theorem State.wr_harvest (s : State) (d : XReg) (v : Word) : (s.wr d v).harvest = s.harvest := by rw [State.wr_eq]
@[simp] theorem State.wr_groups (s : State) (d : XReg) (v : Word) : (s.wr d v).groups = s.groups := by rw [State.wr_eq]
@[simp] theorem State.wr_mem (s : State) (d : XReg) (v : Word) : (s.wr d v).mem = s.mem := by rw [State.wr_eq]
@[simp] theorem State.wr_lineKey (s : State) (d : XReg) (v : Word) : (s.wr d v).lineKey = s.lineKey := by rw [State.wr_eq]
@[simp] theorem State.wr_poison (s : State) (d : XReg) (v : Word) : (s.wr d v).poison = s.poison := by rw [State.wr_eq]
@[simp] theorem State.wr_stores (s : State) (d : XReg) (v : Word) : (s.wr d v).stores = s.stores := by rw [State.wr_eq]
@[simp] theorem State.wr_vupd (s : State) (d : XReg) (v : Word) : (s.wr d v).vupd = s.vupd := by rw [State.wr_eq]
@[simp] theorem State.wr_told (s : State) (d : XReg) (v : Word) : (s.wr d v).told = s.told := by rw [State.wr_eq]
@[simp] theorem State.wr_homeUse (s : State) (d : XReg) (v : Word) : (s.wr d v).homeUse = s.homeUse := by rw [State.wr_eq]
@[simp] theorem State.wr_walks (s : State) (d : XReg) (v : Word) : (s.wr d v).walks = s.walks := by rw [State.wr_eq]
@[simp] theorem State.wr_cmds (s : State) (d : XReg) (v : Word) : (s.wr d v).cmds = s.cmds := by rw [State.wr_eq]
@[simp] theorem State.wr_owners (s : State) (d : XReg) (v : Word) : (s.wr d v).owners = s.owners := by rw [State.wr_eq]
@[simp] theorem State.wr_pubs (s : State) (d : XReg) (v : Word) : (s.wr d v).pubs = s.pubs := by rw [State.wr_eq]
@[simp] theorem State.wr_leesPubs (s : State) (d : XReg) (v : Word) : (s.wr d v).leesPubs = s.leesPubs := by rw [State.wr_eq]
@[simp] theorem State.wr_cycles (s : State) (d : XReg) (v : Word) : (s.wr d v).cycles = s.cycles := by rw [State.wr_eq]
@[simp] theorem State.wr_nextId (s : State) (d : XReg) (v : Word) : (s.wr d v).nextId = s.nextId := by rw [State.wr_eq]
@[simp] theorem State.wr_nextSid (s : State) (d : XReg) (v : Word) : (s.wr d v).nextSid = s.nextSid := by rw [State.wr_eq]
@[simp] theorem State.wr_pkg (s : State) (d : XReg) (v : Word) : (s.wr d v).pkg = s.pkg := by rw [State.wr_eq]
@[simp] theorem State.wr_disp (s : State) (d : XReg) (v : Word) : (s.wr d v).disp = s.disp := by rw [State.wr_eq]
@[simp] theorem State.wr_latch (s : State) (d : XReg) (v : Word) : (s.wr d v).latch = s.latch := by rw [State.wr_eq]
@[simp] theorem State.wr_refs (s : State) (d : XReg) (v : Word) : (s.wr d v).refs = s.refs := by rw [State.wr_eq]
@[simp] theorem State.wr_bundle (s : State) (d : XReg) (v : Word) : (s.wr d v).bundle = s.bundle := by rw [State.wr_eq]
@[simp] theorem State.wr_inA (s : State) (d : XReg) (v : Word) : (s.wr d v).inA = s.inA := by rw [State.wr_eq]
@[simp] theorem State.wr_free (s : State) (d : XReg) (v : Word) : (s.wr d v).free = s.free := by rw [State.wr_eq]
@[simp] theorem State.wr_hostOut (s : State) (d : XReg) (v : Word) : (s.wr d v).hostOut = s.hostOut := by rw [State.wr_eq]
@[simp] theorem State.wr_tape (s : State) (d : XReg) (v : Word) : (s.wr d v).tape = s.tape := by rw [State.wr_eq]
@[simp] theorem State.wr_cur_id (s : State) (d : XReg) (v : Word) : (s.wr d v).cur.id = s.cur.id := by rw [State.wr_eq]
@[simp] theorem State.wr_cur_sid (s : State) (d : XReg) (v : Word) : (s.wr d v).cur.sid = s.cur.sid := by rw [State.wr_eq]
@[simp] theorem State.wr_cur_status (s : State) (d : XReg) (v : Word) : (s.wr d v).cur.status = s.cur.status := by rw [State.wr_eq]
@[simp] theorem State.wr_cur_reserved (s : State) (d : XReg) (v : Word) : (s.wr d v).cur.reserved = s.cur.reserved := by rw [State.wr_eq]
@[simp] theorem State.wr_cur_h (s : State) (d : XReg) (v : Word) : (s.wr d v).cur.h = s.cur.h := by rw [State.wr_eq]
@[simp] theorem State.wr_cur_pc (s : State) (d : XReg) (v : Word) : (s.wr d v).cur.pc = s.cur.pc := by rw [State.wr_eq]
@[simp] theorem State.wr_cur_npc (s : State) (d : XReg) (v : Word) : (s.wr d v).cur.npc = s.cur.npc := by rw [State.wr_eq]
@[simp] theorem State.wr_cur_super (s : State) (d : XReg) (v : Word) : (s.wr d v).cur.super = s.cur.super := by rw [State.wr_eq]
@[simp] theorem State.wr_cur_fpc (s : State) (d : XReg) (v : Word) : (s.wr d v).cur.fpc = s.cur.fpc := by rw [State.wr_eq]
@[simp] theorem State.wr_cur_fcause (s : State) (d : XReg) (v : Word) : (s.wr d v).cur.fcause = s.cur.fcause := by rw [State.wr_eq]
@[simp] theorem State.wr_cur_faddr (s : State) (d : XReg) (v : Word) : (s.wr d v).cur.faddr = s.cur.faddr := by rw [State.wr_eq]
@[simp] theorem State.wr_cur_uid (s : State) (d : XReg) (v : Word) : (s.wr d v).cur.uid = s.cur.uid := by rw [State.wr_eq]
@[simp] theorem State.wr_cur_cuvc (s : State) (d : XReg) (v : Word) : (s.wr d v).cur.cuvc = s.cur.cuvc := by rw [State.wr_eq]
@[simp] theorem State.wr_cur_tvec (s : State) (d : XReg) (v : Word) : (s.wr d v).cur.tvec = s.cur.tvec := by rw [State.wr_eq]
@[simp] theorem State.wr_cur_epc (s : State) (d : XReg) (v : Word) : (s.wr d v).cur.epc = s.cur.epc := by rw [State.wr_eq]
@[simp] theorem State.wr_cur_estat (s : State) (d : XReg) (v : Word) : (s.wr d v).cur.estat = s.cur.estat := by rw [State.wr_eq]
@[simp] theorem State.wr_cur_lees (s : State) (d : XReg) (v : Word) : (s.wr d v).cur.lees = s.cur.lees := by rw [State.wr_eq]
@[simp] theorem State.wr_cur_pend (s : State) (d : XReg) (v : Word) : (s.wr d v).cur.pend = s.cur.pend := by rw [State.wr_eq]
@[simp] theorem State.wr_cur_trapWins (s : State) (d : XReg) (v : Word) : (s.wr d v).cur.trapWins = s.cur.trapWins := by rw [State.wr_eq]
@[simp] theorem State.wr_cur_uiWins (s : State) (d : XReg) (v : Word) : (s.wr d v).cur.uiWins = s.cur.uiWins := by rw [State.wr_eq]
@[simp] theorem State.wr_cur_uiPc (s : State) (d : XReg) (v : Word) : (s.wr d v).cur.uiPc = s.cur.uiPc := by rw [State.wr_eq]
@[simp] theorem State.wr_cur_inUi (s : State) (d : XReg) (v : Word) : (s.wr d v).cur.inUi = s.cur.inUi := by rw [State.wr_eq]
@[simp] theorem State.wr_cur_heldInts (s : State) (d : XReg) (v : Word) : (s.wr d v).cur.heldInts = s.cur.heldInts := by rw [State.wr_eq]
@[simp] theorem State.wr_cur_mbox (s : State) (d : XReg) (v : Word) : (s.wr d v).cur.mbox = s.cur.mbox := by rw [State.wr_eq]
@[simp] theorem State.wr_cur_mboxRes (s : State) (d : XReg) (v : Word) : (s.wr d v).cur.mboxRes = s.cur.mboxRes := by rw [State.wr_eq]
@[simp] theorem State.wr_cur_rep (s : State) (d : XReg) (v : Word) : (s.wr d v).cur.rep = s.cur.rep := by rw [State.wr_eq]
@[simp] theorem State.wr_cur_vp (s : State) (d : XReg) (v : Word) : (s.wr d v).cur.vp = s.cur.vp := by rw [State.wr_eq]
@[simp] theorem State.wr_cur_leesPub (s : State) (d : XReg) (v : Word) : (s.wr d v).cur.leesPub = s.cur.leesPub := by rw [State.wr_eq]
@[simp] theorem State.wr_cur_leesRcv (s : State) (d : XReg) (v : Word) : (s.wr d v).cur.leesRcv = s.cur.leesRcv := by rw [State.wr_eq]
@[simp] theorem State.wr_cur_leesPart (s : State) (d : XReg) (v : Word) : (s.wr d v).cur.leesPart = s.cur.leesPart := by rw [State.wr_eq]
@[simp] theorem State.wr_cur_waitRef (s : State) (d : XReg) (v : Word) : (s.wr d v).cur.waitRef = s.cur.waitRef := by rw [State.wr_eq]
@[simp] theorem State.wr_cur_gbar (s : State) (d : XReg) (v : Word) : (s.wr d v).cur.gbar = s.cur.gbar := by rw [State.wr_eq]
@[simp] theorem State.wr_cur_atBar (s : State) (d : XReg) (v : Word) : (s.wr d v).cur.atBar = s.cur.atBar := by rw [State.wr_eq]
@[simp] theorem State.wr_cur_index (s : State) (d : XReg) (v : Word) : (s.wr d v).cur.index = s.cur.index := by rw [State.wr_eq]
@[simp] theorem State.wr_cur_launch (s : State) (d : XReg) (v : Word) : (s.wr d v).cur.launch = s.cur.launch := by rw [State.wr_eq]
@[simp] theorem State.wr_cur_ctx (s : State) (d : XReg) (v : Word) : (s.wr d v).cur.ctx = s.cur.ctx := by rw [State.wr_eq]
@[simp] theorem State.wr_cur_g0 (s : State) (d : XReg) (v : Word) : (s.wr d v).cur.g0 = s.cur.g0 := by rw [State.wr_eq]
@[simp] theorem State.wr_cur_stall (s : State) (d : XReg) (v : Word) : (s.wr d v).cur.stall = s.cur.stall := by rw [State.wr_eq]
@[simp] theorem State.wr_cur_faulting (s : State) (d : XReg) (v : Word) : (s.wr d v).cur.faulting = s.cur.faulting := by rw [State.wr_eq]
@[simp] theorem State.wr_cur_fence (s : State) (d : XReg) (v : Word) : (s.wr d v).cur.fence = s.cur.fence := by rw [State.wr_eq]
@[simp] theorem State.wr_cur_sys (s : State) (d : XReg) (v : Word) : (s.wr d v).cur.sys = s.cur.sys := by rw [State.wr_eq]
@[simp] theorem State.wr_cur_sysGot (s : State) (d : XReg) (v : Word) : (s.wr d v).cur.sysGot = s.cur.sysGot := by rw [State.wr_eq]
@[simp] theorem State.wr_cur_actDone (s : State) (d : XReg) (v : Word) : (s.wr d v).cur.actDone = s.cur.actDone := by rw [State.wr_eq]
@[simp] theorem State.wr_cur_doing (s : State) (d : XReg) (v : Word) : (s.wr d v).cur.doing = s.cur.doing := by rw [State.wr_eq]
@[simp] theorem State.wr_cur_seen (s : State) (d : XReg) (v : Word) : (s.wr d v).cur.seen = s.cur.seen := by rw [State.wr_eq]
@[simp] theorem State.wr_cur_leaves (s : State) (d : XReg) (v : Word) : (s.wr d v).cur.leaves = s.cur.leaves := by rw [State.wr_eq]
@[simp] theorem State.wr_cur_walkFault (s : State) (d : XReg) (v : Word) : (s.wr d v).cur.walkFault = s.cur.walkFault := by rw [State.wr_eq]
@[simp] theorem State.wr_cur_ibuf (s : State) (d : XReg) (v : Word) : (s.wr d v).cur.ibuf = s.cur.ibuf := by rw [State.wr_eq]
@[simp] theorem State.wr_cur_last (s : State) (d : XReg) (v : Word) : (s.wr d v).cur.last = s.cur.last := by rw [State.wr_eq]
@[simp] theorem State.wr_cur_word (s : State) (d : XReg) (v : Word) : (s.wr d v).cur.word = s.cur.word := by rw [State.wr_eq]
@[simp] theorem State.wr_cur_code (s : State) (d : XReg) (v : Word) : (s.wr d v).cur.code = s.cur.code := by rw [State.wr_eq]
@[simp] theorem State.wr_cur_leesGot (s : State) (d : XReg) (v : Word) : (s.wr d v).cur.leesGot = s.cur.leesGot := by rw [State.wr_eq]
@[simp] theorem State.wr_cur_relAt (s : State) (d : XReg) (v : Word) : (s.wr d v).cur.relAt = s.cur.relAt := by rw [State.wr_eq]
@[simp] theorem State.wr_cur_chosen (s : State) (d : XReg) (v : Word) : (s.wr d v).cur.chosen = s.cur.chosen := by rw [State.wr_eq]
@[simp] theorem State.wr_cur_rels (s : State) (d : XReg) (v : Word) : (s.wr d v).cur.rels = s.cur.rels := by rw [State.wr_eq]
@[simp] theorem State.wr_cur_heard (s : State) (d : XReg) (v : Word) : (s.wr d v).cur.heard = s.cur.heard := by rw [State.wr_eq]
@[simp] theorem State.wr_cur_before (s : State) (d : XReg) (v : Word) : (s.wr d v).cur.before = s.cur.before := by rw [State.wr_eq]
@[simp] theorem State.wr_cur_justIn (s : State) (d : XReg) (v : Word) : (s.wr d v).cur.justIn = s.cur.justIn := by rw [State.wr_eq]
@[simp] theorem State.wr_cur_record (s : State) (d : XReg) (v : Word) : (s.wr d v).cur.record = s.cur.record := by rw [State.wr_eq]

/-! ### `State.setStrand`: replacing a strand -/

@[simp] theorem State.setStrand_cores (s : State) (t : Strand) : (s.setStrand t).cores = s.cores := by
  unfold State.setStrand; split <;> rfl
@[simp] theorem State.setStrand_clusters (s : State) (t : Strand) : (s.setStrand t).clusters = s.clusters := by
  unfold State.setStrand; split <;> rfl
@[simp] theorem State.setStrand_ctxs (s : State) (t : Strand) : (s.setStrand t).ctxs = s.ctxs := by
  unfold State.setStrand; split <;> rfl
@[simp] theorem State.setStrand_launches (s : State) (t : Strand) : (s.setStrand t).launches = s.launches := by
  unfold State.setStrand; split <;> rfl
@[simp] theorem State.setStrand_harvest (s : State) (t : Strand) : (s.setStrand t).harvest = s.harvest := by
  unfold State.setStrand; split <;> rfl
@[simp] theorem State.setStrand_groups (s : State) (t : Strand) : (s.setStrand t).groups = s.groups := by
  unfold State.setStrand; split <;> rfl
@[simp] theorem State.setStrand_mem (s : State) (t : Strand) : (s.setStrand t).mem = s.mem := by
  unfold State.setStrand; split <;> rfl
@[simp] theorem State.setStrand_lineKey (s : State) (t : Strand) : (s.setStrand t).lineKey = s.lineKey := by
  unfold State.setStrand; split <;> rfl
@[simp] theorem State.setStrand_poison (s : State) (t : Strand) : (s.setStrand t).poison = s.poison := by
  unfold State.setStrand; split <;> rfl
@[simp] theorem State.setStrand_stores (s : State) (t : Strand) : (s.setStrand t).stores = s.stores := by
  unfold State.setStrand; split <;> rfl
@[simp] theorem State.setStrand_vupd (s : State) (t : Strand) : (s.setStrand t).vupd = s.vupd := by
  unfold State.setStrand; split <;> rfl
@[simp] theorem State.setStrand_told (s : State) (t : Strand) : (s.setStrand t).told = s.told := by
  unfold State.setStrand; split <;> rfl
@[simp] theorem State.setStrand_homeUse (s : State) (t : Strand) : (s.setStrand t).homeUse = s.homeUse := by
  unfold State.setStrand; split <;> rfl
@[simp] theorem State.setStrand_walks (s : State) (t : Strand) : (s.setStrand t).walks = s.walks := by
  unfold State.setStrand; split <;> rfl
@[simp] theorem State.setStrand_cmds (s : State) (t : Strand) : (s.setStrand t).cmds = s.cmds := by
  unfold State.setStrand; split <;> rfl
@[simp] theorem State.setStrand_owners (s : State) (t : Strand) : (s.setStrand t).owners = s.owners := by
  unfold State.setStrand; split <;> rfl
@[simp] theorem State.setStrand_pubs (s : State) (t : Strand) : (s.setStrand t).pubs = s.pubs := by
  unfold State.setStrand; split <;> rfl
@[simp] theorem State.setStrand_leesPubs (s : State) (t : Strand) : (s.setStrand t).leesPubs = s.leesPubs := by
  unfold State.setStrand; split <;> rfl
@[simp] theorem State.setStrand_cycles (s : State) (t : Strand) : (s.setStrand t).cycles = s.cycles := by
  unfold State.setStrand; split <;> rfl
@[simp] theorem State.setStrand_nextId (s : State) (t : Strand) : (s.setStrand t).nextId = s.nextId := by
  unfold State.setStrand; split <;> rfl
@[simp] theorem State.setStrand_nextSid (s : State) (t : Strand) : (s.setStrand t).nextSid = s.nextSid := by
  unfold State.setStrand; split <;> rfl
@[simp] theorem State.setStrand_pkg (s : State) (t : Strand) : (s.setStrand t).pkg = s.pkg := by
  unfold State.setStrand; split <;> rfl
@[simp] theorem State.setStrand_disp (s : State) (t : Strand) : (s.setStrand t).disp = s.disp := by
  unfold State.setStrand; split <;> rfl
@[simp] theorem State.setStrand_latch (s : State) (t : Strand) : (s.setStrand t).latch = s.latch := by
  unfold State.setStrand; split <;> rfl
@[simp] theorem State.setStrand_refs (s : State) (t : Strand) : (s.setStrand t).refs = s.refs := by
  unfold State.setStrand; split <;> rfl
@[simp] theorem State.setStrand_bundle (s : State) (t : Strand) : (s.setStrand t).bundle = s.bundle := by
  unfold State.setStrand; split <;> rfl
@[simp] theorem State.setStrand_inA (s : State) (t : Strand) : (s.setStrand t).inA = s.inA := by
  unfold State.setStrand; split <;> rfl
@[simp] theorem State.setStrand_free (s : State) (t : Strand) : (s.setStrand t).free = s.free := by
  unfold State.setStrand; split <;> rfl
@[simp] theorem State.setStrand_hostOut (s : State) (t : Strand) : (s.setStrand t).hostOut = s.hostOut := by
  unfold State.setStrand; split <;> rfl
@[simp] theorem State.setStrand_tape (s : State) (t : Strand) : (s.setStrand t).tape = s.tape := by
  unfold State.setStrand; split <;> rfl

end Sys2Proof.Machine
end

