-- ==== Sys2Proof/Laws/Exceptions.lean ====
section
/-! SUPPORT. What taking an exception, the checks of a word and the return from a handler do, said once for every caller (spec/20). -/

namespace Sys2Proof.Machine

open Sys2Proof

/-- With no scalar result pending, and no copy command in the way of the record, a fault is taken at once (R188, R271). -/
theorem State.raise_settled (s : State) (f : FaultInfo) (h : s.cur.settled = true) (hr : s.recordFree s.cur = true) :
    s.raise f = s.trapEntry f := if_pos (by simp [h, hr])

/-- With a scalar result pending a fault waits, and the bundle loses its turn (R75, R271). -/
theorem State.raise_pending (s : State) (f : FaultInfo) (h : s.cur.settled = false) :
    s.raise f = { s with cur := { s.cur with faulting := some f }, disp := .wait } := if_neg (by simp [h])

/-- A word that passes the checks of its strand has its own effect (R65). -/
theorem State.checked_ok (s : State) (i j : Instr) (f : State → State) (h : checkIn s.decEnv i = .ok j) : s.checked i f = f s := by
  unfold State.checked; rw [h]

/-- A word that fails a check of its strand takes the illegal-bundle fault of that check (R65). -/
theorem State.checked_error (s : State) (i : Instr) (b : Bad) (f : State → State) (h : checkIn s.decEnv i = .error b) :
    s.checked i f = s.illegal b := by
  unfold State.checked; rw [h]

/-- A check passes a word unchanged or rejects it (R65). -/
theorem checkIn_ok (e : DecEnv) (i j : Instr) (h : checkIn e i = .ok j) : j = i := by
  unfold checkIn at h
  split at h <;> try cases h
  split at h <;> try cases h
  split at h <;> try cases h
  split at h <;> try cases h
  split at h <;> cases h
  rfl

/-- Closing the windows leaves none open (R75). -/
theorem Strand.windows_closeWindows (t : Strand) : t.closeWindows.windows = [] := by
  simp only [Strand.windows, Strand.closeWindows, List.map_eq_nil_iff, List.filter_eq_nil_iff, List.mem_map]
  rintro _ ⟨p, -, rfl⟩
  simp

/-- ERET writes the registers of the strand alone (R277). -/
theorem State.eretTo_eq (s : State) : s.eretTo = { s with cur := s.eretTo.cur } := rfl

/-- ERET drops to user privilege with %estat.IN clear (R277). -/
theorem State.eretTo_super (s : State) : s.eretTo.cur.super = false ∧ s.eretTo.cur.trapWins = [] := ⟨rfl, rfl⟩

end Sys2Proof.Machine
end

