-- ==== Sys2Proof/Laws/Memory.lean ====
section
/-! SUPPORT. The canonical form of memory and what its operations do: reading after writing, the frame of a write, and that every write
keeps the form (spec/10; log 4). -/

namespace Sys2Proof.Machine

open Sys2Proof

/-! ## One list of cells -/

/-- The canonical form: keys strictly rising, and no entry 0. -/
theorem Memory.wf_iff (l : List Host.Cell) :
    Memory.wf l = true ↔ l.Pairwise (fun a b => a.1 < b.1) ∧ ∀ c ∈ l, c.2 ≠ 0 := by
  induction l with
  | nil => simp [Memory.wf]
  | cons p l ih =>
    cases l with
    | nil => simp [Memory.wf]
    | cons q r =>
      rw [Memory.wf, Bool.and_eq_true, Bool.and_eq_true, ih, decide_eq_true_iff, bne_iff_ne]
      constructor
      · rintro ⟨⟨hb, hlt⟩, hp, hz⟩
        refine ⟨List.pairwise_cons.2 ⟨fun c hc => ?_, hp⟩, ?_⟩
        · rcases List.mem_cons.1 hc with rfl | hc
          · exact hlt
          · exact lt_trans hlt ((List.pairwise_cons.1 hp).1 c hc)
        · intro c hc
          rcases List.mem_cons.1 hc with rfl | hc
          · exact hb
          · exact hz c hc
      · rintro ⟨hp, hz⟩
        have h := List.pairwise_cons.1 hp
        exact ⟨⟨hz p (by simp), h.1 q (by simp)⟩, h.2, fun c hc => hz c (List.mem_cons_of_mem _ hc)⟩

/-- Dropping entries keeps the canonical form. -/
theorem Memory.wf_filter (l : List Host.Cell) (p : Host.Cell → Bool) (h : Memory.wf l = true) : Memory.wf (l.filter p) = true := by
  rw [Memory.wf_iff] at h ⊢
  exact ⟨h.1.filter p, fun c hc => h.2 c (List.mem_of_mem_filter hc)⟩

/-- Every key of a list after a write is the key written or was there. -/
theorem cellSet_keys (k : Nat) (b : Byte) (l : List Host.Cell) (c : Host.Cell) (h : c ∈ cellSet k b l) :
    (c = (k, b) ∧ b ≠ 0) ∨ c ∈ l := by
  induction l with
  | nil =>
    by_cases hb : b = 0
    · simp [cellSet, hb] at h
    · simp only [cellSet, if_neg hb, List.mem_singleton] at h; exact .inl ⟨h, hb⟩
  | cons p l ih =>
    obtain ⟨a, x⟩ := p
    rw [cellSet] at h
    split at h
    · rcases List.mem_cons.1 h with h | h
      · exact .inr (h ▸ List.mem_cons_self)
      · exact (ih h).imp id (List.mem_cons_of_mem _)
    · split at h <;> split at h <;> rename_i hb
      · exact .inr (List.mem_cons_of_mem _ h)
      · rcases List.mem_cons.1 h with h | h
        · exact .inl ⟨h, hb⟩
        · exact .inr (List.mem_cons_of_mem _ h)
      · exact .inr h
      · rcases List.mem_cons.1 h with h | h
        · exact .inl ⟨h, hb⟩
        · exact .inr h

/-- A write keeps the canonical form. -/
theorem Memory.wf_cellSet (k : Nat) (b : Byte) (l : List Host.Cell) (h : Memory.wf l = true) : Memory.wf (cellSet k b l) = true := by
  induction l with
  | nil =>
    rw [cellSet]
    split
    · rfl
    · rename_i hb
      exact bne_iff_ne.2 hb
  | cons p l ih =>
    obtain ⟨a, x⟩ := p
    have hw := (Memory.wf_iff _).1 h
    have hp := List.pairwise_cons.1 hw.1
    have hl : Memory.wf l = true := (Memory.wf_iff _).2 ⟨hp.2, fun c hc => hw.2 c (List.mem_cons_of_mem _ hc)⟩
    rw [cellSet]
    split
    · rename_i hk
      have ht := (Memory.wf_iff _).1 (ih hl)
      refine (Memory.wf_iff _).2 ⟨List.pairwise_cons.2 ⟨fun c hc => ?_, ht.1⟩, ?_⟩
      · rcases cellSet_keys k b l c hc with ⟨rfl, -⟩ | hc
        · exact hk
        · exact hp.1 c hc
      · intro c hc
        rcases List.mem_cons.1 hc with rfl | hc
        · exact hw.2 _ List.mem_cons_self
        · exact ht.2 c hc
    · rename_i hk
      split
      · rename_i ha
        split
        · exact hl
        · rename_i hb
          refine (Memory.wf_iff _).2 ⟨List.pairwise_cons.2 ⟨fun c hc => ha ▸ hp.1 c hc, hp.2⟩, ?_⟩
          intro c hc
          rcases List.mem_cons.1 hc with rfl | hc
          · exact hb
          · exact hw.2 c (List.mem_cons_of_mem _ hc)
      · rename_i ha
        split
        · exact h
        · rename_i hb
          refine (Memory.wf_iff _).2 ⟨List.pairwise_cons.2 ⟨fun c hc => ?_, hw.1⟩, ?_⟩
          · have hka : k < a := by omega
            rcases List.mem_cons.1 hc with rfl | hc
            · exact hka
            · exact lt_trans hka (hp.1 c hc)
          · intro c hc
            rcases List.mem_cons.1 hc with rfl | hc
            · exact hb
            · exact hw.2 c hc

/-- A key below every key of a list reads 0. -/
theorem cellGet_eq_zero (k : Nat) (l : List Host.Cell) (h : ∀ c ∈ l, c.1 ≠ k) : cellGet k l = 0 := by
  induction l with
  | nil => rfl
  | cons p l ih =>
    rw [cellGet, if_neg (h p List.mem_cons_self)]
    exact ih (fun c hc => h c (List.mem_cons_of_mem _ hc))

/-- Reading after a write of a canonical list: the byte written at its key, and what stood there at every other. -/
theorem cellGet_cellSet (k q : Nat) (b : Byte) (l : List Host.Cell) (h : Memory.wf l = true) :
    cellGet q (cellSet k b l) = if q = k then b else cellGet q l := by
  induction l with
  | nil =>
    rw [cellSet]
    split
    · rename_i hb
      rw [hb]; exact (ite_self _).symm
    · rw [cellGet, cellGet]
      by_cases hq : q = k
      · rw [if_pos hq.symm, if_pos hq]
      · rw [if_neg (fun e => hq e.symm), if_neg hq]; rfl
  | cons p l ih =>
    obtain ⟨a, x⟩ := p
    have hw := (Memory.wf_iff _).1 h
    have hp := List.pairwise_cons.1 hw.1
    have hl : Memory.wf l = true := (Memory.wf_iff _).2 ⟨hp.2, fun c hc => hw.2 c (List.mem_cons_of_mem _ hc)⟩
    rw [cellSet]
    split
    · rename_i hk
      rw [cellGet, cellGet, ih hl]
      by_cases hq : q = k
      · rw [if_pos hq, if_neg (by omega), if_pos hq]
      · rw [if_neg hq, if_neg hq]
    · split
      · rename_i ha
        split
        · rename_i hb
          by_cases hq : q = k
          · rw [if_pos hq, hb]
            exact cellGet_eq_zero q l (fun c hc => by have := hp.1 c hc; simp only at this; omega)
          · rw [if_neg hq, cellGet, if_neg (by omega)]
        · rw [cellGet, cellGet]
          by_cases hq : q = k
          · rw [if_pos hq.symm, if_pos hq]
          · rw [if_neg (fun e => hq e.symm), if_neg hq, if_neg (by omega)]
      · rename_i ha
        split
        · rename_i hb
          by_cases hq : q = k
          · rw [if_pos hq, hb, cellGet, if_neg (by omega)]
            exact cellGet_eq_zero q l (fun c hc => by have := hp.1 c hc; simp only at this; omega)
          · rw [if_neg hq]
        · rw [cellGet]
          by_cases hq : q = k
          · rw [if_pos hq.symm, if_pos hq]
          · rw [if_neg (fun e => hq e.symm), if_neg hq]

/-- Reading after dropping entries: a dropped key reads 0, another what it read. -/
theorem cellGet_filter (q : Nat) (l : List Host.Cell) (p : Nat → Bool) :
    cellGet q (l.filter (fun c => p c.1)) = if p q then cellGet q l else 0 := by
  induction l with
  | nil => simp [cellGet]
  | cons c l ih =>
    obtain ⟨a, x⟩ := c
    rw [List.filter_cons]
    by_cases ha : a = q
    · subst ha
      by_cases hp : p a = true
      · simp [hp, cellGet]
      · simpa [hp] using ih
    · by_cases hp : p a = true
      · simp only [hp, if_true, cellGet, if_neg ha]; exact ih
      · simp only [hp, cellGet, if_neg ha]; exact ih

/-! ## Memory of the state -/

/-- A byte written changes memory and the KeyID of its line, and nothing else. -/
theorem State.setByte_eq (s : State) (kid k : Nat) (b : Byte) :
    s.setByte kid k b = { s with mem := (s.setByte kid k b).mem, lineKey := (s.setByte kid k b).lineKey } := by
  unfold State.setByte
  split
  · rfl
  · dsimp only
    split <;> rfl

/-- Bytes written change memory and the KeyIDs of their lines, and nothing else. -/
theorem State.setBytes_eq (s : State) (kid : Nat) (ks : List Nat) (bs : List Byte) :
    s.setBytes kid ks bs = { s with mem := (s.setBytes kid ks bs).mem, lineKey := (s.setBytes kid ks bs).lineKey } := by
  induction ks generalizing s bs with
  | nil => rfl
  | cons k ks ih =>
    cases bs with
    | nil => rfl
    | cons b bs =>
      rw [State.setBytes, ih, State.setByte_eq]

/-- Telling of a write changes only what reads of its bytes meet (R262). -/
theorem State.tell_eq (s : State) (ks : List Nat) (rmw : Bool) (rs : List Rel) :
    s.tell ks rmw rs = { s with told := (s.tell ks rmw rs).told } := by
  unfold State.tell; split <;> rfl

/-- Telling of a write leaves memory as it is. -/
@[simp] theorem State.tell_mem (s : State) (ks : List Nat) (rmw : Bool) (rs : List Rel) : (s.tell ks rmw rs).mem = s.mem := by
  rw [State.tell_eq]

/-- A write that carries no release, where none has been told of, changes nothing that reads meet. -/
theorem State.tell_nil (s : State) (ks : List Nat) (rmw : Bool) (h : s.told = []) : s.tell ks rmw [] = s := by
  unfold State.tell; rw [if_pos (by simp [h])]

/-- Bytes written change memory, the KeyIDs of their lines, the poison marks and what reads of them meet, and nothing else. -/
theorem State.putBytes_eq (s : State) (kid : Nat) (ks : List Nat) (bs : List Byte) :
    s.putBytes kid ks bs = { s with
      mem := (s.putBytes kid ks bs).mem
      lineKey := (s.putBytes kid ks bs).lineKey
      poison := (s.putBytes kid ks bs).poison
      told := (s.putBytes kid ks bs).told } := by
  unfold State.putBytes
  rw [State.tell_eq]
  unfold State.healWords
  rw [State.setBytes_eq]

/-- Bytes written leave memory as writing them alone does. -/
theorem State.putBytes_mem (s : State) (kid : Nat) (ks : List Nat) (bs : List Byte) :
    (s.putBytes kid ks bs).mem = (s.setBytes kid ks bs).mem := by
  unfold State.putBytes; rw [State.tell_mem]; rfl

/-- Giving a line a KeyID keeps the canonical form. -/
theorem State.wf_claimLine (s : State) (kid line : Nat) (h : Memory.wf s.mem = true) : Memory.wf (s.claimLine kid line).mem = true :=
  Memory.wf_filter _ _ h

/-- A byte written keeps the canonical form. -/
theorem State.wf_setByte (s : State) (kid k : Nat) (b : Byte) (h : Memory.wf s.mem = true) : Memory.wf (s.setByte kid k b).mem = true := by
  unfold State.setByte
  split
  · exact h
  · dsimp only
    split
    · exact Memory.wf_cellSet _ _ _ h
    · exact Memory.wf_cellSet _ _ _ (State.wf_claimLine s kid _ h)

/-- Bytes written keep the canonical form. -/
theorem State.wf_setBytes (s : State) (kid : Nat) (ks : List Nat) (bs : List Byte) (h : Memory.wf s.mem = true) :
    Memory.wf (s.setBytes kid ks bs).mem = true := by
  induction ks generalizing s bs with
  | nil => exact h
  | cons k ks ih =>
    cases bs with
    | nil => exact h
    | cons b bs => exact ih _ _ (State.wf_setByte s kid k b h)

/-- Bytes written, and the poison they cover removed, keep the canonical form. -/
theorem State.wf_putBytes (s : State) (kid : Nat) (ks : List Nat) (bs : List Byte) (h : Memory.wf s.mem = true) :
    Memory.wf (s.putBytes kid ks bs).mem = true := by
  rw [State.putBytes_mem]; exact State.wf_setBytes s kid ks bs h

/-- The bits of a unit written keep the canonical form (R258). -/
theorem State.wf_putCells (s : State) (cells : List (Nat × Byte × Byte)) (h : Memory.wf s.mem = true) :
    Memory.wf (s.putCells cells).mem = true := by
  unfold State.putCells; rw [State.tell_mem]; exact State.wf_setBytes s 0 _ _ h

/-- What leaves the package leaves memory as it is (R303). -/
@[simp] theorem State.emit_mem (s : State) (t : Target) (o : HostOut) : (s.emit t o).mem = s.mem := by
  unfold State.emit; cases t <;> rfl

/-- An access that leaves for system space leaves memory as it is (R301). -/
theorem State.send_mem (s t : State) (v pa : Nat) (op : ExtOp) (h : s.send v pa op = some t) : t.mem = s.mem := by
  unfold State.send at h
  obtain ⟨d, -, rfl⟩ := Option.map_eq_some_iff.1 h
  exact State.emit_mem s d _

/-- A write of the sequencer or of trap entry keeps the canonical form. -/
theorem State.wf_putAt (s t : State) (kid : Nat) (p : Place) (bs : List Byte) (h : Memory.wf s.mem = true)
    (ht : s.putAt kid p bs = some t) : Memory.wf t.mem = true := by
  cases p with
  | mem k l1 => cases ht; exact State.wf_putBytes s kid _ bs h
  | sys pa => rw [State.send_mem s t _ _ _ ht]; exact h

/-- The write of a status word keeps the canonical form (R31). -/
theorem State.wf_writeStatus (s : State) (v : Nat) (stat : Word) (seq st code : Nat) (h : Memory.wf s.mem = true) :
    Memory.wf (s.writeStatus v stat seq st code).mem = true := by
  unfold State.writeStatus
  split
  · exact h
  · split
    · rename_i p hp
      cases hq : s.putAt v p (leBytes 8 (seq % 2 ^ 32 * 2 ^ 32 + st * 2 ^ 8 + code)) with
      | none => exact h
      | some t => exact State.wf_putAt _ _ _ _ _ h hq
    · exact h

/-- The signal of an event keeps the canonical form (R37). -/
theorem State.wf_signalEvent (s : State) (v : Nat) (seva sinc : Word) (poison : Bool) (h : Memory.wf s.mem = true) :
    Memory.wf (s.signalEvent v seva sinc poison).1.mem = true := by
  unfold State.signalEvent
  split
  · exact h
  · split
    · exact h
    · split
      · exact h
      · split
        · exact h
        · show Memory.wf (s.emit _ _).mem = true
          rw [State.emit_mem]; exact h
      · exact State.wf_putBytes _ _ _ _ h

/-- The merge of a slot keeps the canonical form (R114). -/
theorem State.wf_mergeSlot (s : State) (v vbase vdelta j : Nat) (h : Memory.wf s.mem = true) :
    Memory.wf (s.mergeSlot v vbase vdelta j).mem = true := by
  unfold State.mergeSlot
  split
  · split
    · exact h
    · exact State.wf_putBytes _ _ _ _ (State.wf_putBytes _ _ _ _ h)
  · exact h

/-- The cells after a byte is written: a line of another KeyID is cleared first (R308). -/
theorem State.setByte_mem (s : State) (kid k : Nat) (b : Byte) (hk : k < capBase) :
    (s.setByte kid k b).mem = cellSet k b (if sysBase ≤ k ∨ s.keyId k = kid then s.mem else (s.claimLine kid (lineOf k)).mem) := by
  unfold State.setByte
  rw [if_neg (Nat.not_le.2 hk)]
  dsimp only
  by_cases hg : sysBase ≤ k ∨ s.keyId k = kid
  · rw [if_pos hg, if_pos (by simpa using hg)]
  · rw [if_neg hg, if_neg (by simpa using hg)]

/-- The byte read after a write: the byte written at its key; 0 in the rest of a line that changed its KeyID; else what it was. -/
theorem State.raw_setByte (s : State) (kid k q : Nat) (b : Byte) (h : Memory.wf s.mem = true) (hk : k < capBase) :
    (s.setByte kid k b).raw q = if q = k then b
      else if ¬ (sysBase ≤ k ∨ s.keyId k = kid) ∧ lineOf k ≤ q ∧ q < lineOf k + 64 then 0 else s.raw q := by
  have hl : lineOf k + 64 ≤ sysBase ∨ sysBase ≤ k := by unfold lineOf sysBase; omega
  have hs : sysBase < capBase := by decide
  unfold State.raw
  rw [State.setByte_mem _ _ _ _ hk]
  by_cases hc : capBase ≤ q
  · have hg : ¬ (¬ (sysBase ≤ k ∨ s.keyId k = kid) ∧ lineOf k ≤ q ∧ q < lineOf k + 64) := by
      rintro ⟨e, h1, h2⟩
      rcases hl with hl | hl
      · omega
      · exact e (.inl hl)
    rw [if_pos hc, if_pos hc, if_neg (by omega), if_neg hg]
  rw [if_neg hc, if_neg hc]
  by_cases hq : q = k
  · rw [if_pos hq, cellGet_cellSet, if_pos hq]
    split
    · exact h
    · exact State.wf_claimLine s kid _ h
  rw [if_neg hq]
  by_cases hg : sysBase ≤ k ∨ s.keyId k = kid
  · rw [if_pos hg, cellGet_cellSet _ _ _ _ h, if_neg hq, if_neg (fun e => e.1 hg)]
  · rw [if_neg hg, cellGet_cellSet _ _ _ _ (State.wf_claimLine s kid _ h), if_neg hq]
    have e := cellGet_filter q s.mem (fun a => !(decide (lineOf k ≤ a) && decide (a < lineOf k + 64)))
    rw [State.claimLine_mem, e]
    by_cases hin : lineOf k ≤ q ∧ q < lineOf k + 64
    · rw [if_neg (by simpa using hin), if_pos ⟨hg, hin⟩]
    · have hb : (!(decide (lineOf k ≤ q) && decide (q < lineOf k + 64))) = true := by
        rw [Bool.not_eq_true', ← Bool.not_eq_true, Bool.and_eq_true, decide_eq_true_iff, decide_eq_true_iff]; exact hin
      rw [if_pos hb, if_neg (fun e => hin e.2)]

end Sys2Proof.Machine
end

