-- ==== Sys2Proof/Laws/Lookup.lean ====
section
/-! SUPPORT. Reading a core, a cluster, a context, a launch or a strand after replacing one, and the events that drop bytes of memory
whole. -/

namespace Sys2Proof.Machine

open Sys2Proof

/-- Looking a key up after binding one. -/
theorem find?_bind {α : Type} (k q : Nat) (v : α) (l : List (Nat × α)) :
    find? q (bind k v l) = if q = k then some v else find? q l := by
  induction l with
  | nil =>
    simp only [bind, find?]
    by_cases h : q = k
    · rw [if_pos h, if_pos h.symm]
    · rw [if_neg h, if_neg (fun e : k = q => h e.symm)]
  | cons p l ih =>
    obtain ⟨i, w⟩ := p
    rw [bind]
    split
    · rename_i hi
      simp only [find?]
      by_cases h : q = k
      · rw [if_pos h, if_pos h.symm]
      · rw [if_neg h, if_neg (fun e : k = q => h e.symm), if_neg (by omega)]
    · rename_i hi
      simp only [find?, ih]
      by_cases h : q = k
      · rw [if_pos h, if_neg (by omega), if_pos h]
      · rw [if_neg h, if_neg h]

/-- A context after replacing one. -/
theorem State.ctx_setCtx (s : State) (v w : Nat) (c : Context) : (s.setCtx v c).ctx w = if w = v then c else s.ctx w := by
  unfold State.ctx
  rw [State.setCtx_ctxs, find?_bind]
  split <;> rfl

/-- A cluster after replacing one. -/
theorem State.cluster_setCluster (s : State) (v w : Nat) (c : Cluster) :
    (s.setCluster v c).cluster w = if w = v then c else s.cluster w := by
  unfold State.cluster
  rw [State.setCluster_clusters, find?_bind]
  split <;> rfl

/-- A core after replacing one. -/
theorem State.core_setCore (s : State) (v w : Nat) (c : Core) : (s.setCore v c).core w = if w = v then c else s.core w := by
  unfold State.core
  rw [State.setCore_cores, find?_bind]
  split <;> rfl

/-- A strand in a list after another is put there. -/
theorem find?_putStrand (t : Strand) (id : Nat) (l : List Strand) :
    (putStrand t l).find? (fun u => decide (u.id = id)) = if t.id = id then some t else l.find? (fun u => decide (u.id = id)) := by
  induction l with
  | nil =>
    rw [putStrand, List.find?_cons]
    by_cases h : t.id = id
    · simp [h]
    · simp [h]
  | cons u l ih =>
    rw [putStrand]
    split
    · rename_i hu
      rw [List.find?_cons, List.find?_cons]
      by_cases h : t.id = id
      · simp [h]
      · simp [h, hu]
    · rename_i hu
      rw [List.find?_cons, List.find?_cons, ih]
      by_cases h : t.id = id
      · have : u.id ≠ id := fun e => hu (e.trans h.symm)
        simp [h, this]
      · simp [h]

/-- A strand after replacing one. -/
theorem State.strand_setStrand (s : State) (t : Strand) (id : Nat) :
    (s.setStrand t).strand id = if id = t.id then t else s.strand id := by
  unfold State.setStrand State.strand
  by_cases hc : s.cur.id = t.id
  · rw [if_pos hc]
    dsimp only
    by_cases h : id = t.id
    · rw [if_pos h.symm, if_pos h]
    · rw [if_neg (fun e => h e.symm), if_neg h, if_neg (fun e => h (e.symm.trans hc))]
  · rw [if_neg hc]
    dsimp only
    rw [find?_putStrand]
    by_cases h : id = t.id
    · rw [if_pos h, if_neg (fun e => hc (e.trans h)), if_pos h.symm]; rfl
    · rw [if_neg h, if_neg (fun e : t.id = id => h e.symm)]

/-- Clearing granules keeps the canonical form (R139). -/
theorem State.wf_clearScratch (s : State) (c off gran : Nat) (h : Memory.wf s.mem = true) :
    Memory.wf (s.clearScratch c off gran).mem = true := Memory.wf_filter _ _ h

/-- Clearing a frame keeps the canonical form (R147). -/
theorem State.wf_clearFrame (s : State) (pa : Nat) (h : Memory.wf s.mem = true) : Memory.wf (s.clearFrame pa).mem = true :=
  Memory.wf_filter _ _ h

/-- The sweep of a destroyed context's lines keeps the canonical form (R309). -/
theorem wf_keySweep (s t : State) (v : Nat) (h : Memory.wf s.mem = true) (e : execKeySweepComplete v s = .next t) :
    Memory.wf t.mem = true := by
  unfold execKeySweepComplete at e
  dsimp only at e
  split at e <;> cases e
  · exact h
  · exact Memory.wf_filter _ _ h

/-- Memory at reset is in its canonical form. -/
theorem State.wf_reset : Memory.wf State.reset.mem = true := rfl

end Sys2Proof.Machine
end

