-- ==== Sys2Proof/Laws/Order.lean ====
section
/-! SUPPORT. What the operations of the memory order do, said once for every caller: telling and hearing of releases, releases and acquires,
queueing an access, and reading through the L1 (spec/19, spec/10 R140). -/

namespace Sys2Proof.Machine

open Sys2Proof

/-- An access in flight has an entry among the accesses (R171). -/
theorem State.inFlight_iff (s : State) (id : Nat) : s.inFlight id = true ↔ ∃ a ∈ s.stores, a.id = id := by
  simp [State.inFlight]

/-- A release is alive while its access is in flight. -/
theorem State.mem_alive (s : State) (rs : List Rel) (r : Rel) : r ∈ s.alive rs ↔ r ∈ rs ∧ ∃ a ∈ s.stores, a.id = r.id := by
  simp [State.alive, State.inFlight_iff]

/-- Hearing of releases adds them to those heard before (R262). -/
theorem Strand.mem_hear (t : Strand) (rs : List Rel) (r : Rel) : r ∈ (t.hear rs).heard ↔ r ∈ t.heard ∨ r ∈ rs := by
  by_cases h : r ∈ t.heard <;> simp [Strand.hear, h]

/-- Hearing changes nothing else of the strand. -/
theorem Strand.hear_eq (t : Strand) (rs : List Rel) : t.hear rs = { t with heard := (t.hear rs).heard } := rfl

/-- A read of some bytes changes what the strand has heard of, and nothing else (R262). -/
theorem State.hears_eq (s : State) (upto : Nat) (qs : List LoadByte) :
    s.hears upto qs = { s with cur := { s.cur with heard := (s.hears upto qs).cur.heard } } := rfl

/-- What the strand has heard of after a read: what it had heard of and what the writes there were told of, as far as it still orders
something (R262). -/
theorem State.mem_hears (s : State) (upto : Nat) (qs : List LoadByte) (r : Rel) :
    r ∈ (s.hears upto qs).cur.heard ↔ (∃ a ∈ s.stores, a.id = r.id) ∧ (r ∈ s.cur.heard ∨ ∃ q ∈ qs, r ∈ s.toldTo s.cur upto q) := by
  simp only [State.hears, Strand.mem_hear, State.mem_alive, List.mem_flatMap]
  rw [and_comm (a := r ∈ s.cur.heard), and_comm (b := ∃ a ∈ s.stores, a.id = r.id), ← and_or_left]

/-- A line fetched into an L1 changes the clusters alone (R140). -/
theorem State.fillL1_eq (s : State) (t : Strand) (k : Nat) : s.fillL1 t k = { s with clusters := (s.fillL1 t k).clusters } := by
  unfold State.fillL1; split <;> rfl

/-- Lines fetched into an L1 change the clusters alone (R140). -/
theorem State.fillKeys_eq (s : State) (t : Strand) (qs : List LoadByte) :
    s.fillKeys t qs = { s with clusters := (s.fillKeys t qs).clusters } := by
  unfold State.fillKeys
  induction qs generalizing s with
  | nil => rfl
  | cons q qs ih =>
    rw [List.foldl_cons, ih]
    split
    · rw [State.fillL1_eq]
    · rfl

/-- A read through the L1 changes what the strand has heard of and the L1 (R140, R262). -/
theorem State.readOut_eq (s : State) (upto : Nat) (qs : List LoadByte) :
    s.readOut upto qs = { s with
      cur := { s.cur with heard := (s.hears upto qs).cur.heard }
      clusters := (s.readOut upto qs).clusters } := by
  unfold State.readOut
  rw [State.fillKeys_eq, State.hears_eq]

/-- A release inside a die completes once the loads are done, one of package or system scope once the stores are too (R172). -/
theorem State.releases_iff (s : State) (sc : Scope) (ss : Storage) :
    s.releases sc ss = true ↔ s.loadsDone ss = true ∧ (sc = .package ∨ sc = .system → s.storesDone ss = true) := by
  cases sc <;> simp [State.releases]

/-- A release that completes changes the releases of the strand alone (R262). -/
theorem State.release_eq {s t : State} {sc : Scope} {ss : Storage} (h : s.release sc ss = some t) :
    s.releases sc ss = true ∧ t = { s with cur := { s.cur with rels := t.cur.rels } } := by
  unfold State.release at h
  split at h
  next hr =>
    split at h <;> cases h <;> exact ⟨hr, rfl⟩
  next => cases h

/-- A release completes exactly where it may (R172). -/
theorem State.release_isSome (s : State) (sc : Scope) (ss : Storage) : (s.release sc ss).isSome = s.releases sc ss := by
  unfold State.release
  split
  next h => split <;> simp [h]
  next h => simpa using h

/-- Putting accesses first changes only what comes before the strand's accesses (R263). -/
theorem State.follow_eq (s : State) (ids : List Nat) (deep led : Bool) :
    s.follow ids deep led = { s with cur := { s.cur with before := (s.follow ids deep led).cur.before } } := rfl

/-- What comes before a strand's accesses once some more do: those of others in flight among them, and those of before still in flight
(R263). -/
theorem State.mem_follow (s : State) (ids : List Nat) (deep led : Bool) (b : Before) :
    b ∈ (s.follow ids deep led).cur.before ↔
      (b.id ∈ ids ∧ b.deep = deep ∧ b.led = led ∧ ∃ a ∈ s.stores, a.id = b.id ∧ a.strand ≠ s.cur.sid) ∨
        (b ∈ s.cur.before ∧ ∃ a ∈ s.stores, a.id = b.id) := by
  obtain ⟨i, d, l⟩ := b
  simp only [State.follow, List.mem_append, List.mem_map, List.mem_filter, List.any_eq_true, Bool.and_eq_true, decide_eq_true_eq,
    bne_iff_ne, State.inFlight_iff, Before.mk.injEq]
  constructor
  · rintro (⟨j, ⟨hj, ha⟩, rfl, rfl, rfl⟩ | h)
    · exact .inl ⟨hj, rfl, rfl, ha⟩
    · exact .inr h
  · rintro (⟨hj, rfl, rfl, ha⟩ | h)
    · exact .inl ⟨i, ⟨hj, ha⟩, rfl, rfl, rfl⟩
    · exact .inr h

/-- An acquire changes what comes before the strand's accesses and the L1 of its cluster (R141, R264). -/
theorem State.acquire_eq (s : State) (sc : Scope) (ss : Storage) :
    s.acquire sc ss = { s with
      cur := { s.cur with before := (s.acquire sc ss).cur.before }
      clusters := (s.acquire sc ss).clusters } := by
  unfold State.acquire; split <;> rfl

/-- An acquire that empties no L1 changes nothing (R141). -/
theorem State.acquire_narrow (s : State) (sc : Scope) (ss : Storage) (h : emptiesL1 sc ss = false) : s.acquire sc ss = s :=
  if_neg (by simp [h])

/-- An acquire of cluster scope or wider, global space included, empties the cluster's L1 and leaves everything before it deep (R141, R264). -/
theorem State.acquire_wide (s : State) (sc : Scope) (ss : Storage) (h : emptiesL1 sc ss = true) :
    (s.acquire sc ss).clusters = (s.emptyL1 (clusterOf s.cur.id)).clusters ∧ ∀ b ∈ (s.acquire sc ss).cur.before, b.deep = true := by
  unfold State.acquire
  rw [if_pos h]
  refine ⟨rfl, fun b hb => ?_⟩
  obtain ⟨c, -, rfl⟩ := List.mem_map.1 hb
  rfl

/-- The acquire of what the strand has read changes what comes before its accesses and the L1 of its cluster (R141, R262). -/
theorem State.acquireRead_eq (s : State) (sc : Scope) (ss : Storage) (led : Bool) :
    s.acquireRead sc ss led = { s with
      cur := { s.cur with before := (s.acquireRead sc ss led).cur.before }
      clusters := (s.acquireRead sc ss led).clusters } := by
  unfold State.acquireRead
  rw [State.acquire_eq, State.follow_eq]

/-- An access queued is the last in flight, and takes the next identifier (R159, R171). -/
theorem State.queueAccess_eq (s : State) (ks : List Nat) (op : MemOp) (ticket : Option Nat) :
    let t := (s.queueAccess ks op ticket).2
    (s.queueAccess ks op ticket).1 = s.nextId ∧
      t = { s with
        cur := { s.cur with before := t.cur.before }
        nextId := s.nextId + 1
        stores := t.stores } ∧
      ∃ a, t.stores = s.stores ++ [a] ∧ a.id = s.nextId ∧ a.strand = s.cur.sid ∧ a.keys = ks ∧ a.op = op ∧ a.ticket = ticket :=
  ⟨rfl, rfl, _, rfl, rfl, rfl, rfl, rfl, rfl⟩

end Sys2Proof.Machine
end

