-- ==== Sys2Proof/Laws/Registers.lean ====
section
/-! SUPPORT. Reading registers after writing them (spec/04 R69, spec/12 R174), and the frame of a register write. -/

namespace Sys2Proof.Machine

open Sys2Proof

/-- x0 reads 0 (R69). -/
theorem Strand.rd_zero (t : Strand) : t.rd 0 = 0 := if_pos rfl

/-- A register other than x0 reads its place in the register file. -/
theorem Strand.rd_of_ne_zero (t : Strand) (r : XReg) (h : r ≠ 0) : t.rd r = t.x[r.toNat]'(by have := r.isLt; omega) :=
  if_neg h

/-- A write to x0 is discarded (R69). -/
theorem Strand.setX_zero (t : Strand) (v : Word) : t.setX 0 v = t := if_pos rfl

/-- A write to a register other than x0. -/
theorem Strand.setX_of_ne_zero (t : Strand) (d : XReg) (v : Word) (h : d ≠ 0) :
    t.setX d v = { t with x := t.x.set d.toNat v (by have := d.isLt; omega) } := if_neg h

/-- A read after a write of a scalar register; the write to x0 is discarded (R69). -/
theorem Strand.rd_setX (t : Strand) (d r : XReg) (v : Word) :
    (t.setX d v).rd r = if r = 0 then 0 else if r = d then v else t.rd r := by
  by_cases hr : r = 0
  · rw [if_pos hr, hr, Strand.rd_zero]
  rw [if_neg hr]
  by_cases hd : d = 0
  · rw [hd, Strand.setX_zero, if_neg hr]
  rw [Strand.rd_of_ne_zero _ _ hr, Strand.setX_of_ne_zero _ _ _ hd]
  by_cases h : r = d
  · subst h
    rw [if_pos rfl]
    exact Vector.getElem_set_self _
  · have hn : d.toNat ≠ r.toNat := fun e => h (BitVec.eq_of_toNat_eq e.symm)
    rw [if_neg h, Strand.rd_of_ne_zero _ _ hr]
    exact Vector.getElem_set_ne (by have := d.isLt; omega) _ hn

/-- The read of a scalar register after a write (R69). -/
theorem State.rd_wr (s : State) (d r : XReg) (v : Word) :
    (s.wr d v).rd r = if r = 0 then 0 else if r = d then v else s.rd r := by
  have h : (s.markWritten d).cur.rd r = s.cur.rd r := by rw [State.markWritten_eq]; rfl
  simp only [State.wr, State.rd, Strand.rd_setX, h]

/-- The read of a handle register after a write (R174). -/
theorem State.rdH_wrH (s : State) (d r : HReg) (v : Handle) : (s.wrH d v).rdH r = if r = d then v else s.rdH r := by
  by_cases h : r = d
  · subst h; simp [State.wrH, State.rdH, Strand.setH]
  · have hn : d.toNat ≠ r.toNat := fun e => h (BitVec.eq_of_toNat_eq e.symm)
    rw [if_neg h]
    simp only [State.wrH, State.rdH, Strand.setH]
    exact Vector.getElem_set_ne (by have := d.isLt; omega) _ hn

/-- A write of a handle register changes the handle registers of the strand in hand, and nothing else. -/
theorem State.wrH_eq (s : State) (d : HReg) (v : Handle) :
    s.wrH d v = { s with cur := { s.cur with h := (s.wrH d v).cur.h } } := rfl

/-- Without a wrap and without a bundle's snapshot, a source of an A-word is its register (R52, R64). -/
theorem State.srcA_eq_rd (s : State) (r : XReg) (hl : s.latch = none) (ho : s.refs.a = none) : s.srcA r = s.rd r := by
  simp [State.srcA, State.src, hl, ho]

end Sys2Proof.Machine
end

