-- ==== Sys2Proof/Laws/Step.lean ====
section
/-! SUPPORT. What one step does, by the power, the head of the tape and the meaning it runs. -/

namespace Sys2Proof.Machine

open Sys2Proof

/-- Running a word that answers gives its answer. -/
theorem State.run_of_next (s t : State) (i : Instr) (h : exec i s = .next t) : s.run i = t := by unfold State.run; rw [h]

/-- With power the head of the tape is what moves (log 1). -/
theorem step_move (s : State) (m : Move) (r : List Move) (hp : s.pkg.powered = true) (ht : s.tape = m :: r) :
    step s = .next (State.move { s with tape := r } m) := by
  unfold step; rw [if_pos hp, ht]

/-- With power and an empty tape the model's own order moves (log 1). -/
theorem step_auto (s : State) (hp : s.pkg.powered = true) (ht : s.tape = []) : step s = .next s.autoStep := by
  unfold step; rw [if_pos hp, ht]

/-- Without power only a package reset does anything (R312, R314). -/
theorem step_dark (s : State) (hp : s.pkg.powered = false) (h : ∀ r, s.tape ≠ .event .packageReset :: r) : step s = .fault .noPower := by
  unfold step
  rw [if_neg (by simp [hp])]
  split
  · exact absurd ‹_› (h _)
  · rfl

/-- An event of the tape is a step of its own meaning; in recovery only some go on (R307). -/
theorem step_event (s t : State) (i : Instr) (r : List Move) (hp : s.pkg.powered = true) (ht : s.tape = .event i :: r) (he : isEvent i = true)
    (hr : s.pkg.recovery = false ∨ (Move.event i).inRecovery = true)
    (hx : exec i { s with tape := r } = .next t) : step s = .next t := by
  have hg : ¬ ((s.pkg.recovery && !(Move.event i).inRecovery) = true) := by rcases hr with hr | hr <;> simp [hr]
  rw [step_move s _ r hp ht, State.move, if_neg hg, State.moved, if_pos he, State.run_of_next _ t i hx]

/-- Giving the turn to the strand that has it changes nothing. -/
theorem State.focus_self (s : State) : s.focus s.cur.id = s := if_pos rfl

end Sys2Proof.Machine
end

