-- ==== Sys2Proof/Tests/Slice0.lean ====
section
/-! SUPPORT. Tests: ill-formed terms that WellFormed refuses, words written out from the encodings of the manual, and for each statement
a state and operands that meet its hypotheses. -/

namespace Sys2Proof.Tests

open Sys2Proof Sys2Proof.Machine Sys2Proof.Claims

set_option Elab.async false

/-! ## Ill-formed terms, one for each check of WellFormed -/

theorem test_wf_plain_type : WellFormed (.ldGShort 1 2 0 .f64 0) = false ∧ WellFormed (.stSLong 1 2 .bf16 0) = false := by decide

theorem test_wf_element_type : WellFormed (.ldEShort 1 2 0 .b64 0) = false ∧ WellFormed (.stELong 1 2 .i8 0) = false := by decide

theorem test_wf_handle_field : WellFormed (.hget 1 2 11) = false ∧ WellFormed (.hput 1 2 255) = false := by decide

theorem test_wf_event_scope : WellFormed (.sevt 1 2 .strand) = false ∧ WellFormed (.wevt 1 2 .core) = false := by decide

theorem test_wf_special_register : WellFormed (.mfs 1 0x103) = false ∧ WellFormed (.mts 1 1) = false := by decide

theorem test_wf_loop_counter : WellFormed (.loop 0 1 0 0) = false := by decide

theorem test_wf_pub_register : WellFormed (.pub 0) = false := by decide

theorem test_wf_bit_field : WellFormed (.bext 1 2 8 56) = false ∧ WellFormed (.bins 1 2 63 1) = false := by decide

theorem test_wf_index_field : WellFormed (.fld 1 2 6) = false := by decide

theorem test_wf_conversion : WellFormed (.fcvt .f32 .f32 1 2) = false ∧ WellFormed (.fcvt .i8 .b64 1 2) = false := by decide

theorem test_wf_wrap_distance : WellFormed (.backRefWrap 9 0 0 (.add 1 2 3)) = false ∧ WellFormed (.backRefWrap 0 9 0 (.add 1 2 3)) = false
    ∧ WellFormed (.backRefWrap 0 0 9 (.sel 1 2 3 4)) = false := by decide

theorem test_wf_wrap_word : WellFormed (.backRefWrap 1 0 0 .nop) = false ∧ WellFormed (.backRefWrap 0 0 0 (.lih 1 2)) = false
    ∧ WellFormed (.backRefWrap 0 0 0 .eret) = false ∧ WellFormed (.backRefWrap 1 0 0 (.fld 1 2 6)) = false := by decide

theorem test_wf_wrap_source : WellFormed (.backRefWrap 0 1 0 (.addi 1 2 3)) = false ∧ WellFormed (.backRefWrap 0 0 1 (.add 1 2 3)) = false := by
  decide

/-! ## Decoding: words from the encoding tables of spec/03 and of each instruction's own layout -/

/-- Every word of a list decodes, alone in its bundle, to the instruction beside it. -/
def readsAs (ws : List (Word × Instr)) : Bool := ws.all (fun p => decodeOne p.1 == some p.2)

theorem test_decode_control : readsAs [
    (0x0000000000000000, .nop),
    (0x00000000040FFFFD, .jmp (-3)),
    (0x0000000004100005, .call 5),
    (0x0000000006F80000, .jr 31),
    (0x0000000006484000, .callr 9),
    (0x00002940880FFFFC, .bEq 10 20 (-4) none),
    (0x00072D58881FFFFC, .bNe 11 21 (-4) (some 7)),
    (0x00003160882FFFFC, .bLt 12 22 (-4) none),
    (0x00073578883FFFFC, .bGe 13 23 (-4) (some 7)),
    (0x00003980884FFFFC, .bLtb 14 24 (-4) none),
    (0x00073D98885FFFFC, .bGeb 15 25 (-4) (some 7)),
    (0x0000FC008867FFFF, .bz 63 0x7FFFF none),
    (0x0000FC008877FFFF, .bnz 63 0x7FFFF none),
    (0x00092CC88A0FFFFA, .loop 11 12 (-6) 9),
    (0x123400008C500C00, .vpick 10 3 0x1234),
    (0x000100008C504E00, .vread 10 3 2 1)] = true := by decide +kernel

theorem test_decode_memory_1 : readsAs [
    (0x0000000010516AB0, .ldGShort 10 11 5 .i16 (-16)),
    (0x0003FFFE90516ABF, .ldGLong 10 11 5 .i16 (-33) (some 3)),
    (0x0000000012517E10, .ldSShort 10 11 15 .b8 (-16)),
    (0x00007FFE92517E1F, .ldSLong 10 11 15 .b8 (-33) none),
    (0x0000000018516550, .ldEShort 10 11 2 .f16 (-16)),
    (0x0004FFFE9851655F, .ldELong 10 11 2 .f16 (-33) (some 4)),
    (0x000000001461A06F, .stGShort 12 13 .b64 15),
    (0x00003FFF9461A07F, .stGLong 12 13 .b64 0x7FFFF),
    (0x000000001661A0CF, .stSShort 12 13 .i32 15),
    (0x00003FFF9661A0DF, .stSLong 12 13 .i32 0x7FFFF),
    (0x000000001A61A16F, .stEShort 12 13 .bf16 15),
    (0x00003FFF9A61A17F, .stELong 12 13 .bf16 0x7FFFF),
    (0x000000001C016002, .pf 11 false 2),
    (0x000000001C016022, .pf 11 true 2),
    (0x000000009E516600, .amoAdd ⟨10, 11, 12, 0, false, false, .glob, .strand⟩),
    (0x140080009E516608, .amoAnd ⟨10, 11, 12, 1, true, false, .glob, .core⟩),
    (0x220100009E516610, .amoOr ⟨10, 11, 12, 2, false, true, .glob, .cluster⟩),
    (0x370180009E516618, .amoXor ⟨10, 11, 12, 3, true, true, .scratch, .die⟩),
    (0x410200009E516620, .amoMin ⟨10, 11, 12, 4, false, false, .scratch, .package⟩),
    (0x550280009E516628, .amoMax ⟨10, 11, 12, 5, true, false, .scratch, .system⟩),
    (0x620000009E516630, .amoMinb ⟨10, 11, 12, 6, false, true, .glob, .strand⟩),
    (0x760080009E516638, .amoMaxb ⟨10, 11, 12, 7, true, true, .glob, .core⟩),
    (0x800100009E516640, .amoSwp ⟨10, 11, 12, 8, false, false, .glob, .cluster⟩)] = true := by decide +kernel

theorem test_decode_memory_2 : readsAs [
    (0x953980009E516648, .amoCas ⟨10, 11, 12, 9, true, false, .scratch, .die⟩ 14),
    (0xA30200009E516650, .amoFadd ⟨10, 11, 12, 10, false, true, .scratch, .package⟩),
    (0x0000000020280000, .fence .acq .cluster .globalSp),
    (0x0000000020B40000, .fence .rel .die .scratch),
    (0x00000000214C0000, .fence .acqrel .package .all),
    (0x0000000021DC0000, .fence .sc .system .all)] = true := by decide +kernel

theorem test_decode_handles : readsAs [
    (0x0000000022278001, .hset 1 15 true),
    (0x0000000022449302, .hld 2 9 3 .glob 2),
    (0x00000000224493C0, .hld 2 9 3 .scratch (-64)),
    (0x0000000023E4A0BF, .hst 15 9 .scratch 63),
    (0x000000002285300A, .hget 4 10 10),
    (0x0000000022264008, .hput 1 12 8),
    (0x0000000022665000, .hstep 3 12),
    (0x0000000022206000, .twait 1),
    (0x0000000024000000, .leesClr),
    (0x0000000024490000, .leesSv 9),
    (0x00000000244A0000, .leesLd 9),
    (0x0000000026516200, .sevt 10 11 .package),
    (0x0000000026518500, .wevt 10 12 .cluster)] = true := by decide +kernel

theorem test_decode_system : readsAs [
    (0x000000007C003FFF, .trap 0x3FFF),
    (0x000000007C004000, .eret),
    (0x000000007C509020, .mfs 10 0x102),
    (0x000000007CA8D010, .mts 0x101 21),
    (0x000000007C490000, .repart 9),
    (0x000000007C614000, .launch 12),
    (0x000000007C018000, .halt),
    (0x000000007C01C000, .uiret),
    (0x000000007C521400, .mbox 10 5),
    (0x000000007C524800, .rnd 10 2),
    (0x000000007C4A8000, .pub 9),
    (0x000000007C028000, .pubLees),
    (0x000000007C02C000, .gbar),
    (0x000000007C030000, .fin)] = true := by decide +kernel

theorem test_decode_engines_1 : readsAs [
    (0x28000000B0024000, .mma 0 1 2 0 10),
    (0x28000000B068AE01, .mmz 3 4 5 7 10),
    (0x24000000B0000002, .rep 0 9),
    (0x24800000B0000003, .repw 0 9 8),
    (0x28000000B2246800, .tadd ⟨1, 2, 3, 4, 10⟩ .rne),
    (0x28020000B2246801, .tsub ⟨1, 2, 3, 4, 10⟩ .rtz),
    (0x28040000B2246802, .tmul ⟨1, 2, 3, 4, 10⟩ .sr),
    (0x28060000B2246803, .tfma ⟨1, 2, 3, 4, 10⟩ .ns),
    (0x28080000B2246804, .tmax ⟨1, 2, 3, 4, 10⟩ .nss),
    (0x280E0000B2246805, .tmin ⟨1, 2, 3, 4, 10⟩ .entry),
    (0x28000000B2240806, .texp 1 2 4 10 .rne),
    (0x28020000B2240807, .tlog 1 2 4 10 .rtz),
    (0x28040000B2240808, .trcp 1 2 4 10 .sr),
    (0x28060000B2240809, .trsq 1 2 4 10 .ns),
    (0x28080000B224080A, .tsig 1 2 4 10 .nss),
    (0x28000000B224680B, .tcmp ⟨1, 2, 3, 4, 10⟩ .eq),
    (0x28004000B224680B, .tcmp ⟨1, 2, 3, 4, 10⟩ .ne),
    (0x28008000B224680B, .tcmp ⟨1, 2, 3, 4, 10⟩ .lt),
    (0x2800C000B224680B, .tcmp ⟨1, 2, 3, 4, 10⟩ .le),
    (0x28010000B224680B, .tcmp ⟨1, 2, 3, 4, 10⟩ .un),
    (0x28000000B224680C, .tmsk ⟨1, 2, 3, 4, 10⟩),
    (0x28B00000B220080D, .tfill 1 4 10 11),
    (0x28000000B224080E, .tcpy 1 2 4 10)] = true := by decide +kernel

theorem test_decode_engines_2 : readsAs [
    (0x28000000B224080F, .ttrn 1 2 4 10),
    (0x280E0000B2240810, .tred 1 2 4 10 .entry .sum),
    (0x280E4000B2240810, .tred 1 2 4 10 .entry .max),
    (0x280E8000B2240810, .tred 1 2 4 10 .entry .min),
    (0x28B00000B2246811, .tselk ⟨1, 2, 3, 4, 10⟩ 11 false),
    (0x28B04000B2246811, .tselk ⟨1, 2, 3, 4, 10⟩ 11 true),
    (0x28020000B2240812, .tcvt 1 2 4 10 .rtz),
    (0x28070000B4420000, .qst 2 1 0 10 .ns true),
    (0x28080000B4420000, .qst 2 1 0 10 .nss false),
    (0x00900000B6240A00, .cpyIn 1 2 5 9),
    (0x00900000B6240A01, .cpyOut 1 2 5 9),
    (0x20900000B6240A02, .cpyXc 1 2 5 8 9),
    (0x00900000B6246A03, .gath 1 2 3 5 9),
    (0x00900000B6246A04, .scat 1 2 3 5 9)] = true := by decide +kernel

theorem test_decode_integer_1 : readsAs [
    (0x04A2CC0000000000, .add 10 11 12),
    (0x04A2CC0100000000, .sub 10 11 12),
    (0x04A2CC0200000000, .mul 10 11 12),
    (0x04A2CC0300000000, .mulh 10 11 12),
    (0x04A2CC0400000000, .mulhb 10 11 12),
    (0x04A2CC0500000000, .div 10 11 12),
    (0x04A2CC0600000000, .divb 10 11 12),
    (0x04A2CC0700000000, .rem 10 11 12),
    (0x04A2CC0800000000, .remb 10 11 12),
    (0x04A2CC0900000000, .and 10 11 12),
    (0x04A2CC0A00000000, .or 10 11 12),
    (0x04A2CC0B00000000, .xor 10 11 12),
    (0x04A2CC0C00000000, .shl 10 11 12),
    (0x04A2CC0D00000000, .shr 10 11 12),
    (0x04A2CC0E00000000, .sra 10 11 12),
    (0x04A2CC0F00000000, .rol 10 11 12),
    (0x04A2CC1000000000, .min 10 11 12),
    (0x04A2CC1100000000, .max 10 11 12),
    (0x04A2CC1200000000, .minb 10 11 12),
    (0x04A2CC1300000000, .maxb 10 11 12),
    (0x04A2CC1400000000, .slt 10 11 12),
    (0x04A2CC1500000000, .sltb 10 11 12),
    (0x04A2CC1600000000, .seq 10 11 12)] = true := by decide +kernel

theorem test_decode_integer_2 : readsAs [
    (0x04A2CC1700000000, .sne 10 11 12),
    (0x04A2C01800000000, .clz 10 11),
    (0x04A2C01900000000, .ctz 10 11),
    (0x04A2C01A00000000, .popc 10 11),
    (0x04A2C01D00000000, .pfs 10 11),
    (0x04A2C01E00000000, .pclr 10 11),
    (0x04A2CC1B00000000, .adda 10 11 12),
    (0x04A2CC1C00000000, .ptag 10 11 12),
    (0x08A2CC3400000000, .sel 10 11 12 13),
    (0x0CA2CADC00000000, .addi 10 11 (-1316)),
    (0x10A2CADC00000000, .andi 10 11 (-1316)),
    (0x14A2CADC00000000, .ori 10 11 (-1316)),
    (0x18A2CADC00000000, .xori 10 11 (-1316)),
    (0x1CA2CADC00000000, .slti 10 11 (-1316)),
    (0x30A2CADC00000000, .addai 10 11 (-1316)),
    (0x20A2C03F00000000, .shli 10 11 63),
    (0x20A2C07F00000000, .shri 10 11 63),
    (0x20A2C0BF00000000, .srai 10 11 63),
    (0x24A2C1F800000000, .bext 10 11 7 56),
    (0x28A2CFC000000000, .bins 10 11 63 0),
    (0x2CA2C00500000000, .fld 10 11 5),
    (0x3491234600000000, .lih 9 0x12346),
    (0x389FFFFF00000000, .pch 9 (-1))] = true := by decide +kernel

theorem test_decode_float : readsAs [
    (0x40A2CC0000000000, .fadd .d 10 11 12),
    (0x40A2CC1400000000, .fsub .s 10 11 12),
    (0x40A2CC2800000000, .fmul .h 10 11 12),
    (0x40A2CC3C00000000, .fmin .bf 10 11 12),
    (0x40A2CC4000000000, .fmax .d 10 11 12),
    (0x4031005400000000, .fabs .s 3 4),
    (0x4031006800000000, .fneg .h 3 4),
    (0x403100A800000000, .fclass .h 3 4),
    (0x40A2CC7C00000000, .flt .bf 10 11 12),
    (0x40A2CC8000000000, .fle .d 10 11 12),
    (0x40A2CC9400000000, .feq .s 10 11 12),
    (0x4451872000000000, .ffma .d 5 6 7 8),
    (0x48A2CC3400000000, .fdiv .s 10 11 12 3),
    (0x4892402200000000, .fsqrt .d 9 9 2),
    (0x4CA2DA4000000000, .fcvt .i32 .f32 10 11),
    (0x4CA2E0C000000000, .fcvt .f64 .b64 10 11)] = true := by decide +kernel

theorem test_decode_wraps : readsAs [
    (0x04A24C0082400000, .backRefWrap 2 0 0 (.add 10 9 12)),
    (0x4451872082102000, .backRefWrap 0 8 1 (.ffma .d 5 6 7 8))] = true := by decide +kernel

theorem test_decode_rejects : decode 0x0000000002000000 = .error (false, .code) ∧ decode 0x0000000010000100 = .error (false, .code)
    ∧ decode 0x3C00000000000000 = .error (true, .code) ∧ decode 0x04A2CC0100100002 = .error (false, .field) := by decide +kernel

theorem test_encode_undoes : encode (.pf 11 true 2) = some 0x1C016022 ∧ encode (.ffma .d 5 6 7 8) = some 0x4451872000000000
    ∧ encode .packageReset = none := by decide +kernel

/-! ## A small state -/

/-- The launch of the tests: one vine register x20, the lees vine, GB, one granule of scratch, sixteen vintage slots, and formats FP32 (1),
INT8 (2), a block-scaled narrow type with its scales 2048 bytes on (3) and FP16 (4). -/
def testDesc : Desc := { stagedDesc with
  ctl := 0x0000600000001000
  vine := 0x0000010000000014
  vdef := [5]
  vbase := 0x20000
  vdelta := 0x28000
  vcount := 16 }

/-- The leaves of the data page and of the page of system space. -/
def dataLeaf : Leaf := ⟨1, 0x20000, false, 0x150000, false, false, true, true⟩

def systemLeaf : Leaf := ⟨1, 0x30000, false, 2 ^ 51, false, false, true, true⟩

/-- One strand in slot 0 of core 0 at user privilege, four-slot mode: bundle page at 0x10000, data at 0x20000, system space at 0x30000,
nothing at
0x40000, of which the strand has met the failed walk; the TLB holds the leaves of the others. -/
def base : State :=
  let s := State.reset.stage 0
  let s := [(0x130010, leafEntry 0x150000 true true false), (0x130018, leafEntry (2 ^ 51) true true false)].foldl
    (fun s e => s.putBytes 1 (keysFrom e.1 8) (leBytes 8 e.2)) s
  let t := [(1, 0x3F800000), (2, 0x40000000), (3, 0x7F800000), (4, 0xFF800000), (5, 0x7FC00000), (6, 0x7F800001), (7, 0x80000000),
    (9, 0x20000), (10, 0x20001), (11, 0x40000), (12, 1), (13, 7), (14, 0x30000), (15, 0x1000000000020000), (17, 0x1000), (18, 0x10008),
    (19, 4097), (20, 0x55), (21, 0x8000000000000000), (22, 0x20040), (31, 0xFFFFFFFFFFFFFFFF)].foldl
    (fun (t : Strand) (p : Nat × Nat) => t.setX (BitVec.ofNat 6 p.1) (BitVec.ofNat 64 p.2)) s.cur
  { s with
    cur := { t with super := false, tvec := 0x10040, walkFault := some (4, 4) }
    clusters := s.clusters.map (fun p => (p.1, { p.2 with tlb := p.2.tlb ++ [dataLeaf, systemLeaf] }))
    launches := s.launches.map (fun l => { l with desc := testDesc, fmt := [0, 0xA, 0x7, 0x80000000000000000000885, 0x8] ++ List.replicate 11 0 }) }

/-- The strand in hand changed. -/
def atCur (f : Strand → Strand) : State := { base with cur := f base.cur }

/-- The same strand with every float trap enabled. -/
def trapping : State := atCur (fun t => { t with fpc := 0x1F00 })

/-- A strand with a load pending in x30. -/
def pending : State := atCur (fun t => { t with pend := [⟨30, 3, 0x10000, .load 0x150000 .b64 true, none, false, 0, false, none, 0, 1⟩] })

/-- A strand with eight results pending. -/
def full : State := atCur (fun t => { t with pend := List.replicate 8 ⟨30, 0, 0x10000, .load 0x150000 .b64 true, none, false, 0, false, none, 0, 1⟩ })

/-- A pending result of the strand in register r. -/
def result (r : Nat) (op : PendOp) : Pend := ⟨r, 0, 0x10000, op, none, false, 0, false, none, 0, 1⟩

/-- The strand with pending results. -/
def awaiting (ps : List Pend) : State := atCur (fun t => { t with pend := ps })

/-- A word of memory with an uncorrectable error. -/
def marked (k : Nat) : State := { base with poison := [k] }

/-- The launch with its base and delta slots elsewhere. -/
def counting (vb vd : Word) : State :=
  { base with launches := base.launches.map (fun l => { l with desc := { l.desc with vbase := vb, vdelta := vd } }) }

/-- A load that waits for an atomic of its strand on the same bytes. -/
def behind : State := { pending with stores := [ownAccess base 0 (keysFrom 0x150000 8) (.amo .add 8 1 0) none], nextId := 2 }

/-- The strand with a leaf of a peer's space at 0x50000, and no port up. -/
def peering : State :=
  base.setCluster 0 { base.cluster 0 with tlb := ⟨1, 0x50000, false, 2 ^ 51 + 2 ^ 50, false, false, true, true⟩ :: (base.cluster 0).tlb }

/-- The answer of a target of system space to the access a bundle made under a tag. -/
def answered (tag : Nat) (r : SysResp) : State := atCur (fun t => { t with sysGot := [(tag, r)] })

/-! ## Witnesses: for each statement, states and operands that meet the hypotheses of its clauses -/

theorem test_meets_RegisterFormsWriteTheirValue :
    (registerForm (.add 0 63 31)).isSome = true ∧ (registerForm (.pclr 63 0)).isSome = true := by decide

theorem test_meets_ImmediateSelectAndFieldForms :
    (immediateForm (.addi 0 63 0x800)).isSome = true ∧ (immediateForm (.bext 63 0 63 0)).isSome = true := by decide

theorem test_meets_FloatArithmetic_finite : ∃ f, arithForm base (.ffma .s 10 1 2 1) = some f ∧ f.ops.map ratOf = [1, 2, 1].map some
    ∧ enabled base 0 = 0 := ⟨_, rfl, by decide +kernel, by decide +kernel⟩

theorem test_meets_FloatArithmetic_nan : ∃ f, arithForm trapping (.fadd .s 10 6 1) = some f ∧ f.ops.any Val.isNan = true
    ∧ enabled trapping 16 ≠ 0 := ⟨_, rfl, by decide +kernel, by decide +kernel⟩

theorem test_meets_FloatArithmetic_nan_valid : ¬ invalidOps base (.fadd .s 10 6 1) := by unfold invalidOps; decide +kernel

theorem test_meets_FloatArithmetic_invalid : invalidOps base (.fadd .s 10 3 4) := ⟨false, by decide +kernel, by decide +kernel⟩

theorem test_meets_FloatArithmetic_infinite : (∃ f, arithForm base (.fmul .s 10 3 1) = some f ∧ f.ops.any Val.isNan = false ∧
    f.ops.any Val.isInf = true) ∧ ¬ invalidOps base (.fmul .s 10 3 1) :=
  ⟨⟨_, rfl, by decide +kernel, by decide +kernel⟩, by unfold invalidOps; decide +kernel⟩

theorem test_meets_FloatSelectionSignAndComparison : (compareForm base (.flt .s 10 1 2)).isSome = true ∧
    ratOf (FTy.s.val (base.srcA 1)) = some 1 ∧ ratOf (FTy.s.val (base.srcB 2)) = some 2 ∧ enabled base 16 = 0 ∧ enabled trapping 16 ≠ 0 := by
  decide +kernel

theorem test_meets_FloatQuotientsAndRoots : ratOf (FTy.s.val (base.srcA 1)) = some 1 ∧ ratOf (FTy.s.val (base.srcA 0)) = some 0 ∧
    (FTy.s.val (base.srcA 3)).isInf = true ∧ FTy.s.val (base.srcA 4) = .inf true ∧ (FTy.s.val (base.srcA 6)).isNan = true ∧
    (FTy.s.val (base.srcA 7)).sign = true ∧ base.fpcSeen.extractLsb' 8 5 = 0 ∧ base.pendFull 10 = false ∧ full.pendFull 10 = true ∧
    enabled full 8 = 0 ∧ enabled trapping 8 ≠ 0 ∧ trapping.fpcSeen.extractLsb' 8 5 ≠ 0 ∧ enabled trapping 0 = 0 ∧
    trapping.pendFull 10 = false := by decide +kernel

theorem test_meets_FloatConversions : Ty.f32.flt = some .s ∧ Ty.f64.flt = some .d ∧ Ty.i8.flt = none ∧ FTy.s.val (base.srcA 4) = .inf true ∧
    (FTy.s.val (base.srcA 5)).isNan = true ∧ ratOf (FTy.s.val (base.srcA 2)) = some 2 := by decide +kernel

theorem test_meets_JumpsAndCallsGoToTheirTargets : (base.rd 9).toNat % 8 = 0 ∧ (base.rd 10).toNat % 8 ≠ 0 := by decide +kernel

theorem test_meets_BranchesAndLoops : (branchForm base (.bLt 12 13 0xFFFF8 (some 15))).isSome = true ∧
    checkIn base.decEnv (.bLt 12 13 0xFFFF8 (some 15)) = .ok (.bLt 12 13 0xFFFF8 (some 15)) ∧
    checkIn base.decEnv (.bnz 0 0 none) = .ok (.bnz 0 0 none) ∧
    checkIn base.decEnv (.loop 12 13 0 0) = .ok (.loop 12 13 0 0) ∧ ((base.rd 12).toNat + 1) % 2 ^ 64 < (base.rd 13).toNat ∧
    (base.rd 12).toNat ≤ ((base.rd 13).toNat + 1) % 2 ^ 64 ∧ (base.rd 0).toNat ≤ ((base.rd 31).toNat + 1) % 2 ^ 64 := by decide +kernel

theorem test_meets_VintageReadsGiveClassesAndWords : checkIn base.decEnv (.vpick 10 3 15) = .ok (.vpick 10 3 15) ∧
    checkIn base.decEnv (.vread 0 0 2 0) = .ok (.vread 0 0 2 0) ∧
    base.strandPlace .glob (slotAddr base.curLaunch.desc.vbase 15) 16 .read = .ok (.mem 0x1500F0 true) ∧
    base.strandPlace .glob (slotAddr base.curLaunch.desc.vdelta 15) 16 .read = .ok (.mem 0x1580F0 true) ∧ base.pendFull 10 = false ∧
    base.poisoned (keysFrom 0x1500F0 16) = false ∧ base.poisoned (keysFrom 0x1580F0 16) = false ∧ full.pendFull 10 = true ∧
    (marked 0x1500F8).poisoned (keysFrom 0x1500F0 16) = true ∧ (marked 0x1580F0).poisoned (keysFrom 0x1500F0 16) = false ∧
    (marked 0x1580F0).poisoned (keysFrom 0x1580F0 16) = true := by decide +kernel

theorem test_meets_VintageReads_places :
    checkIn (counting 0x40000 0x28000).decEnv (.vpick 10 3 15) = .ok (.vpick 10 3 15) ∧
    (counting 0x40000 0x28000).strandPlace .glob (slotAddr (counting 0x40000 0x28000).curLaunch.desc.vbase 0) 16 .read = .error (4, 4) ∧
    (counting 0x30000 0x28000).strandPlace .glob (slotAddr (counting 0x30000 0x28000).curLaunch.desc.vbase 0) 16 .read = .ok (.sys (2 ^ 51)) ∧
    (counting 0x20000 0x40000).strandPlace .glob (slotAddr (counting 0x20000 0x40000).curLaunch.desc.vbase 0) 16 .read =
      .ok (.mem 0x150000 true) ∧
    (counting 0x20000 0x40000).strandPlace .glob (slotAddr (counting 0x20000 0x40000).curLaunch.desc.vdelta 0) 16 .read = .error (4, 4) ∧
    (counting 0x20000 0x30000).strandPlace .glob (slotAddr (counting 0x20000 0x30000).curLaunch.desc.vdelta 0) 16 .read = .ok (.sys (2 ^ 51)) := by
  decide +kernel

theorem test_meets_LoadsLeaveAPendingResult : (loadForm (.ldGLong 10 9 15 .i64 0x7FFFF none)).isSome = true ∧
    checkIn base.decEnv (.ldGShort 10 9 15 .i64 0x10) = .ok (.ldGShort 10 9 15 .i64 0x10) ∧
    accessAddr (base.rd 10) 0 2 % 2 ≠ 0 ∧ base.strandPlace .glob (accessAddr (base.rd 11) 0 8) 8 .read = .error (4, 4) ∧
    base.strandPlace .scratch 0xFFF 2 .read = .error (5, 4) ∧ base.strandPlace .scratch 0xFF8 8 .read = .ok (.mem (scrKey 0 0xFF8) false) ∧
    base.strandPlace .glob (accessAddr (base.rd 9) 15 8) 8 .read = .ok (.mem 0x150078 true) ∧
    base.strandPlace .glob 0x60000 8 .read = .error (cWalk, 0) ∧ base.pendFull 10 = false ∧ full.pendFull 10 = true := by decide +kernel

theorem test_meets_LoadsLeaveAPendingResult_bad : ReadsBad (marked 0x150078) (bytesOf 0x150078 8 true) ∧ ¬ ReadsBad base (bytesOf 0x150078 8 true) ∧
    ¬ ReadsBad full (bytesOf 0x150078 8 true) := by
  unfold ReadsBad
  decide +kernel

/-- The address of system space that x14 and an offset name, and the request of a store to it. -/
theorem test_meets_SystemSpaceAccesses : (loadForm (.ldGShort 10 14 3 .i64 0)).isSome = true ∧ (storeForm (.stGShort 10 14 .i64 0)).isSome = true ∧
    checkIn base.decEnv (.ldGShort 10 14 3 .i64 0) = .ok (.ldGShort 10 14 3 .i64 0) ∧
    base.strandPlace .glob (accessAddr (base.rd 14) 0 8) 8 .read = .ok (.sys (2 ^ 51)) ∧
    base.strandPlace .glob (accessAddr (base.rd 14) 0 8) 8 .write = .ok (.sys (2 ^ 51)) ∧
    base.target 1 (2 ^ 51) = some (.host 1 0) ∧ find? (2 ^ 51) base.cur.sysGot = none ∧ base.cur.sys = none ∧
    find? (2 ^ 51) (answered (2 ^ 51) (.ok 7)).cur.sysGot = some (.ok 7) ∧ find? (2 ^ 51) (answered (2 ^ 51) .error).cur.sysGot = some .error ∧
    find? (2 ^ 51 + 2 ^ 60) (answered (2 ^ 51 + 2 ^ 60) (.ok 7)).cur.sysGot = some (.ok 7) ∧
    (atCur (fun t => { t with sys := some ⟨2 ^ 51, .read 8, none⟩ })).cur.sys.isSome = true ∧
    peering.strandPlace .glob (accessAddr (peering.rd 14) 0x4000 8) 8 .read = .ok (.sys (2 ^ 51 + 2 ^ 50)) ∧
    peering.target 1 (2 ^ 51 + 2 ^ 50) = none := by decide +kernel

theorem test_meets_ResultsLand : (∃ p ∈ ({ base.cur with pend := [{ result 30 (.value 1) with landed := true }] } : Strand).pend, p.landed = true) ∧
    ({ result 30 (.amo 0) with got := some 7 } : Pend).got = some 7 ∧ (result 30 (.float 1)).op = .float 1 ∧ (result 79 (.handle 0x150000)).reg < 80 ∧
    (pending.cur.pend[0]?).map (fun p => (p.op, p.landed, p.got, p.reg)) = some (.load 0x150000 .b64 true, false, none, 30) ∧
    pending.fixFirst 0 (keysFrom 0x150000 8) = some pending ∧ (awaiting (List.replicate 2 (result 30 (.load 0x150000 .b64 true)))).fixFirst 1
      (keysFrom 0x150000 8) ≠ none ∧
    ({ behind with cur := { behind.cur with pend := behind.cur.pend ++ behind.cur.pend } } : State).fixFirst 1 (keysFrom 0x150000 8) = none := by
  decide +kernel

theorem test_meets_ResultsLand_bytes : Readable pending 1 (bytesOf 0x150000 8 true) ∧ ¬ Readable behind 1 (bytesOf 0x150000 8 true) ∧
    ReadsBad (marked 0x150000) (bytesOf 0x150000 8 true) ∧ Readable base 0 (bytesOf 0x150000 32 false) ∧
    ¬ Readable ({ base with owners := [⟨0x150000, 0, true⟩] } : State) 0 (bytesOf 0x150000 32 false) := by
  unfold Readable ReadsBad
  and_intros <;> decide +kernel

/-- An element load with its scale: one byte at each place. -/
def elementRead : ElemRead := ⟨[(0x150000, true)], 0, 8, 7, 1, [(0x150800, true)], .i32, none, none⟩

theorem test_meets_ResultsLand_element : (result 30 (.elem elementRead)).op = .elem elementRead ∧ elementRead.data ++ elementRead.scale ≠ [] ∧
    Readable base 0 (elementRead.data ++ elementRead.scale) ∧
    ¬ Readable ({ base with owners := [⟨0x150800, 0, true⟩] } : State) 0
      (elementRead.data ++ elementRead.scale) := by
  unfold Readable
  decide +kernel

/-- A pending VREAD of slot 1, of whose updates those before identifier 1 come first. -/
def slotRead : Pend := result 30 (.vintage 0x150010 0x158010 1 (some 2) 1)

theorem test_meets_ResultsLand_vintage : base.poisoned (keysFrom 0x150010 16 ++ keysFrom 0x158010 16) = false ∧
    base.unowned (keysFrom 0x150010 16 ++ keysFrom 0x158010 16) = true ∧ base.vupd = [] ∧
    ({ base with owners := [⟨0x150000, 0, true⟩] } : State).unowned (keysFrom 0x150010 16 ++ keysFrom 0x158010 16) = false ∧
    (∃ y ∈ [siteEntry base 1 1 1 1 0], y.strand = base.cur.sid ∧ y.id < 1 ∧ y.vdelta = base.curLaunch.desc.vdelta.toNat % 2 ^ 60 ∧ y.slot = 1) := by
  decide +kernel

theorem test_meets_StoresQueueTheirBytes : (storeForm (.stSLong 10 9 .i32 0x80000)).isSome = true ∧
    base.strandPlace .glob (accessAddr (base.rd 9) (-1) 1) 1 .write = .error (5, 2) ∧
    base.strandPlace .glob (accessAddr (base.rd 9) 15 8) 8 .write = .ok (.mem 0x150078 true) ∧
    base.heldAt (.mem 0x150078 true) 8 = false ∧ (pending.fixBefore (keysFrom 0x150078 8)).isSome = true ∧ behind.fixBefore (keysFrom 0x150000 8) = none := by decide +kernel

/-- The element that a base names, at index 0 and an offset. -/
def element (b : Word) (off : BitVec 5) : ElemAt := elemAt base.curLaunch.fmt b 0 off

theorem test_meets_ElementLoadsLeaveAPendingResult : (elementLoadForm (.ldEShort 0 15 2 .f32 5)).isSome = true ∧
    checkIn base.decEnv (.ldELong 0 15 2 .f32 0x80000 none) = .ok (.ldELong 0 15 2 .f32 0x80000 none) ∧
    (elemAlign (element 0x4000000000020001 0)).isSome = true ∧ elemAlign (element 0x1000000000040000 15) = none ∧
    base.elemPlaces (element 0x1000000000040000 0) .read = .error (4, 4, 0x40000) ∧
    base.elemPlaces (element 0x20000 0) .read = .ok ([.mem 0x150000 true], []) ∧ (element 0x20000 0).entry % 16 = 0 ∧
    base.elemPlaces (element 0x4000000000020000 15) .read = .ok ([.mem 0x15001E true, .mem 0x15001F true], []) ∧
    (element 0x4000000000020000 15).entry % 16 ≠ 0 ∧ memBytes [.mem 0x15001E true, .mem 0x15001F true] = some [(0x15001E, true), (0x15001F, true)] ∧
    base.pendFull 0 = false ∧ full.pendFull 1 = true ∧ base.fpcSeen.extractLsb' 8 5 = 0 ∧ trapping.fpcSeen.extractLsb' 8 5 ≠ 0 ∧
    trapping.fixBefore [0x15001E, 0x15001F] = some trapping ∧ trapping.pendFull 0 = false ∧
    ({ behind with cur := { behind.cur with fpc := 0x1F00 } } : State).fixBefore [0x150000, 0x150001] = none := by decide +kernel

theorem test_meets_ElementLoadsLeaveAPendingResult_bytes : ¬ ReadsBad base [(0x15001E, true), (0x15001F, true)] ∧
    ReadsBad (marked 0x150018) [(0x15001E, true), (0x15001F, true)] ∧ ¬ ReadsBad trapping [(0x15001E, true), (0x15001F, true)] ∧
    Readable trapping 0 [(0x15001E, true), (0x15001F, true)] ∧
    ¬ Readable ({ trapping with owners := [⟨0x150000, 0, true⟩] } : State) 0 [(0x15001E, true), (0x15001F, true)] := by
  unfold ReadsBad Readable
  decide +kernel

theorem test_meets_ElementStoresQueueTheirCode : (elementStoreForm (.stEShort 1 15 .f32 0x10)).isSome = true ∧ base.disp = .done ∧
    base.cur.sys = none ∧ base.cur.sysGot = [] ∧ base.cur.leaves = [] ∧
    base.elemPlaces (element 0x1000000000040000 0) .write = .error (4, 4, 0x40000) ∧
    base.elemPlaces (element 0x4000000000020000 0) .write = .ok ([.mem 0x150000 true, .mem 0x150001 true], []) ∧
    base.elemPlaces (element 0x3000000000020000 0) .write = .ok ([.mem 0x150000 true], [.mem 0x150800 true]) ∧
    memKeys [.mem 0x150000 true] = some [0x150000] ∧ memBytes [.mem 0x150800 true] = some [(0x150800, true)] ∧
    base.fixBefore [0x150800] = some base ∧ behind.fixBefore [0x150000] = none ∧
    elemCode (element 0x20000 0) .f32 1 0 0 = .error 2 ∧ elemCode (element 0x4000000000020000 0) .f32 0x3F800000 0 0 = .ok (0x3C00, 0) ∧
    enabled trapping 0 = 0 ∧ (∃ c, elemCode (element 0x4000000000020000 0) .f32 0x3F800001 0 0 = .ok (c, 1)) ∧ enabled trapping 1 ≠ 0 ∧
    base.heldAt (.mem 0x150000 true) 2 = false ∧ (base.fixBefore [0x150000, 0x150001]).isSome = true := by
  and_intros
  all_goals first | decide +kernel | exact ⟨0x3C00, by decide +kernel⟩

theorem test_meets_ElementStoresQueueTheirCode_scale : ¬ ReadsBad base [(0x150800, true)] ∧ Readable base 0 [(0x150800, true)] ∧
    ReadsBad (marked 0x150800) [(0x150800, true)] ∧ Readable (marked 0x150800) 0 [(0x150800, true)] ∧
    ¬ Readable ({ base with owners := [⟨0x150800, 0, true⟩] } : State) 0 [(0x150800, true)] ∧
    ¬ ReadsBad ({ base with owners := [⟨0x150800, 0, true⟩] } : State) [(0x150800, true)] := by
  unfold ReadsBad Readable
  and_intros <;> decide +kernel

/-- An atomic on the word at x9 or x10. -/
def atomicAt (a : XReg) (sc : Bool) (scope : Scope) : AmoForm := ⟨10, a, 12, 0, false, sc, .glob, scope⟩

/-- The strand with a fence in progress. -/
def fencing (r : FenceReq) : State := atCur (fun t => { t with fence := some r })

theorem test_meets_AtomicsQueueAndReturnTheOldValue : (atomicForm (.amoCas (atomicAt 9 true .system) 13)).isSome = true ∧
    checkIn base.decEnv (.amoFadd (atomicAt 9 true .system)) = .ok (.amoFadd (atomicAt 9 true .system)) ∧
    (base.rd 10).toNat % 2 ^ 60 % 4 ≠ 0 ∧ base.strandPlace .glob ((base.rd 11).toNat % 2 ^ 60) 4 .atomic = .error (4, 4) ∧
    base.strandPlace .glob ((base.rd 9).toNat % 2 ^ 60) 4 .atomic = .ok (.mem 0x150000 true) ∧ base.poisoned (keysFrom 0x150000 4) = false ∧
    (marked 0x150000).poisoned (keysFrom 0x150000 4) = true ∧
    base.heldAt (.mem 0x150000 true) 4 = false ∧ base.pendFull 10 = false ∧ full.pendFull 10 = true ∧
    (base.fixBefore (keysFrom 0x150000 4)).isSome = true ∧ behind.fixBefore (keysFrom 0x150000 4) = none ∧ base.cur.fence = none ∧
    base.release .package .all = some base ∧ base.release .cluster .globalSp = some base ∧ pending.release .cluster .globalSp = none ∧
    pending.release .package .all = none := by decide +kernel

theorem test_meets_AtomicsQueueAndReturnTheOldValue_waits :
    (fencing ⟨true, .sc, .system, .all, some 0, none, none, false⟩).cur.fence = some ⟨true, .sc, .system, .all, some 0, none, none, false⟩ ∧
    (fencing ⟨true, .sc, .system, .all, some 0, none, none, false⟩).heldAt (.mem 0x150000 true) 4 = false ∧
    (fencing ⟨true, .sc, .system, .all, none, none, none, false⟩).cur.fence = some ⟨true, .sc, .system, .all, none, none, none, false⟩ ∧
    (fencing ⟨true, .acqrel, .core, .globalSp, none, some 0, none, false⟩).cur.fence =
      some ⟨true, .acqrel, .core, .globalSp, none, some 0, none, false⟩ ∧
    (fencing ⟨true, .acqrel, .core, .globalSp, none, some 0, some 5, false⟩).cur.fence =
      some ⟨true, .acqrel, .core, .globalSp, none, some 0, some 5, false⟩ := by decide +kernel

theorem test_meets_SystemSpaceAccesses_atomic : (atomicForm (.amoAdd ⟨10, 14, 12, 0, true, false, .glob, .cluster⟩)).isSome = true ∧
    (base.rd 14).toNat % 2 ^ 60 % 8 = 0 ∧ base.strandPlace .glob ((base.rd 14).toNat % 2 ^ 60) 8 .atomic = .ok (.sys (2 ^ 51)) ∧
    targetTakes .add ⟨10, 14, 12, 0, true, false, .glob, .cluster⟩ (2 ^ 51) ∧ ¬ targetTakes .add ⟨10, 14, 12, 0, false, false, .glob, .cluster⟩ (2 ^ 51) ∧
    ¬ targetTakes .fadd ⟨10, 14, 12, 0, true, false, .glob, .cluster⟩ (2 ^ 51 + 2 ^ 50) := by
  unfold targetTakes
  decide +kernel

/-- The strand with one access in flight. -/
def inFlight (op : MemOp) (ks : List Nat) : State := { base with stores := [ownAccess base 0 ks op none], nextId := 1 }

theorem test_meets_AccessesArePerformedAtTheirHome : (inFlight (.store [1, 2]) [0x150000, 0x150001]).canonical ∧
    (inFlight (.store [1, 2]) [0x150000, 0x150001]).stores.find? (fun b => b.id = 0) =
      some (ownAccess base 0 [0x150000, 0x150001] (.store [1, 2]) none) ∧
    (∀ a, a = ownAccess base 0 [0x150000, 0x150001] (.store [1, 2]) none →
      (inFlight a.op a.keys).accessBehind a = false ∧ (inFlight a.op a.keys).unowned a.keys = true ∧ a.ticket = none ∧ a.keys.Nodup ∧
      (∀ q ∈ a.keys, q < capBase) ∧ ({ inFlight a.op a.keys with owners := [⟨0x150000, 0, true⟩] } : State).unowned a.keys = false) := by
  refine ⟨by unfold State.canonical; decide +kernel, by decide +kernel, ?_⟩
  rintro a rfl
  decide +kernel

theorem test_meets_AccessesArePerformedAtTheirHome_amo :
    (inFlight (.amo .add 4 1 0) (keysFrom 0x150000 4)).stores.find? (fun b => b.id = 0) =
      some (ownAccess base 0 (keysFrom 0x150000 4) (.amo .add 4 1 0) none) ∧ (keysFrom 0x150000 4).length = 4 ∧ base.cur.id = 0 ∧
    (inFlight (.amo .add 4 1 0) (keysFrom 0x150000 4)).unowned (keysFrom 0x150000 4) = true ∧ (MemOp.amo .add 4 1 0).isRmw = true ∧
    (inFlight (.amo .add 4 1 0) (keysFrom 0x150000 4)).homeBehind (keysFrom 0x150000 4) base.flat = false ∧
    ({ base with homeUse := [⟨0x150000, 0, 5⟩] } : State).homeBehind (keysFrom 0x150000 4) base.flat = true := by decide +kernel

/-- A store in flight, the strand's own or one that an acquire of it has put before what follows. -/
def leaving (own : Bool) : State :=
  { base with
    cur := { base.cur with before := if own then [] else [⟨0, true, true⟩] }
    stores := [{ ownAccess base 0 (keysFrom 0x150000 4) (.store [1, 2, 3, 4]) none with strand := base.cur.sid + if own then 0 else 1 }]
    nextId := 1 }

/-- A strand that has read a write which the release of a store of its neighbour comes before. -/
def hearing : State := { leaving false with cur := { base.cur with heard := [⟨0, 1, .core⟩] } }

theorem test_meets_AccessesArePerformedAtTheirHome_order :
    ({ leaving true with cur := pending.cur } : State).stores.find? (fun b => b.id = 0) = (leaving true).stores.head? ∧
    (∃ b ∈ (leaving false).cur.before, b.id = 0 ∧ b.deep = true) ∧ (leaving false).cur.id / 64 = 0 ∧
    (∃ p ∈ ({ base.cur with pend := [{ result 30 (.load 0x150000 .b64 true) with seq := 0 }] } : Strand).pend, p.seq ≤ 0 ∧ p.landed = false ∧ p.got = none ∧
      ∃ q ∈ p.op.ordered, q ∈ keysFrom 0x150000 4) := by decide +kernel

theorem test_meets_FencesTicketsAndPrefetches : base.cur.fence = none ∧ base.loadsDone .all = true ∧ pending.loadsDone .all = false ∧
    (∃ a ∈ (leaving true).stores, a.strand = base.cur.sid ∧ a.inScope .all = true) ∧
    ((leaving true).fenceNow .rel .die .all).isSome = true ∧ (leaving true).fenceNow .rel .package .all = none ∧
    ((leaving false).fenceNow .rel .cluster .all).isSome = true ∧ (leaving false).fenceNow .rel .system .all = none ∧
    ((hearing.acquireRead .core .all false).cur.before.map (·.id)) = [0] ∧ (hearing.acquireRead .strand .all false).cur.before = [] ∧
    (base.fenceNow .acqrel .system .all).isSome = true ∧ pending.fenceNow .acq .system .all = none ∧
    (fencing ⟨false, .rel, .core, .all, none, none, none, true⟩).cur.fence = some ⟨false, .rel, .core, .all, none, none, none, true⟩ ∧
    ((fencing ⟨false, .sc, .system, .all, some 0, none, none, false⟩).fenceNow .sc .system .all).isSome = true ∧
    (fencing ⟨false, .sc, .system, .all, some 0, none, none, false⟩).ticketTurn 0 = true ∧
    (fencing ⟨false, .sc, .system, .all, some 1, none, none, false⟩).cur.fence = some ⟨false, .sc, .system, .all, some 1, none, none, false⟩ ∧
    (fencing ⟨true, .sc, .system, .all, none, none, none, false⟩).cur.fence = some ⟨true, .sc, .system, .all, none, none, none, false⟩ ∧
    accessAddr (base.rd 9) 15 64 < capVa ∧
    base.strandPlace .glob (accessAddr (base.rd 9) 15 64 / 64 * 64) 64 .read = .ok (.mem 0x1503C0 true) ∧
    base.owned 0x1503C0 = false ∧ 0 < (base.cluster 0).l1size ∧ base.strandPlace .glob 0x60000 64 .read = .error (cWalk, 0) := by decide +kernel

/-- The tables of the walk for the data page. -/
def walked : Nat → Nat
  | 1 => 0x100000
  | 2 => 0x110000
  | 3 => 0x120000
  | _ => 0x130000

theorem test_meets_TranslationAndItsCaches_walk : WalkReaches base 1 0x20000 4 walked := by
  refine ⟨by decide +kernel, fun n h1 h4 => ?_⟩
  obtain rfl | rfl | rfl : n = 1 ∨ n = 2 ∨ n = 3 := by omega
  all_goals (unfold goodEntry; decide +kernel)

theorem test_meets_TranslationAndItsCaches_leaf : ∃ e, e = entryOf (tableEntry base (walked 4) (levelIndex 0x20000 4)) ∧ e.valid = true ∧
    goodEntry 4 e ∧ e.leaf = true ∧ permitted e .write = true ∧ permitted e .fetch = false ∧
    (entryOf (tableEntry base (walked 4) (levelIndex 0x40000 4))).valid = false ∧ ¬ goodEntry 4 (entryOf 1) ∧ (entryOf 1).valid = true :=
  by
  refine ⟨_, rfl, by decide +kernel, by unfold goodEntry; decide +kernel, ?_⟩
  refine ⟨by decide +kernel, by decide +kernel, by decide +kernel, by decide +kernel, by unfold goodEntry; decide +kernel, by decide +kernel⟩

/-- The translations that a strand of cluster 0 goes by. -/
def viaCluster (fault : Option (Nat × Nat)) : Via := ⟨0, [], fault⟩

theorem test_meets_TranslationAndItsCaches_places :
    (((viaCluster none).leaves ++ (base.cluster 0).tlb).find? (fun l => l.covers 1 0x20000)) = some dataLeaf ∧
    (∀ l ∈ (viaCluster (some (6, 4))).leaves ++ (base.cluster 0).tlb, l.covers 1 0x60000 = false) ∧ capVa ≤ 2 ^ 60 - 1 ∧
    base.groupOf? base.cur = some ⟨0, 0, 0, 0, 1, 1, 0, 0, false, [], []⟩ := by decide +kernel

/-- Walks of the data page and of a page without a leaf in flight. -/
def walkingOn : State := { base with walks := [⟨0, 1, 2, [(0, .strand 0)]⟩, ⟨0, 1, 6, [(0, .strand 0), (0, .cmd 3)]⟩] }

theorem test_meets_TranslationAndItsCaches_walks :
    (∀ w ∈ walkingOn.walks, ¬ (w.die = 0 / 24 ∧ w.ctx = 1 ∧ w.page = 0x70000 / 2 ^ 16)) ∧
    walkingOn.walks.find? (fun k => k.die = 0 / 24 && k.ctx = 1 && k.page = 0x20000 / 2 ^ 16) = some ⟨0, 1, 2, [(0, .strand 0)]⟩ ∧
    walkingOn.walks.find? (fun k => k.die = 0 / 24 && k.ctx = 1 && k.page = 0x60000 / 2 ^ 16) = some ⟨0, 1, 6, [(0, .strand 0), (0, .cmd 3)]⟩ ∧
    (∀ k ∈ walkingOn.walkReads 0x20000 (walkingOn.ctx 1).rootAddr levels, k < 2 ^ 51 → walkingOn.owned (k / 64 * 64) = false) ∧
    (∀ k ∈ walkingOn.walkReads 0x60000 (walkingOn.ctx 1).rootAddr levels, k < 2 ^ 51 → walkingOn.owned (k / 64 * 64) = false) ∧
    (∃ k ∈ walkingOn.walkReads 0x20000 (walkingOn.ctx 1).rootAddr levels, k < 2 ^ 51 ∧
      ({ walkingOn with owners := [⟨0x130000, 0, true⟩] } : State).owned (k / 64 * 64) = true) ∧
    walkingOn.walk 1 0x20000 = .ok dataLeaf ∧ walkingOn.walk 1 0x60000 = .error 4 := by decide +kernel

theorem test_meets_TranslationAndItsCaches_invalidation : base.pkg.recovery = false ∧ (base.ctx 1).tlbBusy = false ∧
    ((base.setCtx 1 { base.ctx 1 with tlbBusy := true }).ctx 1).tlbBusy = true ∧
    (base.setCtx 1 { base.ctx 1 with tlbBusy := true }).translating 1 = false ∧ (leaving true).translating 1 = true := by decide +kernel

/-- Handles: a byte tile of one row in scratch, and one of global memory with rows of no whole bytes (FP4 in entry 2 is INT8). -/
def scratchTile (b : Nat) (tag : Nat) : Handle := BitVec.ofNat 256 (tag * 2 ^ 160 + 1 * 2 ^ 140 + 2 ^ 112 + 64 * 2 ^ 88 + 63 * 2 ^ 76 + b)

/-- The strand with a value in handle register v1, and other tags in granule 0. -/
def holding (h : Handle) (tag : BitVec 16) : State :=
  (atCur (fun t => t.setH 1 h)).setCluster 0 { base.cluster 0 with tags := if tag = 0 then [] else [(0, tag)] }

theorem test_meets_HandleInstructions_memory : (base.rd 10).toNat % 32 ≠ 0 ∧ accessAddr (base.rd 22) (-64) 32 % 32 = 0 ∧
    base.strandPlace .glob (accessAddr (base.rd 11) 0 32) 32 .read = .error (4, 4) ∧
    base.strandPlace .glob (accessAddr (base.rd 11) 0 32) 32 .write = .error (4, 4) ∧
    base.strandPlace .glob (accessAddr (base.rd 22) 63 32) 32 .read = .ok (.mem 0x150820 true) ∧
    base.strandPlace .glob (accessAddr (base.rd 22) 63 32) 32 .write = .ok (.mem 0x150820 true) ∧
    base.cur.pending < 8 ∧ 8 ≤ full.cur.pending ∧ base.poisoned (keysFrom 0x150820 32) = false ∧
    (marked 0x150828).poisoned (keysFrom 0x150820 32) = true ∧ base.heldAt (.mem 0x150820 true) 32 = false ∧
    (base.fixBefore (keysFrom 0x150820 32)).isSome = true ∧ behind.fixBefore (keysFrom 0x150000 32) = none ∧
    base.strandPlace .glob (accessAddr (base.rd 14) 0 32) 32 .read = .ok (.sys (2 ^ 51)) ∧
    base.strandPlace .glob (accessAddr (base.rd 14) 0 32) 32 .write = .ok (.sys (2 ^ 51)) := by decide +kernel

/-- A strand that has issued a QST and not seen it complete. -/
def quantizing : State := { base with cmds := [newCommand base 0 .tile (.qst 0 1 0 0 .rne false) 0 0 0 0] }

theorem test_meets_HandleInstructions_tags :
    (holding (scratchTile 0 5) 0).spanIn (tileOf base.curLaunch.fmt (scratchTile 0 5)) = true ∧
    (holding (scratchTile 4096 5) 0).spanIn (tileOf base.curLaunch.fmt (scratchTile 4096 5)) = false ∧
    ((holding (scratchTile 0 5) 0).rdH 1).getLsbD 112 = true ∧ ((holding 0 0).rdH 1).getLsbD 112 = false ∧
    (scratchTile 0 5).extractLsb' 160 16 = 5 ∧ (scratchTile 0 0xFFFF).extractLsb' 160 16 = 0xFFFF := by decide +kernel

theorem test_meets_HandleInstructions_granules : (∀ g, touches (holding (scratchTile 0 5) 5) (scratchTile 0 5) g →
      granuleTag (holding (scratchTile 0 5) 5) g = 5) ∧ touches (holding (scratchTile 0 5) 5) (scratchTile 0 5) 0 ∧
    granuleTag (holding (scratchTile 0 5) 0xFFFF) 0 = 0xFFFF ∧ granuleTag (holding (scratchTile 0 5) 0) 0 ≠ 5 := by
  have h : (tileOf base.curLaunch.fmt (scratchTile 0 5)).spanLen = 64 := by decide +kernel
  have f : fieldAt (scratchTile 0 5) 0 60 = 0 := by decide +kernel
  have e : (holding (scratchTile 0 5) 5).curLaunch.fmt = base.curLaunch.fmt := by decide +kernel
  refine ⟨fun g hg => ?_, ?_, by decide +kernel, by decide +kernel⟩
  · obtain ⟨-, -, hg⟩ := hg
    rw [e, h, f] at hg
    obtain rfl : g = 0 := by omega
    decide +kernel
  · exact ⟨by omega, by omega, by omega⟩

theorem test_meets_HandleInstructions_step : stepBits (scratchTile 0 5) 8 1 % 8 = 0 ∧
    stepBits (2 ^ 140 : Handle) 4 1 % 8 ≠ 0 := by decide +kernel

/-- The strand with a scratch address in x10. -/
def atScratch (n : Nat) : State := atCur (fun t => t.setX 10 (BitVec.ofNat 64 n))

theorem test_meets_LeesBankInstructions : base.qstPending = false ∧ quantizing.qstPending = true ∧ (base.rd 10).toNat % 2 ^ 60 % 8 ≠ 0 ∧
    ((atScratch 3832).rd 10).toNat % 2 ^ 60 = 3832 ∧ base.rangeIn 3832 264 = true ∧ base.rangeIn 3840 264 = false ∧
    base.heldAt (.mem (scrKey 0 3832) false) 264 = false ∧ (base.fixBefore (keysFrom (scrKey 0 3832) 264)).isSome = true ∧
    (leesOf (base.loadBytes base.cur 0 (bytesOf (scrKey 0 3832) 264 false))).valid = true ∧
    (awaiting [result 30 (.load (scrKey 0 3832) .b64 false)]).fixBefore (keysFrom (scrKey 0 3832) 264) ≠ none ∧
    ({ awaiting [result 30 (.load (scrKey 0 3832) .b64 false)] with
      stores := [ownAccess base 0 (keysFrom (scrKey 0 3832) 8) (.amo .add 8 1 0) none] } : State).fixBefore
      (keysFrom (scrKey 0 3832) 264) = none := by decide +kernel

theorem test_meets_LeesBankInstructions_bytes : Readable base 0 (bytesOf (scrKey 0 3832) 264 false) ∧
    ¬ Readable ({ base with stores := [ownAccess base 0 (keysFrom (scrKey 0 3832) 8) (.amo .add 8 1 0) none] } : State) 1
      (bytesOf (scrKey 0 3832) 264 false) ∧ ¬ ReadsBad base (bytesOf (scrKey 0 3832) 264 false) ∧
    ReadsBad (marked (scrKey 0 3832)) (bytesOf (scrKey 0 3832) 264 false) ∧ find? 0 (atCur (fun t => { t with leesGot := [(0, [])] })).cur.leesGot = some [] := by
  unfold Readable ReadsBad
  and_intros <;> decide +kernel

theorem test_meets_LeesBankInstructions_invalid : (leesOf (List.replicate 264 1)).valid = false ∧ (⟨1, []⟩ : Lees).tag ≠ 0 ∧
    (⟨0, []⟩ : Lees).tag = 0 := by decide +kernel

/-- The item with index `i`, first of its kind at 0; `f` changes its strand. -/
def itemAt (i : Nat) (f : Strand → Strand) : State := atCur (fun t => f { t with index := i })

/-- The launch without the lees vine. -/
def plainLaunch : State := { base with launches := base.launches.map (fun l => { l with desc := { l.desc with vine := 0x10000000014 } }) }

theorem test_meets_PublicationsAndBackReferences_pub : base.vineEntry 20 = some 0 ∧ base.vineEntry 19 = none ∧
    (itemAt 0 (fun t => { t with vp := 1 })).cur.vp.getLsbD 0 = true ∧ base.cur.vp.getLsbD 0 = false ∧ base.quiet .all = true ∧
    pending.quiet .all = false := by decide +kernel

theorem test_meets_PublicationsAndBackReferences_lees : base.curLaunch.desc.lv = true ∧
    ({ base with launches := [] } : State).curLaunch.desc.lv = false ∧
    (itemAt 0 (fun t => { t with leesPub := true })).cur.leesPub = true ∧ base.cur.leesPub = false ∧ base.qstPending = false ∧
    base.leesRoom = true ∧ (itemAt 0 (fun t => { t with leesPart := true })).cur.leesPart = true ∧ base.leesIn = .start ∧
    (itemAt 1 id).leesIn = .waiting ∧
    ({ itemAt 1 id with leesPubs := [⟨0, 0, some ⟨7, []⟩, 0, true, none⟩] } : State).leesIn = .bank ⟨7, []⟩ := by decide +kernel

theorem test_meets_Publications_arrive :
    ({ base with pubs := [⟨0, 0, 0, 9, 0, false, none⟩] } : State).pubs[0]? = some ⟨0, 0, 0, 9, 0, false, none⟩ ∧
    ({ base with leesPubs := [⟨0, 0, none, 0, true, none⟩] } : State).leesPubs[0]? = some ⟨0, 0, none, 0, true, none⟩ ∧
    (base.launch 0).nextCluster 0 8 = none ∧ (base.harvestOf? 0 0).map (·.yielded) = some false := by decide +kernel

theorem test_meets_PublicationsAndBackReferences_wrap : isAWord (.add 10 20 9) = true ∧ backSources 1 0 0 (.add 10 20 9) = [(20, 1), (9, 0)] ∧
    backValue base 20 1 = some 5 ∧ backValue (itemAt 1 id) 20 1 = none ∧
    backValue { itemAt 8 id with pubs := [⟨0, 0, 0, 9, 0, true, none⟩] } 20 8 = some 9 ∧ base.vineEntry 9 = none := by decide +kernel

theorem test_meets_EventInstructions : (base.rd 10).toNat % 2 ^ 60 % 8 ≠ 0 ∧
    base.strandPlace .glob ((base.rd 11).toNat % 2 ^ 60) 8 .atomic = .error (4, 4) ∧
    base.strandPlace .glob ((base.rd 9).toNat % 2 ^ 60) 8 .atomic = .ok (.mem 0x150000 true) ∧
    base.strandPlace .glob ((base.rd 9).toNat % 2 ^ 60) 8 .read = .ok (.mem 0x150000 true) ∧ base.loadsDone .globalSp = true ∧ pending.loadsDone .globalSp = false ∧
    base.poisoned (keysFrom 0x150000 8) = false ∧ (base.fixBefore (keysFrom 0x150000 8)).isSome = true ∧ base.cur.seen = none ∧
    (marked 0x150000).poisoned (keysFrom 0x150000 8) = true ∧ behind.fixBefore (keysFrom 0x150000 8) = none ∧
    base.release .package .globalSp = some base ∧ pending.release .package .globalSp = none ∧
    base.strandPlace .glob ((base.rd 14).toNat % 2 ^ 60) 8 .atomic = .ok (.sys (2 ^ 51)) ∧
    base.strandPlace .glob ((base.rd 14).toNat % 2 ^ 60) 8 .read = .ok (.sys (2 ^ 51)) ∧
    (atCur (fun t => { t with seen := some 1 })).cur.seen = some 1 := by decide +kernel

theorem test_meets_EventInstructions_bytes : Readable base 0 (bytesOf 0x150000 8 false) ∧
    ¬ Readable ({ base with owners := [⟨0x150000, 0, true⟩] } : State) 0 (bytesOf 0x150000 8 false) := by
  unfold Readable
  decide +kernel

/-- A context whose fault records go to the data page. -/
def recording : State := base.setCtx 1 { base.ctx 1 with frbase := 0x20000 }

/-- The same with an empty TLB. -/
def coldRecord : State := recording.setCluster 0 { recording.cluster 0 with tlb := [] }

theorem test_meets_TrapEntry : recording.canonical ∧ recording.cur.settled = true ∧ recordAddr recording = 0x20000 ∧
    recording.globalPlace (some ⟨0, [], none⟩) 1 0x20000 .read = .ok (.mem 0x150000 true) ∧ 0x150000 + 256 ≤ sysBase ∧ recording.owned 0x150000 = false ∧
    (coldRecord).globalPlace (some ⟨0, [], none⟩) 1 0x20000 .read = .error (cWalk, 0) ∧
    (coldRecord).globalPlace none 1 0x20000 .read = .ok (.mem 0x150000 true) ∧ recording.cur.estat.getLsbD 0 = false ∧ bundleAddr recording.cur.tvec = 0x10040 := by
  refine ⟨by unfold State.canonical; decide +kernel, ?_⟩
  decide +kernel

theorem test_meets_TrapEntry_abort : pending.cur.settled = false ∧ recording.recordFree recording.cur = true ∧ base.recordFree base.cur = true ∧
    ({ recording with owners := [⟨0x150000, 0, true⟩] } : State).recordFree recording.cur = false ∧ (base.launch? base.cur.launch).isSome = true ∧ base.curLaunch.live = true ∧
    base.cur.status = .running ∧ (atCur (fun t => { t with estat := 1 })).cur.estat.getLsbD 0 = true ∧
    bundleAddr (atCur (fun t => { t with tvec := 0 })).cur.tvec = 0 := by decide +kernel

/-- The strand at supervisor privilege in a handler. -/
def handling (keep : Bool) : State :=
  atCur (fun t => { t with super := true, estat := if keep then 9 else 1, epc := 0x10008, trapWins := [(10, 3, 0x10000)], fcause := 14 })

theorem test_meets_ReturnsFromHandlers : checkIn (handling true).decEnv .eret = .ok .eret ∧
    (handling false).cur.estat.getLsbD 3 = false ∧ (handling true).cur.estat.getLsbD 3 = true ∧
    checkIn (itemAt 0 (fun t => { t with inUi := true })).decEnv .uiret = .ok .uiret := by decide +kernel

theorem test_meets_FetchAndIllegalBundles : needsSupervisor (.mts 0x102 63) = true ∧ needsSupervisor (.repart 0) = true ∧
    base.cur.super = false ∧ base.four = true ∧ decodeIn base.decEnv 0x02000000 = .error (false, .code) := by decide +kernel

/-- The item at a PC. -/
def atPc (a : Word) : State := itemAt 0 (fun t => { t with pc := a })

/-- The item at a bundle of a text in system space. -/
def fetchingSystem : State :=
  let s := (atPc 0x60000).setCtx 1 { base.ctx 1 with objects := [⟨0, 0x60000, 8, 0, 0, 0, 0, 0, []⟩] }
  s.setCluster 0 { s.cluster 0 with tlb := [⟨1, 0x60000, false, 2 ^ 51, false, true, false, false⟩] }

theorem test_meets_FetchAndIllegalBundles_fetch : base.cur.status = .running ∧ base.cur.faulting = none ∧ base.cur.fetched = false ∧
    base.strandPlace .glob 0x10000 8 .fetch = .ok (.mem 0x140000 true) ∧ (base.ctx 1).inText 0x10000 = true ∧
    base.poisoned (keysFrom 0x140000 8) = false ∧ base.cur.ibuf = none ∧ (atPc 0x40000).strandPlace .glob 0x40000 8 .fetch = .error (4, 4) ∧
    (atPc 0x10008).strandPlace .glob 0x10008 8 .fetch = .ok (.mem 0x140008 true) ∧ (base.ctx 1).inText 0x10008 = false ∧
    base.readyFault = none ∧ base.readyInterrupt = none ∧ base.unowned (keysFrom 0x140000 8) = true ∧
    ({ base with owners := [⟨0x140000, 0, true⟩] } : State).unowned (keysFrom 0x140000 8) = false ∧
    (marked 0x140000).poisoned (keysFrom 0x140000 8) = true ∧ (atPc 0x60000).strandPlace .glob 0x60000 8 .fetch = .error (cWalk, 0) ∧
    fetchingSystem.strandPlace .glob 0x60000 8 .fetch = .ok (.sys (2 ^ 51)) ∧ (fetchingSystem.ctx 1).inText 0x60000 = true := by
  decide +kernel

theorem test_meets_SpecialRegistersMailboxAndDraws : checkIn base.decEnv (.mfs 0 9) = .ok (.mfs 0 9) ∧ (specialValue base 9).isSome = true ∧
    checkIn (handling true).decEnv (.mts 0x102 63) = .ok (.mts 0x102 63) ∧
    (specialWritten (handling true).cur ((handling true).rd 63) 0x102).isSome = true ∧ base.cur.floatPending = false ∧
    (atCur (fun t => { t with pend := [⟨10, 0, 0, .float 0, none, false, 0, false, none, 0, 1⟩] })).cur.floatPending = true ∧
    base.pendFull 0 = false := by decide +kernel

theorem test_meets_RepartitionAndDeviceLaunch : checkIn (handling true).decEnv (.repart 12) = .ok (.repart 12) ∧
    (handling true).cur.doing = none ∧ ((handling true).rd 12).toNat = 1 ∧ ((handling true).ctx 1).clset.getLsbD 0 = true ∧
    (handling true).cur.id / 8 ≠ 1 ∧ ((handling true).rd 0).toNat % 2 ^ 10 = (handling true).cur.id / 8 := by decide +kernel

theorem test_meets_RepartitionAndDeviceLaunch_switch :
    (itemAt 0 (fun t => { t with doing := some (.repart 1 true) })).occupied 1 = false ∧
    (itemAt 0 (fun t => { t with doing := some (.repart 1 true) })).blocking (1 / 8) true = false ∧
    (itemAt 0 (fun t => { t with doing := some (.repart 1 true) })).cur.id / 8 ≠ 1 := by decide +kernel

theorem test_meets_RepartitionAndDeviceLaunch_bytes : Readable base 0 (bytesOf 0x150040 64 false) ∧
    ¬ Readable ({ base with owners := [⟨0x150040, 0, true⟩] } : State) 0 (bytesOf 0x150040 64 false) := by
  unfold Readable
  decide +kernel

theorem test_meets_RepartitionAndDeviceLaunch_append : (base.rd 22).toNat % 2 ^ 60 % 64 = 0 ∧ (base.rd 10).toNat % 64 ≠ 0 ∧
    base.strandPlace .glob ((base.rd 22).toNat % 2 ^ 60) 64 .read = .ok (.mem 0x150040 true) ∧ base.quiet .globalSp = true ∧
    base.strandPlace .glob ((base.rd 14).toNat % 2 ^ 60) 64 .read = .ok (.sys (2 ^ 51)) ∧ pending.quiet .globalSp = false ∧
    base.poisoned (keysFrom 0x150040 64) = false ∧ (marked 0x150040).poisoned (keysFrom 0x150040 64) = true ∧ (base.ctx 1).devq.length < 256 ∧
    (∀ i, i < 8 → ((List.replicate 8 (0 : Word)).getD i 0).toNat = littleEndian (base.bytesAs 1 (keysFrom (0x150040 + 8 * i) 8))) ∧
    256 ≤ ((base.setCtx 1 { base.ctx 1 with devq := List.replicate 256 [] }).ctx 1).devq.length := by decide +kernel

theorem test_meets_AbortsStopTheWholeLaunch : checkIn (handling true).decEnv .halt = .ok .halt ∧
    (base.launch? 0).map (·.live) = some true := by decide +kernel

/-- The item at its barrier. -/
def waiting (g : Nat) : State := itemAt 0 (fun t => { t with atBar := true, gbar := g })

theorem test_meets_GroupBarriers : checkIn base.decEnv .gbar = .ok .gbar ∧ base.cur.atBar = false ∧ pending.release .cluster .all = none ∧
    checkIn pending.decEnv .gbar = .ok .gbar ∧ base.release .cluster .all = some base ∧ (waiting 0).cur.gbar ≤ (waiting 0).barrierOf (waiting 0).cur ∧
    (waiting 0).cur.relAt = none ∧ (waiting 1).barrierOf (waiting 1).cur < (waiting 1).cur.gbar ∧ (waiting 1).cur.atBar = true := by
  decide +kernel

theorem test_meets_GroupBarriers_complete :
    (waiting 1).groups.find? (fun g => g.launch = 0 && g.cluster = 0 && g.g0 = 0) = some ⟨0, 0, 0, 0, 1, 1, 0, 0, false, [], []⟩ ∧
    (∃ u ∈ (waiting 1).groupStrands 0 0 0, u.atBar = true ∧ u.gbar = 0 + 1) ∧
    1 ≤ ((waiting 1).groupStrands 0 0 0).length := by decide +kernel

/-- Item 0 at its barrier and item 1 waiting for item 0 to publish, in a group of two. -/
def deadlocked : State :=
  let s := waiting 1
  { s with
    groups := [⟨0, 0, 0, 0, 1, 2, 0, 0, false, [], []⟩]
    strands := [{ s.cur with id := 1, index := 1, atBar := false, gbar := 0, waitRef := [⟨0, 8, 0⟩, ⟨0, 1, 1⟩] }] }

theorem test_meets_GroupBarriers_deadlock : 2 ≤ (deadlocked.groupStrands 0 0 0).length ∧ (∃ u ∈ deadlocked.groupStrands 0 0 0, u.gbar < 1) ∧
    (∀ u ∈ deadlocked.groupStrands 0 0 0, u.gbar < 1 →
      u.blockedBy testDesc 1 (deadlocked.groupStrands 0 0 0) = some 0) := by decide +kernel

theorem test_meets_GroupBarriers_release : (waiting 0).cur.atBar = true ∧
    (itemAt 0 (fun t => { t with relAt := some 0, atBar := true })).cur.relAt = some 0 ∧ 0 ≤ base.now ∧ base.now < 1 ∧
    (itemAt 0 (fun t => { t with relAt := some 1 })).cur.atBar = false := by decide +kernel

/-- A command of the strand as it joins its queue. -/
def ofStrand (e : Engine) (i : Instr) (hd ha hb : Handle) : Cmd := newCommand base 30 e i hd ha hb 30

/-- A command with a deferred fault. -/
def faulted : Cmd := { ofStrand .tile (.tadd ⟨0, 1, 0, 0, 2⟩ .rne) 0 0 0 with dfault := some (DFault.of (7, 0x20) 0 0 [] false) }

theorem test_meets_DeferredFaultsThenInterrupts : base.cur.status = .running ∧ base.cur.estat.getLsbD 0 = false ∧ base.cur.committed = false ∧
    base.cur.settled = true ∧ base.cur.faulting = none ∧ ({ base with cmds := [faulted] } : State).dueFault = some faulted ∧
    faulted.dfault.isSome = true ∧ base.dueFault = none ∧ base.cur.inUi = false ∧
    (itemAt 0 (fun t => { t with heldInts := [(5, 0x10000)] })).cur.heldInts = [(5, 0x10000)] := by decide +kernel

/-- The strand with handles in v1, v2 and v3. -/
def withHandles (d a b : Handle) : State := atCur (fun t => ((t.setH 1 d).setH 2 a).setH 3 b)

/-- A scratch tile of r × c elements of format entry `f` at byte `b`. -/
def tile (f ax r c pitch b : Nat) : Handle :=
  BitVec.ofNat 256 (2 ^ 140 + ax * 2 ^ 113 + 2 ^ 112 + pitch * 2 ^ 88 + (c - 1) * 2 ^ 76 + (r - 1) * 2 ^ 64 + f * 2 ^ 60 + b)

/-- Three FP32 tiles of 4 × 4 elements. -/
def adding : State := withHandles (tile 1 0 4 4 16 0) (tile 1 0 4 4 16 64) (tile 1 0 4 4 16 128)

theorem test_meets_TileQueueCommands_stores : StoresOut (leaving true) ∧ StoresOut (leaving false) ∧ ¬ StoresOut adding ∧ ¬ StoresOut base := by
  unfold StoresOut
  decide +kernel

theorem test_meets_TileQueueCommands : isTileCommand (.tadd ⟨1, 2, 3, 3, 10⟩ .rne) = true ∧
    adding.tagFaults (checkedTiles adding (.tadd ⟨1, 2, 3, 3, 10⟩ .rne)) = none ∧ adding.outstanding .tile < 8 ∧
    adding.queued .tile 0 < 32 ∧ adding.pendFull 10 = false ∧ full.pendFull 10 = true ∧
    firstUnmet (tileChecklist adding (.tadd ⟨1, 2, 3, 3, 10⟩ .rne)) = none ∧
    firstUnmet (tileChecklist base (.tadd ⟨1, 2, 3, 3, 10⟩ .rne)) = some (0x0B, 6) ∧ base.tagFaults (checkedTiles base (.tadd ⟨1, 2, 3, 3, 10⟩ .rne)) = none ∧
    (atCur (fun t => t.setH 2 (scratchTile 0 0xFFFF))).tagFaults [tileIn (atCur (fun t => t.setH 2 (scratchTile 0 0xFFFF))) 2] = some 2 := by
  decide +kernel

/-- A source line and its quantised destination. -/
def storing : State := withHandles (tile 3 0 1 16 0 64) (tile 1 0 1 16 0 0) 0

/-- A tile whose tensor scale an earlier command writes, and that command. -/
def rescaling : State :=
  let s := withHandles (tile 6 0 4 4 16 0) (tile 1 0 4 4 16 64) (tile 1 0 4 4 16 128)
  { s with
    launches := s.launches.map (fun l => { l with fmt := l.fmt.set 6 0x80000000000000000000104 })
    cmds := [{ newCommand s 0 .tile (.tfill 1 4 0 0) (tile 0 0 1 64 64 2048) 0 0 0 with strand := 9 }]
    nextId := 1 }

theorem test_meets_TileQueueCommands_scale : dividesByScale (.tadd ⟨1, 2, 3, 3, 10⟩ .rne) = true ∧ inScratch (tileIn rescaling 1) = true ∧
    scfOf (tileIn rescaling 1) = 2 ∧ scalePlace (tileIn rescaling 1) 0 0 = 2048 ∧ rescaling.readHeld 2048 4 = true ∧ adding.readHeld 2048 4 = false ∧
    scfOf (tileIn adding 1) = 0 := by decide +kernel

theorem test_meets_TileQueueCommands_qst : ¬ (false = true) ∧ storing.tagFaults [tileIn storing 2] = none ∧ storing.outstanding .tile < 8 ∧
    firstUnmet (qstChecklist storing (tileIn storing 1) (tileIn storing 2) 3 false) = none ∧
    base.tagFaults [tileIn base 2] = none ∧ firstUnmet (qstChecklist base (tileIn base 1) (tileIn base 2) 0 true) = some (0x0B, 6) ∧ base.cur.lees.tag = 0 ∧
    base.curLaunch.desc.lv = true ∧ base.cur.leesRcv = false ∧ storing.queued .tile 0 < 32 ∧ storing.pendFull 10 = false ∧
    scfOf (tileIn storing 1) ≠ 2 ∧ base.leesIn = .start ∧ (itemAt 1 id).leesIn = .waiting ∧
    ({ itemAt 1 id with leesPubs := [⟨0, 0, some ⟨7, []⟩, 0, true, none⟩] } : State).leesIn = .bank ⟨7, []⟩ ∧
    ¬ (true = true ∧ base.cur.lees.tag = 0 ∧ base.curLaunch.desc.lv = true ∧ (itemAt 0 (fun t => { t with leesRcv := true })).cur.leesRcv = false) := by
  decide +kernel

/-- The operands of an FP16 matrix command; `r` is the repeat buffer. -/
def multiplying (r : Rep) : State :=
  let s := withHandles (tile 1 0 16 16 64 0) (tile 4 0 16 32 64 1024) (tile 4 1 32 16 64 2048)
  { s with cur := { s.cur with rep := r } }

/-- The same with a source whose tags are poisoned. -/
def poisonedTile : State := atCur (fun t => t.setH 2 (scratchTile 0 0xFFFF))

/-- The iterations of the matrix command of v1, v2 and v3. -/
def itersOf (s : State) (n : Nat) : List Iter := iterations s.curLaunch.fmt (s.rdH 1) (s.rdH 2) (s.rdH 3) n

theorem test_meets_MatrixQueueCommands : (matrixForm (.mma 1 2 3 0 10)).isSome = true ∧
    (multiplying .disarmed).iterationTags base.curLaunch.fmt false (itersOf (multiplying .disarmed) 1) = none ∧
    (poisonedTile).iterationTags base.curLaunch.fmt false (itersOf poisonedTile 1) = some 2 ∧
    (multiplying .disarmed).pendFull 10 = false ∧ (multiplying .disarmed).matrixQueued 0 < 16 ∧
    (multiplying ⟨true, 4, 2, []⟩).cur.rep.got.length + 1 < 2 ∧ (multiplying ⟨true, 4, 1, []⟩).cur.rep.got.length + 1 = 1 ∧
    base.cur.inUi = false ∧ base.cur.estat.getLsbD 0 = false ∧ base.iterationTags base.curLaunch.fmt true (itersOf base 1) = none ∧
    full.pendFull 10 = true ∧ (multiplying ⟨true, 0, 1, []⟩).cur.rep.n = 0 := by decide +kernel

theorem test_meets_MatrixQueueCommands_checks :
    MatrixOutcome (multiplying .disarmed) ((multiplying .disarmed).rdH 1) ((multiplying .disarmed).rdH 2) ((multiplying .disarmed).rdH 3) 1 none ∧
    MatrixOutcome base 0 0 0 1 (some ((0x0B, 6), 0)) := by
  unfold MatrixOutcome
  decide +kernel

theorem test_meets_MatrixQueueCommands_repeat : (base.rd 17).toNat = 4096 ∧ 4096 < (base.rd 19).toNat ∧ (base.rd 12).toNat = 1 ∧
    base.cur.rep.armed = false ∧ (multiplying ⟨true, 4, 2, []⟩).cur.rep.armed = true := by decide +kernel

/-- A global tile of bytes for copies. -/
def globalTile (f r c pitch b : Nat) : Handle := tile f 0 r c pitch b &&& ~~~(2 ^ 112)

/-- The operands of copies into scratch. -/
def copying : State := withHandles (tile 0 0 2 8 8 0) (globalTile 0 2 8 8 0x20000) 0

/-- A parameter block with its mailbox bit. -/
def mailBlock : BitVec 512 := 2 ^ 211

/-- The copy into scratch as it joins, its block read. -/
def joining : Cmd := { newCommand copying 0 .copy (.cpyIn 1 2 0 0) (copying.rdH 1) (copying.rdH 2) 0 0 with
  mask := statusMask (tileOf base.curLaunch.fmt (copying.rdH 1)) [] }

theorem test_meets_CopiesJoinTheirQueue : (copyForm copying (.cpyIn 1 2 0 0)).isSome = true ∧ copying.tagFaults (copyReads copying (.cpyIn 1 2 0 0)) = none ∧
    poisonedTile.tagFaults (copyReads poisonedTile (.cpyOut 1 2 0 0)) = some 2 ∧
    copying.outstanding .copy < 16 ∧ copying.queued .copy 0 < 32 ∧ 
    (copying.rd 0).toNat % 2 ^ 60 = 0 ∧ (copying.rd 10).toNat % 2 ^ 60 % 64 ≠ 0 ∧ (∀ o ∈ copying.owners, o.cid ≠ copying.nextId) ∧
    firstUnmet (copyChecklist copying joining none) = none ∧
    firstUnmet (copyChecklist base (newCommand base 0 .copy (.cpyIn 1 2 0 0) 0 0 0 0) none) ≠ none ∧
    mailBlock.getLsbD 211 = true ∧ 16 ≤ ({ base.cur with mboxRes := 16 } : Strand).mailUse ∧ base.cur.mailUse < 16 ∧ base.mailTaken < 16 ∧
    16 ≤ ({ base with strands := [{ base.cur with id := 1, mboxRes := 16 }] } : State).mailTaken := by decide +kernel

theorem test_meets_CopiesJoinTheirQueue_block :
    base.engPlace (some base.via) 1 ((base.rd 22).toNat % 2 ^ 60) .read = .ok (.mem 0x150040 true) ∧
    base.unowned (keysFrom 0x150040 64) = true ∧
    base.poisoned (keysFrom 0x150040 64) = false ∧ (marked 0x150040).poisoned (keysFrom 0x150040 64) = true ∧
    ({ base with owners := [⟨0x150040, 0, true⟩] } : State).unowned (keysFrom 0x150040 64) = false ∧
    (match base.engPlace (some base.via) 1 0x60000 .read with | .error f => f.1 == cWalk | .ok _ => false) = true ∧
    (match base.engPlace (some base.via) 1 0x40000 .read with | .error f => f.1 != cWalk | .ok _ => false) = true ∧
    base.engPlace (some base.via) 1 0x30000 .read = .ok (.sys (2 ^ 51)) := by decide +kernel

/-- The operands of a gather by a list of two rows, which an earlier command of the cluster may write. -/
def gathering (busy : Bool) : State :=
  let s := withHandles (tile 0 0 2 8 8 0) (globalTile 0 64 8 8 0x20000) (tile 5 0 1 2 8 64)
  { s with
    launches := s.launches.map (fun l => { l with fmt := l.fmt.set 5 0xB })
    cmds := if busy then [{ newCommand s 0 .tile (.tfill 1 4 0 0) (tile 0 0 1 64 64 64) 0 0 0 with strand := 9 }] else []
    nextId := 1 }

theorem test_meets_CopiesJoinTheirQueue_list :
    (copyTiles (gathering false) (.gath 1 2 3 0 0) ((gathering false).rdH 1) ((gathering false).rdH 2) ((gathering false).rdH 3)).length = 3 ∧
    (inScratch (tileIn (gathering false) 3) && efOf (tileIn (gathering false) 3) = 11 && axisOf (tileIn (gathering false) 3) = 0
      && rowsOf (tileIn (gathering false) 3) = 1 && decide (colsOf (tileIn (gathering false) 3) ≤ 32)
      && inGroup (gathering false) (baseOf (tileIn (gathering false) 3)) (spanBytes (tileIn (gathering false) 3))) = true ∧
    (gathering false).readHeld 64 8 = false ∧ (gathering true).readHeld 64 8 = true := by decide +kernel

/-- A matrix command in the queue of core 0, whose cluster may hold a permit. -/
def matrixCmd (started : Bool) : Cmd :=
  { ofStrand .matrix (.mmz 1 2 3 0 0) (tile 1 0 16 16 64 0) (tile 4 0 16 32 64 1024) (tile 4 1 32 16 64 2048) with
    started := started
    body := [⟨true, tile 1 0 16 16 64 0, tile 4 0 16 32 64 1024, tile 4 1 32 16 64 2048, 0, 29, 0x10000, 0, 0, 0⟩] }

/-- The state with a command in flight. -/
def queueing (c : Cmd) (permit : Bool) : State :=
  ({ base with cmds := [c], nextId := 31, cycles := [64, 0, 0, 0] } : State).setCluster 0 { base.cluster 0 with permit := permit }

/-- The same behind an earlier command that writes all it names. -/
def delayed (c : Cmd) : State :=
  { queueing c true with cmds := [c, { newCommand base 0 .tile (.tfill 1 4 0 0) (tile 0 0 1 4096 4096 0) 0 0 0 with strand := 9 }], cycles := [128, 0, 0, 0] }

theorem test_meets_MatrixUnitRunsItsCommands :
    ((queueing (matrixCmd false) true).matrixQueue 0).find? (fun c => !c.started) = some (matrixCmd false) ∧
    ((queueing (matrixCmd false) true).cluster 0).permit = true ∧ (queueing (matrixCmd false) true).unitClear (matrixCmd false) = true ∧
    ((queueing (matrixCmd false) false).cluster 0).permit = false ∧ matrixCmd false ∈ (queueing (matrixCmd false) false).clusterMatrix 0 ∧
    ((queueing (matrixCmd false) false).clusters.filter (fun p => p.1 / 24 = 0 && p.2.permit)).length < base.pkg.permits.getD 0 0 ∧
    (∃ p ∈ base.pkg.ring, p.die = 0 ∧ p.cycle + (0 % 24 + 24 - p.spot % 24) % 24 ≤ (queueing (matrixCmd false) false).cycle 0) ∧
    ({ matrixCmd false with started := true } : Cmd).started = true ∧ (delayed (matrixCmd false)).unitClear (matrixCmd false) = false ∧
    (queueing faulted true).clusterMatrix 0 = [] ∧ ((queueing faulted true).cluster 0).idle + 64 ≤ (queueing faulted true).cycle 0 ∧
    ((queueing (matrixCmd true) true).matrixQueue 0).find? (fun c => c.started) = some (matrixCmd true) ∧
    ((matrixCmd true).body[(matrixCmd true).prog % 1]?).isSome = true ∧ (matrixCmd true).prog + 1 = (matrixCmd true).iters * 1 := by
  decide +kernel

theorem test_meets_MatrixUnitRunsItsCommands_row : [Val.num false 3 2].map ratOf = [3 / 2].map some ∧ [Val.num true 1 1].map ratOf = [-1].map some ∧
    (∃ p ∈ [(3 / 2 : ℚ)].zipWith (· * ·) [-1], (2 : ℚ) ^ (0 : ℤ) ≤ |p|) ∧
    (∀ p ∈ [(3 / 2 : ℚ)].zipWith (· * ·) [-1], |p| < (2 : ℚ) ^ ((0 : ℤ) + 1)) ∧ (∀ v ∈ [Val.num false 3 2], properVal v) ∧
    (∀ v ∈ [Val.num true 1 1], properVal v) := by
  refine ⟨by norm_num [ratOf], by norm_num [ratOf], ⟨3 / 2 * -1, by simp, ?_⟩, ?_, ?_, ?_⟩
  · norm_num [abs_of_neg]
  · intro p hp
    obtain rfl : p = 3 / 2 * -1 := by simpa using hp
    norm_num [abs_of_neg]
  · simp [properVal]
  · simp [properVal]

/-- A tile command in the queue of cluster 0. -/
def tileCmd (started : Bool) (n : Nat) : Cmd :=
  { ofStrand .tile (.tcpy 1 2 0 0) (tile 0 0 n 4 4 0) (tile 0 0 n 4 4 64) 0 with started := started, reg := 10 }

theorem test_meets_TileUnitRunsItsCommands :
    firstIssued (((queueing (tileCmd false 1) true).tileQueue 0).filter (fun c => !c.started)) = some (tileCmd false 1) ∧
    (queueing (tileCmd false 1) true).unitClear (tileCmd false 1) = true ∧ (queueing (tileCmd false 1) true).qstBefore (tileCmd false 1) = false ∧
    firstIssued (((queueing (tileCmd true 2) true).tileQueue 0).filter (fun c => c.started)) = some (tileCmd true 2) ∧
    (queueing (tileCmd true 2) true).unitClear (tileCmd true 2) = true ∧ (delayed (tileCmd true 2)).unitClear (tileCmd true 2) = false ∧
    firstIssued (((delayed (tileCmd true 2)).tileQueue 0).filter (fun c => c.started)) = some (tileCmd true 2) ∧
    (tileCmd true 2).prog + 1 < (tileWork (tileCmd true 2) (tileOf base.curLaunch.fmt (tileCmd true 2).hd)
      (tileOf base.curLaunch.fmt (tileCmd true 2).ha)).1 ∧
    (tileWork (tileCmd true 1) (tileOf base.curLaunch.fmt (tileCmd true 1).hd) (tileOf base.curLaunch.fmt (tileCmd true 1).ha)).1 ≤
      (tileCmd true 1).prog + 1 ∧ [tileCmd true 1, tileCmd false 2].Pairwise (fun a b => a.cycle ≤ b.cycle) ∧
    ({ base.cur with pend := [result 10 (.cmd 0)] } : Strand).pend.findIdx? (fun q => q.op = .cmd (tileCmd true 1).cid && !q.landed) = none ∧
    ({ base.cur with pend := [result 10 (.cmd 30)] } : Strand).pend.findIdx? (fun q => q.op = .cmd (tileCmd true 1).cid && !q.landed) = some 0 := by
  decide +kernel

theorem test_meets_TileUnitRunsItsCommands_exact : (tileExact (.tmul ⟨1, 2, 3, 0, 0⟩ .rne)).isSome = true ∧
    ratOf (.num true 3 4) = some (-3 / 4) ∧ properVal (.num true 3 4) := by
  refine ⟨by decide, by norm_num [ratOf], by simp [properVal]⟩

/-- A copy command under way, its destination in scratch or in global memory. -/
def copyCmd (d a : Handle) (prog : Nat) : Cmd := { ofStrand .copy (.cpyIn 1 2 0 0) d a 0 with started := true, prog := prog }

/-- The copy of two rows of eight bytes from the data page into scratch. -/
def movingIn (prog : Nat) : Cmd := copyCmd (tile 0 0 2 8 8 0) (globalTile 0 2 8 8 0x20000) prog

/-- The copy of two rows of eight bytes from scratch into the data page. -/
def movingOut (prog : Nat) : Cmd :=
  { ofStrand .copy (.cpyOut 1 2 0 0) (globalTile 0 2 8 8 0x20000) (tile 0 0 2 8 8 0) 0 with started := true, prog := prog }

theorem test_meets_DecantersCarryOutCopies :
    ({ base with owners := [⟨0x150000, 0, false⟩] } : State).owners.find? (fun p => p.line = 0x150000) = some ⟨0x150000, 0, false⟩ ∧
    (queueing (movingIn 0) true).cmd? 30 = some (movingIn 0) ∧ (movingIn 0).units base.curLaunch.fmt = 2 ∧ (movingIn 0).hasBlock = false ∧
    (queueing (movingIn 0) true).copyClear (movingIn 0) = true ∧ (delayed (movingIn 0)).copyClear (movingIn 0) = false ∧
    (queueing (movingIn 0) true).unitGranted (movingIn 0) 0 = true ∧ (queueing (movingOut 0) true).unitGranted (movingOut 0) 0 = false ∧
    (queueing (movingOut 0) true).copyClear (movingOut 0) = true ∧ (queueing (movingIn 2) true).cmd? 30 = some (movingIn 2) := by decide +kernel

theorem test_meets_DecantersCarryOutCopies_plan :
    (match (queueing (movingIn 0) true).planUnit (movingIn 0) 0 [] with
      | .ok (ws, _) => ws.length == 8 && ws.all (fun w => !anySys w.at_)
          && (ws.map (fun w => (memKeys w.at_, w.off, w.len))).take 1 == [(some [scrKey 0 0], 0, 8)]
      | .error _ => false) = true := by decide +kernel

/-- Context 1 changed. -/
def inContext (f : Context → Context) : State := base.setCtx 1 (f (base.ctx 1))

theorem test_meets_QueueRegisterWrites : queueAnswers base 63 ∧ queueAnswers { base with pkg := { base.pkg with recovery := true } } 0 ∧
    ¬ queueAnswers { base with pkg := { base.pkg with recovery := true } } 1 ∧ ¬ queueAnswers base 64 := by
  unfold queueAnswers
  decide +kernel

theorem test_meets_QueueRegisterWrites_fields : (0x1000 : Word).toNat = (0x1FFF : Word).toNat / 2 ^ 12 % 2 ^ 48 * 2 ^ 12 ∧ 2 ^ 6 ≤ 64 ∧
    (2 ^ 6 : Nat) - 1 < 63 + 1 ∧ 63 < 2 ^ 6 := by decide

/-- A ring with one record at the data page, and a descriptor at 0x20100 with its format table at 0x20200. -/
def launching (ring : Nat) : State :=
  let s := inContext (fun c => { c with en := true, logn := 6, lqbase := BitVec.ofNat 64 ring, tail := 1 })
  [(0x150100, 0x10000), (0x150110, 1), (0x150128, 0x20200), (0x150190, 0x4B440100)].foldl
    (fun (s : State) (e : Nat × Nat) => s.putBytes 1 (keysFrom e.1 8) (leBytes 8 e.2)) s

/-- The record of a launch of that descriptor. -/
def launchRecord (weva wcnt : Word) : List Word := [0x20100, 0, weva, wcnt, 0, 0, 0, 0]

theorem test_meets_LaunchRecords_heads : (base.ctx 0).cstate ≠ .created ∧ (base.ctx 1).cstate = .created ∧ (base.ctx 1).devq = [] ∧
    (inContext (fun c => { c with devq := [launchRecord 0 0] })).ctx 1 = { base.ctx 1 with devq := [launchRecord 0 0] } ∧
    (base.ctx 1).devSt = .none ∧ ((launching 0x20000).ctx 1).en = true ∧ ((launching 0x20000).ctx 1).head ≠ ((launching 0x20000).ctx 1).tail ∧
    (launching 0x20000).seqPlace 1 0x20000 .read = some (.mem 0x150000 true) ∧ (launching 0x40000).seqPlace 1 0x40000 .read = none := by
  decide +kernel

theorem test_meets_LaunchRecords_steps : recordOk (launchRecord 0 0) ∧ ¬ recordOk [0x20101, 0, 0, 0, 0, 0, 0, 0] ∧
    eventUsable base 1 0 ∧ (∃ p, base.seqPlace 1 0x20000 .atomic = some p) ∧ ¬ ∃ p, base.seqPlace 1 0x40000 .atomic = some p := by
  refine ⟨by unfold recordOk; decide, by unfold recordOk; decide, .inl rfl, ⟨.mem 0x150000 true, by decide +kernel⟩, ?_⟩
  rintro ⟨p, h⟩
  have n : base.seqPlace 1 0x40000 .atomic = none := by decide +kernel
  rw [n] at h
  cases h

theorem test_meets_LaunchRecords_waits : base.seqPlace 1 0x20008 .read = some (.mem 0x150008 true) ∧ base.natAs 1 0x150008 8 < 1 ∧
    (base.setByte 1 0x15000F 0x80).natAs 1 0x150008 8 ≥ 2 ^ 63 ∧ base.seqPlace 1 0x40000 .read = none ∧
    seedAfter 2 0 (base.ctx 1).seeds = none ∧ seedAfter 0 0 (base.ctx 1).seeds = some ([0], 0) := by decide +kernel

/-- The words of the descriptor and of the table of that launch, as they are copied. -/
def copied (n : Nat) : List Word := (wordsAt (launching 0x20000) 1 0x150100 64).take n

theorem test_meets_LaunchRecords_copies : (copied 0).length ≠ 64 ∧ (copied 64).length = 64 ∧ (copied 32).length = 32 ∧
    ((copied 32).getD 5 0).toNat / 2 ^ 60 = 0 ∧ ((copied 32).getD 5 0).toNat % 256 = 0 ∧
    (((copied 32).set 5 1).getD 5 0).toNat % 256 ≠ 0 ∧ (launching 0x20000).seqHeld 1 0x20100 .read = false ∧
    (launching 0x20000).seqPlace 1 0x20100 .read = some (.mem 0x150100 true) ∧
    (launching 0x20000).seqPlace 1 0x20200 .read = some (.mem 0x150200 true) := by decide +kernel

theorem test_meets_LaunchRecords_checks : descFault ((launching 0x20000).ctx 1) (copied 32) (some (List.replicate 16 0)) = none ∧
    descFault (base.ctx 1) (List.replicate 32 0) none = some 2 ∧ reportWaits (launching 0x20000) 1 (launchRecord 0 0) true = False ∧
    (launchRecord 0 0).getD 7 0 = 0 := by
  refine ⟨by decide +kernel, by decide +kernel, ?_, by decide⟩
  unfold reportWaits
  simp [launchRecord]

/-- A copy command that owns the line of the data page. -/
def owning : State := { launching 0x20000 with owners := [⟨0x150000, 0, true⟩] }

theorem test_meets_LaunchRecords_owned : owning.seqHeld 1 0x20000 .read = true ∧ owning.seqHeld 1 0x20000 .write = true ∧
    owning.seqHeld 1 0x20000 .atomic = true := by decide +kernel

theorem test_meets_LaunchRecords_owned_report : reportWaits owning 1 [0x20100, 0, 0, 0, 0, 0, 0, 0x20000] false :=
  .inl (by decide +kernel)

/-- The page at 0x50000 maps a peer's space, and no port is up. -/
def unlinked : State := base.putBytes 1 (keysFrom 0x130028 8) (leBytes 8 (leafEntry (2 ^ 51 + 2 ^ 50) true true false))

theorem test_meets_LaunchRecords_reads : SeqReads base base 1 0x20000 8 (some (wordsAt base 1 0x150000 8)) ∧
    SeqReads base base 1 0x40000 8 none ∧ SeqReads unlinked unlinked 1 0x50000 8 none :=
  ⟨.inr (.inl ⟨0x150000, true, by decide +kernel⟩), .inl (by decide +kernel), .inr (.inr ⟨2 ^ 51 + 2 ^ 50, by decide +kernel, .inl (by decide +kernel)⟩)⟩

theorem test_meets_LaunchRecords_system : ∃ m r, SeqReads base m 1 0x30000 1 r := by
  have p : base.seqPlace 1 0x30000 .read = some (.sys (2 ^ 51)) := by decide +kernel
  have h : (base.send 1 (2 ^ 51) (.read 8)).isSome = true := by decide +kernel
  obtain ⟨q, hq⟩ := Option.isSome_iff_exists.1 h
  exact ⟨_, _, .inr (.inr ⟨2 ^ 51, p, .inr ⟨q, hq, rfl, rfl⟩⟩)⟩

theorem test_meets_LaunchRecords_states : (withHead (base.ctx 1) false (.waiting (launchRecord 0 0))).hostSt = .waiting (launchRecord 0 0) ∧
    (withHead (base.ctx 1) true (.copying (launchRecord 0 0) [])).devSt = .copying (launchRecord 0 0) [] ∧
    (launchRecord 0x20008 1).getD 2 0 ≠ 0 ∧ (launchRecord 0 0).getD 2 0 = 0 ∧
    seedAfter 3 5 (List.replicate 16 0) = none ∧ (seedAfter 3 5 [0]).isSome = true := by decide +kernel

/-- A code object of one bundle, and its placement with frames for three tables. -/
def codeObject (machine : Nat) (relocs : List Reloc) : CodeObject :=
  ⟨2, 1, machine, 1, 0, [⟨".text", true, true, true, false, 8, List.replicate 8 0⟩], relocs, []⟩

def placement (frames : List Nat) : Placement := ⟨0x60000, 0, 0, 0, 0x160000, 0, 0, 0, frames⟩

theorem test_meets_CodeObjects_accepted : headerAccepted (codeObject 0x5A32 []) ∧ ¬ headerAccepted (codeObject 0 []) ∧
    (∀ x ∈ (codeObject 0x5A32 []).sections, sectionAccepted x) ∧ (base.ctx 1).cstate = .created ∧ (base.ctx 0).cstate ≠ .created ∧
    placementOk (codeObject 0x5A32 []) (placement []) = true ∧ placementOk (codeObject 0x5A32 []) { placement [] with text := 1 } = false := by
  refine ⟨by unfold headerAccepted; decide, by unfold headerAccepted; decide, fun x hx => ?_, by decide +kernel⟩
  obtain rfl : x = ⟨".text", true, true, true, false, 8, List.replicate 8 0⟩ := by simpa [codeObject] using hx
  unfold sectionAccepted
  decide

theorem test_meets_CodeObjects_loads :
    (match relocate (placement []) (codeObject 0x5A32 []) [] (codeObject 0x5A32 []).sections with
      | .ok cs => cs.length == 1
      | .error _ => false) = true ∧
    (match relocate (placement []) (codeObject 0x5A32 []) [⟨9, 0, 1, 0, 0⟩] (codeObject 0x5A32 []).sections with
      | .ok _ => false
      | .error r => r.sec == 9) = true ∧
    (State.loadSection 1 0x60000 0x160000 (List.replicate 8 0) false false true (some (base, []))).isSome = true ∧
    State.loadSection 0 0x60000 0x160000 (List.replicate 8 0) false false true (some (base, [])) = none := by decide +kernel

/-- The object with a section of vintage slots that holds one word, and one bundle of .text. -/
def vintageObject (slot bundle : List Byte) (relocs : List Reloc) : CodeObject :=
  { codeObject 0x5A32 relocs with sections := [⟨".text", true, true, true, false, 8, bundle⟩, ⟨".vintage", true, true, false, true, 16, slot⟩] }

theorem test_meets_CodeObjects_vintage :
    vintageAccepted (vintageObject (List.replicate 15 0 ++ [0x40]) [0, 0, 0, 0x88, 8, 0, 0, 0] [⟨0, 0, 9, 0, 0⟩]) (placement []) ∧
    ¬ vintageAccepted (vintageObject ([1] ++ List.replicate 15 0) (List.replicate 8 0) []) (placement []) ∧
    ¬ vintageAccepted (vintageObject (List.replicate 12 0 ++ [1, 0, 0, 0x80]) (List.replicate 8 0) []) (placement []) ∧
    ¬ vintageAccepted (vintageObject (List.replicate 8 0 ++ [1, 0, 0, 0, 0, 0, 0, 0x40]) (List.replicate 8 0) []) (placement []) := by
  refine ⟨⟨by decide +kernel, fun r hr _ => ?_⟩, fun h => absurd (h.1 0) (by decide +kernel), fun h => absurd (h.1 0) (by decide +kernel),
    fun h => absurd (h.1 0) (by decide +kernel)⟩
  obtain rfl : r = ⟨0, 0, 9, 0, 0⟩ := by simpa [vintageObject, codeObject] using hr
  refine ⟨⟨".text", true, true, true, false, 8, [0, 0, 0, 0x88, 8, 0, 0, 0]⟩, rfl, rfl, by decide, by decide, by decide, by decide, by decide, fun q hq => ?_⟩
  revert q
  decide +kernel

theorem test_meets_CodeObjects_unloads : (base.ctx 1).objects.find? (fun o => o.id = 1) = none ∧
    (base.ctx 1).objects.find? (fun o => o.id = 0) = some ⟨0, 0x10000, 8, 0, 0, 0, 0, 0, []⟩ ∧
    ({ base with launches := [] } : State).usersOf 1 ⟨0, 0x10000, 8, 0, 0, 0, 0, 0, []⟩ = 0 ∧
    ({ base with launches := base.launches.map (fun l => { l with descAt := 0x10000 }) } : State).usersOf 1 ⟨0, 0x10000, 8, 0, 0, 0, 0, 0, []⟩ ≠ 0 ∧
    [("k", (0x10000 : Nat), true)].find? (fun k => k.1 = "k") = some ("k", 0x10000, true) ∧
    [("k", (0x10000 : Nat), true)].find? (fun k => k.1 = "j") = none := by decide +kernel

/-- The launch with other control bits, and nothing of it under way: `parts` as given, no item dispatched, its group allocated. -/
def starting (ctl : Word) (parts : List Nat) (nchunk : Nat) : State :=
  { base with
    cur := Strand.empty 0
    launches := base.launches.map (fun l =>
      { l with parts := parts, nchunk := nchunk, chunks := [], state := .accepted, desc := { l.desc with ctl := ctl } })
    harvest := [⟨0, 0, if nchunk = 0 then [] else [0], 0, [], false, false, false, false, 0⟩] }

theorem test_meets_Chunks_participates : participates (starting 0x1000 [] 0) ((starting 0x1000 [] 0).launch 0) 0 :=
  ⟨by decide, by decide +kernel, by decide +kernel, .inl (by decide +kernel), 1, fun h => absurd (by decide +kernel) h,
    fun _ => .inl ⟨by decide +kernel, by decide +kernel⟩⟩

theorem test_meets_Chunks : ((starting 0x1000 [] 0).launch? 0).isSome = true ∧ ((starting 0x1000 [] 0).launch 0).live = true ∧
    ((starting 0x1000 [] 0).launch 0).parts = [] ∧ ((starting 0x1000 [0] 0).launch 0).nchunk < ((starting 0x1000 [0] 0).launch 0).desc.chunks ∧
    ((starting 0x1000 [0] 0).launch 0).parts[0 % 1]? = some 0 ∧ ((starting 0x1000 [0] 0).launch 0).desc.dyn = false ∧
    ((starting 0x1000 [0] 0).harvestOf? 0 0).isSome = true ∧ ((starting 0x1000 [0] 0).cluster 0).split = none ∧
    ((base.setCluster 0 { base.cluster 0 with split := some 2 }).cluster 0).split = some 2 := by decide +kernel

theorem test_meets_Chunks_dynamic : ((starting 0x40000001000 [0] 0).launch 0).desc.sm = 1 ∧
    testDesc.first.toNat ≤ 0 ∧ 0 < testDesc.first.toNat + testDesc.count.toNat := by decide +kernel

theorem test_meets_Chunks_waits : ((starting 0x1000 [0] 0).launch 0).parts ≠ [] ∧
    ({ base with launches := base.launches.map (fun l => { l with state := .retired }) } : State).launches.all (fun l => !l.live) = true ∧
    ∀ c, ¬ participates (inContext (fun k => { k with clset := 0 })) (base.launch 0) c := by
  refine ⟨by decide +kernel, by decide +kernel, fun c h => ?_⟩
  have z : ((inContext (fun k => { k with clset := 0 })).ctx (base.launch 0).ctx).clset = 0 := by decide +kernel
  have w := h.2.1
  rw [z] at w
  simp at w

/-- A launch under DYN whose cluster 0 has asked for a chunk or not. -/
def dynamic (wants : Bool) : State :=
  { starting 0x1000 [0] 0 with
    launches := (starting 0x1000 [0] 0).launches.map (fun l => { l with desc := { l.desc with ctl := 0x100000001000 } })
    harvest := [⟨0, 0, [], 0, [], wants, false, false, false, 0⟩] }

theorem test_meets_Chunks_requests : ((dynamic true).launch 0).desc.dyn = true ∧ ((dynamic true).launch 0).live = true ∧
    ((dynamic true).launch 0).parts.find? (fun k => ((dynamic true).harvestOf? 0 k).any (·.wants)) = some 0 ∧
    ((dynamic true).launch 0).nchunk < ((dynamic true).launch 0).desc.chunks ∧ ((dynamic true).cluster 0).split = none := by decide +kernel

/-- The launch about to dispatch its first item, its group allocated and one strand reserved or not. -/
def dispatching (ctl : Word) (r : Option (Nat × Nat)) : State :=
  let s := starting ctl [0] 1
  { s with cur := { s.cur with reserved := r } }

/-- The harvest state of that launch, and its group. -/
def ready : Harvest := ⟨0, 0, [0], 0, [], false, false, false, false, 0⟩

def firstGroup : Group := ⟨0, 0, 0, 0, 1, 1, 0, 0, false, [], []⟩

/-- The same before the group has its scratchpad. -/
def ungrouped : State := { dispatching 0x1000 none with groups := [] }

theorem test_meets_GroupsTakeScratchAndStrands : ungrouped.launch? 0 = some (ungrouped.launch 0) ∧ ungrouped.harvestOf? 0 0 = some ready ∧
    ready.nextItem (ungrouped.launch 0).desc = some 0 ∧ (ungrouped.launch 0).live = true ∧ ungrouped.scratchFree 0 0 1 = true ∧
    ungrouped.group? 0 0 0 = none ∧ (ungrouped.cluster 0).split = none := by decide +kernel

/-- The launch under GB. -/
def reserving : State := dispatching 0x200000001000 none

theorem test_meets_GroupsTakeScratchAndStrands_reserve : reserving.launch? 0 = some (reserving.launch 0) ∧
    reserving.harvestOf? 0 0 = some ready ∧ reserving.readyItem (reserving.launch 0) ready = some (0, firstGroup) ∧
    (reserving.launch 0).desc.gb = true ∧ reserving.unreserved firstGroup 0 = 1 ∧ reserving.savedOf (reserving.launch 0) 0 = [] ∧
    (reserving.strand 0).reserved = none ∧ reserving.usable (reserving.launch 0) 0 = true ∧
    reserving.served (reserving.launch 0) 0 = true := by decide +kernel

theorem test_meets_ItemsStartInIndexOrder :
    (dispatching 0x1000 none).launch? 0 = some ((dispatching 0x1000 none).launch 0) ∧ (dispatching 0x1000 none).harvestOf? 0 0 = some ready ∧
    (dispatching 0x1000 none).readyItem ((dispatching 0x1000 none).launch 0) ready = some (0, firstGroup) ∧
    ((dispatching 0x1000 none).launch 0).desc.gb = false ∧ (dispatching 0x1000 none).usable ((dispatching 0x1000 none).launch 0) 3 = true ∧
    (dispatching 0x1000 none).usable ((dispatching 0x1000 none).launch 0) 4 = false ∧
    (dispatching 0x1000 none).savedOf ((dispatching 0x1000 none).launch 0) 0 = [] ∧
    (dispatching 0x1000 none).served ((dispatching 0x1000 none).launch 0) 3 = true ∧ ((dispatching 0x1000 none).strand 3).reserved = none ∧
    ((dispatching 0x1000 none).launch 0).state = .accepted := by decide +kernel

/-- The launch under GB with its strand reserved. -/
def reserved : State := dispatching 0x200000001000 (some (0, 0))

theorem test_meets_ItemsStartInIndexOrder_reserved : reserved.readyItem (reserved.launch 0) ready = some (0, firstGroup) ∧
    (reserved.launch 0).desc.gb = true ∧ (reserved.strand 0).reserved = some (0, 0) ∧ reserved.unreserved firstGroup 0 = 0 ∧
    reserved.usable (reserved.launch 0) 0 = true ∧ reserved.served (reserved.launch 0) 0 = true := by decide +kernel

theorem test_meets_ItemsEndAndRetire : (multiplying ⟨true, 4, 2, []⟩).cur.rep.armed = true ∧ base.cur.rep.armed = false ∧
    pending.cur.settled = false ∧ base.cur.settled = true ∧ base.cur.status ≠ .ending ∧ base.cmds = [] ∧ quantizing.dueFault = none ∧
    (∃ c ∈ quantizing.cmds, c.strand = quantizing.cur.id ∧ c.saved = false) ∧ ({ base with cmds := [faulted] } : State).dueFault = some faulted ∧
    base.cur.estat.getLsbD 0 = false := by decide +kernel

/-- The item after its END, with its lees bank to publish or not. -/
def ended (i : Nat) (part : Bool) : State := itemAt i (fun t => { t with status := .ending, leesPart := part, index := i })

theorem test_meets_ItemsEndAndRetire_retire : (ended 0 true).launch? 0 = some (base.launch 0) ∧ (ended 0 true).cur.chosen = false ∧
    (ended 0 true).cur.status = .ending ∧ (base.launch 0).desc.vcnt = 1 ∧ (base.launch 0).desc.lv = true ∧ (base.launch 0).desc.gb = true ∧
    (ended 0 true).quiet .all = true ∧ (ended 0 true).leesRoom = true ∧ (ended 0 true).cur.vp.getLsbD 0 = false ∧
    (ended 0 true).cur.leesPub = false ∧ (dueValue (ended 0 true) (base.launch 0) 0).isSome = true ∧ (dueBank (ended 0 true)).isSome = true ∧
    dueValue (ended 1 true) (base.launch 0) 0 = none ∧ dueBank (ended 1 false) = none ∧
    ((ended 0 true).publications (base.launch 0)).cur.vp.getLsbD 0 = true ∧ ((ended 0 true).publications (base.launch 0)).cur.leesPub = true ∧
    ((ended 1 false).publications (base.launch 0)).cur.leesPub = false ∧
    ((ended 0 true).publications (base.launch 0)).loadsDone .all = true ∧
    ((ended 0 true).harvestOf? 0 0).isSome = true := by
  decide +kernel

/-- The item after its END in a launch with other control bits and no vine, with some results pending. -/
def endedIn (ctl : Word) (ps : List Pend) : State :=
  { ended 0 true with
    cur := { (ended 0 true).cur with pend := ps }
    launches := base.launches.map (fun l => { l with desc := { l.desc with ctl := ctl, vine := 0 } }) }

theorem test_meets_ItemsEndAndRetire_groups : ((endedIn 0x1000 []).launch 0).desc.gb = false ∧ ((endedIn 0x1000 []).launch 0).desc.vcnt = 0 ∧
    ((endedIn 0x1000 []).launch 0).desc.lv = false ∧ ((endedIn 0x200000001000 []).launch 0).desc.gb = true ∧
    (let s := endedIn 0x200000001000 pending.cur.pend
     (s.publications (s.launch 0)).loadsDone .all = false) ∧
    (let s := endedIn 0x200000001000 []
     (s.publications (s.launch 0)).loadsDone .all = true) := by decide +kernel

/-- The launch with a delta slot of its own, ended or not, with an update in flight or not. -/
def retiring (st : LState) (merged signed : Bool) (us : List VUpd) : State :=
  { base with vupd := us, launches := base.launches.map (fun l => { l with state := st, merged := merged, signed := signed, nretired := 1, seva := 0x20400 }) }

/-- A branch update of slot 1. -/
def update (id : Nat) : VUpd := ⟨id, 0, 0, 0, 1, 0x20000, 0x28000, 1, 1, 1, 1, 0⟩

/-- The launch done, its delta still to merge. -/
def merging (us : List VUpd) : State := retiring .retired false false us

theorem test_meets_LaunchesRetireMergeAndSignal :
    (retiring .running false false []).launch? 0 = some ((retiring .running false false []).launch 0) ∧
    ((retiring .running false false []).launch 0).live = true ∧
    ((retiring .running false false []).launch 0).nchunk = ((retiring .running false false []).launch 0).desc.chunks ∧
    ((retiring .running false false []).launch 0).nretired = testDesc.count.toNat ∧ (base.launch 0).nretired ≠ 1 ∧
    ((merging []).launch 0).live = false ∧ ((merging []).launch 0).merged = false ∧ ((merging []).launch 0).signed = false ∧
    (merging []).updatesLeft ((merging []).launch 0) = false ∧ (merging [update 0]).updatesLeft ((merging [update 0]).launch 0) = true ∧
    (merging []).stores = [] ∧ ((retiring .retired true true []).launch 0).merged = true ∧
    ((retiring .retired true true []).launch 0).signed = true := by decide +kernel

theorem test_meets_LaunchesRetireMergeAndSignal_places : base.canonical ∧ base.seqPlace 1 0x20400 .write = some (.mem 0x150400 true) ∧
    base.seqPlace 1 0x20400 .atomic = some (.mem 0x150400 true) ∧ 0x150400 + 8 ≤ sysBase ∧ base.seqPlace 1 0x40000 .write = none ∧
    base.seqPlace 1 0x40000 .atomic = none ∧ base.slotAt 1 (0x20000 + 16 * 1) .write = some (0x150010, [0, 0, 0, 0]) ∧
    base.slotAt 1 (0x28000 + 16 * 1) .write = some (0x158010, [0, 0, 0, 0]) ∧ base.slotAt 1 0x20010 .read = some (0x150010, [0, 0, 0, 0]) ∧
    base.slotAt 1 0x40000 .write = none ∧ base.poisoned (keysFrom 0x158010 16) = false ∧ (marked 0x158018).poisoned (keysFrom 0x158010 16) = true := by
  refine ⟨by unfold State.canonical; decide +kernel, ?_⟩
  decide +kernel

theorem test_meets_LaunchesRetireMergeAndSignal_updates :
    (retiring .running false false [update 0, update 1]).vupd.find? (fun u => u.id = 1) = some (update 1) ∧
    (retiring .running false false [update 0, update 1]).updBehind (update 1) = true ∧
    (retiring .running false false [update 0, update 1]).updBehind (update 0) = false ∧
    (retiring .running false false [update 0]).vupd.find? (fun u => u.id = 9) = none ∧ 1 ≤ (update 0).kind ∧ (update 0).kind ≤ 3 ∧
    (retiring .running false false [update 0]).updHeld (update 0) = false ∧
    ({ retiring .running false false [update 0] with owners := [⟨0x158000, 0, true⟩] } : State).updHeld (update 0) = true := by
  decide +kernel

theorem test_meets_LaunchesRetireMergeAndSignal_owned :
    (merging []).mergeHeld ((merging []).launch 0) = false ∧
    ({ merging [] with owners := [⟨0x150000, 0, true⟩] } : State).mergeHeld ((merging []).launch 0) = true ∧
    ({ merging [] with owners := [⟨0x150400, 0, true⟩] } : State).seqHeld 1 0x20400 .atomic = true ∧
    (merging []).seqHeld 1 0x20400 .atomic = false ∧ base.seqPlace 1 0x30000 .write = some (.sys (2 ^ 51)) ∧
    (base.target 1 (2 ^ 51)).isSome = true ∧ (unlinked.target 1 (2 ^ 51 + 2 ^ 50)) = none := by decide +kernel

/-- Launch 0 fills the four slots of core 0 (and all scratchpad, with `gran` granules); launch 1, of higher priority, waits for a core in
four-slot mode. `nslot` record slots; `gb` sets GB of launch 0. -/
def crowded (gran nslot : Nat) (gb : Bool) : State :=
  let s := inContext (fun c => { c with nslot := nslot })
  let at_ := fun (i : Nat) => { s.cur with id := i, index := i }
  let ctl : Word := if gb then 0x200000001000 else 0x1000
  { s with
    strands := [at_ 1, at_ 2, at_ 3]
    launches := s.launches.map (fun l => { l with desc := { l.desc with ctl := ctl, count := 4, vine := 0 } })
      ++ s.launches.map (fun l => { l with num := 1, pri := 3, desc := { l.desc with ctl := 0x80000001000, vine := 0 } })
    harvest := [⟨0, 0, [0], 4, [0, 1, 2, 3], false, false, false, false, 0⟩, ⟨1, 0, [0], 0, [], false, false, false, false, 0⟩]
    groups := [⟨0, 0, 0, 0, gran, 4, 0, 0, false, [], []⟩] ++ (if gran = 1 then [⟨1, 0, 0, 4096, 1, 1, 0, 0, false, [], []⟩] else []) }

/-- The harvest state of launch 1 in it. -/
def waits : Harvest := ⟨1, 0, [0], 0, [], false, false, false, false, 0⟩

theorem test_meets_Preemption_decision : (crowded 1 1 false).launch? 1 = some ((crowded 1 1 false).launch 1) ∧
    (crowded 1 1 false).harvestOf? 1 0 = some waits ∧ ((crowded 1 1 false).launch 1).live = true ∧
    (∀ k ∈ (crowded 1 1 false).harvest, k.cluster = 0 → k.yielding = false) ∧
    (∀ u ∈ (crowded 1 1 false).allStrands, u.id / 64 = 0 → u.chosen = false) ∧
    (crowded 1 1 false).lacksRoom ((crowded 1 1 false).launch 1) waits = false ∧
    (crowded 1 1 false).lacksStrand ((crowded 1 1 false).launch 1) waits = true ∧
    ((crowded 1 1 false).victim ((crowded 1 1 false).launch 1) 0).map (fun u => (u.index, u.launch, u.ctx)) = some (3, 0, 1) ∧
    ((crowded 1 1 false).launch 0).desc.gb = false ∧ ((crowded 1 1 false).ctx 1).freeSlot = some 0 ∧
    ((crowded 1 0 false).ctx 1).freeSlot = none := by decide +kernel

theorem test_meets_Preemption_alone : (dispatching 0x1000 none).lacksStrand ((dispatching 0x1000 none).launch 0) ready = false ∧
    ({ crowded 1 1 false with launches := [((crowded 1 1 false).launch 0), { (crowded 1 1 false).launch 1 with pri := 0 }] } : State).victim
      { (crowded 1 1 false).launch 1 with pri := 0 } 0 = none := by decide +kernel

theorem test_meets_Preemption_room : ¬ waitsForRoom (crowded 1 1 false) ((crowded 1 1 false).launch 1) waits 0 ∧
    waitsForRoom (crowded 896 4 true) ((crowded 896 4 true).launch 1) waits 0 ∧ ownsScratch (crowded 896 4 true) 0 ((crowded 896 4 true).launch 0) ∧
    modeFits (crowded 1 1 false) ((crowded 1 1 false).launch 1) 0 true := by
  unfold waitsForRoom ownsScratch modeFits
  refine ⟨by decide +kernel, by decide +kernel, by decide +kernel, fun r h => ?_, fun _ => .inr (by decide +kernel)⟩
  have n : (crowded 1 1 false).nextSaved ((crowded 1 1 false).launch 1) 0 = none := by decide +kernel
  rw [n] at h
  cases h

theorem test_meets_Preemption_evict : (itemAt 0 (fun t => { t with chosen := true })).cur.chosen = true ∧ base.cur.status ≠ .idle ∧
    base.cur.settled = true ∧ base.cur.committed = false ∧ base.cur.chosen = false ∧ (base.ctx 1).freeSlot = some 0 := by decide +kernel

/-- A strand of item 0 in record 0 of the context's cellar, its slot empty. -/
def parked : State := { inContext (fun c => { c with saved := [⟨0, true, false, base.cur⟩] }) with cur := Strand.empty 0 }

theorem test_meets_Preemption_restore : (parked.ctx 1).saved.find? (fun r => r.num = 0) = some ⟨0, true, false, base.cur⟩ ∧
    parked.launch? 0 = some (parked.launch 0) ∧ (parked.core 0).four = true ∧ parked.usable (parked.launch 0) 3 = true ∧
    (parked.strand 3).reserved = none ∧ parked.asleep 0 0 = false ∧ parked.served (parked.launch 0) 3 = true ∧
    (∀ q ∈ parked.savedOf (parked.launch 0) 0, 0 ≤ q.strand.index) ∧ base.cur.record = [] := by decide +kernel

theorem test_meets_Yield_decision : (crowded 896 4 true).lacksRoom ((crowded 896 4 true).launch 1) waits = true ∧
    ((crowded 896 4 true).launch 0).live = true ∧ ((crowded 896 4 true).launch 0).pri < ((crowded 896 4 true).launch 1).pri ∧
    (crowded 896 4 true).groups = [⟨0, 0, 0, 0, 896, 4, 0, 0, false, [], []⟩] ∧
    ((crowded 896 4 true).ctx 1).saved.length + ((crowded 896 4 true).strandsIn 0 0).length ≤ ((crowded 896 4 true).ctx 1).nslot ∧
    ((crowded 896 1 true).ctx 1).nslot < ((crowded 896 1 true).ctx 1).saved.length + ((crowded 896 1 true).strandsIn 0 0).length ∧
    (crowded 1 4 true).lacksRoom ((crowded 1 4 true).launch 1) waits = false ∧
    ((crowded 1 4 true).victim ((crowded 1 4 true).launch 1) 0).map (fun u => (u.index, ((crowded 1 4 true).launch u.launch).desc.gb)) =
      some (3, true) := by decide +kernel

/-- Launch 0 chosen to yield, with a record slot or none. -/
def yielding (nslot : Nat) : State :=
  { inContext (fun c => { c with nslot := nslot }) with harvest := [⟨0, 0, [0], 1, [0], false, true, false, false, 0⟩] }

theorem test_meets_Yield_saves : (yielding 1).harvestOf? 0 0 = some ⟨0, 0, [0], 1, [0], false, true, false, false, 0⟩ ∧
    (∀ u ∈ (yielding 1).strandsIn 0 0, u.settled = true ∧ u.committed = false) ∧ (yielding 1).scratchStores 0 0 = false ∧
    ((yielding 1).saveAll ((yielding 1).strandsIn 0 0)).isSome = true ∧ ((yielding 0).saveAll ((yielding 0).strandsIn 0 0)).isNone = true ∧
    ((yielding 1).allStrands.map (·.id)).Nodup := by decide +kernel

/-- Launch 0 yielded, with the image of its granule. -/
def sleeping : State :=
  let s := base.setCluster 0 { base.cluster 0 with images := [⟨0, 0, List.replicate 64 7, [0], [8]⟩] }
  { s with
    cur := Strand.empty 0
    groups := [⟨0, 0, 0, 0, 1, 1, 0, 0, true, [], []⟩]
    harvest := [⟨0, 0, [0], 1, [0], false, false, true, false, 0⟩] }

theorem test_meets_Yield_resumes : (sleeping.harvestOf? 0 0).isSome = true ∧ sleeping.resumable (sleeping.launch 0) 0 = true ∧
    (∀ k ∈ sleeping.launches, k.before (sleeping.launch 0) = true → sleeping.resumable k 0 = false) ∧
    (∀ i ∈ (sleeping.cluster 0).images.filter (fun i => i.launch = 0), i.off + i.bytes.length ≤ 2 ^ 22) ∧
    ((sleeping.cluster 0).images.filter (fun i => i.launch = 0)).Pairwise
      (fun i j => i.off + i.bytes.length ≤ j.off ∨ j.off + j.bytes.length ≤ i.off) ∧
    (∀ i ∈ (sleeping.cluster 0).images.filter (fun i => i.launch = 0), ∀ w ∈ i.bad, i.off ≤ w ∧ w < i.off + i.bytes.length) := by decide +kernel

theorem test_meets_ErrorsCountAndRetireUnits : (base.launches.map (·.num)).Nodup ∧ base.launch 0 ∈ base.launches ∧ 7 ∉ base.pkg.retiredFr ∧
    7 ∈ ({ base with pkg := { base.pkg with retiredFr := [7], retiredL2 := [7] } } : State).pkg.retiredFr ∧ (base.cluster 0).retired = false ∧
    ((base.setCluster 0 { base.cluster 0 with retired := true }).cluster 0).retired = true ∧ (base.launch 0).live = true ∧
    base.runsIn 0 0 = true := by decide +kernel

theorem test_meets_OutsideAccesses : queueAnswers base 1 ∧ 2 ^ 38 < (2 ^ 38 - 7) + outsideBytes (.fetchAdd 1) ∧
    (2 ^ 38 - 8) + outsideBytes (.fetchAdd 1) ≤ 2 ^ 38 ∧ outsideFits (.fetchAdd 1) 0x20008 ∧ ¬ outsideFits (.fetchAdd 1) 0x20001 ∧
    (∀ i, i < 8 → base.seqPlace 1 (0x20008 + i) .atomic = some (.mem (0x150008 + i) true)) ∧ base.seqPlace 1 0x40000 .read = none ∧
    base.unowned (keysFrom 0x150008 8) = true ∧ ({ base with owners := [⟨0x150000, 0, true⟩] } : State).unowned (keysFrom 0x150008 8) = false ∧
    base.poisoned (keysFrom 0x150008 8) = false ∧ ({ base with poison := [0x150008] } : State).poisoned (keysFrom 0x150008 8) = true := by
  unfold queueAnswers outsideFits
  decide +kernel

theorem test_meets_OutsideAccesses_places : ((base.ctx 1).hasKey = true ∧ (base.ctx 0).hasKey = false) ∧
    (∀ i, i < 8 → base.seqPlace 1 (0x30000 + i) .read = some (.sys (2 ^ 51 + i)) ∧ base.sysRoute 1 (2 ^ 51 + i) = true) ∧
    (∀ j, j < 8 → unlinked.seqPlace 1 (0x50000 + j) .read = some (.sys (2 ^ 51 + 2 ^ 50 + j))) ∧
    unlinked.target 1 (2 ^ 51 + 2 ^ 50) = none ∧ 2 ^ 51 % 64 + 8 ≤ 64 ∧ outsideKind (.read 8) = .read ∧
    (∀ i, i < 8 → base.seqPlace 1 (0x20008 + i) .read = some (.mem (0x150008 + i) true)) ∧ (keysFrom 0x150008 8).Nodup ∧
    ∀ k ∈ keysFrom 0x150008 8, k < capBase := by decide +kernel

theorem test_meets_OutsideAccesses_refused : ¬ queueAnswers base 64 ∧ ({ base.pkg with recovery := true } : Pkg).recovery = true ∧
    plainAccess (.bits 1 4 4 0) = false ∧ plainAccess (.write [1]) = true := by
  unfold queueAnswers
  decide

theorem test_meets_OutsideAccesses_peer :
    (∃ p ∈ ((inContext (fun c => { c with peers := [(3, 0x8000000500200001)] })).ctx 1).peers, p.2.getLsbD 63 = true ∧
      p.2.toNat / 2 ^ 32 % 2 ^ 16 = 5 ∧ p.2.toNat / 2 ^ 20 % 2 ^ 6 = 2) ∧ (2 ^ 44 - 8) + outsideBytes (.read 8) ≤ 2 ^ 44 := by decide +kernel

theorem test_meets_RegisterWrites : base.pkg.up = 0 ∧ ({ base.pkg with up := 1 } : Pkg).up ≠ 0 ∧ base.pkg.retireq = [] ∧
    ({ base.pkg with retireq := [⟨1, 5⟩] } : Pkg).retireq = [⟨1, 5⟩] ∧ base.pkg.recovery = false := by decide +kernel

theorem test_meets_RegisterWrites_firmware : ({ base.pkg with firmware := some ⟨[1], [], 0⟩ } : Pkg).firmware = some ⟨[1], [], 0⟩ ∧
    base.pkg.firmware = none ∧ (0x1FFFF : Word).toNat % 2 ^ 16 = (0xFFFF : Word).toNat := by decide +kernel

theorem test_meets_Contexts_busy : base.pkg.cmdBusy = false ∧ ({ base with pkg := { base.pkg with cmdBusy := true } } : State).pkg.cmdBusy = true := by
  decide +kernel

theorem test_meets_Contexts : (base.ctx 0).cstate = .free ∧ (base.ctx 1).cstate = .created ∧
    ((inContext (fun c => { c with cstate := .destroying })).ctx 1).cstate = .destroying ∧
    ((inContext (fun c => { c with cstate := .tdiError })).ctx 1).cstate = .tdiError ∧
    ((inContext (fun c => { c with cstate := .destroying })).lineKey.map (·.1)).Nodup := by decide +kernel

/-- A strand with a read of a peer through port 2 under way, port 2 up, with a number of failed replays. -/
def asking (n : Nat) : State :=
  let s := inContext (fun c => { c with peers := [(0, 0x8000000000000004)] })
  { s with
    cur := { s.cur with sys := some ⟨2 ^ 51 + 2 ^ 50, .read 8, some 2⟩ }
    pkg := { s.pkg with up := 4, fails := [(2, 5, n)], trn := 2 } }

theorem test_meets_ForsilPorts : (asking 8).pkg.trn &&& portMask 1 ≠ 0 ∧ (asking 8).pkg.trn &&& portMask 16 = 0 ∧
    (asking 8).pkg.up &&& portMask 2 ≠ 0 ∧ (asking 8).pkg.up &&& portMask 3 = 0 ∧ (List.replicate 240 (0 : Byte)).length = 240 ∧
    find? 2 (asking 8).pkg.fails = some (5, 8) ∧ find? 2 (asking 7).pkg.fails = some (5, 7) ∧
    (asking 8).sysPort 1 (2 ^ 51 + 2 ^ 50) = some (some 2) ∧ (asking 8).cur.sys = some ⟨2 ^ 51 + 2 ^ 50, .read 8, some 2⟩ ∧ base.cur.sys = none := by
  decide +kernel

theorem test_meets_PowerArbiter : (∃ x ∈ ({ base.pkg with temps := [0, 120, 0, 0] } : Pkg).temps, 120 ≤ x) ∧ (∀ x ∈ base.pkg.temps, x < 120) ∧
    base.pkg.staged = none ∧ ({ base.pkg with staged := some ⟨[], [], 0⟩ } : Pkg).staged = some ⟨[], [], 0⟩ := by decide +kernel

theorem test_meets_DecodingAndEncoding : isWord (.bLt 3 4 0xFFFF8 none) = true ∧ WellFormed (.bLt 3 4 0xFFFF8 none) = true ∧
    decodeOne 0x00000C40882FFFF8 = some (.bLt 3 4 0xFFFF8 none) ∧ isWord .fenceComplete = false := by decide +kernel

/-- The checks of an eight-slot strand at user privilege in a deterministic launch. -/
def strictEnv : DecEnv := { base.decEnv with fourSlot := false, super := false, det := true, gb := false, vcount := 0 }

theorem test_meets_DecodedBundles : decodeIn strictEnv 0x0CD340407C614000 = .ok (.pair (.launch 12) (.addi 13 13 64)) ∧
    decodeIn strictEnv 0x00000C40882FFFF8 = .ok (.long (.bLt 3 4 0xFFFF8 none)) ∧
    (0x0000000001FFFFFF : Word).toNat / 2 ^ 25 % 2 ^ 6 = 0 ∧ (0x0000000001FFFFFF : Word).toNat % 2 ^ 32 ≠ 0 ∧
    (0x03FFFFFF00000000 : Word).toNat / 2 ^ 58 = 0 ∧ (0x03FFFFFF00000000 : Word).toNat / 2 ^ 32 ≠ 0 := by decide +kernel

/-- The strand whose next bundle is `b`, its turn next on the tape. -/
def turning (b : Word) (f : Strand → Strand) : State :=
  let s := (atCur f).putBytes 1 (keysFrom 0x140000 8) (leBytes 8 b.toNat)
  { s with tape := [.turn 0] }

/-- The machine as that turn begins. -/
def begun (b : Word) (f : Strand → Strand) : State := turnBegins ({ turning b f with tape := [] }.focus 0)

theorem test_meets_StepRunsTheDecodedBundle : (turning 0 id).pkg.powered = true ∧ (turning 0 id).tape = .turn 0 :: [] ∧
    readyToIssue (begun 0 id) ∧ (begun 0 id).cycles.length = 4 ∧ (begun 0 id).cur.id < 6144 := by
  unfold readyToIssue
  decide +kernel

theorem test_meets_StepRunsTheDecodedBundle_fetch :
    (match exec .bundleFetch (begun 0x0CD340407C614000 id) with
      | .next f => decide (f.disp = .done ∧ f.cur.ibuf = some (0x10000, 0x0CD340407C614000))
      | .fault _ | .refused _ => false) = true := by decide +kernel

theorem test_meets_StepRunsTheDecodedBundle_issue :
    decodeIn base.decEnv 0x0CD340407C614000 = .ok (.pair (.launch 12) (.addi 13 13 64)) ∧
    base.cur.breach (.pair (.launch 12) (.addi 13 13 64)) = none ∧ base.cur.interlocked 0 (.pair (.launch 12) (.addi 13 13 64)) = false ∧
    leavesPlace (.launch 12) = false ∧ leavesPlace (.trap 42) = true ∧ decodeIn base.decEnv 1 = .error (false, .field) ∧
    (pending.cur.breach (.pair .nop (.addi 30 1 0))).isSome = true ∧
    (itemAt 0 (fun t => { t with pend := [⟨30, 0, 0x10000, .load 0x150000 .b64 true, none, false, 0, false, none, 0, 1⟩] })).cur.breach
      (.pair .nop (.addi 30 1 0)) = none ∧
    (itemAt 0 (fun t => { t with pend := [⟨30, 0, 0x10000, .load 0x150000 .b64 true, none, false, 0, false, none, 0, 1⟩] })).cur.interlocked 0
      (.pair .nop (.addi 30 1 0)) = true ∧
    ({ base.cur with justIn := [(30, 7)] } : Strand).interlocked 7 (.pair .nop (.addi 30 1 0)) = true ∧
    ({ base.cur with justIn := [(30, 7)] } : Strand).interlocked 8 (.pair .nop (.addi 30 1 0)) = false := by decide +kernel

/-- A word has stopped its bundle: it trapped, or it left its item. -/
def stoppedBy (r : State) : Bool := decide (r.disp = .trapped) || decide (r.disp = .left)

/-- A state that a step answers, and a test of it. -/
def steps (s : State) (p : State → Bool) : Bool :=
  match step s with
  | .next t => p t
  | .fault _ | .refused _ => false

theorem test_meets_StepRunsTheDecodedBundle_tape :
    steps { base with tape := [.event (.correctedError (.cluster 0)), .turn 0] } (fun t => t.tape.length == 1) = true ∧
    steps { base with tape := [.cmdDone], pkg := { base.pkg with cmdBusy := true } } (fun t => !t.pkg.cmdBusy) = true ∧
    base.tape = [] ∧ base.pkg.recovery = false ∧ base.cur.status = .running ∧ base.disp ≠ .wait ∧
    isWord (.correctedError (.cluster 0)) = false := by decide +kernel

theorem test_meets_StepRunsTheDecodedBundle_outcomes :
    (match exec (.launch 12) (inHand (begun 0 id) 0x0CD340407C614000).tick with
      | .next r => stoppedBy r
      | .fault _ | .refused _ => false) = true ∧
    (match exec (.addi 13 13 64) (readsBefore (inHand (begun 0 id) 0x0CD340407C614000) (inHand (begun 0 id) 0x0CD340407C614000)) with
      | .next r => decide (r.disp = .done)
      | .fault _ | .refused _ => false) = true := by decide +kernel

theorem test_step_runs_both_words : steps (turning 0x0CB000017C00002A id) (fun t => t.rd 11 == 1 && t.cur.fcause.toNat % 32 == 0x0E) = true := by
  decide +kernel

theorem test_meets_OnlyTheLossOfPower : base.pkg.powered = true ∧
    ({ base with pkg := { base.pkg with powered := false }, tape := [.event .packageReset] } : State).pkg.powered = false ∧
    ({ base with pkg := { base.pkg with powered := false } } : State).resetNext = false := by decide +kernel

theorem test_meets_StepsKeepMemoryCanonical : base.canonical ∧ steps (turning 0 id) (fun t => t.cur.pc == 0x10008) = true := by
  refine ⟨by unfold State.canonical; decide +kernel, by decide +kernel⟩

theorem test_meets_UserPrivilege : isWord (.add 10 1 2) = true ∧ base.cur.super = false ∧
    (match exec (.add 10 1 2) base with
      | .next t => decide (t.disp ≠ .trapped) && decide (t.disp ≠ .left)
      | .fault _ | .refused _ => false) = true := by decide +kernel

theorem test_meets_DescriptorChecks : (wordsAt (launching 0x20000) 1 0x150100 32).length = 32 ∧
    descFault (base.ctx 1) (List.replicate 32 0) none = some 2 := by decide +kernel

/-! ## Results the manual works out -/

/-- An instruction answers a next state that passes a test. -/
def after (i : Instr) (s : State) (p : State → Bool) : Bool :=
  match exec i s with
  | .next t => p t
  | .fault _ | .refused _ => false

/-- The strand with values in registers. -/
def holdingX (xs : List (Nat × Nat)) : State :=
  atCur (fun t => xs.foldl (fun (t : Strand) (p : Nat × Nat) => t.setX (BitVec.ofNat 6 p.1) (BitVec.ofNat 64 p.2)) t)

/-- R80: the quotient and remainder of the most negative number by −1, and by zero. -/
theorem test_div_corners : after (.div 8 21 31) base (fun t => t.rd 8 == 0x8000000000000000) = true ∧
    after (.rem 8 21 31) base (fun t => t.rd 8 == 0) = true ∧ after (.div 8 13 0) base (fun t => t.rd 8 == 0xFFFFFFFFFFFFFFFF) = true ∧
    after (.rem 8 13 0) base (fun t => t.rd 8 == 7) = true := by decide +kernel

/-- R87: LIH of the field 0x80000, and the constant 0x3F80_0800 of spec/06. -/
theorem test_lih : after (.lih 8 0x80000) base (fun t => t.rd 8 == 0xFFFFFFFF80000000) = true ∧
    after (.lih 8 0x3F801) base (fun t => after (.addi 8 8 0x800) t (fun u => u.rd 8 == 0x3F800800)) = true := by decide +kernel

/-- R90: ADD and ADDA at the top of the address space. -/
theorem test_add_and_adda : after (.add 8 1 2) (holdingX [(1, 0x4FFFFFFFFFFFFFC0), (2, 0x80)]) (fun t => t.rd 8 == 0x5000000000000040) = true ∧
    after (.adda 8 1 2) (holdingX [(1, 0x4FFFFFFFFFFFFFC0), (2, 0x80)]) (fun t => t.rd 8 == 0x4000000000000040) = true ∧
    after (.adda 8 1 2) (holdingX [(1, 0x4000001200000000), (2, 2 ^ 64 - 0x40)]) (fun t => t.rd 8 == 0x40000011FFFFFFC0) = true := by
  decide +kernel

/-- R69: x0 discards a write. -/
theorem test_x0 : after (.add 0 1 2) base (fun t => t.rd 0 == 0) = true := by decide +kernel

/-- Spec/06: the square of 1 + 2^−12, rounded and inexact. -/
theorem test_fmul_rounds : after (.fmul .s 11 10 10) (holdingX [(10, 0x3F800800)]) (fun t => t.rd 11 == 0x3F801000 && t.cur.fpc == 1) = true := by
  decide +kernel

/-- Spec/06: its remainder in one rounding, and in two. -/
theorem test_ffma_once : after (.ffma .s 14 10 10 12) (holdingX [(10, 0x3F800800), (12, 0xBF801000)])
    (fun t => t.rd 14 == 0x33800000 && t.cur.fpc == 0) = true ∧
    after (.fadd .s 13 11 12) (holdingX [(11, 0x3F801000), (12, 0xBF801000)]) (fun t => t.rd 13 == 0) = true := by decide +kernel

/-- Spec/06: 3.0 × 10^9 saturates as i32, raising NV, and is exact as b32. -/
theorem test_fcvt_saturates : after (.fcvt .i32 .f32 16 15) (holdingX [(15, 0x4F32D05E)]) (fun t => t.rd 16 == 0x7FFFFFFF && t.cur.fpc == 16) = true ∧
    after (.fcvt .b32 .f32 17 15) (holdingX [(15, 0x4F32D05E)]) (fun t => t.rd 17 == 0xB2D05E00 && t.cur.fpc == 0) = true := by
  decide +kernel

/-- R96: the class of the least FP16 subnormal. -/
theorem test_fclass : after (.fclass .h 3 4) (holdingX [(4, 1)]) (fun t => t.rd 3 == 0x20) = true := by decide +kernel

/-- Spec/09: the scale of a block whose largest magnitude is 21, and the codes of its elements under rne and rtz. -/
theorem test_mxfp4_block : scaleFor [.num false 21 1, .num true 12 10, .num true 13 1] 1 = 0x81 ∧
    [(21, 4, false), (12, 40, true), (13002342, 16777216, false), (13, 4, true), (1, 20, false), (1, 40, true), (7, 4, false), (10, 4, false)].map
      (fun e : Nat × Nat × Bool => ((roundElem 1 .rne (.num e.2.2 e.1 e.2.1)).1, (roundElem 1 .rtz (.num e.2.2 e.1 e.2.1)).1)) =
      [(7, 6), (9, 8), (2, 1), (0xD, 0xD), (0, 0), (8, 8), (4, 3), (4, 4)] := by decide +kernel

/-- Spec/11: 19.0 in E4M3 is a tie that goes to 20, inexact. -/
theorem test_store_e4m3 : (roundElem 4 .rne (.num false 19 1)) = (0x5A, 1) := by decide +kernel

/-- Spec/14: the sixteen products of the K row under the window of 25 bits, from +0 and from 2^24, and with k = 0 and k = 4 exchanged. -/
theorem test_fp8_row : (let a := [0x78, 0x18, 0x18, 0x1C, 0xF8, 0x9E, 0x30, 0x38] ++ List.replicate 8 0x10
    let a' := [0xF8, 0x18, 0x18, 0x1C, 0x78, 0x9E, 0x30, 0x38] ++ List.replicate 8 0x10
    let b := [0x78, 0x18, 0x18, 0x18, 0x78, 0x18, 0x30, 0x38] ++ List.replicate 8 0x18
    [floatRow false 25 (a.map (valueOf 4)) (b.map (valueOf 4)) none,
      floatRow false 25 (a.map (valueOf 4)) (b.map (valueOf 4)) (some (valueOf 10 0x4B800000)),
      floatRow false 25 (a'.map (valueOf 4)) (b.map (valueOf 4)) none]) = [0x3FA10000, 0x4B800001, 0x3FA10000] := by decide +kernel

/-- Spec/09: draws of R131. -/
theorem test_cuvee : cuvee 0 0 0 = 0 ∧ cuvee 0 1 1 = mix64 0xD13BA20E30D8266C ∧ cuvee 0 0 1 = mix64 0x5E17C3A90B4DF261 := by decide +kernel

/-- Spec/10: the worked walk, and its variations on the last two entries. -/
def walking (l3 l4 : Nat) : State :=
  [(0x10000A8, 0x2000001), (0x20079B8, 0x2100001), (0x210BC00, l3), (0x22091A0, l4)].foldl
    (fun (s : State) (e : Nat × Nat) => s.putBytes 1 (keysFrom e.1 8) (leBytes 8 e.2)) (inContext (fun c => { c with root := 0x1000000 }))

theorem test_walk : (walking 0x2200001 0x54321000F).globalPlace none 1 0xABCDEF012345678 .read = .ok (.mem 0x543215678 true) ∧
    (walking 0x200000000F 0).globalPlace none 1 0xABCDEF012345678 .write = .ok (.mem 0x2012345678 true) ∧
    (walking 0x2000000007 0).globalPlace none 1 0xABCDEF012345678 .write = .error (5, 2) ∧
    (walking 0x2200001 0x543210005).globalPlace none 1 0xABCDEF012345678 .read = .error (4, 8) ∧
    (walking 0x2200001 0x543210003).globalPlace none 1 0xABCDEF012345678 .read = .error (5, 1) ∧
    (walking 0x2001000007 0).globalPlace none 1 0xABCDEF012345678 .read = .error (4, 7) := by decide +kernel

/-- Spec/14: the handles h0 and h2 of the worked program, built by HSET and HPUT. -/
theorem test_handles : after (.hset 0 22 true) (holdingX [(22, 0x2000000000000800), (18, 15), (20, 64)]) (fun t =>
    after (.hput 0 18 1) t fun t => after (.hput 0 18 2) t fun t => after (.hput 0 20 3) t fun t =>
      t.rdH 0 == 0x000100004000F00F2000000000000800) = true := by decide +kernel

/-- Spec/20: `trap 42` leaves its cause word, the address after it in %epc, and %estat 9. -/
theorem test_trap : after (.trap 42) recording (fun t => t.cur.fcause == 0x0000002A0000000E && t.cur.epc == 0x10008 && t.cur.estat == 9
    && t.cur.super && t.cur.pc == 0x10040 && recordField (t.bytesAs 1 (keysFrom 0x150000 256)) 8 == 0x0000002A0000000E) = true := by
  decide +kernel

/-- Spec/07: the class of the loop site with its header 0xD020_2106, the default below its minimum count, and the merge of the six items'
updates into its slot. -/
theorem test_vintage : slotClass [4, 4, 1, 0xD0202106] = 0 ∧ slotClass [3, 9, 9, 0xD0202106] = 2 ∧
    (let s := [(0x150000, 4), (0x150004, 4), (0x150008, 1), (0x15000C, 0xD0202106), (0x158000, 6), (0x158004, 21), (0x158008, 6)].foldl
        (fun (s : State) (e : Nat × Nat) => s.putBytes 1 (keysFrom e.1 4) (leBytes 4 e.2)) base
      let t := s.mergeSlot 1 0x20000 0x28000 0
      ([0, 4, 8, 12].map (fun o => t.natAs 1 (0x150000 + o) 4), [0, 4, 8, 12].map (fun o => t.natAs 1 (0x158000 + o) 4))) =
      ([0xA, 0x19, 6, 0xD0202106], [0, 0, 0, 0]) := by decide +kernel

/-- Spec/16: the line of MXFP4, its inputs as FP32. -/
def lees : State :=
  let s := withHandles (tile 2 0 1 16 64 0) (tile 1 0 1 16 8 64) 0
  let xs := [0x40A00000, 0x3F400000, 0x3F400000, 0x3F400000, 0x3F400000, 0x3FA00000, 0x3FA00000, 0x3FA00000, 0x3FA00000, 0xBE800000, 0xBE800000,
    0xBE800000, 0xBE800000, 0x40200000, 0x40200000, 0]
  { s.putBytes 0 (keysFrom (scrKey 0 0) 64) (xs.flatMap (leBytes 4)) with
    launches := s.launches.map (fun l => { l with fmt := [0, 0x800000000000000000881, 0xA] ++ List.replicate 13 0 }) }

/-- Spec/16: `qst.start.ns`: the bytes stored, the scale byte, the tag, the empty bank and the status word. -/
theorem test_qst : after (.qst 2 1 0 10 .ns false) lees (fun s => after (.tileCommandStart 0) s.passAll fun t => after (.tileUnitComplete 0) t fun u =>
    u.bytesAs 0 (keysFrom (scrKey 0 64) 9) == [0x46, 0x21, 0x21, 0x23, 0x83, 0x89, 0x49, 0x05, 0x7F] && u.cur.lees.tag == 0xC10100000010
      && u.cur.lees.residue 0 == 0 && u.rd 10 == 0x0000001000000003) = true := by decide +kernel

/-- Spec/12 and spec/11: the compare-and-swap of a counter that holds 5, and an add that returns the old value. -/
theorem test_amo : amoNew .cas 8 5 9 5 = 9 ∧ amoNew .cas 8 4 9 5 = 4 ∧ amoNew .add 4 0xFFFFFFFF 1 0 = 0 ∧
    amoNew .min 4 0x80000000 1 0 = 0x80000000 ∧ amoNew .minb 4 0x80000000 1 0 = 1 := by decide +kernel

/-- R211: a REP of more than 4,096 is the format fault 0x14. -/
theorem test_rep_limit : after (.rep 0 19) recording (fun t => t.cur.fcause.toNat % 2 ^ 16 == 0x1407) = true ∧
    after (.rep 0 17) recording (fun t => t.cur.rep.armed && t.cur.rep.n == 4096) = true := by decide +kernel

/-! ## Units of the engines, and what the cellar area takes -/

theorem canonical_base : Memory.wf base.mem = true := by decide +kernel

theorem no_bad_words : base.poison = [] := by decide +kernel

/-- A command that the tile unit of cluster 0 performs next. -/
theorem runs_of (c : Cmd) (h : firstIssued (((queueing c true).tileQueue 0).filter (fun c => c.started)) = some c)
    (u : (queueing c true).unitClear c = true) (l : c.late = none) : RunsUnit (queueing c true) 0 c :=
  ⟨by simp only [State.canonical, queueing, State.setCluster]; exact canonical_base, by decide, ⟨c, h, .inl ⟨u, rfl⟩⟩, l,
    fun _ _ ⟨_, h, _⟩ => by
      simp only [queueing, State.setCluster, no_bad_words] at h
      exact List.not_mem_nil h⟩

/-- A tile without scales has no scale byte. -/
theorem no_scale_byte (t : Tile) (h : scfOf t = 0) (o : Nat) : ¬ scaleByte t o := by
  rintro ⟨l, p, i, -, -, hs, -⟩
  omega

/-- A started command of the tile queue at unit `n`. -/
def unitOf (i : Instr) (hd ha hb : Handle) (n : Nat) : Cmd := { ofStrand .tile i hd ha hb with started := true, prog := n, reg := 10 }

/-- A sum of FP32 tiles of 4 × 4 at its last line. -/
def addUnit : Cmd := unitOf (.tadd ⟨1, 2, 3, 3, 10⟩ .rne) (tile 1 0 4 4 16 0) (tile 1 0 4 4 16 64) (tile 1 0 4 4 16 128) 3

theorem test_meets_TileLines : RunsUnit (queueing addUnit true) 0 addUnit ∧
    elementwise addUnit.instr (commandTile (queueing addUnit true) addUnit addUnit.hd) = true ∧
    addUnit.prog + 1 = linesOf (commandTile (queueing addUnit true) addUnit addUnit.hd) ∧
    Placed (commandTile (queueing addUnit true) addUnit addUnit.hd) ∧ scfOf (commandTile (queueing addUnit true) addUnit addUnit.hd) = 0 ∧
    (∀ t ∈ sourcesOf (queueing addUnit true) addUnit, Placed t ∧ ReadApart (commandTile (queueing addUnit true) addUnit addUnit.hd) t) := by
  have hs : ∀ t ∈ sourcesOf (queueing addUnit true) addUnit, (inScratch t = true ∧ fieldsRight t = true ∧ baseOf t + spanBytes t ≤ 2 ^ 22) ∧
    shareByte (commandTile (queueing addUnit true) addUnit addUnit.hd) t = false ∧ scfOf t = 0 := by decide +kernel
  refine ⟨runs_of _ (by decide +kernel) (by decide +kernel) rfl, by decide +kernel, by decide +kernel, ?_, by decide +kernel, fun t ht => ?_⟩
  · unfold Placed; decide +kernel
  · exact ⟨(hs t ht).1, .inl (hs t ht).2.1, fun o ho => absurd ho (no_scale_byte t (hs t ht).2.2 o)⟩

/-- A sum of each row of an FP32 tile at its last row. -/
def sumUnit : Cmd := unitOf (.tred 1 2 0 10 .rne .sum) (tile 1 0 4 1 16 0) (tile 1 0 4 4 16 64) 0 3

theorem test_meets_Reductions : RunsUnit (queueing sumUnit true) 0 sumUnit ∧ sumUnit.instr = .tred 1 2 0 10 .rne .sum ∧
    inScratch (commandTile (queueing sumUnit true) sumUnit sumUnit.hd) = true ∧ inScratch (commandTile (queueing sumUnit true) sumUnit sumUnit.ha) = true ∧
    2 ^ 1 < [Val.num false 1 1, .num false 2 1, .num false 3 1].length ∧ (Val.num false 1 1).isNan = false ∧ (Val.nan false).isNan = true ∧
    (Val.inf true ≠ .inf (!true)) := by
  refine ⟨runs_of _ (by decide +kernel) (by decide +kernel) rfl, rfl, ?_⟩
  decide +kernel

theorem test_meets_Reductions_sum : ratOf (.num false 1 2) = some (1 / 2) ∧ ratOf (.num true 1 2) = some (-1 / 2) := by
  constructor <;> norm_num [ratOf]

/-- The two largest of the four rows of each column, at the last column. -/
def selectUnit : Cmd := unitOf (.tselk ⟨1, 2, 3, 0, 10⟩ 6 false) (tile 1 0 2 4 16 0) (tile 1 0 4 4 16 64) (tile 2 0 2 4 4 256) 3

theorem test_meets_Selections : RunsUnit (queueing selectUnit true) 0 selectUnit ∧
    (let s := queueing selectUnit true
     let d := commandTile s selectUnit selectUnit.hd
     let a := commandTile s selectUnit selectUnit.ha
     let b := commandTile s selectUnit selectUnit.hb
     (inScratch d && fieldsRight d && decide (baseOf d + spanBytes d ≤ 2 ^ 22) && inScratch a && fieldsRight a && decide (baseOf a + spanBytes a ≤ 2 ^ 22)
      && inScratch b && fieldsRight b && decide (baseOf b + spanBytes b ≤ 2 ^ 22)) = true ∧ shareByte d a = false ∧ shareByte b a = false ∧
     shareByte d b = false ∧ rowsOf b = rowsOf d ∧ colsOf d = colsOf a ∧ colsOf b = colsOf a ∧ selectUnit.prog + 1 = colsOf a ∧ rowsOf d ≤ rowsOf a ∧
     scfOf a = 0) := by
  refine ⟨runs_of _ (by decide +kernel) (by decide +kernel) rfl, ?_⟩
  decide +kernel

/-- A row of sixteen FP32 values into one block, and the shaped QST of it. -/
def blockUnit (i : Instr) : Cmd := unitOf i (tile 3 0 1 16 16 0) (tile 1 0 1 16 64 64) 0 0

theorem test_meets_Blocks_apart :
    let d := tileOf base.curLaunch.fmt (blockUnit .nop).hd
    let a := tileOf base.curLaunch.fmt (blockUnit .nop).ha
    blocksAlong d = true ∧ lineElems d = 2 ^ blkOf d ∧ linesOf d = 1 ∧ scfOf d = 1 ∧ Placed d ∧ Placed a ∧ ScalesPlaced d ∧ ReadApart d a ∧
      ScalesApart d a ∧ shareByte d a = false := by
  intro d a
  have hp : ∀ l, l < 1 → ∀ p, p < 16 → scalePlace d l p = 2048 := by decide +kernel
  have hd : (blocksAlong d && inScratch d && fieldsRight d) = true ∧ lineElems d = 16 ∧ linesOf d = 1 ∧ blkOf d = 4 ∧ scfOf d = 1 ∧ baseOf d = 0 ∧
    spanBytes d = 16 ∧ baseOf a = 64 ∧ spanBytes a = 64 ∧ (inScratch a && fieldsRight a) = true ∧ scfOf a = 0 ∧ shareByte d a = false := by decide +kernel
  simp only [Bool.and_eq_true] at hd
  obtain ⟨⟨⟨h1, h2⟩, h3⟩, h4, h5, h6, h7, h8, h9, h10, h11, ⟨h12, h13⟩, h14, h15⟩ := hd
  refine ⟨h1, by norm_num [h4, h6], h5, h7, ⟨h2, h3, by omega⟩, ⟨h12, h13, by omega⟩, ⟨by omega, fun l p hl hq => ?_⟩,
    ⟨.inl h15, fun o ho => absurd ho (no_scale_byte a h14 o)⟩, fun o ho => ⟨no_scale_byte a h14 o, ?_⟩, h15⟩
  · rw [hp l (by omega) p (by omega)]
    omega
  · obtain ⟨l, p, i, hl, hq, hs, rfl⟩ := ho
    rw [hp l (by omega) p (by omega)]
    omega

theorem test_meets_Blocks : RunsUnit (queueing (blockUnit (.tcvt 1 2 0 10 .rne)) true) 0 (blockUnit (.tcvt 1 2 0 10 .rne)) :=
  runs_of _ (by decide +kernel) (by decide +kernel) rfl

theorem test_meets_Quantised : RunsUnit (queueing (blockUnit (.qst 1 2 0 10 .ns true)) true) 0 (blockUnit (.qst 1 2 0 10 .ns true)) ∧
    (fp32.decode (((queueing (blockUnit (.qst 1 2 0 10 .ns true)) true).issuer (blockUnit (.qst 1 2 0 10 .ns true))).lees.residue 0).toNat).isNan = false :=
  ⟨runs_of _ (by decide +kernel) (by decide +kernel) rfl, by decide +kernel⟩

theorem test_meets_Rounding : (elementFloat 4).isSome = true ∧ (elementInt 7).isSome = true ∧ ratOf (.num true 19 1) = some (-19) ∧
    ratOf (.num true 0 1) = some 0 ∧ (2 : ℚ) ^ (4 : ℤ) ≤ |-19| ∧ |(-19 : ℚ)| < (2 : ℚ) ^ ((4 : ℤ) + 1) ∧
    [Val.num true 19 1, .inf false].any Val.isNan = false ∧ [Val.nan false].any Val.isNan = true ∧ properVal (.num true 19 1) := by
  refine ⟨by rfl, by rfl, by norm_num [ratOf], by norm_num [ratOf], by norm_num [abs_of_neg], by norm_num [abs_of_neg], by rfl, by rfl, by simp [properVal]⟩

/-- A product of FP16 tiles of 16 × 32 and 32 × 16. -/
def product : Body := ⟨true, tile 1 0 16 16 64 0, tile 4 0 16 32 64 1024, tile 4 1 32 16 64 2048, 0, 29, 0x10000, 0, 0, 0⟩

theorem test_meets_MatrixRows : stepHandle base.curLaunch.fmt product.hd 0 = some product.hd ∧ stepHandle base.curLaunch.fmt product.ha 0 = some product.ha ∧
    stepHandle base.curLaunch.fmt product.hb 0 = some product.hb ∧
    (let t := tileOf base.curLaunch.fmt
     matrixPair (t product.ha) (t product.hb) = some (32, true) ∧ matrixShaped (t product.hd) (t product.ha) (t product.hb) 32 ∧
      efOf (t product.hd) = 10 ∧ scfOf (t product.hd) = 0 ∧ fieldsRight (t product.hd) = true ∧
      baseOf (t product.hd) % 2 ^ 22 + spanBytes (t product.hd) ≤ 2 ^ 22) := by
  unfold matrixShaped
  decide +kernel

theorem test_meets_MatrixElements : (∀ p ∈ [Val.num false 0 1].zip [Val.num true 1 1], ratOf p.1 = some 0 ∨ ratOf p.2 = some 0) ∧
    (∀ v ∈ [Val.num false 0 1] ++ [Val.num true 1 1], v.isNan = false ∧ v.isInf = false) ∧ [Val.num false 3 1, .num true 128 1] = [3, -128].map ofInt ∧
    (∃ p ∈ [Val.inf true].zip [Val.num false 0 1], p.1.isInf = true ∧ p.2.isZero = true) := by
  refine ⟨?_, by decide, by decide, by decide⟩
  intro p hp
  obtain rfl : p = (Val.num false 0 1, Val.num true 1 1) := by simpa using hp
  exact .inl (by norm_num [ratOf])

/-- The unit of a command that has one byte left to write in scratch, or none. -/
theorem test_meets_UnitsGoNext : GoesNext (queueing addUnit true).unitClear (((queueing addUnit true).tileQueue 0).filter (fun c => c.started)) (some addUnit) ∧
    GoesNext (delayed addUnit).unitClear (((delayed addUnit).tileQueue 0).filter (fun c => c.started)) none ∧
    LeftInScratch { addUnit with late := some [(scrKey 0 0, 7, 255)] } ∧ addUnit.late = none := by
  refine ⟨⟨addUnit, by decide +kernel, .inl ⟨by decide +kernel, rfl⟩⟩, fun h e => ?_, fun cells e q hq => ?_, rfl⟩
  · have w : firstIssued (((delayed addUnit).tileQueue 0).filter (fun c => c.started)) = some addUnit := by decide +kernel
    obtain rfl : addUnit = h := Option.some.inj (w.symm.trans e)
    exact ⟨by decide +kernel, by decide +kernel⟩
  · obtain rfl : [(scrKey 0 0, 7, 255)] = cells := Option.some.inj e
    obtain rfl : q = (scrKey 0 0, 7, 255) := by simpa using hq
    decide

theorem test_meets_Permits : WaitsForPermit (queueing (matrixCmd false) false) 0 0 ∧
    (∃ p ∈ (queueing (matrixCmd false) false).pkg.ring, p.die = 0 ∧ ComesAt p 0 0 0) ∧ 0 ≤ (queueing (matrixCmd false) false).cycle 0 ∧
    heldPermits (queueing (matrixCmd false) false) 0 < base.pkg.permits.getD 0 0 ∧ ¬ WaitsForPermit (queueing (matrixCmd false) true) 0 0 := by
  refine ⟨⟨by decide +kernel, matrixCmd false, by decide +kernel, rfl, by decide +kernel, by decide +kernel⟩,
    ⟨⟨0, 0, 0⟩, by decide +kernel, rfl, by decide, fun _ h => by omega⟩, by decide +kernel, by unfold heldPermits; decide +kernel, fun h => absurd h.1 (by decide +kernel)⟩

/-- A relocation of the first word of .text, of symbol 1 at the start of .text. -/
def symbolObject (t : Nat) (rs : List Reloc) : CodeObject := { codeObject 0x5A32 (⟨0, 0, t, 1, 0⟩ :: rs) with syms := [⟨"", 0, 0, false, 0, false⟩, ⟨"k", 0, 0, true, 8, true⟩] }

theorem test_meets_Relocations : (symbolObject 7 [⟨0, 0, 6, 1, 0⟩]).relocs.find? (fun q => q.type = 6 && relocPlace (symbolObject 7 []) (placement []) q = 0x60000) =
      some ⟨0, 0, 6, 1, 0⟩ ∧ (symAddr (symbolObject 7 []) (placement []) 1).isSome = true ∧ (codeObject 0x5A32 []).syms[1]? = none ∧
    (∀ q ∈ (symbolObject 7 []).relocs, q.type ≠ 6) ∧ (⟨0, 4, 0, 32, 5⟩ : Patch).size ≠ 0 ∧ 0 + 4 ≤ (List.replicate 8 (0 : Byte)).length ∧
    (List.replicate 3 (0 : Byte)).length < 0 + 4 ∧ (patchOf (symbolObject 1 []) (placement []) ⟨0, 0, 1, 1, 0⟩).isSome = true ∧
    (codeObject 0x5A32 []).sections[0]? = some ⟨".text", true, true, true, false, 8, List.replicate 8 0⟩ := by decide +kernel

/-- A saved strand whose fault record came with it. -/
def recorded : State := { inContext (fun c => { c with frbase := 0x20000, saved := [⟨0, true, false, { base.cur with record := List.replicate 256 7 }⟩] }) with cur := Strand.empty 0 }

theorem test_meets_Preemption_record : recorded.recordPlace { base.cur with id := 3 } = some (.mem 0x150300 true) ∧
    recorded.recordFree { base.cur with id := 3 } = true ∧ 0x150300 + 256 ≤ capBase ∧ recorded.canonical ∧
    base.recordPlace { base.cur with id := 3 } = none ∧
    ((inContext (fun c => { c with frbase := 0x30000 })).recordPlace { base.cur with id := 3 }) = some (.sys (2 ^ 51 + 768)) := by
  refine ⟨by decide +kernel, by decide +kernel, by decide,
    by simp only [State.canonical, recorded, inContext, State.setCtx]; exact canonical_base, by decide +kernel, by decide +kernel⟩

/-- The reserved bits of a record are those that no field takes: here bit 8 of its state word is set. -/
theorem test_meets_Preemption_reserved : reservedClear parked 1 0 0 ∧
    ¬ reservedClear (parked.setByte 1 (savedAddr parked 1 0 + 0x19) 1) 1 0 0 ∧
    ¬ reservedClear (parked.setByte 1 (cellarBase parked 1 + 0x18000140) 1) 1 0 0 := by
  unfold reservedClear headerClear
  exact ⟨by decide +kernel, by decide +kernel, by decide +kernel⟩

theorem test_meets_Preemption_leaves : mayGo base base.cur ∧ mayGo (yielding 1) (yielding 1).cur ∧
    ¬ mayGo (queueing { addUnit with late := some [(scrKey 0 0, 7, 255)] } true) base.cur ∧
    (∀ r ∈ imageRuns base 1 0 (allocationImage base ⟨0, 0, 0, 4096, 1, 1, 0, 0, false, [], []⟩), r.1 + r.2.1.length ≤ capBase) ∧
    savedAddr base 1 0 + 0x8000 ≤ capBase := by
  unfold mayGo
  refine ⟨by decide +kernel, by decide +kernel, by decide +kernel, ?_, by decide +kernel⟩
  decide +kernel

theorem test_meets_Errors_read : isBeingRead pending 0x150003 ∧ ¬ isBeingRead base 0x150003 := by
  unfold isBeingRead
  decide +kernel

theorem test_meets_Routes : base.target 1 (2 ^ 51) = some (.host 1 0) ∧ (asking 8).target 1 (2 ^ 51 + 2 ^ 50) = some (.peer 2 0 0 0) ∧
    (2 ^ 51 + 2 ^ 50) / 2 ^ 50 % 2 = 1 ∧ ((List.range 16).filter (fun i => (0x8000000000000004 : Word).getLsbD i)).length = 1 := by decide +kernel

theorem test_meets_OutsideAccesses_held : WalkFree base 1 0x20008 ∧
    ¬ WalkFree ({ base with owners := [⟨0x130000, 0, true⟩] } : State) 1 0x20008 ∧ (asking 8).pkg.up.getLsbD 2 = true ∧
    (asking 8).pkg.up.getLsbD 3 = false := by
  unfold WalkFree
  decide +kernel

/-! ## Copies: units that start, decrypt, write to system space or fault; element accesses to system space; bad words -/

/-- The copy of two rows from scratch into the page of system space. -/
def sendingOut : Cmd :=
  { ofStrand .copy (.cpyOut 1 2 0 0) (globalTile 0 2 8 8 0x30000) (tile 0 0 2 8 8 0) 0 with started := true }

/-- A copy whose source page has no translation and of which it has met the failed walk. -/
def failing : Cmd := { copyCmd (tile 0 0 2 8 8 0) (globalTile 0 2 8 8 0x40000) 0 with walkFault := some (4, 4) }

/-- A decrypting copy. -/
def opening : Cmd := { movingIn 0 with xs := 0x20040, pblk := 1 <<< 210 ||| 8 <<< 160 ||| 2 <<< 128, key := some 7 }

theorem test_meets_Decanters_starts : UnitStarts (queueing (movingIn 0) true) 30 (movingIn 0) ∧ UnitStarts (queueing sendingOut true) 30 sendingOut ∧
    UnitStarts (queueing failing true) 30 failing ∧ UnitStarts (queueing opening true) 30 opening ∧
    ¬ Decrypts (movingIn 0) ∧ ¬ Decrypts sendingOut ∧ ¬ Decrypts failing ∧ Decrypts opening := by
  unfold UnitStarts RunsCopy Decrypts
  and_intros <;> decide +kernel

/-- The plan of a unit: writes into system space, and whether an answer is left over. -/
def planned (c : Cmd) (ext : List Byte) : Option (Bool × Bool) :=
  match (queueing c true).planUnit c c.prog ext with
  | .ok (ws, rest) => some (ws.any (fun w => anySys w.at_), rest.isEmpty)
  | .error _ => none

theorem test_meets_Decanters_plans : planned sendingOut [] = some (true, true) ∧ planned sendingOut [0] = some (true, false) ∧
    planned (movingIn 0) [] = some (false, true) ∧
    (match (queueing failing true).planUnit failing 0 [] with | .ok _ => none | .error f => some (f.1, f.2.1)) = some (0x0B, 3) ∧
    (match (queueing { failing with walkFault := none } true).planUnit { failing with walkFault := none } 0 [] with
      | .ok _ => false
      | .error f => f.1 == cWalk) = true ∧
    (match (queueing opening true).copyRead opening (commandTile (queueing opening true) opening opening.ha)
        ((List.range 16).map (0x20000 + ·)) [] with | .ok (bs, _) => bs.length | .error _ => 0) = 16 ∧
    Placed (commandTile (queueing opening true) opening opening.hd) := by
  unfold Placed
  and_intros <;> decide +kernel

/-- A source word of a matrix command, of a tile command, or of a list is bad. -/
theorem test_meets_BadWords : MeetsBad (marked (scrKey 0 64)) 0 (64, 67) ∧ ¬ MeetsBad base 0 (64, 67) ∧ (64, 67) ∈ unitReads (queueing (tileCmd true 1) true) (tileCmd true 1) ∧
    (1024, 1087) ∈ iterationReads base.curLaunch.fmt product 0 := by
  unfold MeetsBad
  and_intros <;> decide +kernel

/-- A strand whose element base x10 lies in system space. -/
def elementFar : State := atCur (fun t => t.setX 10 0x4000000000030000)

theorem test_meets_SystemSpaceAccesses_elements : (elementLoadForm (.ldEShort 0 10 2 .f32 0)).isSome = true ∧
    (elementStoreForm (.stEShort 1 10 .f32 0)).isSome = true ∧ elemAlign (element 0x4000000000030000 0) = none ∧
    elementFar.elemPlaces (element 0x4000000000030000 0) .read =
      .ok ((List.range (element 0x4000000000030000 0).bytes).map (fun j => .sys (2 ^ 51 + j)), []) ∧
    elementFar.elemPlaces (element 0x4000000000030000 0) .write =
      .ok ((List.range (element 0x4000000000030000 0).bytes).map (fun j => .sys (2 ^ 51 + j)), []) ∧
    2 ^ 51 % 64 + (element 0x4000000000030000 0).bytes ≤ 64 ∧ 8 ≤ (element 0x4000000000030000 0).nb ∧ memBytes [] = some [] ∧
    ¬ ((element 0x4000000000030000 0).entry % 16 = 0 ∧ Ty.f32.flt.isSome = true) ∧ elementFar.pendFull 0 = false ∧
    elementFar.fixBefore [] = some elementFar ∧ elementFar.disp = .done ∧ elementFar.cur.fence = none ∧ elementFar.cur.doing = none ∧
    elementFar.cur.code = none ∧ elementFar.cur.sys = none ∧ elementFar.cur.sysGot = [] ∧ elementFar.cur.leaves = [] := by
  and_intros <;> decide +kernel

theorem test_meets_SystemSpaceAccesses_elementBytes : ¬ ReadsBad elementFar [] ∧ Readable elementFar 0 [] := by
  unfold ReadsBad Readable
  decide +kernel

/-- A context that waits for its launches to end before it is destroyed. -/
def closingCtx (tdi : Bool) : State := inContext (fun c => { c with cstate := .closing tdi })

theorem test_meets_Contexts_closing : ((closingCtx false).ctx 1).cstate = .closing false ∧ ((closingCtx true).ctx 1).cstate = .closing true ∧
    (closingCtx false).pkg.cmdBusy = false ∧ (∃ p ∈ (closingCtx false).ctxs, p.2.cstate = .closing false) ∧
    (∀ p ∈ base.ctxs, p.2.cstate ≠ .closing false) := by decide +kernel

theorem test_meets_Contexts_ended : Claims.ended (retiring .aborted true true []) 1 ∧ ¬ Claims.ended base 1 := by
  unfold Claims.ended
  decide +kernel

end Sys2Proof.Tests
end

section
/-! SUPPORT. What the decoder of bundles can yield: an inversion lemma for each check and each slot, that every word it yields keeps the field
limits of spec/03, and what it makes of major opcode 0 (R52, R55, R63 to R65). The statement about decoded bundles is settled at the end. -/

namespace Sys2Proof

/-! ## What a decoding yields -/

/-- Every instruction a decoding yields has the property. -/
def Yields (P : Instr → Prop) (d : Dec Instr) : Prop := ∀ i, d = .ok i → P i

@[simp] theorem yields_ok (P : Instr → Prop) (i : Instr) : Yields P (.ok i) ↔ P i :=
  ⟨fun h => h i rfl, fun h _ e => Except.ok.inj e ▸ h⟩

@[simp] theorem yields_error (P : Instr → Prop) (b : Bad) : Yields P (.error b) := fun _ e => nomatch e

@[simp] theorem yields_zero (P : Instr → Prop) (c : Bool) (i : Instr) : Yields P (zero c i) ↔ (c = true → P i) := by
  cases c <;> simp [zero]

@[simp] theorem yields_needPlain (P : Instr → Prop) (c : BitVec 4) (k : Ty → Dec Instr) :
    Yields P (needPlain c k) ↔ ∀ t, tyOf c = some t → t.isInt = true → Yields P (k t) := by
  unfold needPlain
  split
  · split <;> simp_all
  · simp_all

@[simp] theorem yields_needElem (P : Instr → Prop) (c : BitVec 4) (k : Ty → Dec Instr) :
    Yields P (needElem c k) ↔ ∀ t, tyOf c = some t → t.isElem = true → Yields P (k t) := by
  unfold needElem
  split
  · split <;> simp_all
  · simp_all

@[simp] theorem yields_ite (P : Instr → Prop) (c : Prop) [Decidable c] (d d' : Dec Instr) :
    Yields P (if c then d else d') ↔ (c → Yields P d) ∧ (¬ c → Yields P d') := by
  by_cases h : c <;> simp [h]

theorem Yields.mono {P Q : Instr → Prop} {d : Dec Instr} (h : Yields P d) (hpq : ∀ i, P i → Q i) : Yields Q d :=
  fun i e => hpq i (h i e)

/-! ## The A-word -/

/-- A well-formed A-word. -/
def WellFormedA (i : Instr) : Prop := isAWord i = true ∧ WellFormed i = true

theorem decodeAr_yields (d a b : XReg) (fn : BitVec 8) : Yields WellFormedA (decodeAr d a b fn) := by
  unfold decodeAr
  split
  all_goals simp only [yields_ok, yields_error, yields_zero]
  all_goals intros; exact ⟨rfl, rfl⟩

theorem decodeAf_yields (t : FTy) (d a b : XReg) (fn : BitVec 4) (rz : Bool) : Yields WellFormedA (decodeAf t d a b fn rz) := by
  unfold decodeAf
  split
  all_goals simp only [yields_error, yields_zero]
  all_goals intros; exact ⟨rfl, rfl⟩

/-- FCVT has two types, not both of integers (R99): `fieldsFit` of FCVT, from the decoder's test. -/
theorem fcvt_types_fit (dt st : Ty) (h : ¬ (dt == st || (dt.isInt && st.isInt)) = true) : (dt != st && !(dt.isInt && st.isInt)) = true := by
  rwa [bne, ← Bool.not_or, Bool.not_eq_true', ← Bool.not_eq_true]

theorem decodeA_yields (w : W32) : Yields WellFormedA (decodeA w) := by
  unfold decodeA
  extract_lets d a b imm rz
  split
  case h_2 => exact decodeAr_yields d a b _
  case h_16 => exact decodeAf_yields _ d a b _ _
  case h_9 =>
    split
    all_goals simp only [yields_error, yields_zero]
    all_goals intros; exact ⟨rfl, rfl⟩
  -- BEXT, BINS and FLD: the range test of the decoder is their field limit
  case h_10 | h_11 | h_12 => exact (yields_zero _ _ _).2 fun h => ⟨rfl, (Bool.and_eq_true_iff.1 h).2⟩
  case h_19 =>
    split
    case h_1 dt st _ _ =>
      simp only [yields_ite, yields_error, yields_zero, implies_true, true_and]
      exact fun h _ => ⟨rfl, fcvt_types_fit dt st h⟩
    case h_2 => exact yields_error _ _
  all_goals simp only [yields_ok, yields_error, yields_zero, yields_ite, implies_true, and_true]
  case h_18 => exact ⟨fun _ _ => ⟨rfl, rfl⟩, fun _ _ => ⟨rfl, rfl⟩⟩
  all_goals intros; exact ⟨rfl, rfl⟩

/-- An A-word is no wrap: its limits are those of its fields. -/
theorem fieldsFit_of_wellFormedA {i : Instr} (h : WellFormedA i) : fieldsFit i = true := by
  obtain ⟨ha, hw⟩ := h
  unfold WellFormed at hw
  split at hw
  case h_1 => cases ha
  case h_2 => exact hw

/-! ## The C-word -/

theorem decodeCh_yields (h : HReg) (x : XReg) (sub : BitVec 3) (la : La) (arg : BitVec 8) :
    Yields (WellFormed · = true) (decodeCh h x sub la arg) := by
  unfold decodeCh
  extract_lets sp
  split
  all_goals simp only [yields_ok, yields_error, yields_zero, yields_ite, implies_true, and_true]
  -- HGET and HPUT: the field number
  case h_4 | h_5 => exact fun h _ => decide_eq_true h
  all_goals intros; rfl

theorem decodeCs_yields (x : XReg) (fn : BitVec 5) (z : BitVec 14) : Yields (WellFormed · = true) (decodeCs x fn z) := by
  unfold decodeCs
  extract_lets sr xz
  split
  all_goals simp only [yields_error, yields_zero, yields_ite, implies_true, and_true]
  -- MFS and MTS: the special register number
  case h_3 | h_4 => exact fun h _ => h
  -- PUB names a register other than x0
  case h_11 =>
    split
    case isTrue => exact fun _ => rfl
    case isFalse h => exact fun _ => bne_iff_ne.2 fun e => h (beq_iff_eq.2 e)
  all_goals intros; rfl

theorem decodeC_yields (w : W32) : Yields (WellFormed · = true) (decodeC w) := by
  unfold decodeC
  extract_lets d a la ty off
  split
  case h_12 => exact decodeCh_yields _ _ _ _ _
  case h_15 => exact decodeCs_yields _ _ _
  case h_2 | h_3 | h_11 | h_13 =>
    split
    all_goals simp only [yields_ok, yields_error, yields_zero]
    all_goals intros; rfl
  -- SEVT and WEVT: an event scope
  case h_14 =>
    split
    case h_1 => exact yields_error _ _
    case h_2 =>
      extract_lets ok
      split
      case h_3 => exact yields_error _ _
      all_goals exact (yields_zero _ _ _).2 fun h => (Bool.and_eq_true_iff.1 h).1
  all_goals simp only [yields_ok, yields_error, yields_zero, yields_ite, yields_needPlain, yields_needElem, implies_true, and_true]
  -- loads and stores: the type
  case h_4 | h_5 | h_8 => exact fun _ _ ht => ht
  case h_6 | h_7 | h_9 => exact fun _ _ ht _ => ht
  all_goals intros; rfl

/-! ## The long instruction -/

theorem decodeBr_yields (cond : BitVec 5) (a b : XReg) (off : BitVec 20) (v : BitVec 1) (slot : BitVec 16) (rz : Bool) :
    Yields (WellFormed · = true) (decodeBr cond a b off v slot rz) := by
  unfold decodeBr
  extract_lets s ok
  split
  all_goals simp only [yields_error, yields_zero]
  all_goals intros; rfl

theorem decodeAmo_yields (aop : BitVec 4) (f : AmoForm) (c : XReg) (ok : Bool) :
    Yields (WellFormed · = true) (decodeAmo aop f c ok) := by
  unfold decodeAmo
  extract_lets ok0
  split
  all_goals simp only [yields_error, yields_zero]
  all_goals intros; rfl

theorem decodeMatrix_yields (l : Le) : Yields (WellFormed · = true) (decodeMatrix l) := by
  unfold decodeMatrix
  split
  all_goals simp only [yields_error, yields_zero]
  all_goals intros; rfl

/-- A command whose RM field is decoded first has a property that it has under every rounding mode (R127). -/
theorem yields_rounded (P : Instr → Prop) (c : BitVec 3) (z : Bool) (k : Rm → Instr) (h : ∀ rm, P (k rm)) :
    Yields P (match rmOf c with | some rm => zero z (k rm) | none => .error .field) := by
  split
  case h_1 rm _ => exact (yields_zero _ _ _).2 fun _ => h rm
  case h_2 => exact yields_error _ _

theorem decodeTile_yields (l : Le) : Yields (WellFormed · = true) (decodeTile l) := by
  unfold decodeTile
  extract_lets f rmc sel z noRm two one
  have htwo (k : Rm → Instr) (h : ∀ rm, WellFormed (k rm) = true) : Yields (WellFormed · = true) (two k) :=
    yields_rounded _ _ _ k h
  have hone (k : Rm → Instr) (h : ∀ rm, WellFormed (k rm) = true) : Yields (WellFormed · = true) (one k) :=
    yields_rounded _ _ _ k h
  clear_value two one
  split
  case h_1 | h_2 | h_3 | h_4 | h_5 | h_6 => exact htwo _ fun _ => rfl
  case h_7 | h_8 | h_9 | h_10 | h_11 | h_19 => exact hone _ fun _ => rfl
  case h_12 | h_17 =>
    split
    all_goals simp only [yields_error, yields_zero]
    all_goals intros; rfl
  all_goals simp only [yields_error, yields_zero, yields_ite, implies_true, and_true]
  all_goals intros; rfl

theorem decodeQst_yields (l : Le) : Yields (WellFormed · = true) (decodeQst l) := by
  unfold decodeQst
  split
  case isTrue => exact yields_rounded _ _ _ _ fun _ => rfl
  case isFalse => exact yields_error _ _

theorem decodeCopy_yields (l : Le) : Yields (WellFormed · = true) (decodeCopy l) := by
  unfold decodeCopy
  extract_lets z
  split
  all_goals simp only [yields_error, yields_zero]
  all_goals intros; rfl

/-- A long word is well formed once it passes the check of R64, which `decodeLong` leaves to `wrapBad`. -/
def WellFormedLong (i : Instr) : Prop := wrapBad i = false → WellFormed i = true

theorem wellFormedLong_wrap {ka kb kc : BitVec 4} {i : Instr} (hk : ka.toNat ≤ 8 ∧ kb.toNat ≤ 8 ∧ kc.toNat ≤ 8) (hi : WellFormedA i) :
    WellFormedLong (.backRefWrap ka kb kc i) := by
  intro hw
  have hfit : wrapFits ka kb kc i = true := by simpa [wrapBad] using hw
  simp [WellFormed, hk, fieldsFit_of_wellFormedA hi, hfit]

theorem decodeLong_yields (w : Word) : Yields WellFormedLong (decodeLong w) := by
  have long {d : Dec Instr} (h : Yields (WellFormed · = true) d) : Yields WellFormedLong d := h.mono fun _ hi _ => hi
  unfold decodeLong
  extract_lets d a la ty slot v off
  split
  case h_1 =>
    split
    case h_1 => exact yields_error _ _
    case h_2 i hi =>
      refine (yields_zero _ _ _).2 fun h => wellFormedLong_wrap ?_ (decodeA_yields _ i hi)
      simp only [Bool.and_eq_true, decide_eq_true_eq] at h
      obtain ⟨⟨⟨-, hka⟩, hkb⟩, hkc⟩ := h
      exact ⟨hka, hkb, hkc⟩
  case h_2 => exact long (decodeBr_yields _ _ _ _ _ _ _)
  case h_4 =>
    split
    all_goals simp only [yields_error, yields_zero]
    all_goals intros; intro; rfl
  case h_11 =>
    split
    case h_1 => exact yields_error _ _
    case h_2 => exact long (decodeAmo_yields _ _ _ _)
  case h_12 => exact long (decodeMatrix_yields _)
  case h_13 => exact long (decodeTile_yields _)
  case h_14 => exact long (decodeQst_yields _)
  case h_15 => exact long (decodeCopy_yields _)
  all_goals simp only [yields_error, yields_zero, yields_ite, yields_needPlain, yields_needElem, implies_true, and_true]
  -- LOOP: a counter other than x0; then loads and stores: the type
  case h_3 => exact fun _ h _ => (Bool.and_eq_true_iff.1 (Bool.and_eq_true_iff.1 h).1).2
  all_goals exact fun _ _ ht _ _ => ht

/-! ## The checks of one word in its strand -/

/-- What the checks of R65 ask of a word in its strand. -/
structure Passes (e : DecEnv) (i : Instr) : Prop where
  slotMode  : e.fourSlot = false → (∀ r ∈ xFields i, r.toNat < 32) ∧ ∀ h ∈ hFields i, h.toNat < 8
  privilege : e.super = false → privileged i = false
  launch    : forbidden e i = false
  site      : siteBeyond e i = false
  wrap      : wrapBad i = false

theorem passes_of_checkIn {e : DecEnv} {i j : Instr} (h : checkIn e i = .ok j) : Passes e i := by
  unfold checkIn at h
  split at h
  case isTrue => cases h
  case isFalse hslot =>
  split at h
  case isTrue => cases h
  case isFalse hpriv =>
  split at h
  case isTrue => cases h
  case isFalse hlaunch =>
  split at h
  case isTrue => cases h
  case isFalse hsite =>
  split at h
  case isTrue => cases h
  case isFalse hwrap =>
  exact {
    slotMode := fun h4 => by simpa [h4] using hslot
    privilege := fun hs => by simpa [hs] using hpriv
    launch := eq_false_of_ne_true hlaunch
    site := eq_false_of_ne_true hsite
    wrap := eq_false_of_ne_true hwrap }

theorem bind_checkIn_eq_ok {e : DecEnv} {d : Dec Instr} {i : Instr} (h : d.bind (checkIn e) = .ok i) : d = .ok i ∧ Passes e i := by
  cases d with
  | error b => cases h
  | ok j =>
    obtain rfl : i = j := Machine.checkIn_ok e j i h
    exact ⟨rfl, passes_of_checkIn h⟩

theorem checkIn_nop (e : DecEnv) : checkIn e .nop = .ok .nop := by
  obtain ⟨four, _, _, _, _, _⟩ := e
  cases four <;> rfl

section
variable {e : DecEnv} {i : Instr}

theorem Passes.needsSupervisor_eq_false (h : Passes e i) (hs : e.super = false) : Claims.needsSupervisor i = false := by
  have hp := h.privilege hs
  unfold Claims.needsSupervisor
  split
  case h_6 => rfl
  all_goals exact hp

theorem Passes.ne_gbar (h : Passes e i) (hg : e.gb = false) : i ≠ .gbar := by
  rintro rfl
  have hl : (!e.gb) = false := h.launch
  simp [hg] at hl

theorem Passes.ne_uiret (h : Passes e i) (hh : e.inHandler = false) : i ≠ .uiret := by
  rintro rfl
  have hl : (!e.inHandler) = false := h.launch
  simp [hh] at hl

theorem Passes.ne_amoFadd (h : Passes e i) (hd : e.det = true) (f : AmoForm) : i ≠ .amoFadd f := by
  rintro rfl
  have hl : e.det = false := h.launch
  simp [hd] at hl

/-- A deterministic launch reads neither special register 9 nor 10 (R65, R71). -/
theorem Passes.ne_mfs (h : Passes e i) (hd : e.det = true) {n : BitVec 10} (hn : n = 9 ∨ n = 10) (r : XReg) : i ≠ .mfs r n := by
  rintro rfl
  have hl : (e.det && (n == 9#10 || n == 10#10)) = false := h.launch
  obtain rfl | rfl := hn <;> simp [hd] at hl

theorem Passes.site_lt (h : Passes e i) {j : BitVec 16} (hj : siteField i = some j) : j.toNat < e.vcount := by
  have hs := h.site
  unfold siteBeyond at hs
  simpa [hj] using hs

end

/-! ## The bundle -/

theorem decodeIn_eq_ok_long {e : DecEnv} {w : Word} {i : Instr} (h : decodeIn e w = .ok (.long i)) :
    bits w 31 1 = 1 ∧ decodeLong w = .ok i ∧ Passes e i := by
  unfold decodeIn at h
  split at h
  case isTrue hl =>
    split at h
    case h_1 hi =>
      cases h
      exact ⟨beq_iff_eq.1 hl, bind_checkIn_eq_ok hi⟩
    case h_2 => cases h
  case isFalse =>
    split at h
    case h_1 => cases h
    case h_2 =>
      split at h
      case h_1 => cases h
      case h_2 => split at h <;> cases h

theorem decodeIn_eq_ok_pair {e : DecEnv} {w : Word} {c a : Instr} (h : decodeIn e w = .ok (.pair c a)) :
    bits w 31 1 ≠ 1 ∧ (decodeC (bits w 0 32) = .ok c ∧ Passes e c) ∧ (decodeA (bits w 32 32) = .ok a ∧ Passes e a) ∧
      (aDest a = 0 ∨ aDest a ≠ cDest c) := by
  unfold decodeIn at h
  split at h
  case isTrue => split at h <;> cases h
  case isFalse hl =>
    split at h
    case h_1 => cases h
    case h_2 hc =>
      split at h
      case h_1 => cases h
      case h_2 ha =>
        split at h
        case isTrue => cases h
        case isFalse hd =>
          cases h
          refine ⟨fun e => hl (beq_iff_eq.2 e), bind_checkIn_eq_ok hc, bind_checkIn_eq_ok ha, ?_⟩
          simpa [or_iff_not_imp_left] using hd

/-- Each word of a bundle that decodes passes the checks of R65 and is well formed. -/
theorem decodeIn_words {e : DecEnv} {w : Word} {d : Decoded} (h : decodeIn e w = .ok d) :
    ∀ p ∈ Machine.wordsIn d, Passes e p.2 ∧ WellFormed p.2 = true := by
  cases d with
  | long i =>
    obtain ⟨-, hi, pass⟩ := decodeIn_eq_ok_long h
    simp only [Machine.wordsIn, List.forall_mem_singleton]
    exact ⟨pass, decodeLong_yields w i hi pass.wrap⟩
  | pair c a =>
    obtain ⟨-, ⟨hc, passC⟩, ⟨ha, passA⟩, -⟩ := decodeIn_eq_ok_pair h
    simp only [Machine.wordsIn, List.forall_mem_cons]
    exact ⟨⟨passC, decodeC_yields _ c hc⟩, ⟨passA, (decodeA_yields _ a ha).2⟩, List.forall_mem_nil _⟩

theorem bits_one_eq_one {n : Nat} (w : BitVec n) (k : Nat) : bits w k 1 = 1 ↔ w.getLsbD k = true := by
  rw [← BitVec.toNat_inj]
  simp [BitVec.getLsbD, Nat.testBit, Nat.and_comm 1]

/-- L, bit 31, says which form a bundle that decodes has (R53). -/
theorem decodeIn_long_iff {e : DecEnv} {w : Word} {d : Decoded} (h : decodeIn e w = .ok d) :
    w.getLsbD 31 = true ↔ ∃ i, d = .long i := by
  rw [← bits_one_eq_one]
  cases d with
  | long i => simp only [(decodeIn_eq_ok_long h).1, Decoded.long.injEq, exists_eq']
  | pair c a => simp only [(decodeIn_eq_ok_pair h).1, reduceCtorEq, exists_false]

/-! ## Major opcode 0 (R55) -/

theorem toNat_bits {n : Nat} (w : BitVec n) (lo len : Nat) : (bits w lo len).toNat = w.toNat / 2 ^ lo % 2 ^ len := by
  rw [BitVec.extractLsb'_toNat, Nat.shiftRight_eq_div_pow]

theorem decodeC_major_zero {w : W32} (h : (bits w 25 6).toNat = 0) (hne : w ≠ 0) : decodeC w = .error .field := by
  unfold decodeC
  rw [h, beq_false_of_ne hne]
  rfl

theorem decodeA_major_zero {w : W32} (h : (bits w 26 6).toNat = 0) (hne : w ≠ 0) : decodeA w = .error .field := by
  unfold decodeA
  rw [h, beq_false_of_ne hne]
  rfl

theorem decodeLong_major_zero {w : Word} (h : (bits w 25 6).toNat = 0) : decodeLong w = .error .code := by
  unfold decodeLong
  rw [h]
  rfl

/-- The C-word of a bundle is its low half. -/
theorem toNat_wordC (w : Word) : (bits w 0 32).toNat = w.toNat % 2 ^ 32 := by
  rw [toNat_bits, Nat.pow_zero, Nat.div_one]

/-- The A-word of a bundle is its high half. -/
theorem toNat_wordA (w : Word) : (bits w 32 32).toNat = w.toNat / 2 ^ 32 := by
  rw [toNat_bits, Nat.mod_eq_of_lt (by omega)]

/-- Word 0 of major opcode 0 with another bit set is illegal, in its short and in its long form. -/
theorem decodeIn_major_zero_wordC (e : DecEnv) (w : Word) (hmajor : w.toNat / 2 ^ 25 % 2 ^ 6 = 0) (hset : w.toNat % 2 ^ 32 ≠ 0) :
    ∃ b, decodeIn e w = .error (false, b) := by
  unfold decodeIn
  split
  case isTrue =>
    rw [decodeLong_major_zero ((toNat_bits w 25 6).trans hmajor)]
    exact ⟨.code, rfl⟩
  case isFalse =>
    have hc : (bits (bits w 0 32) 25 6).toNat = 0 := by
      rw [toNat_bits, toNat_wordC]
      omega
    have hne : bits w 0 32 ≠ 0 := fun h0 => hset (by rw [← toNat_wordC, h0]; rfl)
    rw [decodeC_major_zero hc hne]
    exact ⟨.field, rfl⟩

/-- Word 1 of major opcode 0 with another bit set is illegal beside any C-word. -/
theorem decodeIn_major_zero_wordA (e : DecEnv) (w : Word) (hshort : w.toNat / 2 ^ 31 % 2 = 0) (hmajor : w.toNat / 2 ^ 58 = 0)
    (hset : w.toNat / 2 ^ 32 ≠ 0) : ∃ x, decodeIn e w = .error x := by
  have hl : bits w 31 1 ≠ 1 := fun h1 => by
    have h := toNat_bits w 31 1
    rw [h1, Nat.pow_one, hshort] at h
    cases h
  have ha : (bits (bits w 32 32) 26 6).toNat = 0 := by
    rw [toNat_bits, toNat_wordA]
    omega
  have hne : bits w 32 32 ≠ 0 := fun h0 => hset (by rw [← toNat_wordA, h0]; rfl)
  cases h : decodeIn e w with
  | error x => exact ⟨x, rfl⟩
  | ok d =>
    cases d with
    | long i => exact absurd (decodeIn_eq_ok_long h).1 hl
    | pair c a =>
      obtain ⟨-, -, ⟨hda, -⟩, -⟩ := decodeIn_eq_ok_pair h
      rw [decodeA_major_zero ha hne] at hda
      cases hda

/-- A word of zeros is a no-operation in either slot. -/
theorem decodeIn_zero_words {e : DecEnv} {w : Word} {c a : Instr} (h : decodeIn e w = .ok (.pair c a)) :
    (w.toNat % 2 ^ 32 = 0 → c = .nop) ∧ (w.toNat / 2 ^ 32 = 0 → a = .nop) := by
  obtain ⟨-, ⟨hc, -⟩, ⟨ha, -⟩, -⟩ := decodeIn_eq_ok_pair h
  constructor
  · intro h0
    rw [BitVec.eq_of_toNat_eq (y := 0) ((toNat_wordC w).trans h0)] at hc
    exact (Except.ok.inj hc).symm
  · intro h0
    rw [BitVec.eq_of_toNat_eq (y := 0) ((toNat_wordA w).trans h0)] at ha
    exact (Except.ok.inj ha).symm

theorem decodeIn_zero (e : DecEnv) : decodeIn e 0 = .ok (.pair .nop .nop) := by
  have hc : (decodeC (bits (0 : Word) 0 32)).bind (checkIn e) = .ok .nop := checkIn_nop e
  have ha : (decodeA (bits (0 : Word) 32 32)).bind (checkIn e) = .ok .nop := checkIn_nop e
  unfold decodeIn
  rw [if_neg (by decide), hc, ha]
  rfl

/-- Settles O54: a bundle that decodes has words that pass the checks of R65 (`decodeIn_words`, from the inversion of `decodeIn` and of
`checkIn`), and major opcode 0 holds the no-operation alone (R55). -/
theorem decodedBundlesKeepTheChecks : Obligations.DecodedBundlesKeepTheChecks := by
  unfold Obligations.DecodedBundlesKeepTheChecks
  refine ⟨fun e w d h => ⟨fun p hp => ?_, fun c a hd => ?_, decodeIn_long_iff h⟩, fun e w => ?_, decodeIn_zero⟩
  · obtain ⟨pass, hwf⟩ := decodeIn_words h p hp
    exact ⟨pass.slotMode, pass.needsSupervisor_eq_false, pass.ne_gbar, fun f hdet => pass.ne_amoFadd hdet f,
      fun r hdet => ⟨pass.ne_mfs hdet (.inl rfl) r, pass.ne_mfs hdet (.inr rfl) r⟩, pass.ne_uiret, fun _ hj => pass.site_lt hj, hwf⟩
  · subst hd
    obtain ⟨-, -, ⟨ha, -⟩, hdest⟩ := decodeIn_eq_ok_pair h
    exact ⟨(decodeA_yields _ a ha).1, fun hc => hdest.elim (fun h0 heq => hc (heq.symm.trans h0)) id⟩
  · exact ⟨decodeIn_major_zero_wordC e w, decodeIn_major_zero_wordA e w, fun c a h => decodeIn_zero_words h⟩

end Sys2Proof
end

section
/-! SUPPORT. What the register forms of major 0x01 write (spec/05 R79, R80, R89): one lemma for each value function, in the terms of its table.
The statement about register forms is settled at the end. -/

namespace Sys2Proof.Machine

open Sys2Proof Sys2Proof.Claims

/-! ## Words from numbers -/

theorem toNat_w64_of_lt {n : Nat} (h : n < 2 ^ 64) : (w64 n).toNat = n := Nat.mod_eq_of_lt h

theorem addr60_lt (v : Word) : addr60 v < 2 ^ 60 := Nat.mod_lt _ (by decide)

theorem modPow_lt (v : Int) (n : Nat) : modPow v n < 2 ^ n := by
  have h := Int.emod_lt_of_pos v (b := 2 ^ n) (by positivity)
  unfold modPow
  zify
  rw [Int.toNat_of_nonneg (Int.emod_nonneg _ (by positivity))]
  exact h

theorem natCast_modPow (v : Int) (n : Nat) : (modPow v n : Int) = v % 2 ^ n :=
  Int.toNat_of_nonneg (Int.emod_nonneg _ (by positivity))

/-! ## Sums, products and bitwise results (R79) -/

theorem toNat_valAdd (a b : Word) : (valAdd a b).toNat = (a.toNat + b.toNat) % 2 ^ 64 := BitVec.toNat_add a b

theorem toNat_valSub (a b : Word) : ((valSub a b).toNat : Int) = ((a.toNat : Int) - b.toNat) % 2 ^ 64 := by
  have h : (valSub a b).toNat = (2 ^ 64 - b.toNat + a.toNat) % 2 ^ 64 := BitVec.toNat_sub a b
  omega

theorem toNat_valMul (a b : Word) : (valMul a b).toNat = a.toNat * b.toNat % 2 ^ 64 := BitVec.toNat_mul a b

/-- The high half of a signed product is a signed word: the product is at most 2^126 in magnitude. -/
theorem toInt_valMulh (a b : Word) : (valMulh a b).toInt = a.toInt * b.toInt / 2 ^ 64 := by
  have hle : a.toInt * b.toInt ≤ 2 ^ (64 * 2 - 2) := BitVec.toInt_mul_toInt_le
  have hge : -2 ^ (64 * 2 - 2) ≤ a.toInt * b.toInt := BitVec.le_toInt_mul_toInt
  exact BitVec.toInt_ofInt_eq_self (by decide) (by omega) (by omega)

theorem toNat_valMulhb (a b : Word) : (valMulhb a b).toNat = a.toNat * b.toNat / 2 ^ 64 :=
  toNat_w64_of_lt (Nat.div_lt_of_lt_mul (Nat.mul_lt_mul'' a.isLt b.isLt))

theorem getLsbD_valAnd (a b : Word) (i : Nat) : (valAnd a b).getLsbD i = (a.getLsbD i && b.getLsbD i) := BitVec.getLsbD_and

theorem getLsbD_valOr (a b : Word) (i : Nat) : (valOr a b).getLsbD i = (a.getLsbD i || b.getLsbD i) := BitVec.getLsbD_or

theorem getLsbD_valXor (a b : Word) (i : Nat) : (valXor a b).getLsbD i = (a.getLsbD i ^^ b.getLsbD i) := BitVec.getLsbD_xor

/-! ## Division (R80) -/

/-- The signed overflow of R80 in exact integers. -/
theorem overflow_iff (a b : Word) : (a = BitVec.ofNat 64 (2 ^ 63) && b = BitVec.ofInt 64 (-1)) = true ↔ a.toInt = -(2 ^ 63) ∧ b.toInt = -1 := by
  rw [Bool.and_eq_true, decide_eq_true_iff, decide_eq_true_iff, ← BitVec.toInt_inj, ← BitVec.toInt_inj]
  rfl

/-- The quotient of two words, but for the one overflow, is a signed word. -/
theorem toInt_ofInt_tdiv (a b : Word) (h : ¬ (a.toInt = -(2 ^ 63) ∧ b.toInt = -1)) :
    (BitVec.ofInt 64 (a.toInt.tdiv b.toInt)).toInt = a.toInt.tdiv b.toInt := by
  have hne : a ≠ BitVec.intMin 64 ∨ b ≠ -1#64 := by
    by_contra hc
    obtain ⟨rfl, rfl⟩ := not_or.mp hc |>.imp not_not.mp not_not.mp
    exact h ⟨rfl, rfl⟩
  rw [← BitVec.toInt_sdiv_of_ne_or_ne a b hne, BitVec.ofInt_toInt]

/-- The remainder of two words is a signed word. -/
theorem toInt_ofInt_sub_tdiv_mul (a b : Word) :
    (BitVec.ofInt 64 (a.toInt - a.toInt.tdiv b.toInt * b.toInt)).toInt = a.toInt - a.toInt.tdiv b.toInt * b.toInt := by
  rw [Int.mul_comm, ← Int.tmod_def, ← BitVec.toInt_srem, BitVec.ofInt_toInt]

theorem divTrunc_toInt (a b : Word) :
    (divTrunc a b).1.toInt = (signedDivision a.toInt b.toInt).1 ∧ (divTrunc a b).2.toInt = (signedDivision a.toInt b.toInt).2 := by
  have hzero : b = 0 ↔ b.toInt = 0 := BitVec.toInt_inj.symm
  unfold divTrunc signedDivision
  by_cases hb : b.toInt = 0
  · rw [if_pos hb, if_pos (hzero.mpr hb)]
    exact ⟨rfl, rfl⟩
  rw [if_neg hb, if_neg (hb ∘ hzero.mp)]
  by_cases ho : a.toInt = -(2 ^ 63) ∧ b.toInt = -1
  · rw [if_pos ho, if_pos ((overflow_iff a b).mpr ho)]
    exact ⟨ho.1, rfl⟩
  · rw [if_neg ho, if_neg (ho ∘ (overflow_iff a b).mp)]
    exact ⟨toInt_ofInt_tdiv a b ho, toInt_ofInt_sub_tdiv_mul a b⟩

theorem divFloor_toNat (a b : Word) :
    (divFloor a b).1.toNat = (unsignedDivision a.toNat b.toNat).1 ∧ (divFloor a b).2.toNat = (unsignedDivision a.toNat b.toNat).2 := by
  have hzero : b = 0 ↔ b.toNat = 0 := BitVec.toNat_inj.symm
  unfold divFloor unsignedDivision
  by_cases hb : b.toNat = 0
  · rw [if_pos hb, if_pos (hzero.mpr hb)]
    exact ⟨rfl, rfl⟩
  · rw [if_neg hb, if_neg (hb ∘ hzero.mp)]
    refine ⟨toNat_w64_of_lt ((Nat.div_le_self _ _).trans_lt a.isLt), ?_⟩
    rw [toNat_w64_of_lt ((Nat.mod_le _ _).trans_lt a.isLt), Nat.mod_eq_sub_div_mul]

/-! ## Shifts and the rotation (R79) -/

theorem toNat_valShl (a b : Word) : (valShl a b).toNat = a.toNat * 2 ^ (b.toNat % 64) % 2 ^ 64 := by
  unfold valShl
  rw [BitVec.toNat_shiftLeft, Nat.shiftLeft_eq]

theorem toNat_valShr (a b : Word) : (valShr a b).toNat = a.toNat / 2 ^ (b.toNat % 64) := by
  unfold valShr
  rw [BitVec.toNat_ushiftRight, Nat.shiftRight_eq_div_pow]

theorem toInt_valSra (a b : Word) : (valSra a b).toInt = a.toInt / 2 ^ (b.toNat % 64) := by
  unfold valSra
  rw [BitVec.toInt_sshiftRight, Int.shiftRight_eq_div_pow]
  norm_cast

/-- Bit i goes to place i + n: below n where the sum wraps, and at or above n where it does not. -/
theorem getLsbD_valRol (a b : Word) (i : Nat) (hi : i < 64) : (valRol a b).getLsbD ((i + b.toNat) % 64) = a.getLsbD i := by
  unfold valRol
  rw [BitVec.getLsbD_rotateLeft, Nat.mod_mod]
  by_cases hw : (i + b.toNat) % 64 < b.toNat % 64
  · rw [decide_eq_true hw, cond_true, show 64 - b.toNat % 64 + (i + b.toNat) % 64 = i by omega]
  · rw [decide_eq_false hw, cond_false, decide_eq_true (Nat.mod_lt _ (by decide)), Bool.true_and,
      show (i + b.toNat) % 64 - b.toNat % 64 = i by omega]

/-! ## Choices and comparisons (R79) -/

theorem valMin_eq (a b : Word) : valMin a b = if a.toInt ≤ b.toInt then a else b := if_congr BitVec.sle_iff_toInt_le rfl rfl

theorem valMax_eq (a b : Word) : valMax a b = if b.toInt ≤ a.toInt then a else b := if_congr BitVec.sle_iff_toInt_le rfl rfl

theorem valMinb_eq (a b : Word) : valMinb a b = if a.toNat ≤ b.toNat then a else b := if_congr BitVec.ule_iff_toNat_le rfl rfl

theorem valMaxb_eq (a b : Word) : valMaxb a b = if b.toNat ≤ a.toNat then a else b := if_congr BitVec.ule_iff_toNat_le rfl rfl

theorem valSlt_eq (a b : Word) : valSlt a b = if a.toInt < b.toInt then 1 else 0 := if_congr BitVec.slt_iff_toInt_lt rfl rfl

theorem valSltb_eq (a b : Word) : valSltb a b = if a.toNat < b.toNat then 1 else 0 := if_congr BitVec.ult_iff_toNat_lt rfl rfl

theorem valSeq_eq (a b : Word) : valSeq a b = if a = b then 1 else 0 := if_congr decide_eq_true_iff rfl rfl

theorem valSne_eq (a b : Word) : valSne a b = if a = b then 0 else 1 :=
  (if_congr bne_iff_ne rfl rfl).trans (ite_not ..)

/-! ## Counts of bits (R79) -/

/-- The highest 1 of a nonzero word is at its binary logarithm, which is below 64. -/
theorem toNat_valClz (a : Word) (ha : a ≠ 0) : (valClz a).toNat = 63 - Nat.log2 a.toNat ∧ Nat.log2 a.toNat < 64 := by
  have hlog : Nat.log2 a.toNat < 64 := (Nat.log2_lt (BitVec.toNat_ne_iff_ne.mpr ha)).mpr a.isLt
  unfold valClz clz64
  rw [if_neg ha, toNat_w64_of_lt (by omega)]
  exact ⟨rfl, hlog⟩

theorem valClz_highest (a : Word) : (a = 0 → valClz a = 64) ∧ (a ≠ 0 → (valClz a).toNat < 64 ∧ a.getLsbD (63 - (valClz a).toNat) = true
    ∧ ∀ i, 63 - (valClz a).toNat < i → a.getLsbD i = false) := by
  refine ⟨fun h => if_pos h, fun ha => ?_⟩
  obtain ⟨hv, hlog⟩ := toNat_valClz a ha
  have hplace : 63 - (valClz a).toNat = Nat.log2 a.toNat := by omega
  rw [hplace]
  refine ⟨by omega, ?_, fun i hi => ?_⟩
  · rw [← BitVec.testBit_toNat, Nat.testBit_log2 (BitVec.toNat_ne_iff_ne.mpr ha)]
  · rw [← BitVec.testBit_toNat]
    exact Nat.testBit_eq_false_of_lt (Nat.lt_log2_self.trans_le (Nat.pow_le_pow_right (by decide) hi))

/-- CTZ is the first place of a 1, and 64 where there is none. -/
theorem valCtz_eq (a : Word) : valCtz a = w64 (((List.range 64).find? (fun i => a.getLsbD i)).getD 64) := by
  unfold valCtz ctz64 setBits
  rw [List.headD_eq_head?_getD, List.head?_filter]

theorem valCtz_lowest (a : Word) : (a = 0 → valCtz a = 64) ∧ (a ≠ 0 → (valCtz a).toNat < 64 ∧ a.getLsbD (valCtz a).toNat = true
    ∧ ∀ i, i < (valCtz a).toNat → a.getLsbD i = false) := by
  rw [valCtz_eq]
  cases h : (List.range 64).find? (fun i => a.getLsbD i) with
  | none =>
    refine ⟨fun _ => rfl, fun ha => absurd (BitVec.eq_of_getLsbD_eq fun i hi => ?_) ha⟩
    exact (Bool.eq_false_of_not_eq_true (List.find?_eq_none.mp h i (List.mem_range.mpr hi))).trans BitVec.getLsbD_zero.symm
  | some k =>
    obtain ⟨hk, hmem, hlow⟩ := List.find?_range_eq_some.mp h
    have hlt : k < 64 := List.mem_range.mp hmem
    rw [Option.getD_some, toNat_w64_of_lt (by omega)]
    have hne : a ≠ 0 := fun ha => Bool.false_ne_true (BitVec.getLsbD_zero.symm.trans (ha ▸ hk))
    exact ⟨fun ha => absurd ha hne, fun _ => ⟨hlt, hk, fun i hi => by simpa using hlow i hi⟩⟩

theorem length_filter_eq_sum_toNat {α : Type} (p : α → Bool) (l : List α) : (l.filter p).length = (l.map (fun x => (p x).toNat)).sum := by
  induction l with
  | nil => rfl
  | cons x l ih => cases h : p x <;> simp [h, ih, Nat.add_comm]

theorem toNat_valPopc (a : Word) : (valPopc a).toNat = ((List.range 64).map (fun i => (a.getLsbD i).toNat)).sum := by
  have hle : (setBits a).length ≤ 64 := (List.length_filter_le _ _).trans_eq List.length_range
  unfold valPopc popc64
  rw [toNat_w64_of_lt (by omega)]
  exact length_filter_eq_sum_toNat _ _

/-! ## Fat pointers (R89) -/

theorem toNat_withSel (p : Word) {m : Nat} (h : m < 2 ^ 60) : (withSel p m).toNat = p.toNat / 2 ^ 60 * 2 ^ 60 + m :=
  toNat_w64_of_lt (by omega)

/-- The selector of `p` stays, and the address is `v` modulo 2^60. -/
theorem keepSel_parts (p : Word) (v : Int) :
    (keepSel p v).toNat / 2 ^ 60 = p.toNat / 2 ^ 60 ∧ (((keepSel p v).toNat % 2 ^ 60 : Nat) : Int) = v % 2 ^ 60 := by
  have hlt : modPow v 60 < 2 ^ 60 := modPow_lt v 60
  have hmod : (modPow v 60 : Int) = v % 2 ^ 60 := natCast_modPow v 60
  have hsel : (keepSel p v).toNat = p.toNat / 2 ^ 60 * 2 ^ 60 + modPow v 60 := toNat_withSel p hlt
  omega

/-- The displacement of ADDA counts modulo 2^60, so it may be read with or without its sign. -/
theorem valAdda_parts (a b : Word) : (valAdda a b).toNat / 2 ^ 60 = a.toNat / 2 ^ 60
    ∧ (((valAdda a b).toNat % 2 ^ 60 : Nat) : Int) = (((a.toNat % 2 ^ 60 : Nat) : Int) + b.toNat) % 2 ^ 60 := by
  obtain ⟨hsel, haddr⟩ := keepSel_parts a ((addr60 a : Int) + b.toInt)
  refine ⟨hsel, haddr.trans ?_⟩
  have hsign := BitVec.toInt_eq_toNat_cond b
  unfold addr60
  split at hsign <;> omega

theorem valPtag_parts (a b : Word) : (valPtag a b).toNat / 2 ^ 60 = b.toNat % 16 ∧ (valPtag a b).toNat % 2 ^ 60 = a.toNat % 2 ^ 60 := by
  have haddr : addr60 a < 2 ^ 60 := addr60_lt a
  have hv : (valPtag a b).toNat = b.toNat % 16 * 2 ^ 60 + addr60 a := toNat_w64_of_lt (by omega)
  unfold addr60 at haddr hv
  omega

theorem toNat_valPfs (a : Word) : (valPfs a).toNat = a.toNat / 2 ^ 60 := toNat_w64_of_lt ((Nat.div_le_self _ _).trans_lt a.isLt)

theorem toNat_valPclr (a : Word) : (valPclr a).toNat = a.toNat % 2 ^ 60 := toNat_w64_of_lt ((Nat.mod_le _ _).trans_lt a.isLt)

/-! ## The write of a scalar register -/

theorem sameBytes_of_eq {s t : State} (hm : t.mem = s.mem) (hk : t.lineKey = s.lineKey) : SameBytes s t := by
  have hraw : ∀ k, t.raw k = s.raw k := fun k => by unfold State.raw; rw [hm]
  have hkey : ∀ k, t.keyId k = s.keyId k := fun k => by unfold State.keyId; rw [hk]
  exact fun kid k => ⟨by unfold State.byteAs; rw [hraw, hkey], hraw k⟩

/-- The mark of R243 is the bit of the vine entry that names the register. -/
theorem State.markWritten_vw (s : State) (d : XReg) : (s.markWritten d).cur.vw = s.cur.vw ||| vineBit s d := by
  unfold State.markWritten vineBit
  cases s.vineEntry d with
  | none => exact BitVec.or_zero.symm
  | some j => rfl

theorem State.wr_writesX (s : State) (d : XReg) (v : Word) : WritesX s (s.wr d v) d v := by
  refine ⟨?_, ?_, fun r hr => ?_, sameBytes_of_eq (State.wr_mem s d v) (State.wr_lineKey s d v)⟩
  · rw [← State.markWritten_vw]
    exact State.wr_eq s d v
  · rw [State.rd_wr, if_pos rfl]
  · rw [State.rd_wr, if_neg hr]
    split
    case isTrue h0 => rw [h0]; exact (Strand.rd_zero s.cur).symm
    case isFalse => rfl

/-! ## The register forms -/

/-- Each register form completes with one value of its two sources in its destination, and the value is that of its table. -/
theorem registerForm_value {i : Instr} {f : Form} (h : registerForm i = some f) :
    ∃ val : Word → Word → Word, (∀ s, exec i s = .next (s.wr f.d (val (s.srcA f.a) (s.srcB f.b)))) ∧ ∀ x y, f.is x y (val x y) := by
  cases i with
  | add d a b => cases h; exact ⟨valAdd, fun _ => rfl, toNat_valAdd⟩
  | sub d a b => cases h; exact ⟨valSub, fun _ => rfl, toNat_valSub⟩
  | mul d a b => cases h; exact ⟨valMul, fun _ => rfl, toNat_valMul⟩
  | mulh d a b => cases h; exact ⟨valMulh, fun _ => rfl, toInt_valMulh⟩
  | mulhb d a b => cases h; exact ⟨valMulhb, fun _ => rfl, toNat_valMulhb⟩
  | div d a b => cases h; exact ⟨valDiv, fun _ => rfl, fun x y => (divTrunc_toInt x y).1⟩
  | divb d a b => cases h; exact ⟨valDivb, fun _ => rfl, fun x y => (divFloor_toNat x y).1⟩
  | rem d a b => cases h; exact ⟨valRem, fun _ => rfl, fun x y => (divTrunc_toInt x y).2⟩
  | remb d a b => cases h; exact ⟨valRemb, fun _ => rfl, fun x y => (divFloor_toNat x y).2⟩
  | and d a b => cases h; exact ⟨valAnd, fun _ => rfl, getLsbD_valAnd⟩
  | or d a b => cases h; exact ⟨valOr, fun _ => rfl, getLsbD_valOr⟩
  | xor d a b => cases h; exact ⟨valXor, fun _ => rfl, getLsbD_valXor⟩
  | shl d a b => cases h; exact ⟨valShl, fun _ => rfl, toNat_valShl⟩
  | shr d a b => cases h; exact ⟨valShr, fun _ => rfl, toNat_valShr⟩
  | sra d a b => cases h; exact ⟨valSra, fun _ => rfl, toInt_valSra⟩
  | rol d a b => cases h; exact ⟨valRol, fun _ => rfl, getLsbD_valRol⟩
  | min d a b => cases h; exact ⟨valMin, fun _ => rfl, valMin_eq⟩
  | max d a b => cases h; exact ⟨valMax, fun _ => rfl, valMax_eq⟩
  | minb d a b => cases h; exact ⟨valMinb, fun _ => rfl, valMinb_eq⟩
  | maxb d a b => cases h; exact ⟨valMaxb, fun _ => rfl, valMaxb_eq⟩
  | slt d a b => cases h; exact ⟨valSlt, fun _ => rfl, valSlt_eq⟩
  | sltb d a b => cases h; exact ⟨valSltb, fun _ => rfl, valSltb_eq⟩
  | seq d a b => cases h; exact ⟨valSeq, fun _ => rfl, valSeq_eq⟩
  | sne d a b => cases h; exact ⟨valSne, fun _ => rfl, valSne_eq⟩
  | clz d a => cases h; exact ⟨fun x _ => valClz x, fun _ => rfl, fun x _ => valClz_highest x⟩
  | ctz d a => cases h; exact ⟨fun x _ => valCtz x, fun _ => rfl, fun x _ => valCtz_lowest x⟩
  | popc d a => cases h; exact ⟨fun x _ => valPopc x, fun _ => rfl, fun x _ => toNat_valPopc x⟩
  | adda d a b => cases h; exact ⟨valAdda, fun _ => rfl, valAdda_parts⟩
  | ptag d a b => cases h; exact ⟨valPtag, fun _ => rfl, valPtag_parts⟩
  | pfs d a => cases h; exact ⟨fun x _ => valPfs x, fun _ => rfl, fun x _ => toNat_valPfs x⟩
  | pclr d a => cases h; exact ⟨fun x _ => valPclr x, fun _ => rfl, fun x _ => toNat_valPclr x⟩
  | _ => cases h

/-- Settles O1: each register form writes one value of its sources, which its table gives (`registerForm_value`), and a register write
changes nothing else (`State.wr_writesX`). -/
theorem registerFormsWriteTheirValue : Obligations.RegisterFormsWriteTheirValue := by
  unfold Obligations.RegisterFormsWriteTheirValue
  intro i f s h
  obtain ⟨val, hexec, hval⟩ := registerForm_value h
  exact ⟨_, _, hexec s, hval _ _, State.wr_writesX s f.d _⟩

end Sys2Proof.Machine
end

section
/-! SUPPORT. The values that float codes stand for (spec/06 R91, R92, spec/09 R119), as rational numbers: decoding, comparison and
subnormality. Then what a float A-word that does not round does (R95, R96). The statement about these words is settled at the end. -/

namespace Sys2Proof.Machine

open Sys2Proof Sys2Proof.Claims

/-! ## Numbers as rationals -/

theorem ratOf_eq_some_iff {v : Val} {q : ℚ} : ratOf v = some q ↔ ∃ s n d, v = .num s n d ∧ d ≠ 0 ∧ q = sgn s n / d := by
  have hsgn : ∀ (s : Bool) (n : Nat), ((sgn s n : Int) : ℚ) = (if s then -1 else 1) * (n : ℚ) := fun s n => by cases s <;> simp [sgn]
  cases v with
  | nan sig => simp [ratOf]
  | inf s => simp [ratOf]
  | num s n d =>
    simp only [ratOf, Val.num.injEq, hsgn, Option.ite_none_left_eq_some, Option.some.injEq]
    constructor
    · rintro ⟨hd, rfl⟩
      exact ⟨s, n, d, ⟨rfl, rfl, rfl⟩, hd, rfl⟩
    · rintro ⟨s, n, d, ⟨rfl, rfl, rfl⟩, hd, rfl⟩
      exact ⟨hd, rfl⟩

theorem ratOf_dyadic (neg : Bool) (n : Nat) (k : Int) : ratOf (dyadic neg n k) = some ((if neg then -1 else 1) * (n * (2 : ℚ) ^ k)) := by
  unfold dyadic
  split
  case isTrue hk =>
    obtain ⟨j, rfl⟩ := Int.eq_ofNat_of_zero_le hk
    simp [ratOf]
  case isFalse hk =>
    obtain ⟨j, hj⟩ := Int.eq_ofNat_of_zero_le (a := -k) (by omega)
    obtain rfl : k = -(j : Int) := by omega
    simp [ratOf, div_eq_mul_inv]

/-! ## Comparison (R95) -/

theorem Val.cmp_of_ratOf {x y : Val} {p q : ℚ} (hx : ratOf x = some p) (hy : ratOf y = some q) :
    Val.cmp x y = if p < q then -1 else if p = q then 0 else 1 := by
  obtain ⟨s1, n1, d1, rfl, hd1, rfl⟩ := ratOf_eq_some_iff.mp hx
  obtain ⟨s2, n2, d2, rfl, hd2, rfl⟩ := ratOf_eq_some_iff.mp hy
  have hp1 : (0 : ℚ) < d1 := by positivity
  have hp2 : (0 : ℚ) < d2 := by positivity
  refine if_congr ?_ rfl (if_congr ?_ rfl rfl)
  · rw [div_lt_div_iff₀ hp1 hp2, sub_neg]
    norm_cast
  · rw [div_eq_div_iff hp1.ne' hp2.ne', sub_eq_zero]
    norm_cast

theorem Val.cmp_neg_iff {x y : Val} {p q : ℚ} (hx : ratOf x = some p) (hy : ratOf y = some q) : Val.cmp x y < 0 ↔ p < q := by
  rw [Val.cmp_of_ratOf hx hy]
  split_ifs with hlt <;> simp [hlt]

theorem Val.cmp_eq_zero_iff {x y : Val} {p q : ℚ} (hx : ratOf x = some p) (hy : ratOf y = some q) : Val.cmp x y = 0 ↔ p = q := by
  rw [Val.cmp_of_ratOf hx hy]
  split_ifs with hlt heq
  · simp [hlt.ne]
  · simp [heq]
  · simp [heq]

theorem Val.below_iff {x y : Val} {p q : ℚ} (hx : ratOf x = some p) (hy : ratOf y = some q) :
    Val.below x y = true ↔ p < q ∨ (p = q ∧ x.sign = true ∧ y.sign = false) := by
  simp [Val.below, Val.cmp_neg_iff hx hy, Val.cmp_eq_zero_iff hx hy, and_assoc]

/-! ## The binary logarithm and subnormals (R76) -/

/-- The test by which the model corrects its first guess at the logarithm. -/
theorem zpow_le_div_iff {n d : Nat} (hd : d ≠ 0) (l : Int) :
    (2 : ℚ) ^ l ≤ (n : ℚ) / d ↔ (if 0 ≤ l then decide (d * 2 ^ l.toNat ≤ n) else decide (d ≤ n * 2 ^ (-l).toNat)) = true := by
  have hpos : (0 : ℚ) < d := by positivity
  rw [le_div_iff₀ hpos]
  split
  case isTrue hl =>
    obtain ⟨j, rfl⟩ := Int.eq_ofNat_of_zero_le hl
    rw [decide_eq_true_iff, Int.toNat_natCast, mul_comm, zpow_natCast]
    norm_cast
  case isFalse hl =>
    obtain ⟨j, hj⟩ := Int.eq_ofNat_of_zero_le (a := -l) (by omega)
    obtain rfl : l = -(j : Int) := by omega
    rw [decide_eq_true_iff, neg_neg, Int.toNat_natCast, zpow_neg, zpow_natCast, inv_mul_le_iff₀ (by positivity), mul_comm]
    norm_cast

/-- The difference of the logarithms of numerator and denominator is the logarithm of the quotient or one more. -/
theorem log2_sub_log2_bounds {n d : Nat} (hn : n ≠ 0) (hd : d ≠ 0) :
    (2 : ℚ) ^ ((Nat.log2 n : Int) - Nat.log2 d - 1) ≤ (n : ℚ) / d ∧ (n : ℚ) / d < (2 : ℚ) ^ ((Nat.log2 n : Int) - Nat.log2 d + 1) := by
  have hn1 : (2 : ℚ) ^ (Nat.log2 n : Int) ≤ n := mod_cast Nat.log2_self_le hn
  have hn2 : (n : ℚ) < (2 : ℚ) ^ ((Nat.log2 n : Int) + 1) := mod_cast Nat.lt_log2_self
  have hd1 : (2 : ℚ) ^ (Nat.log2 d : Int) ≤ d := mod_cast Nat.log2_self_le hd
  have hd2 : (d : ℚ) < (2 : ℚ) ^ ((Nat.log2 d : Int) + 1) := mod_cast Nat.lt_log2_self
  have hpos : (0 : ℚ) < d := by positivity
  rw [sub_sub, sub_add_eq_add_sub, zpow_sub₀ two_ne_zero, zpow_sub₀ two_ne_zero]
  exact ⟨div_le_div₀ (by positivity) hn1 hpos hd2.le, div_lt_div₀ hn2 hd1 (by positivity) (by positivity)⟩

theorem floorLog2_eq_log {n d : Nat} (hn : n ≠ 0) (hd : d ≠ 0) : floorLog2 n d = Int.log 2 ((n : ℚ) / d) := by
  have hpos : (0 : ℚ) < (n : ℚ) / d := by positivity
  obtain ⟨hlow, hhigh⟩ := log2_sub_log2_bounds hn hd
  have hge := (Int.zpow_le_iff_le_log one_lt_two hpos).mp hlow
  have hlt := (Int.lt_zpow_iff_log_lt one_lt_two hpos).mp hhigh
  have hok := (zpow_le_div_iff hd _).symm.trans (Int.zpow_le_iff_le_log (x := (Nat.log2 n : Int) - Nat.log2 d) one_lt_two hpos)
  simp only [floorLog2, hok]
  split <;> omega

theorem FFmt.subnormal_iff (f : FFmt) {v : Val} {q : ℚ} (h : ratOf v = some q) :
    f.subnormal v = true ↔ q ≠ 0 ∧ |q| < (2 : ℚ) ^ (1 - (f.bias : ℤ)) := by
  obtain ⟨s, n, d, rfl, hd, rfl⟩ := ratOf_eq_some_iff.mp h
  have habs : |(sgn s n : ℚ) / d| = (n : ℚ) / d := by cases s <;> simp [sgn, abs_div]
  have hzero : (sgn s n : ℚ) / d = 0 ↔ n = 0 := by cases s <;> simp [sgn, hd]
  by_cases hn : n = 0
  · simp [FFmt.subnormal, hn, sgn]
  · have hlog : (n : ℚ) / d < (2 : ℚ) ^ (1 - (f.bias : ℤ)) ↔ Int.log 2 ((n : ℚ) / d) < 1 - (f.bias : ℤ) :=
      Int.lt_zpow_iff_log_lt one_lt_two (by positivity)
    simp [FFmt.subnormal, habs, hzero, floorLog2_eq_log hn hd, hn, hlog]

/-! ## Decoding (R91, R92, R119) -/

theorem widths_eq (t : FTy) : widths t = (t.fmt.e, t.fmt.m) := by cases t <;> rfl

theorem floatBits_eq (t : FTy) : floatBits t = t.fmt.e + t.fmt.m + 1 := by cases t <;> rfl

theorem canonNan_getD (t : FTy) : w64 ((t.fmt.canonNan).getD 0) = canonicalNan t := by cases t <;> rfl

/-- A field below bit `k` is that of the number reduced to `k` bits. -/
theorem nbits_mod_two_pow (n lo len k : Nat) (h : lo + len ≤ k) : nbits (n % 2 ^ k) lo len = n / 2 ^ lo % 2 ^ len := by
  unfold nbits
  rw [Nat.shiftRight_eq_div_pow]
  obtain ⟨j, rfl⟩ := Nat.exists_eq_add_of_le h
  rw [Nat.add_assoc, Nat.pow_add, Nat.mod_mul_right_div_self, Nat.pow_add, Nat.mod_mul_right_mod]

theorem nbits_top_eq_zero_iff {n k : Nat} (h : n < 2 ^ (k + 1)) : nbits n k 1 = 0 ↔ n < 2 ^ k := by
  have hdiv : n / 2 ^ k < 2 ^ 1 := Nat.div_lt_of_lt_mul h
  unfold nbits
  rw [Nat.shiftRight_eq_div_pow, Nat.mod_eq_of_lt hdiv, Nat.div_eq_zero_iff_lt (by positivity)]

/-- The value of a register in a type, by its sign, exponent and fraction (R91, R119). -/
theorem floatVal_eq (t : FTy) (w : Word) : t.val w =
    (let neg := decide (w.toNat / 2 ^ (t.fmt.e + t.fmt.m) % 2 = 1)
    let ex := w.toNat / 2 ^ t.fmt.m % 2 ^ t.fmt.e
    let fr := w.toNat % 2 ^ t.fmt.m
    if ex = 2 ^ t.fmt.e - 1 then (if fr = 0 then .inf neg else .nan (decide (fr < 2 ^ (t.fmt.m - 1))))
    else if ex = 0 then dyadic neg fr (1 - (t.fmt.bias : Int) - t.fmt.m)
    else dyadic neg (2 ^ t.fmt.m + fr) ((ex : Int) - t.fmt.bias - t.fmt.m)) := by
  have hspec : t.fmt.spec = .ieee := by cases t <;> rfl
  have hm : t.fmt.m - 1 + 1 = t.fmt.m := by cases t <;> rfl
  have hfr : w.toNat % 2 ^ t.fmt.m < 2 ^ (t.fmt.m - 1 + 1) := hm ▸ Nat.mod_lt _ (by positivity)
  have hsign : nbits (t.code w) (t.fmt.e + t.fmt.m) 1 = w.toNat / 2 ^ (t.fmt.e + t.fmt.m) % 2 := nbits_mod_two_pow _ _ _ _ le_rfl
  have hexp : nbits (t.code w) t.fmt.m t.fmt.e = w.toNat / 2 ^ t.fmt.m % 2 ^ t.fmt.e := nbits_mod_two_pow _ _ _ _ (by omega)
  have hfrac : nbits (t.code w) 0 t.fmt.m = w.toNat % 2 ^ t.fmt.m :=
    (nbits_mod_two_pow _ _ _ _ (by omega)).trans (by rw [Nat.pow_zero, Nat.div_one])
  simp only [FTy.val, FFmt.decode, hsign, hexp, hfrac, hspec, nbits_top_eq_zero_iff hfr]
  simp

/-- A value that a register holds in a type is a NaN, an infinity or a rational number. -/
theorem floatVal_cases (t : FTy) (w : Word) : (∃ sig, t.val w = .nan sig) ∨ (∃ neg, t.val w = .inf neg) ∨ ∃ q, ratOf (t.val w) = some q := by
  rw [floatVal_eq]
  dsimp only
  split_ifs
  · exact .inr (.inl ⟨_, rfl⟩)
  · exact .inl ⟨_, rfl⟩
  · exact .inr (.inr ⟨_, ratOf_dyadic ..⟩)
  · exact .inr (.inr ⟨_, ratOf_dyadic ..⟩)

theorem subnormal_val_iff (t : FTy) (w : Word) : t.fmt.subnormal (t.val w) = true ↔ SubnormalVal t (t.val w) := by
  unfold SubnormalVal
  rcases floatVal_cases t w with ⟨sig, h⟩ | ⟨neg, h⟩ | ⟨q, h⟩
  · simp [h, FFmt.subnormal, ratOf]
  · simp [h, FFmt.subnormal, ratOf]
  · rw [FFmt.subnormal_iff _ h]
    simp [h, SubnormalIn]

/-! ## Classes (R96) -/

theorem dyadic_eq_num (neg : Bool) (n : Nat) (k : Int) : ∃ n' d', dyadic neg n k = .num neg n' d' ∧ (n' = 0 ↔ n = 0) := by
  unfold dyadic
  split
  · exact ⟨_, _, rfl, by simp⟩
  · exact ⟨_, _, rfl, Iff.rfl⟩

theorem FFmt.subnormal_dyadic (f : FFmt) (neg : Bool) {n : Nat} (hn : n ≠ 0) (k : Int) :
    f.subnormal (dyadic neg n k) = true ↔ (n : ℚ) * (2 : ℚ) ^ k < (2 : ℚ) ^ (1 - (f.bias : ℤ)) := by
  have habs : |(if neg then -1 else 1 : ℚ) * (n * (2 : ℚ) ^ k)| = n * (2 : ℚ) ^ k := by
    cases neg <;> simp [abs_mul, abs_zpow]
  have hne : (if neg then -1 else 1 : ℚ) * (n * (2 : ℚ) ^ k) ≠ 0 := by cases neg <;> simp [hn, zpow_ne_zero]
  rw [FFmt.subnormal_iff f (ratOf_dyadic neg n k), habs, and_iff_right hne]

theorem classOf_dyadic (t : FTy) (neg : Bool) (n : Nat) (k : Int) : classOf t (dyadic neg n k) =
    if n = 0 then (if neg then 3 else 4)
    else if t.fmt.subnormal (dyadic neg n k) then (if neg then 2 else 5) else (if neg then 1 else 6) := by
  obtain ⟨n', d', h, hz⟩ := dyadic_eq_num neg n k
  simp only [h, classOf, hz]

/-- A code with exponent field 0 stands for a number below the smallest normal. -/
theorem FFmt.subnormal_fraction (f : FFmt) (neg : Bool) {fr : Nat} (hfr : fr ≠ 0) (hlt : fr < 2 ^ f.m) :
    f.subnormal (dyadic neg fr (1 - (f.bias : Int) - f.m)) = true := by
  rw [FFmt.subnormal_dyadic f neg hfr]
  calc (fr : ℚ) * 2 ^ (1 - (f.bias : ℤ) - f.m)
      < 2 ^ (f.m : ℤ) * 2 ^ (1 - (f.bias : ℤ) - f.m) := by gcongr; exact_mod_cast hlt
    _ = 2 ^ (1 - (f.bias : ℤ)) := by rw [← zpow_add₀ two_ne_zero, add_sub_cancel]

/-- A code with another exponent field stands for a number from the smallest normal on. -/
theorem FFmt.not_subnormal_significand (f : FFmt) (neg : Bool) {ex : Nat} (fr : Nat) (hex : ex ≠ 0) :
    f.subnormal (dyadic neg (2 ^ f.m + fr) ((ex : Int) - f.bias - f.m)) = false := by
  rw [Bool.eq_false_iff, Ne, FFmt.subnormal_dyadic f neg (by positivity), not_lt]
  calc (2 : ℚ) ^ (1 - (f.bias : ℤ))
      ≤ 2 ^ ((ex : ℤ) - f.bias) := zpow_le_zpow_right₀ one_le_two (by omega)
    _ = 2 ^ (f.m : ℤ) * 2 ^ ((ex : ℤ) - f.bias - f.m) := by rw [← zpow_add₀ two_ne_zero, add_sub_cancel]
    _ ≤ ((2 ^ f.m + fr : Nat) : ℚ) * 2 ^ ((ex : ℤ) - f.bias - f.m) := by
      gcongr
      exact_mod_cast Nat.le_add_right _ _

theorem classOf_val (t : FTy) (w : Word) : classOf t (t.val w) = classBit (widths t).1 (widths t).2 w.toNat := by
  have hlt : w.toNat % 2 ^ t.fmt.m < 2 ^ t.fmt.m := Nat.mod_lt _ (by positivity)
  rw [floatVal_eq, widths_eq]
  unfold classBit
  dsimp only
  generalize w.toNat % 2 ^ t.fmt.m = fr at *
  generalize w.toNat / 2 ^ t.fmt.m % 2 ^ t.fmt.e = ex
  generalize w.toNat / 2 ^ (t.fmt.e + t.fmt.m) % 2 = sg
  by_cases htop : ex = 2 ^ t.fmt.e - 1
  · rw [if_pos htop, if_pos htop]
    by_cases hfr : fr = 0 <;> simp [classOf, hfr]
  rw [if_neg htop, if_neg htop]
  by_cases hex : ex = 0
  · rw [if_pos hex, if_pos hex, classOf_dyadic]
    by_cases hfr : fr = 0
    · simp [hfr]
    · simp [hfr, FFmt.subnormal_fraction t.fmt _ hfr hlt]
  · rw [if_neg hex, if_neg hex, classOf_dyadic, FFmt.not_subnormal_significand t.fmt _ fr hex]
    simp

/-! ## Selection (R95) -/

theorem code_eq_lowBits (t : FTy) (w : Word) : w64 (t.code w) = lowBits t w := by
  unfold FTy.code lowBits
  rw [floatBits_eq]
  rfl

theorem extremumCode_eq (t : FTy) (max : Bool) (a b : Word) : extremumCode t max a b =
    if (t.val a).isNan && (t.val b).isNan then canonicalNan t
    else if (t.val a).isNan then lowBits t b else if (t.val b).isNan then lowBits t a
    else if Val.below (t.val a) (t.val b) != max then lowBits t a else lowBits t b := by
  unfold extremumCode
  simp only [canonNan_getD, code_eq_lowBits]
  cases (t.val a).isNan <;> cases (t.val b).isNan
  · cases Val.below (t.val a) (t.val b) <;> cases max <;> rfl
  all_goals rfl

/-! ## The sign bit (R95) -/

theorem getLsbD_clearedSign (t : FTy) (w : Word) (i : Nat) (hi : i < 64) :
    (w64 (t.code w % t.signWeight)).getLsbD i = (decide (i + 1 < floatBits t) && w.getLsbD i) := by
  have hmod : t.code w % t.signWeight = w.toNat % 2 ^ (t.fmt.e + t.fmt.m) := Nat.mod_mod_of_dvd _ (pow_dvd_pow 2 (Nat.le_succ _))
  unfold w64
  rw [hmod, floatBits_eq, BitVec.getLsbD_ofNat, Nat.testBit_mod_two_pow, BitVec.testBit_toNat]
  simp [hi]

theorem getLsbD_invertedSign (t : FTy) (w : Word) (i : Nat) (hi : i < 64) :
    (w64 ((t.code w + t.signWeight) % (2 * t.signWeight))).getLsbD i =
      (decide (i < floatBits t) && (w.getLsbD i ^^ decide (i + 1 = floatBits t))) := by
  unfold w64 FTy.code FTy.signWeight
  rw [floatBits_eq, BitVec.getLsbD_ofNat, ← Nat.pow_succ', Nat.testBit_mod_two_pow, Nat.add_comm (w.toNat % _)]
  generalize t.fmt.e + t.fmt.m = k
  rcases lt_trichotomy i k with h | rfl | h
  · rw [Nat.testBit_two_pow_add_gt h, Nat.testBit_mod_two_pow, BitVec.testBit_toNat]
    simp [hi, h.ne, Nat.lt_succ_of_lt h]
  · rw [Nat.testBit_two_pow_add_eq, Nat.testBit_mod_two_pow, BitVec.testBit_toNat]
    simp [hi]
  · simp [Nat.not_lt.mpr (Nat.succ_le_of_lt h)]

/-! ## The write of a float result (R94, R95) -/

/-- The flags of %fpc and the turns of the normaliser are set on top of the register write. -/
theorem writesFloat_of_writesX {s m : State} {d : XReg} {v : Word} (h : WritesX s m d v) (e : Exc) {sub : Bool} {P : Prop} (hsub : sub = true ↔ P) :
    WritesFloat s ((m.accrue e).normalise sub) d v e P := by
  obtain ⟨hm, hrd, hother, hbytes⟩ := h
  generalize m.cur.x = x at hm
  subst hm
  obtain rfl : (sub = true) = P := propext hsub
  cases sub
  · exact ⟨rfl, hrd, hother, fun h => absurd h Bool.false_ne_true, fun _ => rfl, hbytes⟩
  · exact ⟨rfl, hrd, hother, fun _ => rfl, fun h => absurd rfl h, hbytes⟩

theorem floatEffect_of_floatWrite {i : Instr} {s : State} {d : XReg} {v : Word} {e : Exc} {sub : Bool} {P : Prop}
    (h : exec i s = .next (s.floatWrite d v e sub)) (hsub : sub = true ↔ P) : FloatEffect i s d v e P := by
  have htraps : s.trapsOn e = true ↔ enabled s e ≠ 0 := bne_iff_ne
  rw [FloatEffect, h]
  constructor
  · intro he
    refine ⟨_, congrArg _ (if_neg fun ht => htraps.mp ht he), ?_⟩
    exact writesFloat_of_writesX (State.wr_writesX s d v) e hsub
  · intro he
    exact congrArg _ (if_pos (htraps.mpr he))

/-! ## The statements of R95 and R96 -/

theorem any_subnormal_iff (t : FTy) (a b : Word) :
    [t.val a, t.val b].any t.fmt.subnormal = true ↔ SubnormalVal t (t.val a) ∨ SubnormalVal t (t.val b) := by
  simp [subnormal_val_iff]

theorem floatMinimumAndMaximum : FloatMinimumAndMaximum := by
  intro t d a b s x y pick sub
  have hmin : extremumCode t false (s.srcA a) (s.srcB b) = pick (Val.below x y) := by
    rw [extremumCode_eq, Bool.bne_false]
  have hmax : extremumCode t true (s.srcA a) (s.srcB b) = pick (!Val.below x y) := by
    rw [extremumCode_eq, Bool.bne_true]
  refine ⟨?_, ?_, fun p q hx hy => Val.below_iff hx hy⟩
  · rw [← hmin]
    exact floatEffect_of_floatWrite rfl (any_subnormal_iff t _ _)
  · rw [← hmax]
    exact floatEffect_of_floatWrite rfl (any_subnormal_iff t _ _)

theorem floatSignOperations : FloatSignOperations := fun t _ a s =>
  have hsub := subnormal_val_iff t (s.srcA a)
  ⟨⟨_, floatEffect_of_floatWrite rfl hsub, getLsbD_clearedSign t (s.srcA a)⟩,
    ⟨_, floatEffect_of_floatWrite rfl hsub, getLsbD_invertedSign t (s.srcA a)⟩⟩

/-- A comparison is the write of its truth value, with NV for a NaN that its test does not allow. -/
theorem compareForm_exec {s : State} {i : Instr} {t : FTy} {d : XReg} {x y : Val} {test : Int → Bool} {ordered : Bool}
    (h : compareForm s i = some (t, d, x, y, test, ordered)) :
    exec i s = .next (s.floatWrite d (if !(x.isNan || y.isNan) && test (Val.cmp x y) then 1 else 0)
      (if ordered then (if x.isNan || y.isNan then 16 else 0) else signalling [x, y]) (t.fmt.subnormal x || t.fmt.subnormal y)) := by
  cases i with
  | flt t d a b => cases h; rfl
  | fle t d a b => cases h; rfl
  | feq t d a b => cases h; rfl
  | _ => cases h

/-- The operands of a comparison are values of registers in its type. -/
theorem compareForm_operands {s : State} {i : Instr} {t : FTy} {d : XReg} {x y : Val} {test : Int → Bool} {ordered : Bool}
    (h : compareForm s i = some (t, d, x, y, test, ordered)) : ∃ a b, x = t.val a ∧ y = t.val b := by
  cases i with
  | flt t d a b => cases h; exact ⟨_, _, rfl, rfl⟩
  | fle t d a b => cases h; exact ⟨_, _, rfl, rfl⟩
  | feq t d a b => cases h; exact ⟨_, _, rfl, rfl⟩
  | _ => cases h

theorem floatComparisons : FloatComparisons := by
  constructor
  · intro i s t d x y test ordered h
    have hexec := compareForm_exec h
    obtain ⟨a, b, rfl, rfl⟩ := compareForm_operands h
    exact floatEffect_of_floatWrite hexec (by rw [Bool.or_eq_true, subnormal_val_iff, subnormal_val_iff])
  · intro s t a b p q hx hy
    exact ⟨Val.cmp_neg_iff hx hy, Val.cmp_eq_zero_iff hx hy⟩

theorem floatClassBit : FloatClassBit := by
  intro t d a s
  rw [← classOf_val]
  exact floatEffect_of_floatWrite rfl (subnormal_val_iff t (s.srcA a))

/-- Settles O4: each word is one float write (`floatEffect_of_floatWrite`) of the operand that the order picks, of the operand with its sign
bit changed, of a truth value, or of the bit of the operand's class. -/
theorem floatSelectionSignAndComparison : Obligations.FloatSelectionSignAndComparison :=
  ⟨floatMinimumAndMaximum, floatSignOperations, floatComparisons, floatClassBit⟩

end Sys2Proof.Machine
end

section
/-! SUPPORT. MFS and MTS (spec/04 R71, R72), and the words whose value is known at issue but lands later, MBOX and RND (spec/12 R192, spec/09
R133). The statement about these words is settled at the end. -/

namespace Sys2Proof.Machine

open Sys2Proof Sys2Proof.Claims

/-! ## The values of the special registers (R2, R72, R274) -/

/-- Eight slots in each core: the record of a strand stands at its slot's number in the package (R274). -/
theorem State.frecOf_cur (s : State) : s.frecOf s.cur = recordAddr s := by
  have hslot : 8 * coreOf s.cur.id + slotOf s.cur.id = s.cur.id := Nat.div_add_mod _ _
  unfold State.frecOf recordAddr nbits
  rw [hslot, Nat.shiftRight_eq_div_pow]

theorem Desc.vmode_eq (d : Desc) :
    d.vmode = BitVec.ofNat 64 (d.vm + (if d.lv then 4 else 0) + (if d.det then 8 else 0)) :=
  congrArg w64 (by omega)

theorem coordOf_eq (four : Bool) (id : Nat) :
    coordOf four id = BitVec.ofNat 64 (id / 64 / 24 + id / 64 % 24 * 2 ^ 8 + id / 8 % 8 * 2 ^ 13 + id % 8 * 2 ^ 16
      + ((if four then 4 else 8) * (id / 8) + id % 8) * 2 ^ 19) := by
  unfold coordOf coreOf slotOf clusterOf dieOf dieOfCluster clusterOf
  exact congrArg w64 (by ring)

theorem State.srRead_of_specialValue {s : State} {n : Nat} {v : Word} (h : specialValue s n = some v) : s.srRead n = some v := by
  unfold specialValue at h
  split at h <;> cases h
  case h_4 => exact congrArg (some ∘ w64) s.frecOf_cur
  case h_8 => exact congrArg some (Desc.vmode_eq _)
  case h_10 => exact congrArg some (coordOf_eq _ _)
  all_goals rfl

/-- A write of a special register writes its fields in the strand in hand (R71, R72). -/
theorem State.srWrite_of_specialWritten {s : State} {n : Nat} {v : Word} {c : Strand} (h : specialWritten s.cur v n = some c) :
    s.srWrite n v = some { s with cur := c } := by
  unfold specialWritten at h
  split at h <;> cases h <;> rfl

/-! ## MFS and MTS (R71) -/

theorem State.lose_losesTurn (s : State) : LosesTurn s s.lose := ⟨rfl, sameBytes_of_eq rfl rfl⟩

/-- MFS within the checks of its strand: of %fpc it loses turns while float results are pending (R71, R93). -/
theorem exec_mfs {d : XReg} {n : BitVec 10} {v : Word} {s : State} (hc : checkIn s.decEnv (.mfs d n) = .ok (.mfs d n))
    (hv : specialValue s n.toNat = some v) :
    exec (.mfs d n) s = .next (if n = 0 ∧ s.cur.floatPending = true then s.lose else s.wr d v) := by
  change execMfs d n s = _
  unfold execMfs
  simp only [State.checked_ok _ _ _ _ hc, State.srRead_of_specialValue hv, Bool.and_eq_true, decide_eq_true_eq]

/-- MTS within the checks of its strand: of %fpc it loses turns while float results are pending (R71, R93). -/
theorem exec_mts {a : XReg} {n : BitVec 10} {c : Strand} {s : State} (hc : checkIn s.decEnv (.mts n a) = .ok (.mts n a))
    (hw : specialWritten s.cur (s.rd a) n.toNat = some c) :
    exec (.mts n a) s = .next (if n = 0 ∧ s.cur.floatPending = true then s.lose else { s with cur := c }) := by
  change execMts n a s = _
  unfold execMts
  simp only [State.checked_ok _ _ _ _ hc, State.srWrite_of_specialWritten hw, Bool.and_eq_true, decide_eq_true_eq]

theorem not_fpcWait {n : BitVec 10} {b : Bool} (h : n ≠ 0 ∨ b = false) : ¬(n = 0 ∧ b = true) :=
  fun ⟨hn, hb⟩ => h.elim (fun hne => hne hn) (fun hf => Bool.false_ne_true (hf.symm.trans hb))

theorem specialRegistersReadAndWrite : SpecialRegistersReadAndWrite := by
  constructor
  · intro d n v s hc hv
    rw [exec_mfs hc hv]
    constructor
    · intro h
      rw [if_neg (not_fpcWait h)]
      exact ⟨_, rfl, State.wr_writesX s d v⟩
    · intro hn hp
      rw [if_pos ⟨hn, hp⟩]
      exact ⟨_, rfl, s.lose_losesTurn⟩
  · intro a n c s hc hw
    rw [exec_mts hc hw]
    constructor
    · intro h
      rw [if_neg (not_fpcWait h)]
    · intro hn hp
      rw [if_pos ⟨hn, hp⟩]
      exact ⟨_, rfl, s.lose_losesTurn⟩

/-! ## MBOX and RND (R73, R133, R192) -/

/-- The strand in hand leaves a value pending for register d, or nothing where d is x0. -/
def State.leavePending (s : State) (d : XReg) (la : La) (v : Word) : State :=
  if d = 0 then s else (s.issueLong (s.mkPend d la (.value v))).markWritten d

/-- A value left pending is the last result of the strand, and marks the vine entry of its register (R73, R243); nothing else changes. -/
theorem State.leavePending_eq (s : State) (d : XReg) (la : La) (v : Word) :
    s.leavePending d la v = { s with cur := { s.cur with
      pend := if d = 0 then s.cur.pend else s.cur.pend ++ [⟨d.toNat, la.toNat, s.cur.pc, .value v, none, false, 0, false, none, s.now, s.nextId⟩]
      vw := if d = 0 then s.cur.vw else s.cur.vw ||| vineBit s d } } := by
  unfold State.leavePending
  split
  case isTrue => rfl
  case isFalse hd =>
    have hreg : (s.mkPend d la (.value v)).reg ≠ 0 := fun h => hd (BitVec.eq_of_toNat_eq h)
    rw [State.markWritten_eq, State.markWritten_vw, State.issueLong, if_neg hreg]
    rfl

theorem exec_mbox {d : XReg} (la : La) {s : State} (h : s.pendFull d = false) :
    exec (.mbox d la) s = .next (State.leavePending { s with cur := { s.cur with mbox := s.cur.mbox.drop 1 } } d la
      (s.cur.mbox.headD (BitVec.allOnes 64))) := by
  change execMbox d la s = _
  unfold execMbox
  rw [if_neg (Bool.eq_false_iff.mp h)]
  rfl

theorem exec_rnd {d : XReg} (la : La) {s : State} (h : s.pendFull d = false) :
    exec (.rnd d la) s = .next (State.leavePending { s with cur := { s.cur with cuvc := s.cur.cuvc + 1 } } d la
      (cuvee s.curLaunch.seed (BitVec.ofNat 64 s.cur.index) s.cur.cuvc)) := by
  change execRnd d la s = _
  unfold execRnd
  rw [if_neg (Bool.eq_false_iff.mp h)]
  rfl

theorem mailboxAndRandomDraws : MailboxAndRandomDraws := by
  constructor
  · intro d la s h
    rw [exec_mbox la h, State.leavePending_eq]
    exact ⟨_, rfl, sameBytes_of_eq rfl rfl, rfl⟩
  · intro d la s h
    rw [exec_rnd la h, State.leavePending_eq]
    exact ⟨_, rfl, sameBytes_of_eq rfl rfl, rfl⟩

/-- Settles O26: the special registers hold the values of R72 and take writes in their fields, MFS and MTS of %fpc lose turns while float
results are pending (`exec_mfs`, `exec_mts`), and MBOX and RND leave their value pending (`State.leavePending_eq`). -/
theorem specialRegistersMailboxAndDraws : Obligations.SpecialRegistersMailboxAndDraws :=
  ⟨specialRegistersReadAndWrite, mailboxAndRandomDraws⟩

end Sys2Proof.Machine
end
